-- ==== Sys2Proof/Word.lean ====
section
/-! DEFINITION. The word types of the machine (spec 01 R10). -/
namespace Sys2Proof

/-- A `g` register, an address, an instruction word. -/
abbrev Word := BitVec 64
/-- One byte of memory. -/
abbrev Byte := BitVec 8
/-- A `v` register: 32 lanes of 32 bits, lane i at bits [32i+31:32i] (R10). -/
abbrev VWord := BitVec 1024
/-- A `k` register (R10). -/
abbrev KWord := BitVec 32
/-- A producer tag (R16). -/
abbrev Tag := BitVec 16

end Sys2Proof
end

