-- ==== Sys2Proof/Syntax.lean ====
section
/-! DEFINITION. The instruction words' fields, the data that requests, replies and messages carry,
and the one inductive of the opcode table's rows (spec 02 R32-R49, 95). -/
namespace Sys2Proof

/-- The fields common to every word: guard GK, GN and disposition WD as coded, and the three operand
codes (R32). -/
structure Head where
  gk : BitVec 3
  gn : BitVec 1
  wd : BitVec 2
  d : BitVec 6
  a : BitVec 6
  b : BitVec 6
  deriving DecidableEq, Repr

/-- R format: modifiers, function field, not-ready offset (R40). -/
structure RForm extends Head where
  ma : BitVec 2
  mb : BitVec 2
  fn : BitVec 12
  nro : BitVec 16
  deriving DecidableEq, Repr

/-- I format: a 32-bit immediate (R41). -/
structure IForm extends Head where
  imm : BitVec 32
  deriving DecidableEq, Repr

/-- M format: size, extension, displacement, not-ready offset (R42). -/
structure MForm extends Head where
  sz : BitVec 2
  ext : BitVec 5
  dsp : BitVec 9
  nro : BitVec 16
  deriving DecidableEq, Repr

/-- B format: a signed word offset (R43). -/
structure BForm extends Head where
  off : BitVec 32
  deriving DecidableEq, Repr

/-- E format: function, outcome predicate, flags, not-ready offset (R44). -/
structure EForm extends Head where
  fn : BitVec 8
  opv : BitVec 1
  opk : BitVec 3
  fl : BitVec 4
  nro : BitVec 16
  deriving DecidableEq, Repr

/-- The four mesh ports (R15). -/
inductive Dir where
  | n | e | s | w
  deriving DecidableEq, Repr

/-- An operand code read as what it names (R37). -/
inductive Opd where
  | g (i : Fin 16)
  | v (i : Fin 32)
  | k (i : Fin 8)
  | port (d : Dir)
  | zr | tid | cid | pcv
  deriving DecidableEq, Repr

/-- Source modifiers (R13, R40). -/
inductive SrcMod where
  | plain | consume | move
  deriving DecidableEq, Repr

/-- Dispositions (R32). -/
inductive Disp where
  | park | branch | flag | trap
  deriving DecidableEq, Repr

/-- Why a word is not an instruction (R50). -/
inductive Reject where
  | illegalInstruction | reservedEncoding | illegalOperand
  deriving DecidableEq, Repr

/-- Outcome codes (R20). -/
inductive OC where
  | ok | pend | full | empty | barr | slot | cnt | hold | dep | miss | retry
  deriving DecidableEq, Repr

/-- Trap causes (R297). -/
inductive Cause where
  | illegalInstruction | reservedEncoding | illegalOperand | alignment | translation | protection
  | race | poisonUse | wouldBlock | target | fetch | endOfKernel | software | breakpoint
  deriving DecidableEq, Repr

/-- A thread as the machine names it: context, agent identity (core x 16 + thread in the context's
numbering, R119), and the model's own count of starts, which tells an earlier occupant from a later. -/
structure TRef where
  ctx : Nat
  agent : Nat
  gen : Nat
  deriving DecidableEq, Repr

/-- A hold on a guard: index, mode, acquire count (R125). -/
structure Hold where
  guard : Nat
  excl : Bool
  count : Nat
  deriving DecidableEq, Repr

/-- What the checks of R119 and R120 use of an agent, as it stood at issue (R239): its holds, its write
guard, its launch, its path and seen-phase marks, whether it is between `barv` and `bart` (R238), the
race-check mode (R27), and its context core when it lies on one (R240). -/
structure Stamps where
  holds : List Hold
  wg : Option Nat
  launch : Option Nat
  path : List Nat
  marks : List Nat
  barred : Bool
  report : Bool
  core : Option Nat
  deriving DecidableEq, Repr

/-- Integer operation codes of atomics (R113). -/
inductive AOp where
  | add | and | or | xor | min | max | minu | maxu | swap
  deriving DecidableEq, Repr

/-- `fred` operations (R116). -/
inductive FOp where
  | add | min | max
  deriving DecidableEq, Repr

/-- Kinds of access (R99, R129). -/
inductive AKind where
  | read | write
  | amo (op : AOp) | cas | red (op : AOp) | fred (op : FOp)
  | gpub (scope : Nat)
  deriving DecidableEq, Repr

/-- Where the result of an access goes: unit `unit` of a thread's access `acc`; unit and part of an
engine command; an RMA message, at an offset of its range; nowhere. -/
inductive Sink where
  | thread (t : TRef) (acc unit : Nat)
  | cmd (id unit part : Nat)
  | rma (ctx seq off : Nat)
  | none
  deriving DecidableEq, Repr

/-- One access on its way (R99): what it is, for whom, where, with what data and stamps. `be` enables
the bytes a masked `vst` writes (R159); `pa` is the translated place once the walk is done; `bypass` says that its
page's CA keeps it out of the near and remote-data caches (R256). -/
structure Access where
  id : Nat
  ctx : Nat
  core : Nat
  agent : Nat
  kind : AKind
  va : Nat
  size : Nat
  data : BitVec 1024
  exp : BitVec 64
  be : BitVec 128
  remoteOk : Bool
  pc : Word
  st : Stamps
  sink : Sink
  pa : Option Nat
  key : Nat
  bypass : Bool := false
  deriving DecidableEq, Repr

/-- What a delivery brings: a value or a poison word (R17, R19). -/
inductive DVal where
  | val (w : BitVec 1024)
  | pois (w : BitVec 64)
  deriving DecidableEq, Repr

/-- A tagged delivery (R17); `acks` is the access that it acknowledges (R101). -/
structure Delivery where
  t : TRef
  tag : Tag
  val : DVal
  acks : Option Nat
  deriving DecidableEq, Repr

/-- An untagged deposit (R205): target agent, register code, value, the sender's predicate, and the sender. -/
structure Deposit where
  ctx : Nat
  agent : Nat
  reg : Opd
  val : Word
  pred : Option (TRef × Tag)
  src : Nat
  deriving DecidableEq, Repr

/-- A fault found after issue, with what the record needs (R301, R302). -/
structure FaultInfo where
  cause : Cause
  addr : Word
  info : Word
  lvl : Nat
  mal : Bool
  deriving DecidableEq, Repr

/-- Operations on a guard at its home (R126-R131, R230, R383). -/
inductive GOp where
  | acquire (excl bind : Bool)
  | release
  | handTo (target : Nat)
  | stat
  deriving DecidableEq, Repr

/-- Who asks for a guard operation: a thread, an engine with a handed hold, a Husk slot, or a port agent
by a host command. -/
inductive GWho where
  | thread (t : TRef)
  | engine (t : TRef) (cmd : Nat)
  | husk (die slot : Nat)
  | port (queue seq : Nat)
  deriving DecidableEq, Repr

/-- A guard request on its way to the guard's home; `n` is the dynamic count of its instruction (R377). -/
structure GuardReq where
  ctx : Nat
  idx : Nat
  agent : Nat
  who : GWho
  op : GOp
  pred : Option Tag
  dest : Option Tag
  acc : Nat
  pc : Word
  parks : Bool
  tickets : Bool
  n : Nat := 0
  deriving DecidableEq, Repr

/-- A guard home's reply: granted, count, word (R126, R131). -/
structure GuardRep where
  req : GuardReq
  granted : Bool
  count : Nat
  word : Word
  deriving DecidableEq, Repr

/-- Queue operations (R208). -/
inductive QKind where
  | push (v : Word) | pop | len
  deriving DecidableEq, Repr

/-- A remote queue operation (R209): home context core and offset of the descriptor; `n` as of a guard request. -/
structure QReq where
  t : TRef
  core : Nat
  off : Nat
  kind : QKind
  pred : Option Tag
  dest : Option Tag
  acc : Nat
  n : Nat := 0
  deriving DecidableEq, Repr

/-- What a thread started by a message takes from its sender, or a launch's thread from its record
(R204, R278): launch, path, inherited levels, registers of the path, handler entry. `self` tells the thread of the family apart
from every other in the replay log: its agent, and 2^24 times the number of threads logged there before it (R377). -/
structure Family where
  launch : Option Nat
  path : List Nat
  inherited : Nat
  lrp : Word
  lpd : Nat
  lpi : List Nat
  lpx : List Nat
  linear : Nat
  counts : Bool
  handler : Word
  bound : Word
  view : Nat
  self : Nat := 0
  deriving DecidableEq, Repr

/-- A register's contents as a Pip carries them (R223): state code and value. -/
structure PipReg where
  st : BitVec 2
  val : Word
  deriving DecidableEq, Repr

/-- A migrating thread (R222, R223), with its wake right if it has one. -/
structure Pip where
  src : TRef
  ctx : Nat
  core : Nat
  g : List PipReg
  k : List PipReg
  resume : Word
  lact : Bool
  lsel : Bool
  lc : BitVec 32
  lso : BitVec 16
  leo : BitVec 16
  fam : Family
  right : Option Word
  deriving DecidableEq, Repr

/-- Why a message starts a thread: a `send`, an armed counter, a `drnm` row, a sub-launch, a thread that migrates (R222). -/
inductive MsgFrom where
  | send (t : TRef) | counter (n : Nat) | row (cmd row : Nat) | subLaunch
  | pip (p : Pip)
  deriving DecidableEq, Repr

/-- An active message (R203, R204). -/
structure Msg where
  ctx : Nat
  core : Nat
  entry : Word
  payload : List Word
  reply : Bool
  fam : Family
  origin : MsgFrom
  deriving DecidableEq, Repr

/-- Commands of the matrix and transfer queues with their operands as read at issue (R176, R184, R202). -/
inductive CmdOp where
  | prel (n : Nat) | arel (n : Nat) | azero (n : Nat)
  | pld (n f : Nat) (mx : Bool) (a s : Word)
  | pldt (n f : Nat) (a s : Word)
  | mma (n pa pb : Nat) (h : Bool)
  | drn (n : Nat) (h bias act rq mx zc : Bool) (f : Nat) (a b : Word)
  | drnm (n : Nat) (h bias act zc : Bool) (a b : Word)
  | atbl (a : Word)
  | cpy (a b : Word) (len : Nat) (rows : Nat) (ss ds : Int) (cnt : Option (Nat × Nat)) (two : Bool)
  | hput (handle : Word) (b : Word) (expert : Nat)
  deriving DecidableEq, Repr

/-- The condition of a queued command (R178): none, the tag its guard waits for with GN, filled with 0, or
poisoned. -/
inductive CGuard where
  | open_
  | waits (tag : Tag) (neg : Bool)
  | fails
  | pois (w : Word) (reg : Nat)
  deriving DecidableEq, Repr

/-- A queued command: its thread, word, stamps and family, the holds handed to its engines (R130), condition
(R178), and the tag and the operand code of its destination (R179). -/
structure Cmd where
  id : Nat
  t : TRef
  op : CmdOp
  word : Word
  pc : Word
  st : Stamps
  fam : Family
  handed : List (Nat × Hold)
  guard : CGuard
  dest : Option Tag
  reg : Nat
  deriving DecidableEq, Repr

/-- Bytes of a copy that one read found: offset in the copy, destination, how many, the bytes, and the copy engine
that pushes them (R217, R218). -/
structure CopyRun where
  off : Nat
  dst : Nat
  n : Nat
  data : Nat
  agent : Nat
  deriving DecidableEq, Repr

/-- One packet of a copy (R217): its command and destination window, the fault at which its reads stopped, if they
did (R269), and whether its writes are performed, their race records being awaited (R310); of a packet of another module's
copy, the port by which it comes, its context, and the notify core and counter (R381). -/
structure Packet where
  cmd : Nat
  window : Nat
  runs : List CopyRun
  fault : Option FaultInfo
  written : Bool
  port : Option (Nat × Nat × Option (Nat × Nat)) := none
  deriving DecidableEq, Repr

/-- What a thread that waits for the Husk's reply asks (R224): to open a slot, to close the one of a handle, or the
status of one. -/
inductive HAsk where
  | opening
  | closing (h : Word)
  | status (h : Word)
  deriving DecidableEq, Repr

/-- A request to the Husk with the number of its thread's entry; an open request with its descriptor's sixteen words (R225,
R226). -/
structure HOpen where
  t : TRef
  acc : Nat
  die : Nat
  desc : List Word
  tickets : Bool
  parks : Bool
  ask : HAsk
  deriving DecidableEq, Repr

/-- A line of an expert result (R227): die, slot, position, line index, its 128 bytes; `handle` and
`expert` for an `hput`, none for a network write. -/
structure HLine where
  die : Nat
  slot : Nat
  gen : Option Nat
  pos : Nat
  line : Nat
  data : BitVec 1024
  expert : Nat
  deriving DecidableEq, Repr

/-- Objects a thread can wait on (R21, R288). -/
inductive WObj where
  | reg (o : Opd)
  | portIn (d : Dir) | portOut (d : Dir)
  | queue (core off : Nat) (push : Bool)
  | guard (idx : Nat)
  | handSlot (guard target : Nat)
  | pod (core n : Nat) | accum (core n : Nat)
  | counter (core n : Nat)
  | barrier (bd : Nat)
  | dep (rec : Nat)
  | husk (die : Nat)
  | router (core : Nat)
  | matrixQueue (core : Nat) | transferQueue (core : Nat)
  | outbound (core : Nat)
  | qslots (core : Nat)
  | launchSlot
  deriving DecidableEq, Repr

/-- The header of a host message (R380). It has no place for the reserved bits, which are ignored, no chapter stating a
rejection (R8; DESIGN CHOICE, log entry 34). -/
structure Hdr where
  queue : Nat
  ctx : Nat
  seq : Nat
  deriving DecidableEq, Repr

/-- Storages of R270 that a soft error can strike. -/
inductive Storage where
  | mem (key : Nat) | meta_ (line : Nat) | cache (line : Nat)
  | reg (t : TRef) (o : Opd)
  | podStore (core n : Nat) | accStore (core n : Nat)
  deriving DecidableEq, Repr

/-- Sources of a snapshot trigger (R371). -/
inductive SnapSrc where
  | pulse | race | host | ext
  deriving DecidableEq, Repr

/-- One constructor for each row of the opcode table: the instructions in opcode order (R49), the marker
`kend` (R97), a word that is not an instruction (R50), then the device's events and the host's messages. -/
inductive Instr where
  | add (f : RForm)
  | sub (f : RForm)
  | mul (f : RForm)
  | mulh (f : RForm)
  | mulhu (f : RForm)
  | div (f : RForm)
  | divu (f : RForm)
  | rem (f : RForm)
  | remu (f : RForm)
  | and (f : RForm)
  | or (f : RForm)
  | xor (f : RForm)
  | andn (f : RForm)
  | shl (f : RForm)
  | shr (f : RForm)
  | sar (f : RForm)
  | rot (f : RForm)
  | min (f : RForm)
  | max (f : RForm)
  | minu (f : RForm)
  | maxu (f : RForm)
  | clz (f : RForm)
  | ctz (f : RForm)
  | popc (f : RForm)
  | bfx (f : RForm)
  | bfxu (f : RForm)
  | bfi (f : RForm)
  | sel (f : RForm)
  | cmp (f : RForm)
  | cmpi (f : IForm)
  | kand (f : RForm)
  | kor (f : RForm)
  | kxor (f : RForm)
  | knot (f : RForm)
  | kmov (f : RForm)
  | kany (f : RForm)
  | kall (f : RForm)
  | kset (f : RForm)
  | kget (f : RForm)
  | mov (f : RForm)
  | movf (f : RForm)
  | rst (f : RForm)
  | rclr (f : RForm)
  | addi (f : IForm)
  | andi (f : IForm)
  | ori (f : IForm)
  | xori (f : IForm)
  | shli (f : IForm)
  | shri (f : IForm)
  | sari (f : IForm)
  | movi (f : IForm)
  | movh (f : IForm)
  | adr (f : IForm)
  | br (f : BForm)
  | bri (f : RForm)
  | call (f : BForm)
  | calli (f : RForm)
  | ret (f : RForm)
  | rasclr (f : RForm)
  | loop (f : BForm)
  | loopi (f : BForm)
  | exit (f : RForm)
  | yield (f : RForm)
  | park (f : RForm)
  | nop (f : RForm)
  | trap (f : RForm)
  | eret (f : RForm)
  | rply (f : RForm)
  | mfs (f : RForm)
  | mts (f : RForm)
  | tstamp (f : RForm)
  | brk (f : RForm)
  | ld (f : MForm)
  | ldx (f : MForm)
  | st (f : MForm)
  | stx (f : MForm)
  | pfh (f : MForm)
  | fence (f : RForm)
  | amo (f : MForm)
  | cas (f : MForm)
  | red (f : MForm)
  | fred (f : MForm)
  | gacq (f : EForm)
  | grel (f : EForm)
  | ghand (f : EForm)
  | gpub (f : EForm)
  | gbind (f : EForm)
  | gstat (f : EForm)
  | vld (f : MForm)
  | vst (f : MForm)
  | vlds (f : MForm)
  | vsts (f : MForm)
  | vgth (f : MForm)
  | vsct (f : MForm)
  | vldt (f : MForm)
  | vbc (f : RForm)
  | vext (f : RForm)
  | vins (f : RForm)
  | viota (f : RForm)
  | vadd (f : RForm)
  | vsub (f : RForm)
  | vmul (f : RForm)
  | vmulh (f : RForm)
  | vmad (f : RForm)
  | vwad (f : RForm)
  | vand (f : RForm)
  | vor (f : RForm)
  | vxor (f : RForm)
  | vshl (f : RForm)
  | vshr (f : RForm)
  | vsar (f : RForm)
  | vmin (f : RForm)
  | vmax (f : RForm)
  | vminu (f : RForm)
  | vmaxu (f : RForm)
  | vabs (f : RForm)
  | vcmp (f : RForm)
  | vsel (f : RForm)
  | vscan (f : RForm)
  | vred (f : RForm)
  | vperm (f : RForm)
  | vfadd (f : RForm)
  | vfsub (f : RForm)
  | vfmul (f : RForm)
  | vfma (f : RForm)
  | vfmin (f : RForm)
  | vfmax (f : RForm)
  | vfdiv (f : RForm)
  | vfsqrt (f : RForm)
  | vfrcp (f : RForm)
  | vfrsq (f : RForm)
  | vfexp2 (f : RForm)
  | vflog2 (f : RForm)
  | vftanh (f : RForm)
  | vfcmp (f : RForm)
  | vfscan (f : RForm)
  | vfred (f : RForm)
  | vfcvt (f : RForm)
  | vmxq (f : RForm)
  | vmxd (f : RForm)
  | pclm (f : EForm)
  | prel (f : EForm)
  | pld (f : EForm)
  | pldt (f : EForm)
  | aclm (f : EForm)
  | arel (f : EForm)
  | azero (f : EForm)
  | mma (f : EForm)
  | drn (f : EForm)
  | drnm (f : EForm)
  | atbl (f : EForm)
  | mstat (f : EForm)
  | send (f : EForm)
  | rput (f : EForm)
  | qinit (f : EForm)
  | qpush (f : EForm)
  | qpop (f : EForm)
  | qlen (f : EForm)
  | barv (f : EForm)
  | bart (f : EForm)
  | cpy (f : EForm)
  | cpy2 (f : EForm)
  | waitc (f : EForm)
  | carm (f : EForm)
  | cset (f : EForm)
  | trig (f : EForm)
  | wdep (f : EForm)
  | lnch (f : EForm)
  | wake (f : EForm)
  | migr (f : EForm)
  | hopen (f : EForm)
  | hput (f : EForm)
  | hclose (f : EForm)
  | hstat (f : EForm)
  | hcfg (f : EForm)
  | kend
  | illegalInstruction (r : Reject)
  | taggedDelivery (d : Delivery)
  | untaggedDeposit (d : Deposit)
  | depositLatchLand (core : Nat)
  | messageLeftCore (core : Nat)
  | acknowledgement (k : Sink) (data : Option (BitVec 1024)) (pois : Option Word)
  | fetchLineArrival (t : TRef)
  | pageWalk (a : Access)
  | accessAtHome (a : Access)
  | fredClose (ctx : Nat) (guarded : Bool) (bd : Nat)
  | guardRequestAtHome (r : GuardReq)
  | guardReply (r : GuardRep)
  | reservationExpiry (id : Nat)
  | ticketExpiry (id : Nat)
  | routerAccept (core : Nat)
  | remoteQueueOp (q : QReq)
  | messageArrival (m : Msg)
  | messageStartFromBuffer (core idx : Nat)
  | pipArrival (p : Pip)
  | barrierArrivalAtAgent (ctx launch level : Nat) (path : List Nat) (exited : Bool)
  | clockCapRelease (idx : Nat)
  | agerVisit (line : Nat)
  | counterIncrement (ctx core n : Nat)
  | counterFire (core n : Nat)
  | matrixCommandStart (core ctx : Nat)
  | transferCommandStart (core ctx : Nat)
  | podLoadComplete (id : Nat)
  | mmaComplete (id : Nat)
  | atblComplete (id : Nat)
  | drainComplete (id : Nat)
  | drnmRow (id : Nat)
  | commandFault (id unit : Nat) (f : FaultInfo)
  | copyPieceAtStreamer (id : Nat)
  | copyPacketWrite (p : Packet)
  | huskOpen (r : HOpen)
  | huskArrival (l : HLine)
  | huskDeadline (die slot : Nat)
  | huskRelease (die slot : Nat)
  | huskNotify (die slot : Nat)
  | wakeForward (ctx launch core pos : Nat)
  | threadStart (ctx launch linear : Nat)
  | launchRootStart (ctx queue : Nat)
  | faultReply (t : TRef) (acc unit : Nat) (f : FaultInfo)
  | takeTrap (t : TRef)
  | evictionRequest (ctx core region : Nat)
  | imageComplete (ctx core : Nat)
  | resumption (ctx core region : Nat)
  | addressComparatorStop (t : TRef) (n : Nat)
  | acornPulse
  | snapshotTrigger (src : SnapSrc)
  | externalTrigger
  | snapshotLatch
  | ringTickPlacement (die : Nat)
  | replayMismatch (t : TRef) (entry : Nat)
  | softError (s : Storage) (correctable : Bool)
  | droopAlarm
  | droopWindowEnd
  | energyStaticTick
  | lockLeaseExpiry
  | boot
  | pldmSensorRead (id : Nat)
  | pldmFirmwareUpdate (slotB : Bool) (image : Nat)
  | spdmGetMeasurements (nonce : Nat)
  | sidebandLockRequest
  | rmaWrite (ctx port va : Nat) (len : Nat) (data : Nat) (seq : Nat)
  | rmaRead (ctx port va : Nat) (len : Nat) (seq : Nat)
  | unsupportedOperation (ctx seq : Nat)
  | launch (h : Hdr) (record : Nat)
  | linkupd (h : Hdr) (entry : Nat) (addr : Word)
  | linkacq (h : Hdr)
  | ctxnew (h : Hdr) (num tfb gbase gsize link evAddr evEp : Nat)
  | ctxdel (h : Hdr)
  | ptroot (h : Hdr) (addr : Nat)
  | inval (h : Hdr) (va len : Nat)
  | coremap (h : Hdr) (cc mc : Nat)
  | reside (h : Hdr) (mc slot mask base units : Nat)
  | slottbl (h : Hdr) (mc : Nat) (entries : List (BitVec 4))
  | gscope (h : Hdr) (first last scope c0 c1 : Nat)
  | qstub (h : Hdr) (queue : Nat) (entry : Word) (die : Nat)
  | ring (h : Hdr) (kind die base k head : Nat)
  | spill (h : Hdr) (page : Nat)
  | remote (h : Hdr) (idx peer ep key : Nat)
  | key (h : Hdr) (slot wrapped : Nat)
  | cntr (h : Hdr) (mc : Nat) (mask : BitVec 64)
  | portown (h : Hdr) (mc owner : Nat)
  | hceil (h : Hdr) (die ceil : Nat)
  | preempt (h : Hdr) (cores : List Nat) (region : Nat)
  | resume (h : Hdr) (cores : List Nat) (region : Nat)
  | thrres (h : Hdr) (cc tid : Nat) (addr : Word)
  | thrend (h : Hdr) (cc tid : Nat)
  | hgacq (h : Hdr) (guard : Nat) (excl : Bool) (port : Nat)
  | hgrel (h : Hdr) (guard port : Nat)
  | debugDbg (h : Hdr) (on : Bool)
  | debugAddrm (h : Hdr) (n : Nat) (val : Word)
  | debugStopAll (h : Hdr)
  | debugTraceMask (h : Hdr) (mask : BitVec 8)
  | snapControl (h : Hdr) (val : Word)
  | snapHostTrigger (h : Hdr)
  | snapPulsep (h : Hdr) (val : Nat)
  | replay (h : Hdr) (mode page : Nat)
  | droop (h : Hdr) (val : Word)
  | mlock (h : Hdr)
  | mreset (h : Hdr)
  | fwupd (h : Hdr) (addr len : Nat) (slotB : Bool)
  | stepclr (h : Hdr) (n : Nat)
  | sensor (h : Hdr) (id : Nat)
  | liveDump (h : Hdr) (region : Nat)
  | unknownOperation (h : Hdr) (op : Nat)
  | sidebandReset
  | sidebandStepClear (n : Nat)
  | portLinkChange (port : Nat) (up : Bool)
  | hostFreesMemory (base len : Nat)
  deriving DecidableEq, Repr

end Sys2Proof
end

