-- ==== Sys2Proof/Machine/Bits.lean ====
section
/-! DEFINITION. Bit fields, extensions and the reading of operand codes (spec 00 R5, 01 R31, 02 R37-R48). -/
namespace Sys2Proof

/-- Bits [hi:lo] of a natural number, as a number (R5). -/
def bits (x hi lo : Nat) : Nat := (x >>> lo) % 2 ^ (hi + 1 - lo)

/-- An element put before the first one that it may precede. -/
def insertBy {α : Type} (le : α → α → Bool) (x : α) : List α → List α
  | [] => [x]
  | y :: l => if le x y then x :: y :: l else y :: insertBy le x l
/-- A list in order; equal elements keep their order. -/
def sortBy {α : Type} (le : α → α → Bool) (l : List α) : List α := l.foldr (insertBy le) []

/-- Bit i of a natural number. -/
def bit (x i : Nat) : Bool := (x >>> i) % 2 == 1

/-- Field [hi:lo] of a word, as a number. -/
def fld (w : Word) (hi lo : Nat) : Nat := bits w.toNat hi lo

/-- A word with field [hi:lo] replaced. -/
def setFld (w : Word) (hi lo x : Nat) : Word :=
  let m := (2 ^ (hi + 1 - lo) - 1) <<< lo
  (w &&& ~~~(BitVec.ofNat 64 m)) ||| BitVec.ofNat 64 ((x % 2 ^ (hi + 1 - lo)) <<< lo)

/-- The low n bits of x read as two's complement (R31). -/
def toSigned (n x : Nat) : Int :=
  let y := x % 2 ^ n
  if n ≠ 0 ∧ 2 ^ (n - 1) ≤ y then (y : Int) - 2 ^ n else y

/-- An integer as an unsigned number of n bits, modulo 2^n. -/
def wrapN (n : Nat) (x : Int) : Nat := (x % (2 ^ n : Int)).toNat

/-- `sext(v, n)` of R31: the low n bits, sign-extended to 64. -/
def sext64 (n x : Nat) : Word := BitVec.ofNat 64 (wrapN 64 (toSigned n x))

/-- `zext(v, n)` of R31. -/
def zext64 (n x : Nat) : Word := BitVec.ofNat 64 (x % 2 ^ n)

/-- What a 6-bit operand code names (R37). -/
def Opd.ofCode (c : BitVec 6) : Opd :=
  let n := c.toNat
  if n < 16 then .g (Fin.ofNat 16 n)
  else if n < 48 then .v (Fin.ofNat 32 (n - 16))
  else if n < 56 then .k (Fin.ofNat 8 (n - 48))
  else match n with
    | 56 => .port .n
    | 57 => .port .e
    | 58 => .port .s
    | 59 => .port .w
    | 60 => .zr
    | 61 => .tid
    | 62 => .cid
    | _ => .pcv

/-- The operand code of what it names (R37). -/
def Opd.code : Opd → Nat
  | .g i => i.val
  | .v i => 16 + i.val
  | .k i => 48 + i.val
  | .port .n => 56
  | .port .e => 57
  | .port .s => 58
  | .port .w => 59
  | .zr => 60
  | .tid => 61
  | .cid => 62
  | .pcv => 63

/-- The disposition a WD code names (R32). -/
def Disp.ofCode (c : BitVec 2) : Disp :=
  match c.toNat with
  | 0 => .park
  | 1 => .branch
  | 2 => .flag
  | _ => .trap

/-- The modifier a code names (R40); 0b11 is refused by the decoder. -/
def SrcMod.ofCode (c : BitVec 2) : SrcMod :=
  match c.toNat with
  | 1 => .consume
  | 2 => .move
  | _ => .plain

/-- Number of an outcome code (R20). -/
def OC.num : OC → Nat
  | .ok => 0 | .pend => 1 | .full => 2 | .empty => 3 | .barr => 4 | .slot => 5 | .cnt => 6
  | .hold => 7 | .dep => 8 | .miss => 9 | .retry => 10

/-- Number of a cause (R297). -/
def Cause.num : Cause → Nat
  | .illegalInstruction => 1 | .reservedEncoding => 2 | .illegalOperand => 3 | .alignment => 4
  | .translation => 5 | .protection => 6 | .race => 7 | .poisonUse => 8 | .wouldBlock => 9
  | .target => 10 | .fetch => 11 | .endOfKernel => 12 | .software => 13 | .breakpoint => 14

/-- Operand D, A, B of a word. -/
def Head.D (h : Head) : Opd := Opd.ofCode h.d
/-- Operand A of a word. -/
def Head.A (h : Head) : Opd := Opd.ofCode h.a
/-- Operand B of a word. -/
def Head.B (h : Head) : Opd := Opd.ofCode h.b

/-- FN[27:26]: W, L or T (R45). -/
def RForm.top (f : RForm) : Nat := bits f.fn.toNat 11 10
/-- FN[25:22]: C or F (R45). -/
def RForm.cond (f : RForm) : Nat := bits f.fn.toNat 9 6
/-- FN[21:20]: SAT or RM (R45). -/
def RForm.mid (f : RForm) : Nat := bits f.fn.toNat 5 4
/-- FN[19] (R45). -/
def RForm.b19 (f : RForm) : Bool := bit f.fn.toNat 3
/-- FN[18:16]: MK or SK (R45). -/
def RForm.msk (f : RForm) : Fin 8 := Fin.ofNat 8 (bits f.fn.toNat 2 0)
/-- FN[21:19]: OPR of `vscan` and `vred` (R168). -/
def RForm.opr (f : RForm) : Nat := bits f.fn.toNat 5 3

/-- Width in bits of a W code (R46). -/
def widthOf (w : Nat) : Nat :=
  match w with
  | 0 => 64
  | 1 => 32
  | 2 => 16
  | _ => 8

/-- Access size in bytes of an SZ code (R42). -/
def MForm.bytes (f : MForm) : Nat := 2 ^ f.sz.toNat
/-- sext(DSP, 9) (R42). -/
def MForm.disp (f : MForm) : Int := toSigned 9 f.dsp.toNat
/-- EXT bit i (R42). -/
def MForm.x (f : MForm) (i : Nat) : Bool := bit f.ext.toNat i
/-- EXT[2:0], the lane mask of a vector access (R158). -/
def MForm.msk (f : MForm) : Fin 8 := Fin.ofNat 8 (bits f.ext.toNat 2 0)

/-- FN[31:28] of an E word (R184). -/
def EForm.hi (f : EForm) : Nat := bits f.fn.toNat 7 4
/-- FN[27:24] of an E word (R184). -/
def EForm.lo (f : EForm) : Nat := bits f.fn.toNat 3 0
/-- FL bit i, counted from FL[16] (R44). -/
def EForm.flag (f : EForm) (i : Nat) : Bool := bit f.fl.toNat i
/-- FL[19:18]: an accumulator (R184). -/
def EForm.an (f : EForm) : Nat := bits f.fl.toNat 3 2
/-- FN[29:24]: a counter (R200). -/
def EForm.cn (f : EForm) : Nat := bits f.fn.toNat 5 0
/-- FN[26:24]: a level, a trigger bit or a dependence slot (R200). -/
def EForm.lv (f : EForm) : Nat := bits f.fn.toNat 2 0
/-- The outcome predicate when OPV = 1 (R44). -/
def EForm.pred (f : EForm) : Option (Fin 8) :=
  if f.opv = 1 then some (Fin.ofNat 8 f.opk.toNat) else none

/-- Condition codes on integers of n bits (R47): `C` applied to two values as n-bit numbers. -/
def condInt (n c a b : Nat) : Bool :=
  let sa := toSigned n a
  let sb := toSigned n b
  let ua := a % 2 ^ n
  let ub := b % 2 ^ n
  match c with
  | 0 => ua == ub
  | 1 => ua != ub
  | 2 => sa < sb
  | 3 => sb ≤ sa
  | 4 => ua < ub
  | 5 => ub ≤ ua
  | 6 => sa ≤ sb
  | 7 => sb < sa
  | 8 => ua ≤ ub
  | 9 => ub < ua
  | _ => false

/-- Lane i of a vector register (R10). -/
def lane (v : VWord) (i : Nat) : BitVec 32 := (v >>> (32 * i)).setWidth 32

/-- A vector register made of lanes (R10). -/
def ofLanes (f : Nat → BitVec 32) : VWord :=
  (List.range 32).foldr (fun i acc => (acc <<< 32) ||| (f i).setWidth 1024) 0

/-- Byte j of a vector register (R138): its bits [8j+7:8j]. -/
def vbyte (v : VWord) (j : Nat) : Byte := (v >>> (8 * j)).setWidth 8

/-- A vector register made of bytes. -/
def ofBytes (l : List Byte) : VWord :=
  l.foldr (fun b acc => (acc <<< 8) ||| b.setWidth 1024) 0

end Sys2Proof
end

