-- ==== Sys2Proof/Machine/Real.lean ====
section
/-! DEFINITION. Exact reals with the special values, the element formats, `round` (spec 06 R134-R146), division,
roots and the transcendental functions rounded once (07 R170, R171), and the fixed trees of sums (R147-R153). -/
namespace Sys2Proof.Machine
open Sys2Proof

/-- A number as the arithmetic sees it: NaN, an infinity, or (-1)^neg * m * 2^e; m = 0 is a signed zero. -/
inductive XR where
  | nan
  | inf (neg : Bool)
  | fin (neg : Bool) (m : Nat) (e : Int)
  deriving DecidableEq, Repr

/-- How a format treats its top exponent and overflow (R134, R142). -/
inductive FKind where
  | ieee | e5m2 | e4m3 | sat | int8 | int32
  deriving DecidableEq, Repr

/-- An element format: exponent bits, mantissa bits, bias, kind (R134). -/
structure Fmt where
  eb : Nat
  mb : Nat
  bias : Int
  kind : FKind
  deriving DecidableEq, Repr

/-- The format of an F code (R134); codes that name no element read as FP32. -/
def fmtOf (f : Nat) : Fmt :=
  match f with
  | 1 => ⟨8, 7, 127, .ieee⟩
  | 2 => ⟨5, 10, 15, .ieee⟩
  | 3 => ⟨4, 3, 7, .e4m3⟩
  | 4 => ⟨5, 2, 15, .e5m2⟩
  | 5 => ⟨3, 2, 3, .sat⟩
  | 6 => ⟨2, 3, 1, .sat⟩
  | 7 => ⟨2, 1, 1, .sat⟩
  | 8 => ⟨0, 8, 0, .int8⟩
  | 10 => ⟨0, 32, 0, .int32⟩
  | _ => ⟨8, 23, 127, .ieee⟩

/-- Width in bits of an F code's element (R134). -/
def fmtBits (f : Nat) : Nat :=
  match f with
  | 1 | 2 => 16
  | 3 | 4 | 8 | 9 => 8
  | 5 | 6 => 6
  | 7 => 4
  | _ => 32

/-- emax of a format, for block scales (R134). -/
def emaxOf (f : Nat) : Int :=
  match f with
  | 3 => 8
  | 4 => 15
  | 5 => 4
  | 6 | 7 => 2
  | _ => 0

/-- An integer as a number. -/
def XR.ofInt (i : Int) (e : Int) : XR := .fin (decide (i < 0)) i.natAbs e

/-- The value of an encoding (R135). -/
def decodeF (f x : Nat) : XR :=
  let t := fmtOf f
  match t.kind with
  | .int8 => XR.ofInt (toSigned 8 x) (-6)
  | .int32 => XR.ofInt (toSigned 32 x) 0
  | k =>
    let m := x % 2 ^ t.mb
    let e := x / 2 ^ t.mb % 2 ^ t.eb
    let neg := bit x (t.mb + t.eb)
    let top := 2 ^ t.eb - 1
    if e = top ∧ (k = .ieee ∨ k = .e5m2) then (if m = 0 then .inf neg else .nan)
    else if e = top ∧ k = .e4m3 ∧ m = 7 then .nan
    else if e = 0 then .fin neg m (1 - t.bias - t.mb)
    else .fin neg (2 ^ t.mb + m) (e - t.bias - t.mb)

/-- m * 2^e rounded to an integer multiple of 2^q under a mode (R48), as that multiple. -/
def roundQ (mode : Nat) (neg : Bool) (m : Nat) (e q : Int) : Nat :=
  if q ≤ e then m <<< (e - q).toNat
  else
    let k := (q - e).toNat
    let n := m >>> k
    let r := m % 2 ^ k
    let half := 2 ^ (k - 1)
    let up :=
      match mode with
      | 0 => decide (half < r) || (decide (r = half) && n % 2 == 1)
      | 1 => false
      | 2 => !neg && r != 0
      | _ => neg && r != 0
    if up then n + 1 else n

/-- Canonical NaN of a format, or what a format without NaN gets (R141, R142). -/
def nanOf (f : Nat) : Nat :=
  match f with
  | 0 => 0x7FC00000
  | 1 => 0x7FC0
  | 2 => 0x7E00
  | 3 => 0x7F
  | 4 => 0x7E
  | _ => 0

/-- Encoding of the largest finite magnitude, without sign (R134). -/
def largestOf (f : Nat) : Nat :=
  let t := fmtOf f
  match t.kind with
  | .ieee | .e5m2 => (2 ^ t.eb - 1) * 2 ^ t.mb - 1
  | .e4m3 => 0x7E
  | _ => 2 ^ (t.eb + t.mb) - 1

/-- Encoding of infinity, without sign, in the formats that have it. -/
def infOf (f : Nat) : Nat := (2 ^ (fmtOf f).eb - 1) * 2 ^ (fmtOf f).mb

/-- `round(fmt, mode, x)` (R142), as the encoding. -/
def roundF (f mode : Nat) (x : XR) : Nat :=
  let t := fmtOf f
  let sgn (neg : Bool) (y : Nat) : Nat := if neg then 2 ^ (t.eb + t.mb) + y else y
  match t.kind with
  | .int8 =>
    match x with
    | .nan => 0
    | .inf neg => wrapN 8 (if neg then -127 else 127)
    | .fin neg m e =>
      let n := Nat.min (roundQ mode neg m e (-6)) 127
      wrapN 8 (if neg then -(n : Int) else n)
  | .int32 =>
    match x with
    | .nan => 0
    | .inf neg => wrapN 32 (if neg then -(2 ^ 31) else 2 ^ 31 - 1)
    | .fin neg m e =>
      let n := roundQ mode neg m e 0
      if neg then wrapN 32 (-((Nat.min n (2 ^ 31) : Nat) : Int)) else Nat.min n (2 ^ 31 - 1)
  | k =>
    match x with
    | .nan => nanOf f
    | .inf neg => sgn neg (if k = .ieee ∨ k = .e5m2 then infOf f else largestOf f)
    | .fin neg m e =>
      if m = 0 then sgn neg 0
      else
        let ex : Int := m.log2 + e
        let q : Int := max (ex - t.mb) (1 - t.bias - t.mb)
        let n := roundQ mode neg m e q
        let (n, q) := if n = 2 ^ (t.mb + 1) then (2 ^ t.mb, q + 1) else (n, q)
        let enc : Nat := if n < 2 ^ t.mb then n else (q + t.mb + t.bias).toNat * 2 ^ t.mb + (n - 2 ^ t.mb)
        if enc ≤ largestOf f then sgn neg enc
        else if k = .ieee then
          let toInf := mode == 0 || (mode == 2 && !neg) || (mode == 3 && neg)
          sgn neg (if toInf then infOf f else largestOf f)
        else sgn neg (largestOf f)

/-- `RNE32(x)`, as a number again (R31). -/
def rne32 (x : XR) : XR := decodeF 0 (roundF 0 0 x)

/-- The negative of a number. -/
def XR.neg : XR → XR
  | .nan => .nan
  | .inf n => .inf (!n)
  | .fin n m e => .fin (!n) m e

/-- Exact sum; `down` is the mode toward -inf, which decides the sign of an exact zero (R143). -/
def XR.add (down : Bool) : XR → XR → XR
  | .nan, _ | _, .nan => .nan
  | .inf a, .inf b => if a = b then .inf a else .nan
  | .inf a, _ => .inf a
  | _, .inf b => .inf b
  | .fin a m e, .fin b n f =>
    let q := min e f
    let x : Int := m <<< (e - q).toNat
    let y : Int := n <<< (f - q).toNat
    let z := (if a then -x else x) + (if b then -y else y)
    if z = 0 then .fin (if a = b then a else down) 0 q else XR.ofInt z q

/-- Exact product (R143). -/
def XR.mul : XR → XR → XR
  | .nan, _ | _, .nan => .nan
  | .inf a, .inf b => .inf (a != b)
  | .inf a, .fin b m _ => if m = 0 then .nan else .inf (a != b)
  | .fin a m _, .inf b => if m = 0 then .nan else .inf (a != b)
  | .fin a m e, .fin b n f => .fin (a != b) (m * n) (e + f)

/-- A quotient to 80 bits and more, the last bit telling whether anything is left: rounding it once rounds the
exact quotient once (R143). -/
def XR.div : XR → XR → XR
  | .nan, _ | _, .nan => .nan
  | .inf _, .inf _ => .nan
  | .inf a, .fin b _ _ => .inf (a != b)
  | .fin a _ _, .inf b => .fin (a != b) 0 0
  | .fin a m e, .fin b n f =>
    if n = 0 then (if m = 0 then .nan else .inf (a != b))
    else if m = 0 then .fin (a != b) 0 0
    else
      let k := 80 + n.log2
      let x := m <<< k
      .fin (a != b) (2 * (x / n) + (if x % n = 0 then 0 else 1)) (e - f - k - 1)

/-- The integer square root, bit by bit from bit k down. -/
def isqrtFrom (n : Nat) : Nat → Nat → Nat
  | 0, r => if (r + 1) * (r + 1) ≤ n then r + 1 else r
  | k + 1, r => isqrtFrom n k (if (r + 2 ^ (k + 1)) * (r + 2 ^ (k + 1)) ≤ n then r + 2 ^ (k + 1) else r)

/-- The integer square root. -/
def isqrt (n : Nat) : Nat := isqrtFrom n (n.log2 / 2 + 1) 0

/-- A square root with a last bit that tells whether anything is left (R143). -/
def XR.sqrt : XR → XR
  | .nan => .nan
  | .inf a => if a then .nan else .inf false
  | .fin a m e =>
    if m = 0 then .fin a 0 0
    else if a then .nan
    else
      let odd := e % 2 ≠ 0
      let m' := (if odd then 2 * m else m) <<< 160
      let r := isqrt m'
      .fin false (2 * r + (if r * r = m' then 0 else 1)) ((if odd then e - 1 else e) / 2 - 80 - 1)

/-- 1 / sqrt x, likewise, with the special inputs of R170. -/
def XR.rsqrt : XR → XR
  | .nan => .nan
  | .inf a => if a then .nan else .fin false 0 0
  | .fin a m e =>
    if m = 0 then .inf a
    else if a then .nan
    else
      let odd := e % 2 ≠ 0
      let m' := if odd then 2 * m else m
      let k := 100 + m'.log2
      let n := 2 ^ (2 * k)
      let r := isqrt (n / m')
      .fin false (2 * r + (if r * r * m' = n then 0 else 1)) (-((if odd then e - 1 else e) / 2) - k - 1)

/-- Whether x is below y; false with a NaN, and zeros are equal (R47). -/
def XR.lt : XR → XR → Bool
  | .nan, _ | _, .nan => false
  | .inf a, .inf b => a && !b
  | .inf a, _ => a
  | _, .inf b => !b
  | .fin a m e, .fin b n f =>
    let q := min e f
    let x : Int := m <<< (e - q).toNat
    let y : Int := n <<< (f - q).toNat
    decide ((if a then -x else x) < (if b then -y else y))

/-- Whether x is a NaN. -/
def XR.isNan : XR → Bool
  | .nan => true
  | _ => false
/-- The sign of x. -/
def XR.sign : XR → Bool
  | .nan => false
  | .inf a => a
  | .fin a _ _ => a
/-- Whether x is a finite number. -/
def XR.isFin : XR → Bool
  | .fin _ _ _ => true
  | _ => false

/-- Ordered equality (R47, R144: -0 equals +0). -/
def XR.eq (x y : XR) : Bool := !x.isNan && !y.isNan && !x.lt y && !y.lt x

/-- Minimum with -0 below +0 (R144). -/
def XR.min (x y : XR) : XR :=
  if x.isNan || y.isNan then .nan
  else if x.lt y then x else if y.lt x then y else if x.sign then x else y
/-- Maximum with -0 below +0 (R144). -/
def XR.max (x y : XR) : XR :=
  if x.isNan || y.isNan then .nan
  else if x.lt y then y else if y.lt x then x else if x.sign then y else x

/-- Floating-point conditions (R47). -/
def condFp (c : Nat) (x y : XR) : Bool :=
  let un := x.isNan || y.isNan
  match c with
  | 0 => x.eq y
  | 1 => un || !x.eq y
  | 2 => x.lt y
  | 3 => !un && !x.lt y
  | 6 => !un && !y.lt x
  | 7 => y.lt x
  | 10 => un
  | 11 => !un
  | _ => false

/-- Fixed point used by the transcendental functions: 320 bits below the point. -/
def fixP : Nat := 320

/-- sum of t / (2k+1) with t multiplied by num^2/den^2 each time: atanh(num/den) in fixed point. -/
def atanhSum (num den : Nat) : Nat → Nat → Nat → Nat → Nat
  | 0, _, _, acc => acc
  | fuel + 1, t, k, acc => atanhSum num den fuel (t * (num * num) / (den * den)) (k + 1) (acc + t / (2 * k + 1))

/-- atanh(num/den) for num/den at most 1/3, in fixed point. -/
def atanhFix (num den : Nat) : Nat := atanhSum num den 110 (2 ^ fixP * num / den) 0 0

/-- ln 2 in fixed point. -/
def ln2Fix : Nat := 2 * atanhFix 1 3

/-- sum of y^k / k! in fixed point. -/
def expSum (y : Nat) : Nat → Nat → Nat → Nat → Nat
  | 0, _, _, acc => acc
  | fuel + 1, t, k, acc => expSum y fuel (t * y / 2 ^ fixP / (k + 1)) (k + 1) (acc + t)

/-- e^y for y below 1, in fixed point. -/
def expFix (y : Nat) : Nat := expSum y 90 (2 ^ fixP) 0 0

/-- 2^x, to be rounded once (R171): exact for integers, else more than 300 bits and a last bit that is set
because the value is never one of those a format holds. -/
def XR.exp2 : XR → XR
  | .nan => .nan
  | .inf a => if a then .fin false 0 0 else .inf false
  | .fin a m e =>
    if 20 ≤ (m.log2 : Int) + e ∧ m ≠ 0 then .fin false 1 (if a then -1000000 else 1000000)
    else
      let x : Int := (m : Int) <<< (e + fixP).toNat
      let x := if a then -x else x
      let n := x / 2 ^ fixP
      let f := (x % 2 ^ fixP).toNat
      if f = 0 then .fin false 1 n
      else .fin false (2 * expFix (f * ln2Fix / 2 ^ fixP) + 1) (n - fixP - 1)

/-- log2 x, likewise (R171). -/
def XR.log2 : XR → XR
  | .nan => .nan
  | .inf a => if a then .nan else .inf false
  | .fin a m e =>
    if m = 0 then .inf true
    else if a then .nan
    else
      let k : Int := m.log2 + e
      if m = 2 ^ m.log2 then XR.ofInt k 0
      else
        let z := atanhFix (m - 2 ^ m.log2) (m + 2 ^ m.log2)
        let t : Int := k * 2 ^ fixP + ((2 * z * 2 ^ fixP / ln2Fix : Nat) : Int)
        if t < 0 then .fin true (2 * t.natAbs - 1) (-(fixP : Int) - 1)
        else .fin false (2 * t.natAbs + 1) (-(fixP : Int) - 1)

/-- tanh x, likewise (R171); from 9 on it is 1. -/
def XR.tanh : XR → XR
  | .nan => .nan
  | .inf a => .fin a 1 0
  | .fin a m e =>
    if m = 0 then .fin a 0 0
    else if (m.log2 : Int) + e < -60 then .fin a (m * 2 ^ 80 - 1) (e - 80)
    else if !(XR.fin false m e).lt (.fin false 9 0) then .fin a 1 0
    else
      let u := m <<< (e + fixP + 1).toNat
      let n := u / ln2Fix
      let x := expFix (u % ln2Fix) <<< n
      .fin a (2 * (((x - 2 ^ fixP) <<< fixP) / (x + 2 ^ fixP)) + 1) (-(fixP : Int) - 1)

/-- The next level of the tree of R147: neighbours combined, an absent one passing the other through (R149). -/
def treeUp {α : Type} (comb : α → α → α) : List (Option α) → List (Option α)
  | x :: y :: l =>
    (match x, y with
      | some a, some b => some (comb a b)
      | some a, none => some a
      | none, o => o) :: treeUp comb l
  | l => l

/-- Levels of the tree from the given one up, n more (R147). -/
def treeLevels {α : Type} (comb : α → α → α) : Nat → List (Option α) → List (List (Option α))
  | 0, l => [l]
  | n + 1, l => l :: treeLevels comb n (treeUp comb l)

/-- Combination of two that may be absent (R149). -/
def combOpt {α : Type} (comb : α → α → α) : Option α → Option α → Option α
  | some a, some b => some (comb a b)
  | some a, none => some a
  | none, o => o

/-- The blocks that make the scan at lane i (R148), from level l down, from `start`. -/
def scanFrom {α : Type} (comb : α → α → α) (levels : List (List (Option α))) (i1 : Nat) :
    Nat → Nat → Option α → Option α
  | 0, start, acc =>
    if bit i1 0 then combOpt comb acc (((levels.getD 0 []).getD start none)) else acc
  | l + 1, start, acc =>
    if bit i1 (l + 1)
    then scanFrom comb levels i1 l (start + 2 ^ (l + 1))
      (combOpt comb acc ((levels.getD (l + 1) []).getD (start / 2 ^ (l + 1)) none))
    else scanFrom comb levels i1 l start acc

/-- The scan of R148 at lane i over 2^n operands. -/
def scanAt {α : Type} (comb : α → α → α) (levels : List (List (Option α))) (n i : Nat) : Option α :=
  scanFrom comb levels (i + 1) n 0 none

/-- The reduction of R147 over 2^n operands. -/
def reduceTree {α : Type} (levels : List (List (Option α))) (n : Nat) : Option α :=
  (levels.getD n []).getD 0 none

/-- The exact sum of terms, with the zero and special rules of R152. -/
def sumExact : List XR → XR
  | [] => .fin false 0 0
  | x :: l => l.foldl (XR.add false) x

/-- Value of an E8M0 scale (R137). -/
def scaleOf (s : Nat) : XR := if s = 255 then .nan else .fin false 1 (s - 127)

/-- Element i of a block: w bits wide from bit w*i of the field, under a scale byte (R139, R140). -/
def blockVal (f field i scale : Nat) : XR :=
  let w := fmtBits f
  XR.mul (scaleOf scale) (decodeF f (bits field (w * i + w - 1) (w * i)))

/-- floor(log2 |x|) of a finite nonzero number. -/
def XR.flog : XR → Int
  | .fin _ m e => m.log2 + e
  | _ => 0
/-- |x|. -/
def XR.abs : XR → XR
  | .nan => .nan
  | .inf _ => .inf false
  | .fin _ m e => .fin false m e
/-- Whether x is a zero. -/
def XR.isZero : XR → Bool
  | .fin _ m _ => m == 0
  | _ => false
/-- x * 2^k. -/
def XR.scale (k : Int) : XR → XR
  | .fin a m e => .fin a m (e + k)
  | x => x

/-- `quantise` of R145: the element encodings and the scale byte. -/
def quantise (f : Nat) (xs : List XR) : List Nat × Nat :=
  if xs.any (fun x => !x.isFin) then (xs.map (fun _ => 0), 255)
  else
    let amax := xs.foldl (fun a x => if a.lt x.abs then x.abs else a) (.fin false 0 0)
    let e : Int := if amax.isZero then -127 else amax.flog - emaxOf f
    let e := min (max e (-127)) 127
    (xs.map (fun x => roundF f 0 (x.scale (-e))), (e + 127).toNat)

/-- Elements packed w bits each, the first lowest (R139). -/
def packBits (w : Nat) : List Nat → Nat
  | [] => 0
  | x :: l => x % 2 ^ w + 2 ^ w * packBits w l

/-- Bytes of a block's element field (R139). -/
def fieldBytes (f : Nat) : Nat := 4 * fmtBits f

/-- The register or memory image of a block: element field, then the scale byte (R139). -/
def blockImage (f : Nat) (q : List Nat × Nat) : Nat :=
  packBits (fmtBits f) q.1 + 2 ^ (8 * fieldBytes f) * q.2

end Sys2Proof.Machine
end

