-- ==== Sys2Proof/Machine/Cipher.lean ====
section
/-! DEFINITION. The encryption of a line in HBM (spec 11 R259): the block cipher AES with a 256-bit key, and its XTS
mode with the line's physical address as tweak. The spec names the cipher; its tables, the two halves of a key and the
byte order are PRESUMED from FIPS 197 and IEEE 1619 (log entry 20). A block is its 16 bytes, column by column. -/
namespace Sys2Proof.Machine
open Sys2Proof

/-- Product in the field of AES. -/
def gfMul (a b : Nat) : Nat :=
  ((List.range 8).foldl (fun (p : Nat × Nat) i =>
    (if bit b i then p.1 ^^^ p.2 else p.1, if p.2 < 128 then 2 * p.2 else (2 * p.2) ^^^ 0x11B)) (0, a)).1
/-- Inverse in the field, 0 for 0: the 254th power. -/
def gfInv (a : Nat) : Nat :=
  ((List.range 7).foldl (fun (p : Nat × Nat) _ => let q := gfMul p.2 p.2; (gfMul p.1 q, q)) (1, a)).1
/-- A byte turned left. -/
def turn8 (x n : Nat) : Nat := (x * 2 ^ n + x / 2 ^ (8 - n)) % 256
/-- The substitution of a byte. -/
def subByte (x : Nat) : Nat :=
  let y := gfInv x
  y ^^^ turn8 y 1 ^^^ turn8 y 2 ^^^ turn8 y 3 ^^^ turn8 y 4 ^^^ 0x63
/-- The substitution undone. -/
def unsubByte (x : Nat) : Nat := gfInv (turn8 x 1 ^^^ turn8 x 3 ^^^ turn8 x 6 ^^^ 5)

/-- Two lists of bytes added. -/
def xorBytes (a b : List Nat) : List Nat := List.zipWith (· ^^^ ·) a b
/-- A number's n bytes, lowest first. -/
def bytesOf (n x : Nat) : List Nat := (List.range n).map (fun i => x / 256 ^ i % 256)
/-- The number of bytes, lowest first. -/
def ofBytes (l : List Nat) : Nat := l.foldr (fun b n => b + 256 * n) 0

/-- The next word of the key schedule; the words so far stand newest first. -/
def nextKeyWord (i : Nat) (ws : List (List Nat)) : List Nat :=
  let last := ws.headD []
  let x :=
    if i % 8 = 0 then
      xorBytes ((last.drop 1 ++ last.take 1).map subByte) [(List.range (i / 8 - 1)).foldl (fun r _ => gfMul r 2) 1, 0, 0, 0]
    else if i % 8 = 4 then last.map subByte else last
  xorBytes (ws.getD 7 []) x
/-- The fifteen round keys of a 256-bit key. -/
def roundKeys (key : Nat) : List (List Nat) :=
  let k := bytesOf 32 key
  let first := ((List.range 8).map (fun i => (k.drop (4 * i)).take 4)).reverse
  let ws := ((List.range 52).foldl (fun ws i => nextKeyWord (i + 8) ws :: ws) first).reverse
  (List.range 15).map (fun r => ((ws.drop (4 * r)).take 4).flatten)

/-- Row r of a block turned left by r, or by 4 - r. -/
def shiftRows (undo : Bool) (b : List Nat) : List Nat :=
  (List.range 16).map (fun i => b.getD (i % 4 + 4 * ((i / 4 + (if undo then 4 - i % 4 else i % 4)) % 4)) 0)
/-- Each column multiplied by the circulant matrix of a row. -/
def mixColumns (row b : List Nat) : List Nat :=
  (List.range 16).map (fun i =>
    (List.range 4).foldl (fun x j => x ^^^ gfMul (row.getD ((j + 4 - i % 4) % 4) 0) (b.getD (i / 4 * 4 + j) 0)) 0)

/-- A block encrypted. -/
def aesEncrypt (key : Nat) (b : List Nat) : List Nat :=
  let ks := roundKeys key
  (List.range 14).foldl (fun b r =>
    let c := shiftRows false (b.map subByte)
    xorBytes (if r = 13 then c else mixColumns [2, 3, 1, 1] c) (ks.getD (r + 1) [])) (xorBytes b (ks.headD []))
/-- A block decrypted. -/
def aesDecrypt (key : Nat) (b : List Nat) : List Nat :=
  let ks := roundKeys key
  (List.range 14).foldl (fun b r =>
    let c := xorBytes b (ks.getD (14 - r) [])
    shiftRows true (if r = 0 then c else mixColumns [14, 11, 13, 9] c) |>.map unsubByte) b |>.zipWith (· ^^^ ·) (ks.headD [])

/-- The tweak of the next block. -/
def nextTweak (t : Nat) : Nat := if t < 2 ^ 127 then 2 * t else (2 * t % 2 ^ 128) ^^^ 0x87
/-- A line of eight blocks under a key of two halves: the low one for the data, the high one for the tweak. -/
def xtsLine (block : Nat → List Nat → List Nat) (key pa data : Nat) : Nat :=
  let t := ofBytes (aesEncrypt (key / 2 ^ 256) (bytesOf 16 pa))
  ((List.range 8).foldl (fun (p : Nat × Nat) i =>
    let x := (data / 2 ^ (128 * i) % 2 ^ 128) ^^^ p.2
    (p.1 + (ofBytes (block (key % 2 ^ 256) (bytesOf 16 x)) ^^^ p.2) * 2 ^ (128 * i), nextTweak p.2)) (0, t)).1

/-- What a line written under a key reads as under another, at a physical address (R259): n + 1 stands for the key n,
and 0 for none, under which a line is as it is. -/
def crossRead (kw kr pa : Nat) (written : BitVec 1024) : BitVec 1024 :=
  let stored := if kw = 0 then written.toNat else xtsLine aesEncrypt (kw - 1) pa written.toNat
  BitVec.ofNat 1024 (if kr = 0 then stored else xtsLine aesDecrypt (kr - 1) pa stored)

end Sys2Proof.Machine
end

