-- ==== Sys2Proof/Config.lean ====
section
/-! DEFINITION. What the spec leaves to an implementation or to the world outside, as constants without a
body (so that nothing can be proved of a value), and the fixed figures of the device (spec 00 R2, R9). -/
namespace Sys2Proof

/-- The choices the spec leaves open at one step, as plain data: whether the core cycle ends once its
issues are done (timing, log entry 2), which of the movers goes (entry 1), whether hints are given (R9, R20), whether a copy
or a stored translation serves a read and whether a read leaves one (R258, R260, R262), which free number a
tag or a thread context takes, a router that begins to refuse (R20), boot results (R387), and
what the world outside sends next (R380, R385). DESIGN CHOICE, log entry 1. -/
structure Oracle where
  elapse : Bool
  pick : Nat
  miss : Bool
  hit : Bool
  fill : Bool
  tlb : Bool
  seed : Nat
  busy : Option Nat
  fail : Nat
  input : Option Instr
  deriving DecidableEq, Repr, Inhabited

/-- What a sensor reads (R385, R390, R387): a temperature or rail power; a die's energy total in a class; a count of errors
by its number; an energy weight; the units of a boot step that are in service. -/
inductive SensorKind where
  | analog
  | energy (die cls : Nat)
  | errors (n : Nat)
  | weight (cls kind : Nat)
  | units (step : Nat)
  deriving DecidableEq, Repr, Inhabited

namespace Config

/-- The n-th draw of the open choices. No body: free (log entry 1). -/
opaque oracle : Nat → Oracle

/-- The key, of two halves of 256 bits, that unwrapping a wrapped key gives (R382 KEY). Free, log entry 20. -/
opaque unwrap (wrapped : Nat) : Nat
/-- What a PLDM sensor reads (R385). Free, log entry 21. -/
opaque sensorKind (id : Nat) : SensorKind
/-- The reading of a temperature or of rail power at the n-th draw (R385). Free, log entry 21. -/
opaque sensor (id n : Nat) : Nat
/-- The signature under the module's identity key (R388). Free, log entry 21. -/
opaque signed (nonce boot running record : Nat) : Nat
/-- The anti-rollback counter (R388). Free, log entry 21. -/
opaque rollback : Nat
/-- Whether an image's signature verifies against the fused key (R388). Free, log entry 21. -/
opaque signatureOk (image : Nat) : Bool
/-- The version an image carries (R388). Free, log entry 21. -/
opaque imageVersion (image : Nat) : Nat
/-- The energy weight of an event of a class, in 2^-32 microjoule (R390: fixed by firmware). Free, entry 22. -/
opaque energyWeight (cls kind : Nat) : Nat
/-- What the counts of blocks that the model does not keep, L2 hits and misses and frames, have run since the last latch
(R370). Free, log entry 23. -/
opaque blockCount (block which n : Nat) : BitVec 48

/-- First address of a context's link table, in lines of 128 bytes: the table has one, and no message states it (R344,
R346). Free, log entry 33. -/
opaque linkTable (ctx : Nat) : Nat
/-- The port through which a peer's endpoint is reached (R269: the remote map names it, and no message states how). Free,
log entry 48. -/
opaque remotePort (peer ep : Nat) : Nat
/-- A word whose value the spec does not state, at the n-th use of a place of the model: 0 a trace record's PC, 1 a
command's unit, 2 an accumulator, 3 a remote page, 4 a lane. Free, log entry 26. -/
opaque freeWord (place n : Nat) : Word

/-- Enabled cores of the module (R3). -/
def cores : Nat := 1536
/-- Thread contexts of a core (R3). -/
def tids : Nat := 16
/-- First physical address past the program frames (R252). -/
def hbmTop : Nat := 0x5A00000000
/-- Key of the first scratchpad byte in the model's one memory: the scratchpads stand above every HBM
address (log entry 4). -/
def scratchKey : Nat := 0x10000000000
/-- Bytes of a scratchpad (R254). -/
def scratchSize : Nat := 0x80000
/-- What a byte of memory that nothing has written reads as. DESIGN CHOICE, log entry 3. -/
def blank : Byte := 0

end Config
end Sys2Proof
end

