-- ==== Sys2Proof/Machine/State.lean ====
section
/-! DEFINITION. The machine's state: plain data, holding all the spec gives the machine (INVENTORY.md,
'## State'), the reasons a step can stop, and the state right after reset. -/
namespace Sys2Proof.Machine
open Sys2Proof

/-- A register with its state (R11): FULL with a value, EMPTY, PEND with a producer tag, POIS with a poison
word. -/
inductive Slot (w : Nat) where
  | full (v : BitVec w)
  | empty
  | pend (t : Tag)
  | pois (p : Word)
  deriving DecidableEq, Repr

/-- Why a thread is out of the rotation (R286); `over`: its fence wait has ended, and the instruction that waited goes on in
place (R101). -/
inductive Wait where
  | fence | fetch | reply | over
  deriving DecidableEq, Repr

/-- A thread's course (R21, R286, R299, R375). `stopped` carries the stop's cause (comparator number, 4 for
`brk`, 5 for stop-all). -/
inductive Run where
  | ready
  | parked (o : WObj) (oc : OC)
  | waiting (w : Wait)
  | stopped (why : Nat)
  | halted
  deriving DecidableEq, Repr

/-- How the units of an access make its destinations' values (R106, R159-R164); `mask` is a
compound store (R163); `seq` units go one after the other (R129). -/
inductive Assemble where
  | none
  | scalar (sx : Bool) (size : Nat)
  | line (mask : BitVec 32)
  | lanes
  | rows
  | mask
  | seq
  deriving DecidableEq, Repr

/-- An access of a thread that is not yet acknowledged, or whose fault is held or being handled (R101, R303).
`cw` holds the recorded fields of the cause word (R302); `pois` its poisoned units, each with its poison word; `req` is the request of a guard or queue operation, to
make again at a replay (R305). -/
structure Pending where
  id : Nat
  pc : Word
  cw : Word
  addr : Word
  data : Word
  prog : Word
  units : List (Access × Bool)
  tags : List Tag
  got : List (Nat × BitVec 1024)
  pois : List (Nat × Word)
  asm : Assemble
  fault : Option (Nat × FaultInfo)
  req : Option Instr
  deriving DecidableEq, Repr

/-- A command fault held for its thread, with the command's instruction and word (R180, R301, R304); `reg` is the operand
code of the poisoned condition of a command that was discarded for it, 60 else (R309). -/
structure CmdFault where
  cmd : Nat
  pc : Word
  word : Word
  transfer : Bool
  f : FaultInfo
  reg : Nat
  deriving DecidableEq, Repr

/-- What the record being handled carries (R180, R305). -/
inductive Trapped where
  | access (p : Pending)
  | command (id : Nat)
  | none
  deriving DecidableEq, Repr

/-- A thread (R10, R24, R30). `pend` are its accesses in flight in issue order; `nextIssue` is the first cycle it
may issue again (R286); `entryId` is the number the next access had at the current trap entry (R298);
`reserved` names the buffer whose entry it has reserved: 0 outbound, 1 matrix queue, 2 transfer queue (R201), and `cguard` the
condition of the engine command that has reserved one, as it was at its issue (R178);
`yielded` are the threads it lets go first (R90); `skipCmp` lets it pass the comparators once (R374); `bySeq`
says that its PC came by sequential advance (R74); `icount` counts its instructions and traps, from 2^64 times the number of threads
that the replay log has in its thread context before it (R377); `prods` gives by operand code the class of the last producer that
delivered to a register, 0 for one not listed (R270). -/
structure Thread where
  ref : TRef
  fam : Family
  g : Vector (Slot 64) 16
  v : Vector (Slot 1024) 32
  k : Vector (Slot 32) 8
  pc : Word
  ts : Word
  wg : Word
  trp : Word
  lc : Vector (BitVec 32) 2
  ls : Vector Word 2
  le : Vector Word 2
  ras : List Word
  holds : List Hold
  handed : List (Nat × Hold)
  arrived : List (Nat × Nat)
  marks : List Nat
  wakeRight : Option Word
  run : Run
  pend : List Pending
  cmdFaults : List CmdFault
  trapped : Trapped
  seqs : List Nat
  acq : Option Tag
  reserved : Option Nat
  cguard : Option CGuard
  fetched : Bool
  nextIssue : Nat
  entryId : Nat
  yielded : List TRef
  skipCmp : Bool
  bySeq : Bool
  icount : Nat
  prods : List (Nat × Nat)
  deriving DecidableEq, Repr

/-- Pod and accumulator states (R28). A PEND object is one that a queued command is to write (R179): it is found
from the queues, and what stands here is what the object has without them. -/
inductive PodSt where
  | free | empty | pend | full | pois (p : Word)
  deriving DecidableEq, Repr

/-- A Pod: state, claimant, format tag, rows and side arrays (R185-R189). -/
structure Pod where
  st : PodSt
  owner : Option Nat
  fmt : Option (Nat × Bool)
  rows : List (BitVec 4096)
  side : List (BitVec 256)
  deriving DecidableEq, Repr

/-- An accumulator: state, claimant, MODE, elements row by row (R185). -/
structure Acc where
  st : PodSt
  owner : Option Nat
  mode : BitVec 2
  el : List (BitVec 32)
  deriving DecidableEq, Repr

/-- The arm of a completion counter (R215); `since` is the first cycle in which it may fire. -/
structure Arm where
  entry : Word
  target : BitVec 32
  fam : Family
  since : Nat
  deriving DecidableEq, Repr

/-- A completion counter (R28, R213-R215). -/
structure Counter where
  val : BitVec 32
  arm : Option Arm
  owner : Option Nat
  deriving DecidableEq, Repr

/-- A queue: descriptor's scratchpad offset in the core, slot, owner, capacity, HEAD, items (R206), each with whether it is
of a token record, whose receipt is a Husk notification's (R237); `turn` is the cycle,
sender and number of the last remote operation on it (R210). -/
structure Queue where
  off : Nat
  qid : Nat
  ctx : Nat
  cap : Nat
  head : Nat
  items : List (Word × Bool)
  turn : Option (Nat × Nat × Nat)
  deriving DecidableEq, Repr

/-- A context's residency on a core (R273). -/
structure Resident where
  slot : Nat
  ctx : Nat
  mask : Nat
  base : Nat
  size : Nat
  ptr : Nat
  deriving DecidableEq, Repr

/-- A command that has started (R177): the accesses it makes, its units that are done, what its accesses brought
(unit, part, data), the poisoned units and the lowest faulting one, its stage, a position or an end cycle, and the
rows it drains. -/
structure Started where
  cmd : Cmd
  need : List Access
  doneUnits : List Nat
  got : List (Nat × Nat × BitVec 1024)
  pois : List (Nat × Word)
  fault : Option (Nat × FaultInfo)
  stage : Nat
  pos : Nat
  rows : List (List (BitVec 32))
  deriving DecidableEq, Repr

/-- One of the two queues of a context on a core (R176, R202): waiting commands, started commands, commands
whose fault has not been returned from (R180), and the drain profile (R194; used by the matrix queue). -/
structure CmdQueue where
  core : Nat
  ctx : Nat
  waiting : List Cmd
  started : List Started
  faulted : List Nat
  deriving DecidableEq, Repr

/-- The drain profile of a context on a core (R194). -/
structure Profile where
  lo : BitVec 32
  exp : BitVec 32
  stride : Word
  seg : List (BitVec 32 × BitVec 32)
  deriving DecidableEq, Repr

/-- A module core (R28). `latch` holds the inbound latches, `latch0` what they held at the start of the cycle, which is
what its reads and its neighbours' writes see (R15); `banks` gives for each scratchpad bank the first cycle in which
it is free, 0 for one not listed (R254). `issued`, `parks` and `retries` are its snapshot counters: instructions issued and threads
parked for each resident slot, RETRY refusals given (R370); `lastIssue` is the cycle of its last issue (R287). -/
structure Core where
  id : Nat
  pods : Vector Pod 16
  accs : Vector Acc 4
  counters : Vector Counter 64
  queues : List Queue
  latch : Vector (Option Word) 4
  latch0 : Vector (Option Word) 4
  banks : List Nat
  portOwner : Option Nat
  depLatch : List Deposit
  inbox : List Msg
  outbox : List Instr
  slotTable : List (BitVec 4)
  residents : List Resident
  mq : List CmdQueue
  tq : List CmdQueue
  profiles : List (Nat × Profile)
  refusing : Bool
  issued : Vector Nat 4
  parks : Vector Nat 4
  retries : Nat
  lastIssue : Option Nat
  deriving DecidableEq, Repr

/-- A guard (R124). -/
structure Guard where
  excl : Bool
  holder : Nat
  count : Nat
  sharers : Nat
  deriving DecidableEq, Repr

/-- A range of guards with its scope and the cores of its domain (R240). -/
structure GScope where
  first : Nat
  last : Nat
  scope : Nat
  c0 : Nat
  c1 : Nat
  deriving DecidableEq, Repr

/-- A host queue of a context (R280, R345, R380): next sequence number, stub, die, link view, launches
posted and not yet started (record, sequence number). -/
structure HQueue where
  id : Nat
  next : Nat
  stub : Word
  die : Nat
  view : Nat
  posted : List (Nat × Nat)
  starting : Option Nat
  deriving DecidableEq, Repr

/-- One launch, or the root thread's own one-level group (R274-R284): record, queue, slot, levels, placement,
starts, exits, the record of barrier completions and open arrivals, join and link view. -/
structure Launch where
  uid : Nat
  ctx : Nat
  queue : Option Nat
  seq : Nat
  record : Nat
  slot : Nat
  root : Bool
  ext : List Nat
  dom : List Nat
  placed : List (List Nat × Nat × Nat)
  toStart : List Nat
  exits : List (Nat × Word)
  comps : List (Nat × List Nat)
  arrivals : List (Nat × List Nat × Nat)
  fam : Family
  entry : Word
  stk : Word
  stkSize : Word
  arg : Word
  link : Word
  exw : Nat
  join : Option (Nat × Nat)
  done : Bool
  deriving DecidableEq, Repr

/-- A key of the replay log (R377): what kind of result, of which object. -/
inductive RevKey where
  | word (key : Nat) | guard (idx : Nat) | queue (core off : Nat) | reg (agent code : Nat)
  | thread (agent icount : Nat) | timing (agent icount : Nat) | start (agent core : Nat) (reply : Bool) | line (key : Nat)
  | slot (die slot : Nat)
  deriving DecidableEq, Repr

/-- An entry of the replay log (R377): the key, the agent served, the value or outcome, and whether REPLAY has used it. -/
structure RevEntry where
  key : RevKey
  agent : Nat
  val : Word
  used : Bool
  deriving DecidableEq, Repr

/-- A context (R272, R382). `replay`: 0 OFF, 1 RECORD, 2 REPLAY; `retired` are its retired launch slots, each with the
round of every die's ager at whose end it is free (R283); `refused` are the launch records of no launch that stands: refused,
or over and forgotten (R274). -/
structure Ctx where
  id : Nat
  mode : Word
  energy : List (Nat × List Nat)
  coreMap : List (Nat × Nat)
  root : Option Nat
  tfb : Nat
  gbase : Nat
  gsize : Nat
  linkGuard : Nat
  evAddr : Nat
  evEp : Nat
  guards : List (Nat × Guard)
  scopes : List GScope
  queues : List HQueue
  quota : List (Nat × Nat)
  ceil : List (Nat × Nat)
  retired : List (Nat × List Nat)
  spillPages : List Nat
  remotes : List (Nat × Nat × Nat × Nat)
  refused : List Nat
  dbg : Bool
  addrm : Vector Word 4
  trace : BitVec 8
  replay : Nat
  log : List RevEntry
  logPages : Nat
  portHolds : List (Nat × Hold)
  deriving DecidableEq, Repr

/-- What an entry of a landing table brings (R313): a delivery, the fault reply of an access, the fault of a command. -/
inductive Landing where
  | value (d : Delivery)
  | fault (t : TRef) (acc unit : Nat) (f : FaultInfo)
  | command (t : TRef) (f : CmdFault)
  deriving DecidableEq, Repr

/-- A core image (R293), with the pending log (R295) and the landing table (R313), each of whose entries has its words;
`dump` is the cycle in which a live dump stopped the core, none for an eviction (R372). -/
structure Image where
  ctx : Nat
  core : Nat
  region : Nat
  complete : Bool
  threads : List Thread
  state : Core
  log : List Instr
  landing : List (Landing × List Word)
  dump : Option Nat
  deriving DecidableEq, Repr

/-- An entry of a waiter list (R288): object, thread, parked or ticket, the cycle of its last not-ready
outcome (R289), the counter target it waits for (R214), and the reservation it has with its end, 0 for none
(R290). -/
structure Waiter where
  id : Nat
  obj : WObj
  ctx : Nat
  t : TRef
  agent : Nat
  parked : Bool
  shared : Bool
  last : Nat
  amount : Nat
  reserved : Option Nat
  req : Option GuardReq
  deriving DecidableEq, Repr

/-- An entry of the holding buffer, or of its spill (R267, R268): word key, binding, updates with issuers in the order
received, and the place of its spill record where it is spilled. -/
structure HeldWord where
  key : Nat
  ctx : Nat
  guarded : Bool
  bd : Nat
  ups : List (FOp × Nat × BitVec 32)
  spilled : Option Nat
  deriving DecidableEq, Repr

/-- A copy of a line in a near cache (`near`) or remote-data cache (R260), as it reads under a key (R259). -/
structure Copy where
  near : Bool
  place : Nat
  ctx : Nat
  line : Nat
  md : BitVec 64
  data : BitVec 1024
  key : Nat
  deriving DecidableEq, Repr

/-- A stored translation (R258): in the micro-TLB of module core `core`, or in the shared TLB of die `core`. -/
structure Tlb where
  core : Nat
  ctx : Nat
  va : Nat
  size : Nat
  entry : Word
  deriving DecidableEq, Repr

/-- The metadata ager of a die (R265): when its round began, the lines it has visited in it, and the rounds it has
finished. -/
structure Ager where
  die : Nat
  start : Nat
  seen : List Nat
  rounds : Nat
  deriving DecidableEq, Repr

/-- The shadow of a link-table line (R344). -/
structure Shadow where
  line : Nat
  data : BitVec 1024
  sp : Nat
  valid : Bool
  deriving DecidableEq, Repr

/-- States of a Husk slot (R231). -/
inductive HSt where
  | free | open_ | releasing | written
  deriving DecidableEq, Repr

/-- A Husk slot (R224-R231). `gen` is its open count; `hold` its hold on the output guard; `ended` the reference
nanosecond at which its release ended; `word8` word 0x08 of its token record. -/
structure HSlot where
  idx : Nat
  gen : Nat
  st : HSt
  ctx : Nat
  desc : List Word
  acc : List (BitVec 32)
  arr : BitVec 8
  sub : BitVec 8
  applied : BitVec 8
  lines : List (Nat × Nat × BitVec 1024)
  opened : Nat
  core : Nat
  outf : Bool
  futures : List (TRef × Tag)
  word8 : Word
  hold : Option Hold
  ended : Nat
  aborted : Bool
  deriving DecidableEq, Repr

/-- The Husk of a die (R224, R232). -/
structure Husk where
  die : Nat
  slots : List HSlot
  opens : Nat
  late : Nat
  deriving DecidableEq, Repr

/-- A ring of a die (R311, R391): kind, base, k, HEAD, TAIL, DROP, whether the overflow event of its HEAD has
been raised, and the records collected in this tick with their sorting key. -/
structure Ring where
  kind : Nat
  die : Nat
  base : Nat
  k : Nat
  head : Nat
  tail : Nat
  drop : Nat
  raised : Bool
  coll : List (Nat × Nat × List Word × List Instr)
  deriving DecidableEq, Repr

/-- A completion sent to the host (R380): context, queue, sequence number, status, value. -/
structure Completion where
  h : Hdr
  status : Nat
  val : Word
  deriving DecidableEq, Repr

/-- An event record (R384): kind, context, context core, thread, info, time; and the core cycle, by which the stops of one
are ordered (R375). -/
structure Event where
  kind : Nat
  ctx : Option Nat
  core : Nat
  tid : Nat
  info : Word
  time : Nat
  cycle : Nat
  deriving DecidableEq, Repr

/-- The management lock (R386): whether the side band holds it, the end of its lease, when its holder last asked, when the
side band last asked in vain, and whether its lease's end has been noted. -/
structure Lock where
  side : Bool
  fin : Nat
  asked : Nat
  tried : Option Nat
  ended : Bool
  deriving DecidableEq, Repr

/-- An RMA access on its way (R381): context, number, lines not yet answered, the bytes read, whether none was refused. -/
structure RmaOpen where
  ctx : Nat
  seq : Nat
  left : Nat
  data : Nat
  ok : Bool
  deriving DecidableEq, Repr

/-- The management side (R385-R388): lock, linked ports, next boot step (8 when booted, 0 when a step failed and the
module waits for its next start), step record, firmware images in slots A and B, the running image, anti-rollback
counter, fenced units (step, unit), links at a lower rate, columns (die, column) that a spare column replaces, and the answers
sent over the side band. -/
structure Mgmt where
  lock : Option Lock
  ports : List Nat
  step : Nat
  record : List (Nat × Nat × Nat)
  slotA : Nat
  slotB : Nat
  running : Nat
  rollback : Nat
  fenced : List (Nat × Nat)
  slow : List Nat
  spare : List (Nat × Nat)
  side : List Nat
  deriving DecidableEq, Repr

/-- Pulse and snapshot (R367-R371); `latched` are the snapshot registers of the blocks. -/
structure Probe where
  pulsep : Nat
  nextPulse : Nat
  snapctl : Word
  latchAt : Option Nat
  src : BitVec 4
  latched : List (Nat × List (BitVec 48))
  deriving DecidableEq, Repr

/-- A completion that waits (R383): until every access in `accs` is acknowledged, every core in `out` is evicted, and
every core in `back` has resumed. -/
structure Defer where
  h : Hdr
  accs : List Nat
  out : List Nat
  back : List Nat
  deriving DecidableEq, Repr

/-- The state of the module. `cur`, `oracle` and `draws` are the model's own (log entry 1); `nextId` counts
requests, commands, starts and launches (entry 4). `stage` is how far the core cycle has come in the order of R18: 0
while cores issue, then the number of the last part that has run. `cmdNext` is the next SEQ of the command endpoint (R383); `owners`
names the context (plus 1) in whose space each stamped line was written, which its page's owner is (R265). `waits` says that the message just looked at stays among the inputs, and `answers` holds the completions that are sent again
(R380); `blocks` are the thread blocks of stopped threads in a live dump, each with its place and the thread as the block gave it when
it was written (R293, R372, R375; log entry 32); `counts` are the running counts of the snapshot blocks, by block and place (R370). -/
structure State where
  cycle : Nat
  stage : Nat
  thirds : Nat
  oracle : Oracle
  draws : Nat
  cur : TRef
  nextId : Nat
  inputs : List Instr
  waits : Bool
  flight : List Instr
  mem : List Host.Cell
  lines : List (Nat × BitVec 64)
  poison : List (Nat × BitVec 4)
  lineKeys : List (Nat × Nat)
  owners : List (Nat × Nat)
  held : List HeldWord
  shadows : List Shadow
  copies : List Copy
  tlbs : List Tlb
  shared : List Tlb
  agers : List Ager
  keys : List (Nat × Nat)
  threads : List Thread
  cores : List Core
  ctxs : List Ctx
  launches : List Launch
  images : List Image
  blocks : List (Nat × Thread)
  waiters : List Waiter
  advances : List (Nat × Bool × Nat × Nat)
  capped : List Instr
  husks : List Husk
  rings : List Ring
  probe : Probe
  droopth : Word
  droopEnd : Option Nat
  nextStatic : Nat
  errors : List (Nat × Nat)
  counts : List (Nat × Nat)
  mgmt : Mgmt
  cmdNext : Nat
  defers : List Defer
  done : List Completion
  answers : List Completion
  events : List Event
  rmaOpen : List RmaOpen
  rmaOut : List (Nat × Nat × Option Nat)
  deriving DecidableEq, Repr

/-- The reasons a step can stop. -/
inductive Fault where
  /-- Raised by every instruction of a thread when the model's own field `cur` names no thread of the state:
  `step` always sets it to a thread it found ready, so no run meets this. Safe. -/
  | noThread
  deriving DecidableEq, Repr

/-- The reasons an instruction is refused. -/
inductive Refusal where
  /-- Raised by an arm of `exec` whose meaning is not written. Safe. -/
  | notModelled (mnemonic : String)
  deriving DecidableEq, Repr

/-- A FREE Pod (R28, R185). -/
def Pod.reset : Pod := ⟨.free, none, none, [], []⟩
/-- A FREE accumulator (R28). -/
def Acc.reset : Acc := ⟨.free, none, 0, []⟩
/-- A counter of no context (R28). -/
def Counter.reset : Counter := ⟨0, none, none⟩

/-- A core that holds nothing (log entry 4). -/
def Core.reset (id : Nat) : Core where
  id := id
  pods := Vector.replicate 16 Pod.reset
  accs := Vector.replicate 4 Acc.reset
  counters := Vector.replicate 64 Counter.reset
  queues := []
  latch := Vector.replicate 4 none
  latch0 := Vector.replicate 4 none
  banks := []
  portOwner := none
  depLatch := []
  inbox := []
  outbox := []
  slotTable := []
  residents := []
  mq := []
  tq := []
  profiles := []
  refusing := false
  issued := Vector.replicate 4 0
  parks := Vector.replicate 4 0
  retries := 0
  lastIssue := none

/-- The draw in force at reset (log entry 1). -/
def Oracle.reset : Oracle := ⟨false, 0, false, false, false, false, 0, none, 0, none⟩

/-- The snapshot registers of every block before the first latch (R370): zeros, for R370 gives them no reset value (DESIGN
CHOICE, log entry 4). -/
def Probe.blocks : List (Nat × List (BitVec 48)) :=
  let zeros (first blocks counters : Nat) : List (Nat × List (BitVec 48)) :=
    (List.range blocks).map (fun b => (first + b, List.replicate counters 0))
  zeros 0 Config.cores 9 ++ zeros 2000 256 4 ++ zeros 3000 4 2 ++ zeros 4000 256 1 ++ zeros 5000 16 2

/-- The module right after reset (R386, R387): no context, no thread, memory with nothing listed, boot at
step 1. Values the spec does not state are named in log entry 4. -/
def State.reset : State where
  cycle := 0
  stage := 0
  thirds := 0
  oracle := Oracle.reset
  draws := 0
  cur := ⟨0, 0, 0⟩
  nextId := 0
  inputs := []
  waits := false
  flight := []
  mem := []
  lines := []
  poison := []
  lineKeys := []
  owners := []
  held := []
  shadows := []
  copies := []
  tlbs := []
  shared := []
  agers := []
  keys := []
  threads := []
  cores := []
  ctxs := []
  launches := []
  images := []
  blocks := []
  waiters := []
  advances := []
  capped := []
  husks := []
  rings := []
  probe := ⟨0, 0, 0, none, 0, Probe.blocks⟩
  droopth := 0
  droopEnd := none
  nextStatic := 3000
  errors := []
  counts := []
  mgmt := ⟨none, [], 1, [], 0, 0, 0, Config.rollback, [], [], [], []⟩
  cmdNext := 0
  defers := []
  done := []
  answers := []
  events := []
  rmaOpen := []
  rmaOut := []

end Sys2Proof.Machine
end

