-- ==== Sys2Proof/Machine/Mem.lean ====
section
/-! DEFINITION. Sparse tables in one canonical form: memory bytes, line metadata, poison marks, line keys; wide
reads and writes little-endian (spec 00 R5, 05 R100, R119). -/
namespace Sys2Proof.Machine
open Sys2Proof

/-- The value at a key of a table whose unlisted keys hold `d`. Keys rise, so the search may stop early. -/
def tabGet {α : Type} (d : α) : List (Nat × α) → Nat → α
  | [], _ => d
  | (k, v) :: l, a => if a = k then v else if a < k then d else tabGet d l a

/-- A table with a key set; setting `d` removes the entry. -/
def tabSet {α : Type} [DecidableEq α] (d : α) : List (Nat × α) → Nat → α → List (Nat × α)
  | [], a, v => if v = d then [] else [(a, v)]
  | (k, w) :: l, a, v =>
    if a < k then (if v = d then (k, w) :: l else (a, v) :: (k, w) :: l)
    else if a = k then (if v = d then l else (a, v) :: l)
    else (k, w) :: tabSet d l a v

/-- The canonical form: keys strictly rising from `lo`, no entry equal to the default. -/
def tabWf {α : Type} [DecidableEq α] (d : α) : Nat → List (Nat × α) → Bool
  | _, [] => true
  | lo, (k, v) :: l => decide (lo ≤ k) && decide (v ≠ d) && tabWf d (k + 1) l

/-- One byte of memory (log entry 3 for a byte that nothing has written). -/
def Memory.read (m : List Host.Cell) (a : Nat) : Byte := tabGet Config.blank m a
/-- Memory with one byte set. -/
def Memory.write (m : List Host.Cell) (a : Nat) (b : Byte) : List Host.Cell := tabSet Config.blank m a b
/-- The canonical form of memory. -/
def Memory.wf (m : List Host.Cell) : Bool := tabWf Config.blank 0 m

/-- The n bytes from a, lowest first, as a number (R5). -/
def Memory.readN (m : List Host.Cell) : Nat → Nat → Nat
  | 0, _ => 0
  | n + 1, a => (Memory.read m a).toNat + 256 * Memory.readN m n (a + 1)

/-- Memory with the n low bytes of x stored from a (R5). -/
def Memory.writeN (m : List Host.Cell) : Nat → Nat → Nat → List Host.Cell
  | 0, _, _ => m
  | n + 1, a, x => Memory.writeN (Memory.write m a (BitVec.ofNat 8 x)) n (a + 1) (x / 256)

/-- Memory with those of the n bytes from a whose enable bit is set replaced (R159). `i` is the position of
the first byte in the enable mask. -/
def Memory.writeBe (m : List Host.Cell) (be : Nat) : Nat → Nat → Nat → Nat → List Host.Cell
  | 0, _, _, _ => m
  | n + 1, a, x, i =>
    Memory.writeBe (if bit be i then Memory.write m a (BitVec.ofNat 8 x) else m) be n (a + 1) (x / 256) (i + 1)

/-- The line of a byte key (R100: 128 bytes). -/
def lineOf (a : Nat) : Nat := a / 128

/-- A line's metadata (R119); FREE when nothing is listed. -/
def State.md (s : State) (line : Nat) : BitVec 64 := tabGet 0 s.lines line
/-- A state with a line's metadata set. -/
def State.setMd (s : State) (line : Nat) (m : BitVec 64) : State := { s with lines := tabSet 0 s.lines line m }
/-- A state with the context of a stamped line noted (R265). -/
def State.setOwner (s : State) (line ctx : Nat) : State := { s with owners := tabSet 0 s.owners line (ctx + 1) }
/-- The context of a stamped line. -/
def State.ownerOf (s : State) (line : Nat) : Nat := tabGet 0 s.owners line - 1
/-- A line's poison kind, 0 when clear (R103, R270). -/
def State.pois (s : State) (line : Nat) : BitVec 4 := tabGet 0 s.poison line
/-- A state with a line's poison kind set. -/
def State.setPois (s : State) (line : Nat) (k : BitVec 4) : State := { s with poison := tabSet 0 s.poison line k }
/-- The key, plus 1, that a line was last written under (R259); 0 is plaintext. -/
def State.lineKey (s : State) (line : Nat) : Nat := tabGet 0 s.lineKeys line

/-- The 128 bytes of a line as they read under a key (R259). -/
def State.lineData (s : State) (line key : Nat) : BitVec 1024 :=
  let stored := BitVec.ofNat 1024 (Memory.readN s.mem 128 (128 * line))
  if s.lineKey line = key then stored else crossRead (s.lineKey line) key (128 * line) stored

/-- The line as it is under a key: a write under another key first turns the line (R259). -/
def State.rekey (s : State) (line key : Nat) : State :=
  if s.lineKey line = key then s
  else { s with mem := Memory.writeN s.mem 128 (128 * line) (s.lineData line key).toNat
                lineKeys := tabSet 0 s.lineKeys line key }

/-- n bytes from a, within one line, under a key. -/
def State.load (s : State) (a n key : Nat) : Nat :=
  bits (s.lineData (lineOf a) key).toNat (8 * (a % 128 + n) - 1) (8 * (a % 128))

/-- A state with n bytes stored from a, within one line, under a key. -/
def State.store (s : State) (a n key x : Nat) : State :=
  let s := s.rekey (lineOf a) key
  { s with mem := Memory.writeN s.mem n a x }

/-- A state with the enabled bytes of n bytes from a stored (R159). -/
def State.storeBe (s : State) (a n key x : Nat) (be : BitVec 128) : State :=
  let s := s.rekey (lineOf a) key
  { s with mem := Memory.writeBe s.mem be.toNat n a x 0 }

/-- Metadata field ST (R119): 0 FREE, 1 PHASED, 2 GUARDED, 3 PUBLISHED. -/
def mdST (m : BitVec 64) : Nat := bits m.toNat 63 62
/-- AT. -/
def mdAT (m : BitVec 64) : Bool := bit m.toNat 61
/-- WR. -/
def mdWR (m : BitVec 64) : Nat := bits m.toNat 60 41
/-- BD. -/
def mdBD (m : BitVec 64) : Nat := bits m.toNat 40 19
/-- SP. -/
def mdSP (m : BitVec 64) : Nat := bits m.toNat 18 3
/-- SC. -/
def mdSC (m : BitVec 64) : Nat := bits m.toNat 2 0

/-- Metadata of its fields (R119). -/
def mkMd (st : Nat) (at_ : Bool) (wr bd sp sc : Nat) : BitVec 64 :=
  BitVec.ofNat 64 (st % 4 * 2 ^ 62 + at_.toNat * 2 ^ 61 + wr % 2 ^ 20 * 2 ^ 41 + bd % 2 ^ 22 * 2 ^ 19
    + sp % 2 ^ 16 * 8 + sc % 8)

end Sys2Proof.Machine
end

