-- ==== Sys2Proof/Machine/Look.lean ====
section
/-! DEFINITION. Looking up and replacing the parts of the state: threads, cores, contexts, launches; the
numbering of cores and dies (spec 00 R3, 12 R272, R278); time (00 R6). -/
namespace Sys2Proof.Machine
open Sys2Proof

/-- The thread of a reference. -/
def State.thread? (s : State) (r : TRef) : Option Thread := s.threads.find? (fun t => t.ref == r)
/-- The thread that issues. -/
def State.curThread (s : State) : Option Thread := s.thread? s.cur
/-- A state with a thread replaced, found by its reference. -/
def State.setThread (s : State) (t : Thread) : State :=
  { s with threads := s.threads.map (fun x => if x.ref == t.ref then t else x) }
/-- A state with a function applied to one thread. -/
def State.updThread (s : State) (r : TRef) (f : Thread → Thread) : State :=
  { s with threads := s.threads.map (fun x => if x.ref == r then f x else x) }
/-- A state without a thread. -/
def State.dropThread (s : State) (r : TRef) : State :=
  { s with threads := s.threads.filter (fun x => x.ref != r) }
/-- The running thread of a context with an agent identity, whichever start it has. -/
def State.agent? (s : State) (ctx agent : Nat) : Option Thread :=
  s.threads.find? (fun t => t.ref.ctx == ctx && t.ref.agent == agent)

/-- A context's record. -/
def State.ctx? (s : State) (id : Nat) : Option Ctx := s.ctxs.find? (fun c => c.id == id)
/-- A state with a context replaced. -/
def State.setCtx (s : State) (c : Ctx) : State :=
  { s with ctxs := s.ctxs.map (fun x => if x.id == c.id then c else x) }
/-- A state with a function applied to one context. -/
def State.updCtx (s : State) (id : Nat) (f : Ctx → Ctx) : State :=
  { s with ctxs := s.ctxs.map (fun x => if x.id == id then f x else x) }

/-- A module core; one not listed holds nothing. -/
def State.core (s : State) (id : Nat) : Core := (s.cores.find? (fun c => c.id == id)).getD (Core.reset id)
/-- A state with a module core replaced, or listed. -/
def State.setCore (s : State) (c : Core) : State :=
  if s.cores.any (fun x => x.id == c.id)
  then { s with cores := s.cores.map (fun x => if x.id == c.id then c else x) }
  else { s with cores := s.cores ++ [c] }
/-- A state with a function applied to one module core. -/
def State.updCore (s : State) (id : Nat) (f : Core → Core) : State := s.setCore (f (s.core id))

/-- A launch by the model's own number. -/
def State.launch? (s : State) (uid : Nat) : Option Launch := s.launches.find? (fun l => l.uid == uid)
/-- A state with a function applied to one launch. -/
def State.updLaunch (s : State) (uid : Nat) (f : Launch → Launch) : State :=
  { s with launches := s.launches.map (fun l => if l.uid == uid then f l else l) }

/-- The Husk of a die; one not listed holds nothing. -/
def State.husk (s : State) (die : Nat) : Husk :=
  (s.husks.find? (fun h => h.die == die)).getD ⟨die, [], 0, 0⟩
/-- A state with a Husk replaced, or listed. -/
def State.setHusk (s : State) (h : Husk) : State :=
  if s.husks.any (fun x => x.die == h.die)
  then { s with husks := s.husks.map (fun x => if x.die == h.die then h else x) }
  else { s with husks := s.husks ++ [h] }

/-- Parked threads of a context on an object made ready (R31). -/
def State.wakeOn (s : State) (ctx : Nat) (p : WObj → Bool) : State :=
  { s with threads := s.threads.map (fun t =>
      match t.run with
      | .parked o _ => if t.ref.ctx == ctx && p o then { t with run := .ready } else t
      | _ => t) }

/-- Threads made ready whatever their context. -/
def State.wakeAll (s : State) (p : WObj → Bool) : State :=
  { s with threads := s.threads.map (fun t =>
      match t.run with
      | .parked o _ => if p o then { t with run := .ready } else t
      | _ => t) }

/-- Whether a thread is parked on an object. -/
def Thread.parkedOn (t : Thread) (o : WObj) : Bool :=
  match t.run with
  | .parked x _ => x == o
  | _ => false
/-- A state with requests, replies or messages put on their way. -/
def State.post (s : State) (l : List Instr) : State := { s with flight := s.flight ++ l }

/-- Reference nanoseconds since reset (R6, R96). -/
def State.now (s : State) : Nat := s.thirds / 3

/-- Context core and thread context number of a thread (R119). -/
def TRef.cc (r : TRef) : Nat := r.agent / 16
/-- Thread context number of a thread (R15, R273). -/
def TRef.tid (r : TRef) : Nat := r.agent % 16

/-- The module core that a context core is mapped to (R272). -/
def Ctx.mc (c : Ctx) (cc : Nat) : Option Nat := (c.coreMap.find? (fun p => p.1 == cc)).map (·.2)
/-- The context core that a module core serves, when it serves one (R272). -/
def Ctx.ccOf (c : Ctx) (mc : Nat) : Option Nat := (c.coreMap.find? (fun p => p.2 == mc)).map (·.1)
/-- Whether a context core is in the core set (R272). -/
def Ctx.has (c : Ctx) (cc : Nat) : Bool := c.coreMap.any (fun p => p.1 == cc)
/-- The core set in ascending order (R278). -/
def Ctx.coreSet (c : Ctx) : List Nat := (List.range Config.cores).filter c.has

/-- The module core of a context's core; a core not mapped is answered by the first number past the module's,
whose record holds nothing. -/
def State.mcOf (s : State) (ctx cc : Nat) : Nat :=
  ((s.ctx? ctx).bind (fun c => c.mc cc)).getD Config.cores

/-- The module core of a thread. -/
def State.homeOf (s : State) (r : TRef) : Nat := s.mcOf r.ctx (TRef.cc r)

/-- The residency of a context on a core (R273). -/
def Core.resident? (c : Core) (ctx : Nat) : Option Resident := c.residents.find? (fun r => r.ctx == ctx)

/-- The image of a context core that is evicted or being evicted (R292, R293). -/
def State.imageAny? (s : State) (ctx cc : Nat) : Option Image :=
  s.images.find? (fun i => i.ctx == ctx && i.core == cc)
/-- The complete image of an evicted context core (R293, R295). -/
def State.image? (s : State) (ctx cc : Nat) : Option Image :=
  s.images.find? (fun i => i.ctx == ctx && i.core == cc && i.complete)
/-- A thread that runs or stands in an image. -/
def State.threadAny? (s : State) (r : TRef) : Option Thread :=
  (s.threads ++ (s.images.map (·.threads)).flatten).find? (fun t => t.ref == r)
/-- A state with a function applied to one thread, running or in an image. -/
def State.updAny (s : State) (r : TRef) (f : Thread → Thread) : State :=
  let one (t : Thread) : Thread := if t.ref == r then f t else t
  { s with threads := s.threads.map one, images := s.images.map (fun i => { i with threads := i.threads.map one }) }
/-- A state with a function applied to one image. -/
def State.updImage (s : State) (ctx cc : Nat) (f : Image → Image) : State :=
  { s with images := s.images.map (fun i => if i.ctx == ctx && i.core == cc then f i else i) }

/-- Die of a core number (R3, R278). -/
def dieOf (c : Nat) : Nat := c / 384
/-- Row of a core number within its die (R3). -/
def rowOf (c : Nat) : Nat := c % 384 / 24
/-- Column of a core number within its die (R3). -/
def colOf (c : Nat) : Nat := c % 24
/-- Identity of a port's agent for a context (R381). -/
def portAgent (port ctx : Nat) : Nat := 0xF0000 + port * 0x800 + ctx
/-- The number of the domain unit of a core: domain codes 0 `dev`, 1 `die`, 2 `quad`, 3 `clus`, 4 `core`,
5 `thr` (R119, R278). Two cores lie in one unit when the numbers agree. -/
def unitOf (dom c : Nat) : Nat :=
  match dom with
  | 0 => 0
  | 1 => dieOf c
  | 2 => dieOf c * 4 + rowOf c / 8 * 2 + colOf c / 12
  | 3 => dieOf c * 48 + rowOf c / 2 * 6 + colOf c / 4
  | _ => c

/-- The neighbour on a side, with none past an edge of the die (R15). -/
def neighbour (mc : Nat) (d : Dir) : Option Nat :=
  match d with
  | .n => if rowOf mc = 0 then none else some (mc - 24)
  | .s => if rowOf mc = 15 then none else some (mc + 24)
  | .w => if colOf mc = 0 then none else some (mc - 1)
  | .e => if colOf mc = 23 then none else some (mc + 1)

/-- The position of a side among a core's latches. -/
def Dir.idx : Dir → Fin 4
  | .n => 0
  | .e => 1
  | .s => 2
  | .w => 3
/-- The side that a neighbour sees a word come from (R15). -/
def Dir.opp : Dir → Dir
  | .n => .s
  | .s => .n
  | .e => .w
  | .w => .e

/-- A fresh number for a request, command, start or launch (log entry 4). -/
def State.fresh (s : State) : Nat × State := (s.nextId, { s with nextId := s.nextId + 1 })

/-- A host event record sent (R384). -/
def State.emit (s : State) (kind : Nat) (ctx : Option Nat) (core tid : Nat) (info : Word) : State :=
  { s with events := s.events ++ [⟨kind, ctx, core, tid, info, s.now, s.cycle⟩] }
/-- An answer or event sent over the side band. -/
def State.tellSide (s : State) (w : Nat) : State := { s with mgmt := { s.mgmt with side := s.mgmt.side ++ [w] } }
/-- An event that names no context goes to every existing context, and over the side band: its kind above 64 bits of INFO
(R384; log entry 21). -/
def State.emitAll (s : State) (kind : Nat) (info : Word) : State :=
  s.ctxs.foldl (fun s c => s.emit kind (some c.id) 0 0 info) (s.tellSide (kind * 2 ^ 64 + info.toNat))
/-- A running count of a snapshot block advanced by a number (R370). -/
def State.countBy (s : State) (block which m : Nat) : State :=
  let n := 16 * block + which
  { s with counts := tabSet 0 s.counts n (tabGet 0 s.counts n + m) }
/-- A running count of a snapshot block advanced. -/
def State.count (s : State) (block which : Nat) : State := s.countBy block which 1
/-- A running count of a snapshot block. -/
def State.countOf (s : State) (block which : Nat) : Nat := tabGet 0 s.counts (16 * block + which)

end Sys2Proof.Machine
end

