-- ==== Sys2Proof/Machine/Flags.lean ====
section
/-! DEFINITION. The thread status register, the program counter's sequential advance with the back-edge test,
and what each outcome does to them (spec 01 R21, R22, R25, 04 R76, R86-R88). -/
namespace Sys2Proof.Machine
open Sys2Proof

/-- `ts.H` (R25). -/
def Thread.h (t : Thread) : Bool := bit t.ts.toNat 11
/-- `ts.LAj` (R25). -/
def Thread.la (t : Thread) (j : Fin 2) : Bool := bit t.ts.toNat (9 + j.val)
/-- `ts` with NR and OC set after a not-ready outcome taken by BRANCH or FLAG (R21). -/
def tsNotReady (ts : Word) (oc : Nat) : Word := setFld (setFld ts 15 12 oc) 0 0 1
/-- `ts` after an OK of an instruction that can produce an outcome (R22). -/
def tsOk (ts : Word) : Word := setFld (setFld ts 15 12 0) 0 0 0
/-- The bits of `ts` that `mts` writes: OC and NR (R25). -/
def tsWrite (ts w : Word) : Word := setFld (setFld ts 15 12 (fld w 15 12)) 0 0 (fld w 0 0)
/-- A thread with `ts.LAj` set. -/
def Thread.setLa (t : Thread) (j : Fin 2) (b : Bool) : Thread :=
  { t with ts := setFld t.ts (9 + j.val) (9 + j.val) b.toNat }
/-- `ts` at trap entry: H set, LA0 and LA1 cleared, OC and NR kept (R88, R298). -/
def tsTrap (ts : Word) : Word := setFld (setFld ts 11 9 4) 11 11 1
/-- `ts` at the end of a handler: OC, NR, LA0, LA1 from the saved status, H cleared (R94). -/
def tsReturn (ts saved : Word) : Word :=
  setFld (setFld (setFld (setFld ts 15 12 (fld saved 15 12)) 0 0 (fld saved 0 0)) 10 9 (fld saved 10 9)) 11 11 0
/-- Bits [47:3] of a word, as `lsj` and `lej` hold them (R24, R87). -/
def loopAddr (w : Word) : Word := w &&& 0x0000FFFFFFFFFFF8

/-- The back-edge test of loop j at its last instruction (R86): the thread, and whether the loop exited. -/
def Thread.backEdge (t : Thread) (j : Fin 2) : Thread × Bool :=
  if (t.lc.get j).toNat ≤ 1 then
    ({ t with lc := t.lc.set j 0, pc := t.le.get j + 8, bySeq := true }.setLa j false, true)
  else ({ t with lc := t.lc.set j (t.lc.get j - 1), pc := t.ls.get j, bySeq := false }, false)

/-- Whether loop j is active and ends at q. -/
def Thread.loopEnds (t : Thread) (j : Fin 2) (q : Word) : Bool := t.la j && t.le.get j == q

/-- Sequential advance from the thread's PC: PC + 8, or what the back-edge tests say, loop 1 first and loop 0
only if loop 1 exits (R76, R86). -/
def Thread.advance (t : Thread) : Thread :=
  let q := t.pc
  if t.loopEnds 1 q then
    let (t, out) := t.backEdge 1
    if out && t.loopEnds 0 q then (t.backEdge 0).1 else t
  else if t.loopEnds 0 q then (t.backEdge 0).1
  else { t with pc := q + 8, bySeq := true }

/-- Where an outcome of BRANCH goes (R36). -/
def branchTarget (pc : Word) (nro : BitVec 16) : Word := pc + BitVec.ofNat 64 (8 * wrapN 61 (toSigned 16 nro.toNat))

/-- A thread after an OK by sequential advance; `outs` says whether the instruction can produce an outcome
(R22). -/
def Thread.okNext (t : Thread) (outs : Bool) : Thread :=
  (if outs then { t with ts := tsOk t.ts } else t).advance
/-- A thread after an OK by a taken transfer. -/
def Thread.okJump (t : Thread) (outs : Bool) (target : Word) : Thread :=
  { (if outs then { t with ts := tsOk t.ts } else t) with pc := target, bySeq := false }
/-- A thread after a not-ready outcome under BRANCH. -/
def Thread.orBranch (t : Thread) (oc : Nat) (nro : BitVec 16) : Thread :=
  { t with ts := tsNotReady t.ts oc, pc := branchTarget t.pc nro, bySeq := false }
/-- A thread after a not-ready outcome under FLAG. -/
def Thread.orFlag (t : Thread) (oc : Nat) : Thread := { t with ts := tsNotReady t.ts oc }.advance

end Sys2Proof.Machine
end

