-- ==== Sys2Proof/Machine/Operands.lean ====
section
/-! DEFINITION. Why an instruction ends early, what a trap's record carries, and every operand form: sources
under their modifiers, register pairs, ports, destinations (spec 01 R11-R15, R19, 02 R37-R39, 13 R301, R302). -/
namespace Sys2Proof.Machine
open Sys2Proof

/-- The fields of a cause word but its CODE (R302). -/
structure CauseWord where
  tag : Nat := 0
  n : Nat := 0
  func : Nat := 0
  ord : Bool := false
  ar : Bool := false
  sx : Bool := false
  reg : Nat := 60
  sz : Nat := 0
  lvl : Nat := 0
  mal : Bool := false
  acc : Bool := false
  kind : Nat := 0
  oc : Nat := 0
  deriving DecidableEq, Repr

/-- The cause word (R302). -/
def CauseWord.word (c : CauseWord) (code : Nat) : Word :=
  BitVec.ofNat 64 (c.tag % 2 ^ 16 * 2 ^ 48 + c.n % 2 ^ 12 * 2 ^ 36 + c.func % 16 * 2 ^ 32 + c.ord.toNat * 2 ^ 31
    + c.ar.toNat * 2 ^ 30 + c.sx.toNat * 2 ^ 29 + c.reg % 64 * 2 ^ 22 + c.sz % 4 * 2 ^ 20 + c.lvl % 4 * 2 ^ 18
    + c.mal.toNat * 2 ^ 17 + c.acc.toNat * 2 ^ 16 + c.kind % 16 * 2 ^ 12 + c.oc % 16 * 2 ^ 8 + code % 256)

/-- The fields of a cause word read back (R305). -/
def CauseWord.ofWord (w : Word) : CauseWord where
  tag := fld w 63 48
  n := fld w 47 36
  func := fld w 35 32
  ord := bit w.toNat 31
  ar := bit w.toNat 30
  sx := bit w.toNat 29
  reg := fld w 27 22
  sz := fld w 21 20
  lvl := fld w 19 18
  mal := bit w.toNat 17
  acc := bit w.toNat 16
  kind := fld w 15 12
  oc := fld w 11 8

/-- The fields of a replayed access (R302, R305): those that memory holds, but for what a fault says anew. -/
def CauseWord.again (c : CauseWord) : CauseWord := { c with acc := true, lvl := 0, mal := false, oc := 0 }

/-- What a trap's record carries beside its cause, PC, RESUME and STATUS (R301). -/
structure TrapInfo where
  c : CauseWord := {}
  addr : Word := 0
  data : Word := 0
  prog : Word := 0
  info : Word := 0
  deriving DecidableEq, Repr

/-- Why an instruction ends before it takes effect: a not-ready outcome on an object (R20, R21), a trap found
at issue (R297), or a wait out of the rotation after which it issues again (R101, R106). `seen` is a trap, or with none a
wait, after a load that the thread waited for has been performed: what its home has done stands (R310, R377). -/
inductive Stop where
  | notReady (oc : OC) (o : WObj)
  | trap (c : Cause) (i : TrapInfo)
  | hold
  | seen (s : State) (trap : Option (Cause × TrapInfo))
  deriving DecidableEq, Repr

/-- The course of an instruction's evaluation. -/
abbrev Ev (α : Type) := Except Stop α

/-- A trap with nothing but its cause. -/
def failWith {α : Type} (c : Cause) : Ev α := .error (.trap c {})
/-- A trap that carries an address (a misaligned address, a target: R301 ADDR). -/
def failAt {α : Type} (c : Cause) (a : Word) : Ev α := .error (.trap c { addr := a })
/-- A condition that must hold, else a trap. -/
def need (b : Bool) (c : Cause) : Ev Unit := if b then .ok () else failWith c

/-- The poison-use trap of a register (R309): REG names it, INFO is its poison word. -/
def poisonTrap (o : Opd) (w : Word) : Stop := .trap .poisonUse { c := { reg := o.code }, info := w }

/-- The poison word as a `k` register gives it back: its address bits are lost (R19, R309). -/
def kPoison (w : Word) : Word := setFld w 47 0 0

/-- A register read plain (R13). -/
def readSlot {w : Nat} (o : Opd) : Slot w → Ev (BitVec w)
  | .full v => .ok v
  | .empty => .error (.notReady .empty (.reg o))
  | .pend _ => .error (.notReady .pend (.reg o))
  | .pois p => .error (poisonTrap o p)

/-- `g` register i. -/
def Thread.getG (t : Thread) (i : Fin 16) : Slot 64 := t.g.get i
/-- `v` register i. -/
def Thread.getV (t : Thread) (i : Fin 32) : Slot 1024 := t.v.get i
/-- `k` register i; `k0` is permanently FULL with all ones (R11). -/
def Thread.getK (t : Thread) (i : Fin 8) : Slot 32 := if i = 0 then .full 0xFFFFFFFF else t.k.get i
/-- A thread with `g` register i set. -/
def Thread.setG (t : Thread) (i : Fin 16) (x : Slot 64) : Thread := { t with g := t.g.set i x }
/-- A thread with `v` register i set. -/
def Thread.setV (t : Thread) (i : Fin 32) (x : Slot 1024) : Thread := { t with v := t.v.set i x }
/-- A thread with `k` register i set; `k0` never changes (R11). -/
def Thread.setK (t : Thread) (i : Fin 8) (x : Slot 32) : Thread :=
  if i = 0 then t else { t with k := t.k.set i x }

/-- The producer tag a register holds (R16). -/
def slotTag {w : Nat} : Slot w → Option Tag
  | .pend g => some g
  | _ => none
/-- The state code of a register (R11). -/
def slotState {w : Nat} : Slot w → Nat
  | .full _ => 0
  | .empty => 1
  | .pend _ => 2
  | .pois _ => 3

/-- Whether a register is EMPTY; what is not a register never is (R11). -/
def isEmpty (t : Thread) (o : Opd) : Bool :=
  match o with
  | .g i => slotState (t.getG i) == 1
  | .v i => slotState (t.getV i) == 1
  | .k i => slotState (t.getK i) == 1
  | _ => false
/-- A register set EMPTY; what is not a register stays (R69). -/
def Thread.setEmpty (t : Thread) : Opd → Thread
  | .g i => t.setG i .empty
  | .v i => t.setV i .empty
  | .k i => t.setK i .empty
  | _ => t
/-- A register set PEND with a tag (R31 `pending`). -/
def Thread.setPend (t : Thread) (o : Opd) (tag : Tag) : Thread :=
  match o with
  | .g i => t.setG i (.pend tag)
  | .v i => t.setV i (.pend tag)
  | .k i => t.setK i (.pend tag)
  | _ => t
/-- A register set POIS with a poison word (R19). -/
def Thread.setPois (t : Thread) (o : Opd) (w : Word) : Thread :=
  match o with
  | .g i => t.setG i (.pois w)
  | .v i => t.setV i (.pois w)
  | .k i => t.setK i (.pois (kPoison w))
  | _ => t
/-- A register set FULL with (the low bits of) a value (R14). -/
def Thread.setFull (t : Thread) (o : Opd) (x : BitVec 1024) : Thread :=
  match o with
  | .g i => t.setG i (.full (x.setWidth 64))
  | .v i => t.setV i (.full x)
  | .k i => t.setK i (.full (x.setWidth 32))
  | _ => t
/-- The tag a register holds, when it is PEND. -/
def Thread.tagOf (t : Thread) : Opd → Option Tag
  | .g i => slotTag (t.getG i)
  | .v i => slotTag (t.getV i)
  | .k i => slotTag (t.getK i)
  | _ => none

/-- Every register of a thread, by its operand code (R37). -/
def allRegs : List Opd := (List.range 56).map (fun c => Opd.ofCode (BitVec.ofNat 6 c))

/-- The register that holds a tag; a tag stands in at most one (R16, R17). -/
def Thread.holderOf (t : Thread) (tag : Tag) : Option Opd := allRegs.find? (fun o => t.tagOf o == some tag)

/-- Whether a context owns the ports of a module core (R28, R29). -/
def State.ownsPorts (s : State) (t : Thread) : Bool := (s.core (s.homeOf t.ref)).portOwner == some t.ref.ctx
/-- The word in the inbound latch of a side, if full, as the latch stood at the start of the cycle (R15). -/
def State.portWord (s : State) (t : Thread) (d : Dir) : Option Word := (s.core (s.homeOf t.ref)).latch0.get (Dir.idx d)
/-- Whether a word can be written to a side now: the latch was empty at the start of the cycle (R15). A side without a
neighbour never takes one. -/
def State.portFree (s : State) (t : Thread) (d : Dir) : Bool :=
  match neighbour (s.homeOf t.ref) d with
  | none => false
  | some c => ((s.core c).latch0.get (Dir.idx (Dir.opp d))).isNone

/-- A word source read plain: G, K, Z, S or a port (R13, R15). A `v` register is no word source. -/
def srcW (s : State) (t : Thread) (o : Opd) : Ev Word :=
  match o with
  | .g i => readSlot o (t.getG i)
  | .k i => (readSlot o (t.getK i)).map (fun v => v.setWidth 64)
  | .v _ | .zr => .ok 0
  | .tid => .ok (BitVec.ofNat 64 (TRef.tid t.ref))
  | .cid => .ok (BitVec.ofNat 64 (TRef.cc t.ref))
  | .pcv => .ok t.pc
  | .port d =>
    if !s.ownsPorts t then failWith .protection
    else match s.portWord t d with
      | some w => .ok w
      | none => .error (.notReady .empty (.portIn d))

/-- A vector source read plain: V, or Z as zero (R155). -/
def srcV (t : Thread) (o : Opd) : Ev VWord :=
  match o with
  | .v i => readSlot o (t.getV i)
  | _ => .ok 0

/-- The upper register of a pair (R38). -/
def pairUp (i : Fin 32) : Fin 32 := Fin.ofNat 32 (i.val + 1)

/-- A vector source of a lane type: a register, or a pair read as one operand (R38, R155). Where neither register of a pair is
FULL the lower one decides (DESIGN CHOICE, log entry 60). -/
def srcL (t : Thread) (pair : Bool) (o : Opd) : Ev (VWord × VWord) :=
  match o with
  | .v i =>
    if pair then do
      let lo ← readSlot o (t.getV i)
      let hi ← readSlot (.v (pairUp i)) (t.getV (pairUp i))
      pure (lo, hi)
    else do
      let lo ← readSlot o (t.getV i)
      pure (lo, 0)
  | _ => .ok (0, 0)

/-- A mask or selection predicate, read as a guard is (R12, R157). -/
def srcK (t : Thread) (i : Fin 8) : Ev KWord := readSlot (.k i) (t.getK i)

/-- Whether a destination can take a word now: a port must belong to the context and be empty (R15, R29, R55). -/
def destReady (s : State) (t : Thread) (o : Opd) : Ev Unit :=
  match o with
  | .port d =>
    if !s.ownsPorts t then failWith .protection
    else if s.portFree t d then .ok () else .error (.notReady .full (.portOut d))
  | _ => .ok ()

/-- Wakes the threads parked on a port of the cores next to a core, and of the core itself, whose latch now
lets them go on (R15, R31). -/
def State.wakePorts (s : State) : State :=
  { s with threads := s.threads.map (fun t =>
      match t.run with
      | .parked (.portIn d) _ => if (s.portWord t d).isSome then { t with run := .ready } else t
      | .parked (.portOut d) _ => if s.portFree t d then { t with run := .ready } else t
      | _ => t) }

/-- A state with an inbound latch set; it is seen from the next cycle on (R15). -/
def State.setLatch (s : State) (mc : Nat) (i : Fin 4) (w : Option Word) : State :=
  s.updCore mc (fun c => { c with latch := c.latch.set i w })
/-- The latches as the next cycle sees them, with the threads they let go on (R15, R31). -/
def State.turnLatches (s : State) : State :=
  if s.cores.any (fun c => c.latch != c.latch0)
  then State.wakePorts { s with cores := s.cores.map (fun c => { c with latch0 := c.latch }) } else s

/-- The effect of reading a source: `.c` sets its register EMPTY, a port's latch empties (R13, R15). -/
def consumeOne (s : State) (r : TRef) (o : Opd) (m : SrcMod) : State :=
  match o with
  | .port d => s.setLatch (s.homeOf r) (Dir.idx d) none
  | _ => if m = .consume then s.updThread r (fun t => t.setEmpty o) else s

/-- The effects of reading the sources of an R-format word. -/
def consumeAB (s : State) (r : TRef) (f : RForm) (one : Bool) : State :=
  let s := consumeOne s r f.A (SrcMod.ofCode f.ma)
  if one then s else consumeOne s r f.B (SrcMod.ofCode f.mb)

/-- A word written to a destination: a register FULL, a port's word in the neighbour's latch, `zr` discarded
(R14, R15). -/
def writeW (s : State) (r : TRef) (o : Opd) (w : Word) : State :=
  match o with
  | .port d =>
    match neighbour (s.homeOf r) d with
    | some c => s.setLatch c (Dir.idx (Dir.opp d)) (some w)
    | none => s
  | _ => s.updThread r (fun t => t.setFull o (w.setWidth 1024))

/-- A vector value written to a destination register or pair; Z discards (R14, R38, R155). -/
def writeL (s : State) (r : TRef) (pair : Bool) (o : Opd) (lo hi : VWord) : State :=
  match o with
  | .v i =>
    s.updThread r (fun t =>
      let t := t.setV i (.full lo)
      if pair then t.setV (pairUp i) (.full hi) else t)
  | _ => s

/-- A vector source consumed: both registers of a pair (R38). -/
def consumeL (s : State) (r : TRef) (pair : Bool) (o : Opd) (m : SrcMod) : State :=
  match o, m with
  | .v i, .consume =>
    s.updThread r (fun t =>
      let t := t.setV i .empty
      if pair then t.setV (pairUp i) .empty else t)
  | _, _ => s

/-- The course a guard predicate decides (R12): go on, no effect, or a stop. -/
def guardOf (t : Thread) (h : Head) : Ev Bool := do
  let k ← readSlot (.k (Fin.ofNat 8 h.gk.toNat)) (t.getK (Fin.ofNat 8 h.gk.toNat))
  pure (bit k.toNat 0 != (h.gn == 1))

end Sys2Proof.Machine
end

