-- ==== Sys2Proof/Machine/Walk.lean ====
section
/-! DEFINITION. Address windows, the translation tables, stored translations, and where a virtual address lies
(spec 11 R250-R259, 05 R99, R102). -/
namespace Sys2Proof.Machine
open Sys2Proof

/-- First address of the global scratch window (R250). -/
def globalBase : Nat := 0xFFE000000000
/-- First address of the own scratch window (R250). -/
def ownBase : Nat := 0xFFF000000000

/-- What a virtual address names (R250): an HBM page, an offset in a context core's scratchpad, nothing. -/
inductive Window where
  | hbm
  | scratch (cc off : Nat)
  | hole
  deriving DecidableEq, Repr

/-- The window of an address for an access issued on a context core (R250, R251). -/
def windowOf (cc va : Nat) : Window :=
  if va < globalBase then .hbm
  else if va < globalBase + 1536 * 0x100000 then
    (if va % 0x100000 < Config.scratchSize then .scratch ((va - globalBase) / 0x100000) (va % 0x100000) else .hole)
  else if ownBase ≤ va ∧ va < ownBase + Config.scratchSize then .scratch cc (va - ownBase)
  else .hole

/-- The address of an access in the one numbering of a context, by which aliases of a scratchpad byte are
found equal (R251). -/
def canonVa (cc va : Nat) : Nat :=
  match windowOf cc va with
  | .scratch c off => globalBase + c * 0x100000 + off
  | _ => va

/-- A word of memory at a physical address, as plaintext: table entries, launch records, frames. A walk uses the bytes of a poisoned
line as they stand (DESIGN CHOICE, log entry 62). -/
def State.word (s : State) (pa : Nat) : Word := BitVec.ofNat 64 (s.load pa 8 0)

/-- A walk that failed (R257). -/
def walkFault (c : Cause) (va : Nat) (e : Word) (lvl : Nat) (mal : Bool) : FaultInfo :=
  ⟨c, BitVec.ofNat 64 va, e, lvl, mal⟩

/-- Steps 1 and 2 of R257 for an entry of a level (R256). The test of a frame past device memory is made on leaves: an entry that
names a next table there is not malformed (DESIGN CHOICE, log entry 60). A remote leaf whose ADDR[15:12] is not 0 is (DESIGN CHOICE,
log entry 62). -/
def entryFault (va : Nat) (e : Word) (lvl : Nat) : Option FaultInfo :=
  let ty := fld e 1 0
  let tbl := ty = 1
  let rem := fld e 7 7 = 1
  let mal := fld e 11 8 ≠ 0 ∨ fld e 3 2 ≠ 0 ∨ ty = 3 ∨ (lvl = 1 ∧ ty = 2) ∨ (lvl = 3 ∧ ty = 1)
    ∨ (tbl ∧ fld e 63 40 ≠ 0)
    ∨ (¬tbl ∧ fld e 5 4 = 3)
    ∨ (¬tbl ∧ fld e 15 12 ≠ 0) ∨ (¬tbl ∧ ¬rem ∧ lvl = 2 ∧ fld e 24 16 ≠ 0)
    ∨ (¬tbl ∧ ¬rem ∧ Config.hbmTop ≤ fld e 39 12 * 4096)
    ∨ (¬tbl ∧ rem ∧ fld e 63 56 ≠ 0)
  if ty = 0 then some (walkFault .translation va e lvl false)
  else if mal then some (walkFault .translation va e lvl true)
  else none

/-- Steps 3 to 6 of R257 for a leaf. `plain` says that the access is scalar or vector, to which remote pages
are closed (R102). -/
def leafFault (s : State) (ctx va : Nat) (write plain : Bool) (e : Word) (lvl : Nat) : Option FaultInfo :=
  if fld e 55 40 ≠ ctx ∨ (write ∧ fld e 6 6 = 0) ∨ (plain ∧ fld e 7 7 = 1)
    ∨ (fld e 63 56 ≠ 0 ∧ ¬s.keys.any (fun k => k.1 == fld e 63 56))
  then some (walkFault .protection va e lvl false) else none

/-- The leaf of a virtual address and its level (R256), by steps 1 and 2 of R257 at each level. -/
def walkLeaf (s : State) (ctx : Nat) (va : Nat) : Except FaultInfo (Word × Nat) :=
  match (s.ctx? ctx).bind (·.root) with
  | none => .error (walkFault .translation va 0 1 false)
  | some root =>
    let e1 := s.word (root + 8 * bits va 47 34)
    match entryFault va e1 1 with
    | some f => .error f
    | none =>
      let e2 := s.word (fld e1 39 12 * 4096 + 8 * bits va 33 25)
      match entryFault va e2 2 with
      | some f => .error f
      | none =>
        if fld e2 1 0 = 2 then .ok (e2, 2)
        else
          let e3 := s.word (fld e2 39 12 * 4096 + 8 * bits va 24 16)
          match entryFault va e3 3 with
          | some f => .error f
          | none => .ok (e3, 3)

/-- A translated address: physical address, key of the page's key slot (0 plaintext), the leaf, and whether it
is remote. -/
structure Xlat where
  pa : Nat
  key : Nat
  leaf : Word
  lvl : Nat
  remote : Bool
  deriving DecidableEq, Repr

/-- What a leaf of a level makes of an address (R256). -/
def applyLeaf (s : State) (va : Nat) (e : Word) (lvl : Nat) : Xlat where
  pa := if lvl = 2 then fld e 39 25 * 2 ^ 25 + va % 2 ^ 25 else fld e 39 16 * 2 ^ 16 + va % 2 ^ 16
  key := if fld e 63 56 = 0 then 0 else ((s.keys.find? (fun k => k.1 == fld e 63 56)).map (fun k => k.2 + 1)).getD 0
  leaf := e
  lvl := lvl
  remote := fld e 7 7 == 1

/-- A whole walk (R256, R257). -/
def walk (s : State) (ctx va : Nat) (write plain : Bool) : Except FaultInfo Xlat :=
  match walkLeaf s ctx va with
  | .error f => .error f
  | .ok (e, lvl) =>
    match leafFault s ctx va write plain e lvl with
    | some f => .error f
    | none => .ok (applyLeaf s va e lvl)

/-- Whether a stored translation covers an address. -/
def Tlb.covers (e : Tlb) (at_ ctx va : Nat) : Bool := e.core == at_ && e.ctx == ctx && e.va ≤ va && decide (va < e.va + e.size)
/-- The stored translation of a core's micro-TLB for an address, when it still holds one (R258; whether an
entry has been displaced is open, log entry 6). -/
def State.tlbFind (s : State) (mc ctx va : Nat) : Option Tlb :=
  if s.oracle.tlb then s.tlbs.find? (fun e => e.covers mc ctx va) else none
/-- The stored translation of a die's shared TLB (R258). -/
def State.sharedFind (s : State) (die ctx va : Nat) : Option Tlb :=
  if s.oracle.tlb then s.shared.find? (fun e => e.covers die ctx va) else none

/-- Bytes that a leaf of a level covers (R256). -/
def leafSize (lvl : Nat) : Nat := if lvl = 2 then 2 ^ 25 else 2 ^ 16

/-- Stored translations with one more, in place of one that the draw names when as many as `cap` stand at its place. -/
def addTlb (l : List Tlb) (e : Tlb) (cap seed : Nat) : List Tlb :=
  let mine := l.filter (fun x => x.core == e.core)
  if mine.any (fun x => x.ctx == e.ctx && x.va == e.va) then l
  else match (if mine.length < cap then none else mine[seed % mine.length]?) with
    | some x => l.filter (· != x) ++ [e]
    | none => l ++ [e]

/-- A state in which a walk's result is stored for a core and its die (R258: 64 entries, and 16,384; log entry 6). -/
def State.tlbFill (s : State) (mc ctx va : Nat) (x : Xlat) : State :=
  let n := leafSize x.lvl
  { s with tlbs := addTlb s.tlbs ⟨mc, ctx, va / n * n, n, x.leaf⟩ 64 s.oracle.seed
           shared := addTlb s.shared ⟨dieOf mc, ctx, va / n * n, n, x.leaf⟩ 16384 s.oracle.seed }

/-- What a stored translation makes of an address, checked by steps 3 to 6 of R257. -/
def Tlb.xlat (e : Tlb) (s : State) (ctx va : Nat) (write plain : Bool) : Except FaultInfo Xlat :=
  let lvl := if e.size = 2 ^ 25 then 2 else 3
  match leafFault s ctx va write plain e.entry lvl with
  | some f => .error f
  | none => .ok (applyLeaf s va e.entry lvl)
/-- A translation found at issue: by a stored translation; none on a miss. -/
def xlatNow (s : State) (mc ctx va : Nat) (write plain : Bool) : Option (Except FaultInfo Xlat) :=
  (s.tlbFind mc ctx va).map (fun e => e.xlat s ctx va write plain)
/-- A translation after a miss in a core's micro-TLB: by its die's shared TLB, or by a walk (R258). -/
def State.translate (s : State) (mc ctx va : Nat) (write plain : Bool) : Except FaultInfo Xlat :=
  match s.sharedFind (dieOf mc) ctx va with
  | some e => e.xlat s ctx va write plain
  | none => walk s ctx va write plain

/-- Whether a page's CA keeps its lines out of the near and remote-data caches (R256). -/
def Xlat.bypass (x : Xlat) : Bool := fld x.leaf 5 4 == 1

/-- Where the bytes of an access lie: a key of the model's one memory with its encryption key; or a remote
page. -/
inductive Spot where
  | at_ (k key : Nat)
  | remote (x : Xlat)
  deriving DecidableEq, Repr

/-- The place of a scratchpad byte of a context core (R251, R273, R295): in its share on the module core, or in
the core's image while it is evicted. Outside the core set or the share there is none. -/
def State.scratchSpot (s : State) (ctx cc off : Nat) : Option Nat :=
  match s.ctx? ctx with
  | none => none
  | some c =>
    match s.image? ctx cc with
    | some im =>
      match im.state.resident? ctx with
      | some r => if off < r.size then some (im.region + cc * 0x100000 + 0x65000 + off) else none
      | none => none
    | none =>
      match c.mc cc with
      | none => none
      | some mc =>
        match (s.core mc).resident? ctx with
        | some r => if off < r.size then some (Config.scratchKey + mc * Config.scratchSize + r.base + off) else none
        | none => none

/-- The faults of an address that need no walk (R99, R250, R251, R273), for an access by a core. -/
def windowFault (s : State) (ctx cc : Nat) (va : Nat) : Option FaultInfo :=
  let f (c : Cause) : Option FaultInfo := some (walkFault c va 0 0 false)
  if 2 ^ 48 ≤ va then f .translation
  else match windowOf cc va with
    | .hbm => none
    | .hole => f .translation
    | .scratch c off => if (s.scratchSpot ctx c off).isNone then f .protection else none

/-- Where an address lies, by the die's shared TLB or a walk: for accesses that the model performs at one point (frames, waited
loads, fetches, engines). -/
def spotOf (s : State) (ctx cc va : Nat) (write plain : Bool) : Except FaultInfo Spot :=
  match windowFault s ctx cc va with
  | some f => .error f
  | none =>
    match windowOf cc va with
    | .scratch c off => .ok (.at_ ((s.scratchSpot ctx c off).getD 0) 0)
    | _ =>
      match s.translate (s.mcOf ctx cc) ctx va write plain with
      | .error f => .error f
      | .ok x => if x.remote then .ok (.remote x) else .ok (.at_ x.pa x.key)

/-- Module core beside the home of a physical address (R252, R253). -/
def edgeCore (pa : Nat) : Nat :=
  let stack := bits pa 18 16
  let sl := stack % 2 * 32 + bits pa 12 8
  let base := stack / 2 * 384
  if sl < 24 then base + sl
  else if sl < 48 then base + 15 * 24 + (sl - 24)
  else if sl < 56 then base + (sl - 47) * 24
  else base + (sl - 55) * 24 + 23

/-- The L2 slice of a physical address, counted over the module (R252). -/
def sliceOf (pa : Nat) : Nat := bits pa 18 16 / 2 * 64 + bits pa 18 16 % 2 * 32 + bits pa 12 8

/-- Module core of a key of scratchpad memory; none for HBM. -/
def scratchCore (k : Nat) : Option Nat :=
  if Config.scratchKey ≤ k then some ((k - Config.scratchKey) / Config.scratchSize) else none

/-- The module core beside the home of a byte (R253). -/
def homeCore (k : Nat) : Nat := (scratchCore k).getD (edgeCore k)

/-- The memory-side unit of a byte: an L2 slice's, or past those a scratchpad's: its core, the home of its lines, has one of its own
with as many entries (R100, R266, R267; DESIGN CHOICE, log entry 62). -/
def unitOfKey (k : Nat) : Nat :=
  match scratchCore k with
  | some mc => 256 + mc
  | none => sliceOf k

/-- The die that homes a byte (R252, R253). -/
def dieOfKey (k : Nat) : Nat := dieOf (homeCore k)

end Sys2Proof.Machine
end

