-- ==== Sys2Proof/Machine/Home.lean ====
section
/-! DEFINITION. The home of a line: guards and level instances as clocks, the check, the metadata rewritten, the
access performed, the holding buffer's close, cached copies (spec 05 R113-R123, 10 R238-R240, 11 R259-R267,
12 R279, 15 R344). -/
namespace Sys2Proof.Machine
open Sys2Proof

/-- A guard nothing has changed yet: free, count 0 (R124). -/
def Guard.free : Guard := ⟨false, 0, 0, 0⟩
/-- A guard of a context. -/
def Ctx.guard (c : Ctx) (i : Nat) : Guard := ((c.guards.find? (fun p => p.1 == i)).map (·.2)).getD Guard.free
/-- A context with a guard set. -/
def Ctx.setGuard (c : Ctx) (i : Nat) (g : Guard) : Ctx :=
  if c.guards.any (fun p => p.1 == i) then { c with guards := c.guards.map (fun p => if p.1 == i then (i, g) else p) }
  else { c with guards := c.guards ++ [(i, g)] }
/-- Whether nobody holds a guard: MODE 0b00 (R124). -/
def Guard.isFree (g : Guard) : Bool := !g.excl && g.sharers == 0
/-- The scope of a guard and the core range of its instance; `dev` and every core until the host names others
(R124, R240). The newest range that holds the guard counts. -/
def Ctx.scopeOf (c : Ctx) (i : Nat) : GScope :=
  (c.scopes.reverse.find? (fun r => decide (r.first ≤ i) && decide (i ≤ r.last))).getD ⟨i, i, 0, 0, 1535⟩
/-- Guard word 0 as the table holds it (R124). -/
def Ctx.guardWord (c : Ctx) (i : Nat) : Word :=
  let g := c.guard i
  let mode := if g.excl then 2 else if g.sharers = 0 then 0 else 1
  BitVec.ofNat 64 (mode * 2 ^ 62 + (c.scopeOf i).scope % 8 * 2 ^ 59
    + (if g.excl then g.holder % 2 ^ 20 else 0) * 2 ^ 32 + g.count % 2 ^ 32)

/-- Mixed-radix value of a path under extents, outer level most significant (R278). -/
def radix (ext path : List Nat) : Nat := (ext.zip path).foldl (fun v p => v * p.1 + p.2) 0
/-- Number of instances of level l (R277). -/
def instances (ext : List Nat) (l : Nat) : Nat := (ext.take (l + 1)).foldl (· * ·) 1
/-- Number of instances of the levels before l. -/
def instancesBefore (ext : List Nat) (l : Nat) : Nat := (List.range l).foldl (fun a j => a + instances ext j) 0
/-- Ordinal of the instance of level l that a path lies in (R279): 1 for the `thr` instance below one `core` instance (R358). -/
def ordinalOf (ext path : List Nat) (l : Nat) : Nat :=
  instancesBefore ext l + radix (ext.take (l + 1)) (path.take (l + 1))
/-- The path of a mixed-radix value. -/
def unradix : List Nat → Nat → List Nat
  | [], _ => []
  | e :: l, n =>
    let m := l.foldl (· * ·) 1
    (if e = 0 then 0 else n / m % e) :: unradix l n
/-- The level and path of an ordinal (R279); none past the last instance. -/
def instanceOf (ext : List Nat) (ord : Nat) : Option (List Nat) :=
  let n := ext.length
  ((List.range n).find? (fun l => decide (ord < instancesBefore ext (l + 1)))).map
    (fun l => unradix (ext.take (l + 1)) (ord - instancesBefore ext l))

/-- The completions of a list that advance an instance: its own and those of enclosing instances (R238). -/
def completionsOf (comps : List (Nat × List Nat)) (inst : List Nat) : Nat :=
  (comps.filter (fun c => c.2.isPrefixOf inst)).length
/-- The phase of an instance (R212, R238). -/
def Launch.phase (l : Launch) (inst : List Nat) : Nat := completionsOf l.comps inst % 2 ^ 32
/-- The launch that occupies a launch slot; a retired slot has none (R279, R283). -/
def State.slotLaunch (s : State) (ctx slot : Nat) : Option Launch :=
  s.launches.find? (fun l => l.ctx == ctx && l.slot == slot && !l.done)
/-- The launch and the instance path that a BD of a PHASED line names (R119, R279). -/
def State.instOf (s : State) (ctx bd : Nat) : Option (Launch × List Nat) :=
  match s.slotLaunch ctx (bd / 2 ^ 16) with
  | none => none
  | some l => (instanceOf l.ext (bd % 2 ^ 16)).map (fun p => (l, p))
/-- The BD of an agent's innermost instance (R120, R279). -/
def Launch.bdOf (l : Launch) (path : List Nat) : Nat :=
  l.slot * 2 ^ 16 + ordinalOf l.ext path (l.ext.length - 1)

/-- Delta of R119. -/
def delta (x y : Nat) : Nat := (x % 2 ^ 16 + 2 ^ 16 - y % 2 ^ 16) % 2 ^ 16

/-- A context; one the module does not hold is an empty one. -/
def State.ctxD (s : State) (id : Nat) : Ctx :=
  (s.ctx? id).getD ⟨id, 0, [], [], none, 0, 0, 0, 0, 0, 0, [], [], [], [], [], [], [], [], [], false,
    Vector.replicate 4 0, 0, 0, [], 0, []⟩

/-- The ager of a die; one not listed has not begun. -/
def State.ager (s : State) (die : Nat) : Ager := (s.agers.find? (fun a => a.die == die)).getD ⟨die, 0, [], 0⟩
/-- A state with an ager replaced, or listed. -/
def State.setAger (s : State) (a : Ager) : State := { s with agers := s.agers.filter (fun x => x.die != a.die) ++ [a] }
/-- For each die, the round of its ager at whose end a slot that retires now has had a full visit (R283): the present one
counts only when nothing has been visited in it. -/
def State.agerRounds (s : State) : List Nat :=
  (List.range 4).map (fun d => (s.ager d).rounds + (if (s.ager d).seen.isEmpty then 1 else 2))

/-- The clock C of a line (R119); none when its launch slot is retired. A BD past a launch's last instance names one that
no barrier advances. -/
def State.clock (s : State) (ctx : Nat) (m : BitVec 64) : Option Nat :=
  if mdST m = 2 then some ((s.ctxD ctx).guard (mdBD m)).count
  else (s.slotLaunch ctx (mdBD m / 2 ^ 16)).map (fun l => ((instanceOf l.ext (mdBD m % 2 ^ 16)).map l.phase).getD 0)

/-- The hold that an agent has on a guard. -/
def holdOn (holds : List Hold) (g : Nat) : Option Hold := holds.find? (fun h => h.guard == g)

/-- The seen phase p of an agent for an instance, when it is a member (R238). -/
def seenPhase (st : Stamps) (l : Launch) (inst : List Nat) : Option Nat :=
  if st.launch = some l.uid ∧ (st.path.take 1).isPrefixOf inst
  then some (completionsOf (l.comps.take (st.marks.getD (inst.length - 1) 0)) inst % 2 ^ 32)
  else none

/-- The current stamp of an agent for the binding of a line (R239). -/
def stampFor (s : State) (ctx : Nat) (st : Stamps) (m : BitVec 64) : Option Nat :=
  if mdST m = 2 then (holdOn st.holds (mdBD m)).map (·.count)
  else (s.instOf ctx (mdBD m)).bind (fun p => seenPhase st p.1 p.2)

/-- Context core of an agent identity; none for the network and the Husk (R119, R381, R392). -/
def coreOfAgent (a : Nat) : Option Nat :=
  if a < 0x80000 then some (a / 16) else if a < 0xF0000 then some ((a - 0x80000) / 8) else none

/-- Whether two agents lie in one instance of a domain (R240, R392). -/
def sameUnit (sc : Nat) (a b : Option Nat) : Bool :=
  sc == 0 || (match a, b with
    | some x, some y => unitOf sc x == unitOf sc y
    | _, _ => false)

/-- Whether an agent, on a core when it lies on one, lies within scope SC of a publisher (R119, R240): an instance of `thr`
is one thread (R278). -/
def inReach (sc agent : Nat) (core : Option Nat) (wr : Nat) : Bool :=
  if sc = 5 then agent == wr else sameUnit sc core (coreOfAgent wr)

/-- `ordered(g, m)` of R119; without the settled branch when a copy is asked (R262). -/
def ordered (s : State) (ctx agent : Nat) (st : Stamps) (m : BitVec 64) (settled : Bool) : Bool :=
  match mdST m with
  | 0 => true
  | 3 => inReach (mdSC m) agent st.core (mdWR m)
  | _ =>
    match s.clock ctx m with
    | none => true
    | some c =>
      let own := match stampFor s ctx st m with
        | none => false
        | some h =>
          (!mdAT m && agent == mdWR m && h % 2 ^ 16 == mdSP m)
            || (1 ≤ delta h (mdSP m) && decide (delta h (mdSP m) < 2 ^ 15))
      (settled && decide (2 ^ 15 ≤ delta c (mdSP m))) || own

/-- Whether an access kind is atomic (R120). -/
def AKind.atomic : AKind → Bool
  | .amo _ | .cas | .red _ | .fred _ => true
  | _ => false

/-- The hold of an agent's write guard (R120). -/
def writeHold (st : Stamps) : Option Hold := st.wg.bind (holdOn st.holds)

/-- The check of R119, R120 and R238: passes, passes only as an atomic of the stamp the line has (AT = 1), or
fails. -/
inductive Verdict where
  | pass | sameStamp | fail
  deriving DecidableEq, Repr

/-- Whether R120 would stamp a write of an agent with an instance that R238 closes to it. -/
def barredWrite (st : Stamps) : Bool := st.barred && (writeHold st).isNone && st.launch.isSome

/-- The check at the home. An atomic that keeps an instance's binding is barred between `barv` and `bart` too (R238), and so is
`gpub`, which R129 has checked as a plain write (DESIGN CHOICE, log entry 59). -/
def checkHome (s : State) (a : Access) (m : BitVec 64) : Verdict :=
  let ord := ordered s a.ctx a.agent a.st m true
  let excl := match holdOn a.st.holds (mdBD m) with
    | some h => h.excl
    | none => false
  let held := (holdOn a.st.holds (mdBD m)).isSome
  match a.kind with
  | .read => if ord then .pass else .fail
  | .write | .gpub _ =>
    let shared := match writeHold a.st with
      | some h => !h.excl
      | none => false
    if ord && mdST m != 3 && (mdST m != 2 || excl) && !shared && !barredWrite a.st then .pass else .fail
  | _ =>
    if mdST m = 3 then .fail
    else if ord && (mdST m != 2 || held) then (if barredWrite a.st then .fail else .pass)
    else if mdAT m && mdST m != 0 && (match stampFor s a.ctx a.st m with
        | some h => h % 2 ^ 16 == mdSP m
        | none => false) && !(a.st.barred && mdST m == 1) then .sameStamp
    else .fail

/-- The metadata after a passing write or atomic, or one performed under REPORT (R120, R123, R129). -/
def newMd (s : State) (a : Access) (m : BitVec 64) (v : Verdict) : BitVec 64 :=
  let at_ (st bd sp : Nat) : Bool :=
    AKind.atomic a.kind || (mdAT m && mdST m == st && mdBD m == bd && mdSP m == sp % 2 ^ 16)
  match a.kind with
  | .read => m
  | .gpub sc => mkMd 3 false a.agent (mdBD m) (mdSP m) sc
  | _ =>
    if v = .sameStamp then mkMd (mdST m) (mdAT m) a.agent (mdBD m) (mdSP m) (mdSC m)
    else match writeHold a.st with
      | some h => mkMd 2 (at_ 2 h.guard h.count) a.agent h.guard h.count ((s.ctxD a.ctx).scopeOf h.guard).scope
      | none =>
        match a.st.launch.bind s.launch? with
        | some l =>
          let bd := l.bdOf a.st.path
          let sp := ((seenPhase a.st l a.st.path).getD 0)
          mkMd 1 (at_ 1 bd sp) a.agent bd sp (l.dom.getLastD 5)
        | none => mkMd 0 false a.agent 0 0 0

/-- An integer operation of R113 on values of n bits. -/
def AOp.apply (op : AOp) (n old b : Nat) : Nat :=
  let o := old % 2 ^ n
  let y := b % 2 ^ n
  match op with
  | .add => (o + y) % 2 ^ n
  | .and => o &&& y
  | .or => o ||| y
  | .xor => o ^^^ y
  | .min => if toSigned n o ≤ toSigned n y then o else y
  | .max => if toSigned n o ≤ toSigned n y then y else o
  | .minu => Nat.min o y
  | .maxu => Nat.max o y
  | .swap => y

/-- Updates in the order of R116: by issuer, then as received. -/
def sortUps (l : List (FOp × Nat × BitVec 32)) : List (FOp × Nat × BitVec 32) :=
  sortBy (fun a b => decide (a.2.1 ≤ b.2.1)) l

/-- One set of R116 applied to a word: its special values first, then both paths of `add`, or the extreme. -/
def closeSet (op : FOp) (o : BitVec 32) (us : List (BitVec 32)) : BitVec 32 :=
  let ov := decodeF 0 o.toNat
  let uv := us.map (fun u => decodeF 0 u.toNat)
  let all := ov :: uv
  let out (x : XR) : BitVec 32 := BitVec.ofNat 32 (roundF 0 0 x)
  if us.isEmpty then o
  else if all.any XR.isNan then 0x7FC00000
  else match op with
    | .add =>
      let hasP := all.any (fun x => x == .inf false)
      let hasN := all.any (fun x => x == .inf true)
      if hasP && hasN then 0x7FC00000
      else if hasP then out (.inf false)
      else if hasN then out (.inf true)
      else if us.length ≤ 16 then out (uv.foldl (fun a u => rne32 (XR.add false a u)) ov)
      else out (sumExact all)
    | .min => out (uv.foldl XR.min ov)
    | .max => out (uv.foldl XR.max ov)

/-- `close(word)` of R116: the three sets in the order add, min, max. -/
def closeWord (o : BitVec 32) (ups : List (FOp × Nat × BitVec 32)) : BitVec 32 :=
  let ups := sortUps ups
  let of (op : FOp) := (ups.filter (fun u => u.1 == op)).map (·.2.2)
  closeSet .max (closeSet .min (closeSet .add o (of .add)) (of .min)) (of .max)

/-- A poison word (R19). -/
def poisonWord (cls kind unit addr : Nat) : Word :=
  BitVec.ofNat 64 (cls % 16 * 2 ^ 60 + kind % 16 * 2 ^ 56 + unit % 256 * 2 ^ 48 + addr % 2 ^ 48)
/-- The fault of an access of a command that met poison: its address is the one in the poison word (R19, R301). -/
def poisonFault (w : Word) : FaultInfo := ⟨.poisonUse, BitVec.ofNat 64 (fld w 47 0), w, 0, false⟩

/-- What a home answers: a value, done, poison kind, a fault. -/
inductive HomeRes where
  | value (w : BitVec 1024)
  | done
  | poison (kind : Nat)
  | fault (f : FaultInfo)
  deriving DecidableEq, Repr

/-- Whether the bytes of an access lie in an existing queue of the core that holds them (R206). -/
def inQueue (s : State) (k n : Nat) : Bool :=
  let hit (q : Queue) (base : Nat) : Bool := decide (k < base + q.off + 16 + 8 * q.cap) && decide (base + q.off < k + n)
  s.cores.any (fun c => c.queues.any (fun q =>
    match c.resident? q.ctx with
    | some r => hit q (Config.scratchKey + c.id * Config.scratchSize + r.base)
    | none => false))
  || s.images.any (fun im => im.state.queues.any (fun q =>
      q.ctx == im.ctx && hit q (im.region + im.core * 0x100000 + 0x65000)))

/-- Whether the bytes lie in a context's guard table (R124). -/
def inGuardTable (s : State) (k n : Nat) : Bool :=
  s.ctxs.any (fun c => decide (k < c.gbase + 16 * c.gsize) && decide (c.gbase < k + n))

/-- Whether a write touches TRG, STAT or LSLOT of a launch record: posted, of a launch, refused, or of a launch that is over
and forgotten (R274). -/
def inRecord (s : State) (a : Access) : Bool :=
  let c := s.ctxD a.ctx
  let va := canonVa a.core a.va
  let hit (rec : Nat) : Bool := decide (va < rec + 0xE8) && decide (rec + 0xD0 < va + a.size)
  a.kind != .read && decide (a.agent < 0xF0000)
    && (s.launches.any (fun l => l.ctx == a.ctx && hit l.record) || c.refused.any hit
      || c.queues.any (fun q => q.posted.any (fun p => hit p.1)))

/-- The threads made ready that wait for a record whose TRG or STAT an access has written (R219). -/
def State.wakeDeps (s : State) (a : Access) : State :=
  let va := canonVa a.core a.va
  s.wakeOn a.ctx (fun o => match o with
    | .dep base => decide (va < base + 0xE0) && decide (base + 0xD0 < va + a.size)
    | _ => false)

/-- log2 of an access size (R312), the whole part of it for a size that is no power of two (DESIGN CHOICE, log entry 60). -/
def sizeCode (n : Nat) : Nat := n.log2
/-- The access code of a race-ring record (R312). -/
def kindCode : AKind → Nat
  | .read => 0
  | .write => 1
  | .gpub _ => 3
  | _ => 2

/-- The first 8 bytes that a line write changes, by its byte enables (R159). -/
def writtenBytes (be data : Nat) : Nat :=
  (((List.range 128).filter (bit be)).take 8).foldr (fun i w => bits data (8 * i + 7) (8 * i) + w * 2 ^ 8) 0

/-- A race-ring record without DROP and TAIL (R312); `val` is the value read, or the bytes that an atomic leaves. -/
def raceRecord (s : State) (a : Access) (old new : BitVec 64) (val : BitVec 1024) : List Word :=
  let data : Nat := match a.kind with
    | .read => val.toNat
    | .gpub _ => 0
    | .write => if a.size = 128 then writtenBytes a.be.toNat a.data.toNat else a.data.toNat
    | .amo _ | .cas | .red _ => val.toNat
    | .fred _ => a.data.toNat
  [BitVec.ofNat 64 (a.ctx * 2 ^ 32 + sizeCode a.size * 2 ^ 24 + kindCode a.kind * 2 ^ 20 + a.agent),
   BitVec.ofNat 64 (a.va % 2 ^ 48), a.pc, old, new,
   BitVec.ofNat 64 (data % 2 ^ (8 * Nat.min a.size 8)), BitVec.ofNat 64 s.now, 0]

/-- The ring of a kind of a die, if the host has set one (R391). -/
def State.ring? (s : State) (kind die : Nat) : Option Ring := s.rings.find? (fun r => r.kind == kind && r.die == die)
/-- A state in which a record waits for its tick's placement (R391); a reply waits with it (R310). Where no
ring is set the record has no place, and the reply goes at once. -/
def State.collect (s : State) (kind die key : Nat) (rec : List Word) (reply : Option Instr) : State :=
  match s.ring? kind die with
  | none => s.post reply.toList
  | some _ =>
    { s with rings := s.rings.map (fun r =>
        if r.kind == kind && r.die == die then { r with coll := r.coll ++ [(s.now, key, rec, reply.toList)] } else r) }

/-- What is on its way, the replies that wait for their race record among it (R310). -/
def State.onWay (s : State) : List Instr := s.flight ++ (s.rings.flatMap (·.coll)).flatMap (·.2.2.2)

/-- Records collected for their rings, and what goes on once they have their places (R310): those of one tick are all placed
before anything that waits for one of them goes on. -/
def State.collectAll (s : State) (l : List (Nat × List Word)) (next : Instr) : State :=
  let l := l.filter (fun x => (s.ring? 0 (dieOfKey x.1)).isSome)
  match l.getLast? with
  | none => s.post [next]
  | some r =>
    (l.dropLast.foldl (fun s x => s.collect 0 (dieOfKey x.1) (unitOfKey x.1) x.2 none) s).collect 0 (dieOfKey r.1) (unitOfKey r.1)
      r.2 (some next)

/-- The shadow of a link-table line kept before every write to it (R344): of a line that the link guard binds, is to bind, or
has bound. -/
def State.shadowBefore (s : State) (ctx line : Nat) (old new : BitVec 64) (key : Nat) : State :=
  let g := (s.ctxD ctx).linkGuard
  let isLink (m : BitVec 64) : Bool := mdST m == 2 && mdBD m == g
  if isLink old || isLink new || s.shadows.any (fun x => x.line == line) then
    let sh : Shadow := ⟨line, s.lineData line key, mdSP old, isLink old⟩
    { s with shadows := s.shadows.filter (fun x => x.line != line) ++ [sh] }
  else s

/-- Copies of a line dropped from the near cache of a core and the remote-data cache of its die (R261). -/
def State.dropCopy (s : State) (mc line : Nat) : State :=
  { s with copies := s.copies.filter (fun c =>
      !(c.line == line && (if c.near then c.place == mc else c.place == dieOf mc))) }

/-- Copies that an acquire invalidates in a core's near cache and its die's remote-data cache: every one not PUBLISHED. R263 has
this at the events of R237. At a grant, a handed hold, a `bart` and a read of a PUBLISHED line it goes beyond R263's table, for R236
puts the releasing agent's writes before the reads that follow, whatever their lines were bound to before (DEDUCED, log entry 61). -/
def State.dropStale (s : State) (mc : Nat) : State :=
  { s with copies := s.copies.filter (fun c => !((if c.near then c.place == mc else c.place == dieOf mc) && mdST c.md != 3)) }

/-- A copy that serves a read of a line by a core, under the reading key (R259, R260). -/
def State.copyFor (s : State) (mc ctx agent line key : Nat) (st : Stamps) : Option Copy :=
  if s.oracle.hit then
    s.copies.find? (fun c => c.line == line && c.ctx == ctx && c.key == key
      && (if c.near then c.place == mc else c.place == dieOf mc) && ordered s ctx agent st c.md false)
  else none
/-- Whether a line is in a core's near cache (R104 MISS). -/
def State.isNear (s : State) (mc line : Nat) : Bool := s.copies.any (fun c => c.near && c.place == mc && c.line == line)

/-- Lines that a near cache and a remote-data cache hold (R260). -/
def copyCap (near : Bool) : Nat := if near then 512 else 262144
/-- Copies with one more, in place of one that the draw names when its cache is full (R260; log entry 6). -/
def addCopy (l : List Copy) (c : Copy) (seed : Nat) : List Copy :=
  let mine := l.filter (fun x => x.near == c.near && x.place == c.place)
  match (if mine.length < copyCap c.near then none else mine[seed % mine.length]?) with
  | some x => l.filter (· != x) ++ [c]
  | none => l ++ [c]

/-- Copies of a line brought near a core: into its near cache, where asked, and into its die's remote-data cache, where another
die homes the line (R260). -/
def State.bringNear (s : State) (near : Bool) (ctx mc k key : Nat) (m : BitVec 64) : State :=
  let line := lineOf k
  let mk (near : Bool) (place : Nat) : Copy := ⟨near, place, ctx, line, m, s.lineData line key, key⟩
  let s := s.dropCopy mc line
  let l := if near then addCopy s.copies (mk true mc) s.oracle.seed else s.copies
  { s with copies := if dieOfKey k != dieOf mc then addCopy l (mk false (dieOf mc)) s.oracle.seed else l }
/-- A state in which a read has left copies (R260), as the draw says; a page's CA may forbid it (R256). -/
def State.fillCopy (s : State) (a : Access) (mc k key : Nat) (m : BitVec 64) : State :=
  if !s.oracle.fill || s.pois (lineOf k) != 0 || 0x80000 ≤ a.agent || a.bypass then s
  else s.bringNear true a.ctx mc k key m

/-- Word entries of a holding buffer (R267). -/
def holdCap : Nat := 256
/-- Spill records that a granted page holds: 256 bytes each in a 64 KiB page (R268; log entry 25). -/
def spillPerPage : Nat := 256
/-- Entries in use in a unit's holding buffer (R267). -/
def State.holding (s : State) (unit : Nat) : Nat := (s.held.filter (fun h => h.spilled.isNone && unitOfKey h.key == unit)).length
/-- The lowest free record of a context's spill region (R268). -/
def State.spillPlace (s : State) (ctx : Nat) : Option Nat :=
  ((s.ctxD ctx).spillPages.flatMap (fun p => (List.range spillPerPage).map (fun i => p + 256 * i))).find?
    (fun p => !s.held.any (fun h => h.spilled == some p))
/-- The entry that a full buffer displaces: the least recently updated, the list being in that order (R268). -/
def State.displaced (s : State) (unit : Nat) : Option HeldWord :=
  s.held.find? (fun h => h.spilled.isNone && unitOfKey h.key == unit)
/-- Whether a unit has stopped taking updates (R268): it is full, and the entry to be displaced has no spill record left. It then
stops before a new word comes, and for the words that it holds too (DESIGN CHOICE, log entry 60). -/
def State.unitStopped (s : State) (unit : Nat) : Bool :=
  decide (holdCap ≤ s.holding unit) && (s.displaced unit).any (fun h => (s.spillPlace h.ctx).isNone)
/-- Whether a `fred` must wait in the fabric, whatever its word (R268). -/
def State.fredWaits (s : State) (k : Nat) : Bool := s.unitStopped (unitOfKey k)

/-- The 32 words of a spill record: the word's key, its binding, the number of its updates and as many of them, with operation and
issuer, as there is room for (DESIGN CHOICE, log entry 25). -/
def HeldWord.words (h : HeldWord) : List Nat :=
  let code : FOp → Nat
    | .add => 0
    | .min => 1
    | .max => 2
  let ws := [h.key, h.ctx * 2 ^ 32 + h.guarded.toNat * 2 ^ 31 + h.bd, h.ups.length]
    ++ (h.ups.take 29).map (fun u => u.2.2.toNat + code u.1 * 2 ^ 32 + u.2.1 * 2 ^ 34)
  ws ++ List.replicate (32 - ws.length) 0
/-- An entry written to its context's spill region (R268), in whose lines it leaves no stamp. -/
def State.spill (s : State) (d : HeldWord) : State :=
  match s.spillPlace d.ctx with
  | none => s
  | some p =>
    let s := d.words.zipIdx.foldl (fun s w => s.store (p + 8 * w.2) 8 0 w.1) s
    { (s.setMd (lineOf p) 0).setMd (lineOf p + 1) 0 with
      held := s.held.map (fun h => if h.key == d.key then { h with spilled := some p } else h)
      copies := s.copies.filter (fun c => c.line != lineOf p && c.line != lineOf p + 1) }
/-- The events of the units that have stopped since a state before (R268, R384): an update may take the last record of others'
context, or change which entry they would displace. -/
def State.stopEvents (s0 s : State) : State :=
  ((s.held.filter (fun h => h.spilled.isNone)).map (fun h => unitOfKey h.key)).eraseDups.foldl (fun x unit =>
    if s.unitStopped unit && !s0.unitStopped unit then
      x.emit 3 ((s.displaced unit).map (·.ctx)) 0 0 (BitVec.ofNat 64 unit)
    else x) s

/-- An update taken into the holding buffer (R267, R268): to the word's entry, or to a new one, which displaces the
least recently updated entry of a full buffer. -/
def State.holdFred (s : State) (k ctx : Nat) (guarded : Bool) (bd : Nat) (u : FOp × Nat × BitVec 32) : State :=
  let unit := unitOfKey k
  s.stopEvents (match s.held.find? (fun h => h.key == k) with
  | some h => { s with held := s.held.filter (fun x => x.key != k) ++ [{ h with ups := h.ups ++ [u] }] }
  | none =>
    let s := if s.holding unit < holdCap then s
      else match s.displaced unit with
        | some d => (s.spill d).count (2000 + unit) 3
        | none => s
    { s with held := s.held ++ [⟨k, ctx, guarded, bd, [u], none⟩] })

/-- Whether a binding has held updates (R121). -/
def State.heldOf (s : State) (ctx : Nat) (guarded : Bool) (bd : Nat) : Bool :=
  s.held.any (fun h => h.ctx == ctx && h.guarded == guarded && h.bd == bd)
/-- A binding's held updates applied at its closing event (R116, R121, R103): those of a poisoned line are
discarded. -/
def State.closeHeld (s : State) (ctx : Nat) (guarded : Bool) (bd : Nat) : State :=
  let mine (h : HeldWord) : Bool := h.ctx == ctx && h.guarded == guarded && h.bd == bd
  let s := (s.held.filter mine).foldl (fun s h =>
    if s.pois (lineOf h.key) ≠ 0 then s
    else
      let key := s.lineKey (lineOf h.key)
      s.store h.key 4 key (closeWord (BitVec.ofNat 32 (s.load h.key 4 key)) h.ups).toNat) s
  { s with held := s.held.filter (fun h => !mine h) }

/-- The bytes of an access changed at its home once the check has let it (R103, R112-R117, R159, R271): the
state, and what is answered. `held` says that a `fred` waits for a closing event. -/
def performBytes (s : State) (a : Access) (k key : Nat) (held : Bool) (bd : BitVec 64) : State × HomeRes :=
  let line := lineOf k
  let pk := (s.pois line).toNat
  let old := s.load k a.size key
  let n := 8 * a.size
  let whole := a.size = 128 ∧ a.be = BitVec.allOnes 128
  match a.kind with
  | .read => if pk ≠ 0 then (s, .poison pk) else (s, .value (BitVec.ofNat 1024 old))
  | .write =>
    let s := if a.size = 128 then s.storeBe k 128 key a.data.toNat a.be else s.store k a.size key a.data.toNat
    (if whole then s.setPois line 0 else s, .done)
  | .amo op =>
    if pk ≠ 0 then (s, .poison pk)
    else (s.store k a.size key (AOp.apply op n old a.data.toNat), .value (BitVec.ofNat 1024 old))
  | .cas =>
    if pk ≠ 0 then (s, .poison pk)
    else (if old = a.exp.toNat % 2 ^ n then s.store k a.size key a.data.toNat else s, .value (BitVec.ofNat 1024 old))
  | .red op => if pk ≠ 0 then (s, .done) else (s.store k a.size key (AOp.apply op n old a.data.toNat), .done)
  | .fred op =>
    let u := (op, a.agent, a.data.setWidth 32)
    if held then (s.holdFred k a.ctx (mdST bd == 2) (mdBD bd) u, .done)
    else if pk ≠ 0 then (s, .done)
    else (s.store k 4 key (closeWord (BitVec.ofNat 32 old) [u]).toNat, .done)
  | .gpub _ => (s, .done)

/-- A state with a line's metadata set; where the line lies in the share of a core image, so is its word of the image's tag
array (R293, R295). -/
def State.putMd (s : State) (line : Nat) (m : BitVec 64) : State :=
  let at_ (im : Image) : Nat := (im.region + im.core * 0x100000 + 0x65000) / 128
  let s := s.setMd line m
  match s.images.find? (fun im => im.complete && decide (at_ im ≤ line) && decide (line < at_ im + 4096)) with
  | some im => { s with mem := Memory.writeN s.mem 8 (im.region + im.core * 0x100000 + 0x5D000 + 8 * (line - at_ im)) m.toNat }
  | none => s

/-- The bytes that an access touches, from its address on: all, or of a masked write of a line the selected ones (R159). -/
def touchedBytes (a : Access) : List (Nat × Nat) :=
  if a.kind = .write ∧ a.size = 128 ∧ a.be ≠ BitVec.allOnes 128 then
    ((List.range 128).filter (bit a.be.toNat)).map (fun i => (i, 1))
  else [(0, a.size)]
/-- Whether no access reaches some bytes: a queue's, the guard table's, a record's device fields (R124, R206, R274). -/
def State.shut (s : State) (a : Access) (k : Nat) : Bool :=
  (touchedBytes a).any (fun p => inQueue s (k + p.1) p.2 || inGuardTable s (k + p.1) p.2
    || inRecord s { a with va := a.va + p.1, size := p.2 })

/-- An access performed or refused at its home (R119-R123): the state, the answer, and the race-ring record of
one performed under REPORT, which clears no poison mark (R271). -/
def homeAccess (s : State) (a : Access) (k key : Nat) : State × HomeRes × Option (List Word) :=
  let line := lineOf k
  let mc := s.mcOf a.ctx a.core
  let fail (c : Cause) (i : Word) : HomeRes := .fault ⟨c, BitVec.ofNat 64 a.va, i, 0, false⟩
  let s := if a.kind == .read then s else s.dropCopy mc line
  if s.shut a k then (s, fail .protection 0, none)
  else
    let m := s.md line
    let v := checkHome s a m
    if v = .fail ∧ !a.st.report then (s, fail .race m, none)
    else
      let m' := newMd s a m v
      let pk := (s.pois line).toNat
      let skip := pk != 0 && (match a.kind with
        | .amo _ | .cas | .red _ => true
        | _ => false)
      let s1 := if a.kind == .read || skip then s else ((s.shadowBefore a.ctx line m m' key).putMd line m').setOwner line a.ctx
      let s1 := if a.kind == .read then s1 else s1.wakeDeps a
      let (s2, r) := performBytes s1 a k key (mdST m' != 0) m'
      let s2 := if v = .fail then s2.setPois line (s.pois line) else s2
      let s2 := if a.kind == .read && v != .fail then
          (if mdST m == 3 && decide (a.agent < 0x80000) then s2.dropStale mc else s2).fillCopy a mc k key m
        else s2
      let val : BitVec 1024 := match a.kind, r with
        | .amo _, _ | .cas, _ | .red _, _ => BitVec.ofNat 1024 (s2.load k a.size key)
        | _, .value w => w
        | _, _ => 0
      (s2, r, if v = .fail then some (raceRecord s a m (if skip then m else m') val) else none)

/-- The stamps of a thread at this moment (R239): its holds, write guard, launch, marks, the context's race-check
mode. -/
def Thread.stamps (t : Thread) (s : State) : Stamps where
  holds := t.holds
  wg := if bit t.wg.toNat 63 then some (fld t.wg 21 0) else none
  launch := t.fam.launch
  path := t.fam.path
  marks := t.marks
  barred := !t.arrived.isEmpty
  report := fld (s.ctxD t.ref.ctx).mode 1 0 == 1
  core := some (TRef.cc t.ref)

/-- The bytes of a load with the thread's own stores before it that are not yet performed laid over (R108). -/
def forwardOwn (t : Thread) (accId : Nat) (cc : Nat) (va size : Nat) (w : Nat) : Nat :=
  let stores := ((t.pend.filter (fun p => decide (p.id < accId))).map (fun p =>
    (p.units.filter (fun u => !u.2 && u.1.kind == .write)).map (·.1))).flatten
  stores.foldl (fun w a =>
    (List.range size).foldl (fun w j =>
      let b := canonVa cc va + j
      let a0 := canonVa cc a.va
      if a0 ≤ b ∧ b < a0 + a.size ∧ (a.size ≠ 128 ∨ bit a.be.toNat (b - a0)) then
        w - (bits w (8 * j + 7) (8 * j)) * 2 ^ (8 * j) + bits a.data.toNat (8 * (b - a0) + 7) (8 * (b - a0)) * 2 ^ (8 * j)
      else w) w) w

end Sys2Proof.Machine
end

