-- ==== Sys2Proof/Machine/Ops.lean ====
section
/-! DEFINITION. The shared operations of the thread side: producer tags and deliveries, waiter lists and offers,
trace and snapshot triggers, taking a trap, applying an outcome, and the course of one issued instruction
(spec 01 R12, R16-R18, R20-R22, 12 R288-R290, 13 R297-R302, 21 R371, R376, R377). -/
namespace Sys2Proof.Machine
open Sys2Proof

/-- The outcome of one step of this machine. -/
abbrev Out := Host.Outcome State Fault Refusal

/-- The first base from b on whose n numbers are all free, wrapping at 4,096 (R16). An instruction with two tags takes two
consecutive numbers, as R16 has it for `vldt`; where no two adjacent ones are free there are none for it (DESIGN CHOICE, log entry
59). -/
def findSeq (used : List Nat) (n : Nat) : Nat → Nat → Option Nat
  | 0, _ => none
  | fuel + 1, b =>
    if b + n ≤ 4096 && (List.range n).all (fun i => !used.contains (b + i)) then some b
    else findSeq used n fuel (if b + 1 < 4096 then b + 1 else 1)

/-- n consecutive free sequence numbers of a thread, by the draw (which one is open, log entry 7). -/
def freeSeq (s : State) (t : Thread) (n : Nat) : Option Nat := findSeq t.seqs n 4096 (s.oracle.seed % 4095 + 1)

/-- A tag of its class and number (R16). -/
def mkTag (cls n : Nat) : Tag := BitVec.ofNat 16 (cls % 16 * 4096 + n % 4096)
/-- The sequence number of a tag. -/
def seqOf (tag : Tag) : Nat := tag.toNat % 4096

/-- n tags of a class taken by the issuing thread, or outcome RETRY when none are free (R16). No router refuses then: the
thread parks on its own core's router, and looks again when a delivery has freed a number or that router accepts
(DEDUCED, log entry 7). -/
def takeTags (s : State) (t : Thread) (cls n : Nat) : Ev (List Tag × State) :=
  match freeSeq s t n with
  | none => .error (.notReady .retry (.router (s.homeOf t.ref)))
  | some b =>
    .ok ((List.range n).map (fun i => mkTag cls (b + i)),
      s.updThread t.ref (fun t => { t with seqs := t.seqs ++ (List.range n).map (b + ·) }))

/-- One tag (R31 `pending`). -/
def takeTag (s : State) (t : Thread) (cls : Nat) : Ev (Tag × State) := do
  let (l, s) ← takeTags s t cls 1
  pure (l.headD 0, s)

/-- A thread that waits for its accesses or its commands looks again (R101): its instruction goes on without a turn of its own. -/
def nudgeT (t : Thread) : Thread := if t.run = .waiting .fence then { t with run := .waiting .over } else t
/-- The thread of a reference nudged. -/
def State.nudge (s : State) (r : TRef) : State := s.updThread r nudgeT

/-- A parked thread made ready when the register it parked on has changed (R31). -/
def wakeReg (t : Thread) (o : Opd) : Thread :=
  match t.run with
  | .parked (.reg x) _ => if x = o then { t with run := .ready } else t
  | _ => t

/-- A thread with the class of the producer that has delivered to a register noted (R270). -/
def Thread.producer (t : Thread) (o : Opd) (cls : Nat) : Thread :=
  let n := Opd.code o
  { t with prods := t.prods.filter (fun p => p.1 != n) ++ (if cls = 0 then [] else [(n, cls)]) }
/-- The class of the last producer that delivered to a register; 0 for one that none did (R16, R270). -/
def Thread.producerOf (t : Thread) (o : Opd) : Nat := ((t.prods.find? (fun p => p.1 == Opd.code o)).map (·.2)).getD 0

/-- A tagged delivery at its thread (R17): it lands in the register that holds the tag, or is discarded; the
sequence number is free again (R16) and an acquire load's block ends (R106). -/
def landTagged (t : Thread) (tag : Tag) (val : DVal) : Thread :=
  let t := { t with seqs := t.seqs.filter (· != seqOf tag), acq := if t.acq = some tag then none else t.acq }
  match t.holderOf tag with
  | none => nudgeT t
  | some o =>
    let t := match val with
      | .val w => t.setFull o w
      | .pois w => t.setPois o w
    nudgeT (wakeReg (t.producer o (tag.toNat / 4096)) o)

/-- What a delivery makes of the condition of a queued command (R178): a held predicate fills; where no
register holds the tag the command is to be discarded. -/
def fillGuard (t : Thread) (tag : Tag) (val : DVal) (g : CGuard) : CGuard :=
  match g with
  | .waits x neg =>
    if x != tag then g
    else match t.holderOf tag, val with
      | none, _ => .fails
      | some _, .val w => if bit w.toNat 0 != neg then .open_ else .fails
      | some o, .pois w => .pois (kPoison w) (Opd.code o)
  | _ => g

/-- A thread parked for want of a tag made ready when a delivery has freed a number (R16); one whose core's router refuses
stays parked (R21). -/
def lookAgain (s : State) (t : Thread) : Thread :=
  let mc := s.homeOf t.ref
  if t.parkedOn (.router mc) && !(s.core mc).refusing then { t with run := .ready } else t

/-- A tagged delivery (R17, R178). -/
def deliverTag (s : State) (r : TRef) (tag : Tag) (val : DVal) : State :=
  match s.thread? r with
  | none => s
  | some t =>
    let fill (q : CmdQueue) : CmdQueue :=
      { q with waiting := q.waiting.map (fun c => if c.t == r then { c with guard := fillGuard t tag val c.guard } else c) }
    let s := s.updThread r (fun x => { lookAgain s (landTagged x tag val) with cguard := x.cguard.map (fillGuard t tag val) })
    { s with cores := s.cores.map (fun c => { c with mq := c.mq.map fill, tq := c.tq.map fill }) }

/-- The launch slot of a thread for records (R376); 0 without a launch. -/
def slotOf (s : State) (t : Thread) : Nat := ((t.fam.launch.bind s.launch?).map (·.slot)).getD 0

/-- A trace record of an enabled kind (R376); bit KIND - 1 of the mask enables a kind (DESIGN CHOICE, log entry 60). -/
def State.trace (s : State) (t : Thread) (kind hi : Nat) (pc : Word) : State :=
  if bit (s.ctxD t.ref.ctx).trace.toNat (kind - 1) then
    s.collect 2 (dieOf (s.homeOf t.ref)) t.ref.agent
      [BitVec.ofNat 64 s.now,
       BitVec.ofNat 64 (t.ref.ctx * 2 ^ 48 + slotOf s t * 2 ^ 42 + kind * 2 ^ 32 + t.fam.linear % 2 ^ 32),
       BitVec.ofNat 64 (hi % 2 ^ 32 * 2 ^ 32 + t.ref.agent), pc &&& 0xFFFFFFFFFFFF] none
  else s

/-- The enable bit of a trigger source (R371). -/
def SnapSrcBit : SnapSrc → Nat
  | .pulse => 0
  | .race => 1
  | .host => 2
  | .ext => 3

/-- A snapshot trigger (R370, R371): the first one while armed sets the latch 16 reference ns ahead, those of
the same tick join it; one while not armed advances MISSED. -/
def State.snapAt (s : State) (now : Nat) (src : SnapSrc) : State :=
  let b := SnapSrcBit src
  let p := s.probe
  if !bit p.snapctl.toNat b then s
  else if !bit p.snapctl.toNat 7 then
    { s with probe := { p with snapctl := setFld p.snapctl 31 16 (Nat.min (fld p.snapctl 31 16 + 1) 0xFFFF) } }
  else match p.latchAt with
    | none => { s with probe := { p with latchAt := some (now + 16), src := BitVec.ofNat 4 (2 ^ b) } }
    | some x => if x = now + 16 then { s with probe := { p with src := p.src ||| BitVec.ofNat 4 (2 ^ b) } } else s
/-- A snapshot trigger of now (R371). -/
def State.snap (s : State) (src : SnapSrc) : State := s.snapAt s.now src

/-- The object whose list holds the entries for an object: a guard has one list of `ghand` senders (R288). -/
def listObj : WObj → WObj
  | .handSlot g _ => .handSlot g 0
  | o => o
/-- The object whose units the entries for an object wait for: a `ghand` sender's are its target's hold-table entries (R290). -/
def unitObj : WObj → WObj
  | .handSlot _ a => .handSlot 0 a
  | o => o
/-- Whether an entry's object and one agree in a context by `f`; Pods, accumulators and counters are of their core. -/
def Waiter.agrees (w : Waiter) (f : WObj → WObj) (ctx : Nat) (o : WObj) : Bool :=
  f w.obj == f o && (match o with
    | .pod _ _ | .accum _ _ | .counter _ _ => true
    | _ => w.ctx == ctx)
/-- Whether an entry stands in the list of an object (R288). -/
def Waiter.on (w : Waiter) (ctx : Nat) (o : WObj) : Bool := w.agrees listObj ctx o
/-- Whether an entry waits for the units of an object; of `ghand` senders in the lists of several guards the oldest is offered
one first (R290; DESIGN CHOICE, log entry 60). -/
def Waiter.wants (w : Waiter) (ctx : Nat) (o : WObj) : Bool := w.agrees unitObj ctx o

/-- The queue with a descriptor of a context core, where its core is (R206, R295). -/
def State.queue? (s : State) (ctx cc off : Nat) : Option Queue :=
  let find (l : List Queue) : Option Queue := l.find? (fun q => q.ctx == ctx && q.off == off)
  match s.image? ctx cc with
  | some im => find im.state.queues
  | none => find (s.core (s.mcOf ctx cc)).queues

/-- The words of a queue and where each stands from its descriptor on: the descriptor's two, and the items at their entries
(R206). -/
def Queue.words (q : Queue) : List (Nat × Nat) :=
  (0, 2 ^ 63 + q.qid % 32 * 2 ^ 52 + q.ctx % 2 ^ 16 * 2 ^ 32 + q.cap % 2 ^ 9 * 2 ^ 16 + q.head % 2 ^ 8 * 2 ^ 8)
    :: (8, q.items.length) :: q.items.zipIdx.map (fun x => (16 + 8 * ((q.head + x.2) % q.cap), x.1.1.toNat))
/-- Copies that hold some of n bytes dropped. -/
def State.dropCopies (s : State) (k n : Nat) : State :=
  { s with copies := s.copies.filter (fun c => !(decide (128 * c.line < k + n) && decide (k < 128 * c.line + 128))) }
/-- A queue's words written to the scratchpad bytes that it lies in (R206), of which no copy stays. -/
def State.queueBytes (s : State) (ctx cc : Nat) (q : Queue) : State :=
  match s.scratchSpot ctx cc q.off with
  | none => s
  | some k => (q.words.foldl (fun s w => s.store (k + w.1) 8 0 w.2) s).dropCopies k (16 + 8 * q.cap)
/-- A state with a queue replaced, where its core is. -/
def State.setQueue (s : State) (ctx cc : Nat) (q : Queue) : State :=
  let upd (l : List Queue) : List Queue := l.map (fun x => if x.ctx == q.ctx && x.off == q.off then q else x)
  (match s.image? ctx cc with
  | some _ => s.updImage ctx cc (fun im => { im with state := { im.state with queues := upd im.state.queues } })
  | none => s.updCore (s.mcOf ctx cc) (fun c => { c with queues := upd c.queues })).queueBytes ctx cc q

/-- The quota in force of a context on a die (R224). -/
def Ctx.quotaOn (c : Ctx) (die : Nat) : Nat :=
  let ceil := ((c.ceil.find? (fun p => p.1 == die)).map (·.2)).getD 0
  match c.quota.find? (fun p => p.1 == die) with
  | some p => Nat.min p.2 ceil
  | none => ceil

/-- Slots of a context on a die that count toward its quota: open or releasing (R224). -/
def Husk.used (h : Husk) (ctx : Nat) : Nat :=
  (h.slots.filter (fun x => x.ctx == ctx && (x.st == .open_ || x.st == .releasing || x.st == .written))).length
/-- Slots of a Husk (R224: the handle's slot field has 10 bits). -/
def huskSlots : Nat := 1024
/-- Slots of a Husk in use. -/
def Husk.busy (h : Husk) : Nat := (h.slots.filter (fun x => x.st != .free)).length

/-- The guards of a thread's acquires whose reply is on its way: each has its entry in the hold table kept (R125). -/
def Thread.acquiring (t : Thread) : List Nat :=
  t.pend.filterMap (fun p => match p.req with
    | some (.gacq _) => some (fld p.addr 21 0)
    | some (.guardRequestAtHome r) => (match r.op with
      | .acquire _ _ => some r.idx
      | _ => none)
    | _ => none)
/-- Handovers to an agent, by threads of its own core, that are on their way to the guard's home: their outcome was
known at issue (R130). -/
def handsInFlight (s : State) (ctx a : Nat) : Nat :=
  ((s.threads.filter (fun t => TRef.cc t.ref == a / 16)).map (fun t => (t.pend.filter (fun p => match p.req with
    | some (.guardRequestAtHome r) => r.ctx == ctx && r.op == .handTo a
    | _ => false)).length)).foldl (· + ·) 0
/-- Entries of a thread's hold table that are taken or kept (R125). -/
def holdsTaken (s : State) (t : Thread) : Nat := t.holds.length + t.acquiring.length + handsInFlight s t.ref.ctx t.ref.agent

/-- Units that an object has now (R290). -/
def avail (s : State) (ctx : Nat) (o : WObj) : Nat :=
  match o with
  | .queue cc off push =>
    match s.queue? ctx cc off with
    | some q => if push then q.cap - q.items.length else q.items.length
    | none => 0
  | .pod mc n => if ((s.core mc).pods.get (Fin.ofNat 16 n)).st = .free then 1 else 0
  | .accum mc n => if ((s.core mc).accs.get (Fin.ofNat 4 n)).st = .free then 1 else 0
  | .handSlot _ a => match s.agent? ctx a with
    | some t => 8 - holdsTaken s t
    | none => 0
  | .husk die => Nat.min ((s.ctxD ctx).quotaOn die - (s.husk die).used ctx) (huskSlots - (s.husk die).busy)
  | _ => 0

/-- Units reserved for other agents than one (R290). -/
def reservedFor (s : State) (ctx agent : Nat) (o : WObj) : Nat :=
  (s.waiters.filter (fun w => w.wants ctx o && w.reserved.isSome && !(w.ctx == ctx && w.agent == agent))).length

/-- Whether an agent's operation may take a unit now (R290). -/
def canTake (s : State) (ctx agent : Nat) (o : WObj) : Bool := decide (reservedFor s ctx agent o < avail s ctx o)

/-- A reservation made for an entry: a parked thread is made ready, a Husk slot's or port agent's request is made
again, a ticket keeps it 512 cycles or to its death (R290). -/
def State.reserve (s : State) (w : Waiter) : State :=
  let fin := if w.parked then 0 else Nat.min (s.cycle + 512) (w.last + 512)
  let s : State := { s with waiters := s.waiters.map (fun x => if x.id == w.id then { x with reserved := some fin } else x) }
  let s := s.post ((w.req.map Instr.guardRequestAtHome).toList)
  if w.parked then s.updThread w.t (fun t => match t.run with
    | .parked _ _ => { t with run := .ready }
    | _ => t) else s

/-- An object's free units offered to the oldest entries that have none (R290). -/
def State.offer (s : State) (ctx : Nat) (o : WObj) : State :=
  let all := s.waiters.filter (fun w => w.wants ctx o)
  let n := avail s ctx o - (all.filter (fun w => w.reserved.isSome)).length
  ((all.filter (fun w => w.reserved.isNone)).take n).foldl State.reserve s

/-- The entry of an agent on an object ended (R289). -/
def State.endEntry (s : State) (ctx agent : Nat) (o : WObj) : State :=
  { s with waiters := s.waiters.filter (fun w => !(w.on ctx o && w.ctx == ctx && w.agent == agent)) }

/-- A unit taken by an agent, whose entry ends; what is left is offered (R289, R290). -/
def State.took (s : State) (ctx agent : Nat) (o : WObj) : State := (s.endEntry ctx agent o).offer ctx o

/-- The guard's home offers grants (R126, R290): an exclusive grant of a free guard to the oldest entry, a shared
one to it and every shared entry that follows, up to the first exclusive one. -/
def offerGuardTo (free : Bool) : List Waiter → Bool → List Waiter
  | [], _ => []
  | w :: l, any =>
    if w.reserved.isSome then (if w.shared then offerGuardTo free l true else [])
    else if w.shared then w :: offerGuardTo free l true
    else if free && !any then [w] else []

/-- The entries of a guard's acquirer list that an offer now reaches. -/
def guardOffers (s : State) (ctx g : Nat) : List Waiter :=
  let gd := (s.ctxD ctx).guard g
  if gd.excl then [] else offerGuardTo gd.isFree (s.waiters.filter (fun w => w.on ctx (.guard g))) false

/-- An object's free units, or a guard's grants, offered to the entries they reach (R290). -/
def State.reoffer (s : State) (ctx : Nat) (o : WObj) : State :=
  match o with
  | .guard g => (guardOffers s ctx g).foldl State.reserve s
  | o => s.offer ctx o

/-- A state without some entries. -/
def State.without (s : State) (p : Waiter → Bool) : State := { s with waiters := s.waiters.filter (fun w => !p w) }

/-- The threads made ready that wait for the buffer in which a thread gives up its reserved entry (R31, R201). -/
def State.wakeBuffer (s : State) (t : Thread) : State :=
  let mc := s.homeOf t.ref
  match t.reserved with
  | none => s
  | some 0 => s.wakeAll (fun o => o == .outbound mc)
  | some 1 => s.wakeOn t.ref.ctx (fun o => o == .matrixQueue mc)
  | some _ => s.wakeOn t.ref.ctx (fun o => o == .transferQueue mc)

/-- A thread's reserved buffer entry given up: an instruction that does not take effect keeps none (R21, R201). -/
def State.unreserve (s : State) (r : TRef) : State :=
  match s.thread? r with
  | some t =>
    if t.reserved.isNone then s
    else (s.wakeBuffer t).updThread r (fun t => { t with reserved := none })
  | none => s

/-- Every entry that a thread has, removed, its reservations offered on (R292, R298). -/
def State.dropEntries (s : State) (r : TRef) : State :=
  let mine := s.waiters.filter (fun w => w.t == r)
  let s := s.without (fun w => w.t == r)
  mine.foldl (fun s w => s.reoffer w.ctx w.obj) s

/-- Objects whose waiter list is kept beside the issuing core: a not-ready outcome makes or renews an entry
there (R288). Guards away, remote queues and Husk pools keep theirs at the home. -/
def keepsList : WObj → Bool
  | .queue _ _ _ | .pod _ _ | .accum _ _ | .handSlot _ _ | .counter _ _ => true
  | _ => false

/-- An entry made or renewed at its place after a not-ready outcome (R288, R289); a reservation it had ends, and
the unit is offered on (R290); a fifth ticket kills the thread's oldest. -/
def State.enter (s : State) (r : TRef) (o : WObj) (parked shared : Bool) (amount : Nat) (req : Option GuardReq) : State :=
  let mine (w : Waiter) : Bool := w.on r.ctx o && w.ctx == r.ctx && w.agent == r.agent
  match s.waiters.find? mine with
  | some old =>
    let new (w : Waiter) : Waiter :=
      { w with obj := o, parked := parked, shared := shared, last := s.cycle, amount := amount, reserved := none, t := r, req := req }
    if old.reserved.isSome then
      let s' := (s.without mine).reoffer r.ctx old.obj
      { s' with waiters := s.waiters.map (fun w => if mine w then new w else (s'.waiters.find? (fun x => x.id == w.id)).getD w) }
    else { s with waiters := s.waiters.map (fun w => if mine w then new w else w) }
  | none =>
    let live := s.waiters.filter (fun w => w.t == r && !w.parked)
    let (id, s) := s.fresh
    let s' := if !parked && 4 ≤ live.length then
        (match live.head? with
          | some w => (s.without (fun x => x.id == w.id)).reoffer w.ctx w.obj
          | none => s)
      else s
    { s' with waiters := s'.waiters ++ [⟨id, o, r.ctx, r, r.agent, parked, shared, s.cycle, amount, none, req⟩] }

/-- Address of a thread context's trap frame (R298). -/
def frameOf (s : State) (r : TRef) : Nat := (s.ctxD r.ctx).tfb + (TRef.cc r * 16 + TRef.tid r) * 128

/-- Words stored from a key on, unchecked; the line becomes FREE (R298). -/
def State.storeWords (s : State) (k key : Nat) (ws : List Word) : State :=
  let s := (ws.zipIdx.foldl (fun s p => s.store (k + 8 * p.2) 8 key p.1.toNat) s).setMd (lineOf k) 0
  { s with copies := s.copies.filter (fun c => c.line != lineOf k) }

/-- A trap record written in a half of the thread's frame, or nothing when the write faults (R298, R299). -/
def State.writeRecord (s : State) (r : TRef) (half : Nat) (ws : List Word) : Option State :=
  match spotOf s r.ctx (TRef.cc r) (frameOf s r + half) true true with
  | .ok (.at_ k key) => some (s.storeWords k key ws)
  | _ => none

/-- The 64-byte record (R301). -/
def recordWords (c : Cause) (i : TrapInfo) (pc resume status : Word) : List Word :=
  [i.c.word c.num, pc, resume, status, i.addr, i.data, i.prog, i.info]

/-- Whether a pending entry is an instruction that waits for its reply out of the rotation (R126, R224). -/
def asks (p : Pending) : Bool :=
  match p.req with
  | some (.gacq _) | some (.hopen _) | some (.hclose _) | some (.hstat _) => true
  | _ => false
/-- A thread taken out of a reply wait, its instruction not yet issued (R292, R300): the reply finds nobody waiting (log
entry 31). -/
def withdraw (t : Thread) : Thread := { t with pend := t.pend.filter (fun p => !asks p) }

/-- A thread halted by a double trap (R298, R299, R358): the record of the halting cause when it can be written, a trace record and, for a
race fault, the snapshot trigger of a trap (R371, R376), and a host event. -/
def State.doubleTrap (s : State) (t : Thread) (c : Cause) (i : TrapInfo) (pc resume : Word) : State :=
  let s := (s.writeRecord t.ref 0x40 (recordWords c i pc resume t.ts)).getD s
  let s := ((s.dropEntries t.ref).wakeBuffer t).updThread t.ref (fun t => { withdraw t with run := .halted, reserved := none })
  let s := s.trace t 4 c.num pc
  let s := if c = .race then s.snap .race else s
  s.emit 1 (some t.ref.ctx) (TRef.cc t.ref) (TRef.tid t.ref) (BitVec.ofNat 64 c.num)

/-- TAKING A TRAP (R297, R298, R299): the record at the frame, H set, LA cleared, `trp` the frame, the PC at the
handler; a double trap when the thread is in a handler, has none (R358), or the record cannot be written. `pc` and
`resume` are the record's. -/
def State.takeTrap (s : State) (t : Thread) (c : Cause) (i : TrapInfo) (pc resume : Word) (tied : Trapped) : State :=
  if t.h || t.fam.handler == 0 then s.doubleTrap t c i pc resume
  else match s.writeRecord t.ref 0 (recordWords c i pc resume t.ts) with
    | none => s.doubleTrap t c i pc resume
    | some s =>
      let s := (s.dropEntries t.ref).wakeBuffer t
      let s := s.updThread t.ref (fun t => { withdraw t with
        icount := t.icount + 1
        bySeq := false, ts := tsTrap t.ts, trp := BitVec.ofNat 64 (frameOf s t.ref), pc := t.fam.handler, run := .ready,
        trapped := tied, entryId := s.nextId, reserved := none, skipCmp := false })
      let s := s.trace t 4 c.num pc
      if c = .race then s.snap .race else s

/-- The event of a stop (R375, R384): INFO holds the cause in bits [15:0] and RESUME above it (DESIGN CHOICE, log entry 34:
R384 gives RESUME no place). The stops of one cycle stand in ascending agent identity. -/
def State.emitStop (s : State) (r : TRef) (why : Nat) (resume : Word) : State :=
  let after (e : Event) : Bool := e.kind == 2 && e.cycle == s.cycle && decide (r.agent < e.core * 16 + e.tid)
  let n := s.events.length - (s.events.reverse.takeWhile after).length
  let s' := { s with events := s.events.take n }.emit 2 (some r.ctx) (TRef.cc r) (TRef.tid r)
    (BitVec.ofNat 64 (why % 2 ^ 16 + fld resume 47 0 * 2 ^ 16))
  { s' with events := s'.events ++ s.events.drop n }

/-- A thread stopped by the debugger at the instruction at `pc` (R375): event with the cause, and a trace record, which names that
instruction (R376). -/
def State.stopThread (s : State) (t : Thread) (why : Nat) (pc resume : Word) : State :=
  let s := s.updThread t.ref (fun t => { t with run := .stopped why, pc := resume })
  (s.emitStop t.ref why resume).trace t 5 why pc

/-- Entries a page of the replay log holds (log entry 24). -/
def logPageEntries : Nat := 4096
/-- Whether RECORD has no room for an entry (R377). -/
def Ctx.logFull (c : Ctx) : Bool := c.replay == 1 && decide (c.logPages * logPageEntries ≤ c.log.length)
/-- A state with an order-revealing result logged under RECORD (R377). -/
def State.record (s : State) (ctx : Nat) (k : RevKey) (agent : Nat) (v : Word) : State :=
  s.updCtx ctx (fun c => if c.replay = 1 then { c with log := c.log ++ [⟨k, agent, v, false⟩] } else c)
/-- The next entry of the log for a key, under REPLAY (R377). -/
def State.replayNext (s : State) (ctx : Nat) (k : RevKey) : Option RevEntry :=
  let c := s.ctxD ctx
  if c.replay = 2 then c.log.find? (fun e => e.key == k && !e.used) else none
/-- A log whose next entry of a key has been used. -/
def useEntry (k : RevKey) : List RevEntry → List RevEntry
  | [] => []
  | e :: l => if e.key = k ∧ !e.used then { e with used := true } :: l else e :: useEntry k l
/-- A log whose last used entry of a key has not been used. -/
def unuseEntry (k : RevKey) (l : List RevEntry) : List RevEntry :=
  let n := (l.reverse.findIdx (fun e => e.key == k && e.used))
  (l.reverse.zipIdx.map (fun x => if x.2 = n then { x.1 with used := false } else x.1)).reverse
/-- A state in which the next entry of a key has been used. -/
def State.replayUse (s : State) (ctx : Nat) (k : RevKey) : State :=
  s.updCtx ctx (fun c => if c.replay = 2 then { c with log := useEntry k c.log } else c)
/-- Whether REPLAY lets an agent be served on an object now: it is the next logged, or none is logged. -/
def State.replayTurn (s : State) (ctx : Nat) (k : RevKey) (agent : Nat) : Bool :=
  match s.replayNext ctx k with
  | some e => e.agent == agent
  | none => true
/-- An agent served on an object: logged, or its entry used (R377). -/
def State.served (s : State) (ctx : Nat) (k : RevKey) (agent : Nat) (v : Word) : State :=
  (s.record ctx k agent v).replayUse ctx k
/-- What a replay finds that its log does not hold (R378): a mismatch, at the end of the log. -/
def State.notLogged (s : State) (r : TRef) : State :=
  if (s.ctxD r.ctx).replay = 2 then s.post [.replayMismatch r (s.ctxD r.ctx).log.length] else s
/-- Whether an access of a context under REPORT comes in its line's logged order, with room in the log for it (R377). -/
def lineTurn (s : State) (a : Access) (k : Nat) : Bool :=
  !a.st.report || (s.replayTurn a.ctx (.line (lineOf k)) a.agent && !(s.ctxD a.ctx).logFull)
/-- An access at its home, whose place among those of its line is logged under REPORT (R119, R377); under REPLAY the threads that
wait for their turn look again. -/
def lineAccess (s : State) (a : Access) (k key : Nat) : State × HomeRes × Option (List Word) :=
  let (s', res, rec) := homeAccess s a k key
  if !a.st.report || s.shut a k then (s', res, rec)
  else
    let s' := s'.served a.ctx (.line (lineOf k)) a.agent 0
    (if (s.ctxD a.ctx).replay = 2 then { s' with threads := s'.threads.map (fun t => if t.ref.ctx = a.ctx then nudgeT t else t) } else s',
      res, rec)

/-- A timing value read by the instruction of a thread with a dynamic count: logged, or the logged one returned (R377); one that
a replay has no entry for is a mismatch (R378). -/
def State.timingAt (s : State) (r : TRef) (n : Nat) (v : Word) : Word × State :=
  let k := RevKey.timing r.agent n
  match s.replayNext r.ctx k with
  | some e => (e.val, s.replayUse r.ctx k)
  | none => (v, (s.record r.ctx k r.agent v).notLogged r)
/-- A timing value read by a thread as it issues; a full log holds the thread (R377). -/
def State.timing (s : State) (t : Thread) (v : Word) : Ev (Word × State) :=
  if (s.ctxD t.ref.ctx).logFull then .error .hold else .ok (s.timingAt t.ref t.icount v)
/-- A refusal that fills a predicate with 0, of the instruction with a dynamic count (R377): logged, or its entry used. Its
word is 16 above the outcome code (log entry 54). -/
def State.refusal (s : State) (ctx agent n code : Nat) : State :=
  s.served ctx (.thread agent n) agent (BitVec.ofNat 64 (code + 16))
/-- Whether REPLAY has a refusal logged for an instruction, which a home then gives (R377). -/
def State.mustRefuse (s : State) (ctx agent n : Nat) : Bool :=
  (s.replayNext ctx (.thread agent n)).any (fun e => e.val.toNat / 16 == 1)
/-- A log entry that stands before a replayed operation whose agent the log of its object no longer names (R378): the thread,
and the entry's place in the log. -/
def strayEntry (s : State) (w : RevKey × TRef × Nat) : Option Instr :=
  let c := s.ctxD w.2.1.ctx
  if c.replay != 2 || c.log.any (fun e => e.key == w.1 && !e.used && e.agent == w.2.2) then none
  else (c.log.findIdx? (fun e => e.key == w.1 && !e.used)).map (Instr.replayMismatch w.2.1)
/-- A state in which a replayed operation beside its core waits for its turn on an object (R377): where the log no longer names
its agent, that is a mismatch (R378). -/
def State.turnWait (s : State) (k : RevKey) (r : TRef) (agent : Nat) : State :=
  match strayEntry s (k, r, agent) with
  | some i => if s.flight.contains i then s else s.post [i]
  | none => s
/-- Whether a home may answer an operation whose refusal is logged, or that succeeds now or not: under REPLAY one logged OK
waits until it succeeds, and under RECORD a refusal needs room in the log (R377). -/
def State.answerTurn (s : State) (ctx agent n : Nat) (ok : Bool) : Bool :=
  ok || s.mustRefuse ctx agent n || ((s.ctxD ctx).replay != 2 && !(s.ctxD ctx).logFull)

/-- A thread that has issued an instruction to its end. -/
def counted (t : Thread) : Thread := { t with icount := t.icount + 1, skipCmp := false }

/-- A thread parked (R21, R31); at an object that keeps lists an entry is made, unless the object already has a
unit reserved for it. -/
def State.parkOn (s : State) (t : Thread) (o : WObj) (oc : OC) (amount : Nat) : State :=
  let s := if keepsList o then s.enter t.ref o true false amount none else s
  s.updThread t.ref (fun t => { t with run := .parked o oc, skipCmp := false })

/-- Whether a core's router refuses requests now (R20, R294). -/
def State.refuses (s : State) (mc : Nat) : Bool :=
  (s.core mc).refusing || s.images.any (fun im => !im.complete && s.mcOf im.ctx im.core == mc)
/-- A refusal counted on the core whose router gave it (R370): an instruction that wants a tag has been refused by none. -/
def State.countRefusal (s : State) (o : WObj) : State :=
  match o with
  | .router mc => if s.refuses mc then s.updCore mc (fun c => { c with retries := c.retries + 1 }) else s
  | _ => s

/-- The word that a log holds for an outcome (R377; log entry 54): its code, and in bits 5:4 which kind of object gave it: 1 one
that a home decides on, 2 one that keeps its list beside the issuing core, 0 another. -/
def outcomeWord (oc : OC) (o : WObj) : Nat :=
  oc.num + 16 * (match o with
    | .guard _ | .husk _ => 1
    | o => if keepsList o && oc != .cnt then 2 else 0)

/-- APPLYING AN OUTCOME (R21): PARK parks, BRANCH and FLAG set NR and OC and move the PC, TRAP takes the
would-block trap, but parks on RETRY. BRANCH and FLAG leave a ticket where lists are kept (R288), and are logged (R377). A
buffer entry that the instruction had reserved is free again. -/
def State.outcome (s : State) (t : Thread) (wd : BitVec 2) (nro : BitVec 16) (oc : OC) (o : WObj) (amount : Nat) : State :=
  let s := (s.unreserve t.ref).countRefusal o
  let note (s : State) : State :=
    let s := if keepsList o && oc != .cnt then s.enter t.ref o false false amount none else s
    s.served t.ref.ctx (.thread t.ref.agent t.icount) t.ref.agent (BitVec.ofNat 64 (outcomeWord oc o))
  match Disp.ofCode wd with
  | .park => s.parkOn t o oc amount
  | .branch => (note s).updThread t.ref (fun t => counted (t.orBranch oc.num nro))
  | .flag => (note s).updThread t.ref (fun t => counted (t.orFlag oc.num))
  | .trap =>
    if oc = .retry then s.parkOn t o oc amount
    else s.takeTrap t .wouldBlock { c := { oc := oc.num } } t.pc t.pc .none

/-- How the body of an instruction ends: OK by sequential advance; OK by a taken transfer; MISS; OK by
sequential advance and then a trap of its own (R93); in a way it has settled itself (a wait, the thread gone);
or with no effect, its guard being ineffective (R12). -/
inductive Done where
  | next (s : State)
  | jump (s : State) (target : Word)
  | miss (s : State)
  | trapAfter (s : State) (c : Cause) (i : TrapInfo)
  | settled (s : State)
  | skip
  deriving DecidableEq, Repr

/-- The end of an instruction that took effect (R22, R76); under BRANCH and FLAG a MISS sets NR and OC (R21). -/
def finish (s0 : State) (outs : Bool) (h : Head) (nro : BitVec 16) (r : TRef) : Done → State
  | .next s => s.updThread r (fun t => counted (t.okNext outs))
  | .jump s target => s.updThread r (fun t => counted (t.okJump outs target))
  | .miss s =>
    match Disp.ofCode h.wd with
    | .branch => s.updThread r (fun t => counted (t.orBranch 9 nro))
    | .flag => s.updThread r (fun t => counted (t.orFlag 9))
    | _ => s.updThread r (fun t => counted (t.okNext outs))
  | .trapAfter s c i =>
    match s.thread? r with
    | none => s
    | some t =>
      let t' := counted (t.okNext outs)
      let s := s.setThread t'
      if c = .breakpoint ∧ (s.ctxD r.ctx).dbg then s.stopThread t' 4 t.pc t'.pc
      else s.takeTrap t' c i t.pc t'.pc .none
  | .settled s => s
  | .skip => s0.updThread r (fun t => counted t.advance)

/-- The end of an instruction that did not take effect: a not-ready outcome, a trap at issue whose RESUME is this
instruction, or a wait out of the rotation (R21, R101, R297). -/
def State.stopped (s : State) (t : Thread) (wd : BitVec 2) (nro : BitVec 16) (amount : Nat) : Stop → State
  | .notReady oc o => s.outcome t wd nro oc o amount
  | .trap c i => s.takeTrap t c i t.pc t.pc .none
  | .hold => s.updThread t.ref (fun t => { t with run := .waiting .fence })
  | .seen s (some (c, i)) => s.takeTrap t c i t.pc t.pc .none
  | .seen s none => s.updThread t.ref (fun t => { t with run := .waiting .fence })

/-- Whether the outcome of an instruction is one that BRANCH or FLAG would take (R377). -/
def takesOutcome (wd : BitVec 2) : Bool := Disp.ofCode wd == .branch || Disp.ofCode wd == .flag

/-- The end of an instruction's evaluation applied: its effect, or why it ended early (R12, R21, R22). -/
def State.applyEnd (s : State) (outs : Bool) (h : Head) (nro : BitVec 16) (amount : Nat) (t : Thread) : Ev Done → State
  | .ok d => finish s outs h nro t.ref d
  | .error e => s.stopped t h.wd nro amount e

/-- A state in which every unit of the objects beside a thread's core is reserved for others (R290): what an instruction meets
in it names the object of an outcome that REPLAY imposes. -/
def State.allReserved (s : State) (r : TRef) : State :=
  let cc := TRef.cc r
  let mc := s.mcOf r.ctx cc
  let objs : List WObj := (s.core mc).queues.flatMap (fun q => [.queue cc q.off true, .queue cc q.off false])
    ++ (List.range 16).map (.pod mc) ++ (List.range 4).map (.accum mc) ++ (List.range 16).map (fun i => .handSlot 0 (cc * 16 + i))
  let other (o : WObj) : Waiter := ⟨0, o, r.ctx, ⟨r.ctx, 0x100000, 0⟩, 0x100000, false, false, 0, 0, some 0, none⟩
  { s with waiters := s.waiters ++ objs.flatMap (fun o => List.replicate (avail s r.ctx o) (other o)) }

/-- A thread whose registers are all PEND, or all EMPTY. -/
def Thread.without (t : Thread) (empty : Bool) : Thread :=
  let x {w : Nat} : Slot w := if empty then .empty else .pend 0
  { t with g := Vector.replicate 16 x, v := Vector.replicate 32 x, k := Vector.replicate 8 x }
/-- A state in which no room is left beside a thread's core: latches, buffers, queues of commands, queue and launch slots. -/
def State.noRoom (s : State) (t : Thread) : State :=
  let other (k i : Nat) : Thread := { t with ref := { t.ref with gen := t.ref.gen + 16 * k + i + 1 }, reserved := some k }
  let qs : List Queue := (List.range 32).map (fun i => ⟨2 ^ 32, i, 2 ^ 32, 0, 0, [], none⟩)
  { s with
    threads := s.threads ++ (List.range 3).flatMap (fun k => (List.range 16).map (other k))
    cores := s.cores.map (fun c => { c with
      latch := Vector.replicate 4 (some 0), latch0 := Vector.replicate 4 (some 0), queues := c.queues ++ qs })
    ctxs := s.ctxs.map (fun c => { c with retired := (List.range 64).map (fun i => (i, [])) }) }
/-- A state in which nothing that a thread could wait for has come: counters are 0, its barriers not complete, its launch's
dependences not triggered. -/
def State.noneCame (s : State) (t : Thread) : State :=
  let cc := TRef.cc t.ref
  let place (s : State) (va : Nat) : Option (Nat × Nat) := match spotOf s t.ref.ctx cc va true false with
    | .ok (.at_ k key) => some (k, key)
    | _ => none
  let clear (s : State) (va : Nat) : State := match place s va with
    | some (k, key) => s.store k 8 key 0
    | none => s
  let dep (s : State) (l : Nat) : State := match place s (t.fam.lrp.toNat + 0x50 + 8 * l) with
    | some (k, key) =>
      let base := canonVa cc (bits (s.load k 8 key) 47 8 * 256)
      clear (clear s (base + 0xD0)) (base + 0xD8)
    | none => s
  let s := (List.range 8).foldl dep s
  { s with
    cores := s.cores.map (fun c => { c with counters := c.counters.map (fun x => { x with val := 0 }) })
    launches := s.launches.map (fun l => { l with comps := [] }) }
/-- States and threads that lack what an instruction of a thread may need (R20): what it meets in one of them is an outcome
that it can have. -/
def State.denials (s : State) (t : Thread) : List (State × Thread) :=
  let at_ (s : State) (t : Thread) : State × Thread := (s.setThread t, t)
  let latches (c : Core) : Core := { c with latch := Vector.replicate 4 none, latch0 := Vector.replicate 4 none }
  [at_ s (t.without false),
   at_ { s with cores := s.cores.map latches } (t.without true),
   at_ (s.noRoom t) { t with reserved := none },
   at_ { s with cores := s.cores.map (fun c => { c with refusing := true }) } { t with seqs := List.range 4096 },
   at_ (s.noneCame t) { t with arrived := (List.range 8).map (fun l => (l, 0)) }]

/-- An outcome under BRANCH or FLAG in a context that records or replays (R377): a full log holds the thread; under REPLAY
the logged outcome is imposed, on the object that the instruction can meet it on; what a home decides is imposed there; an
instruction logged OK waits until it can be; one that cannot have the logged outcome is a mismatch (R378). `course` is its
evaluation; a trap in place of a logged outcome is a mismatch unless the outcome can be imposed (R378). -/
def State.replayEnd (s : State) (outs : Bool) (h : Head) (nro : BitVec 16) (amount : Nat) (t : Thread) (c : Ctx)
    (course : State → Thread → Ev Done) : State :=
  let k := RevKey.thread t.ref.agent t.icount
  let r := course s t
  if c.replay = 1 then
    if c.logFull then s.stopped t h.wd nro amount .hold
    else match r with
      | .ok (.miss s') => finish s outs h nro t.ref (.miss (s'.record t.ref.ctx k t.ref.agent 9))
      | r => s.applyEnd outs h nro amount t r
  else
    let s0 := s.replayUse t.ref.ctx k
    let stray : State :=
      (s.applyEnd outs h nro amount t r).post
        [.replayMismatch t.ref ((c.log.findIdx? (fun e => e.key == k && !e.used)).getD c.log.length)]
    let missed (s' : State) : State := finish s outs h nro t.ref (.miss (s'.replayUse t.ref.ctx k))
    let far : Bool := match course { s with copies := [], oracle := { s.oracle with hit := false, miss := true } } t with
      | .ok (.miss _) => true
      | _ => false
    let imposed (w : Nat) : Option State :=
      ((if w / 16 = 2 then [(s.allReserved t.ref, t)] else s.denials t).findSome? (fun x => match course x.1 x.2 with
          | .error (.notReady oc o) => if outcomeWord oc o = w then some (oc, o) else none
          | _ => none)).map (fun x => s0.outcome t h.wd nro x.1 x.2 amount)
    match c.log.find? (fun e => e.key == k && !e.used) with
    | none => (match r with
      | .ok (.miss s') => finish s outs h nro t.ref (.next s')
      | .error (.notReady _ _) => s
      | r => s.applyEnd outs h nro amount t r)
    | some e =>
      match r with
      | .ok (.miss s') =>
        if e.val = 9 then missed s'
        else if e.val.toNat / 16 = 1 then s.applyEnd outs h nro amount t r
        else (imposed e.val.toNat).getD stray
      | .ok (.next s') =>
        if e.val = 9 then (if far then missed s' else stray)
        else if e.val.toNat / 16 = 1 then s.applyEnd outs h nro amount t r
        else (imposed e.val.toNat).getD stray
      | .ok _ => if e.val = 9 ∨ e.val.toNat / 16 = 1 then s.applyEnd outs h nro amount t r else (imposed e.val.toNat).getD stray
      | .error (.notReady oc o) =>
        if e.val = 9 ∨ e.val.toNat / 16 = 1 then s
        else if outcomeWord oc o = e.val.toNat then s0.outcome t h.wd nro oc o amount
        else (imposed e.val.toNat).getD stray
      | .error .hold | .error (.seen _ none) =>
        if e.val = 9 ∨ e.val.toNat / 16 = 1 then s.applyEnd outs h nro amount t r
        else (imposed e.val.toNat).getD (s.applyEnd outs h nro amount t r)
      | .error (.trap _ _) | .error (.seen _ (some _)) =>
        if e.val = 9 ∨ e.val.toNat / 16 = 1 then stray else (imposed e.val.toNat).getD stray

/-- The evaluation of an instruction: the guard, then the body (R12). -/
def course (h : Head) (body : State → Thread → Ev Done) (s : State) (t : Thread) : Ev Done := do
  if ← guardOf t h then body s t else pure .skip

/-- THE COURSE OF ONE INSTRUCTION (R12, R21, R22, R76): the guard decides, then the body's operands; its end is
applied. `amount` is a counter's target for its list (R214). -/
def issueAt (outs : Bool) (h : Head) (nro : BitVec 16) (amount : Nat) (body : State → Thread → Ev Done) (s : State) : Out :=
  match s.curThread with
  | none => .fault .noThread
  | some t =>
    let c := s.ctxD t.ref.ctx
    if takesOutcome h.wd && c.replay != 0 then
      .next (s.replayEnd outs h nro amount t c (course h body))
    else .next (s.applyEnd outs h nro amount t (course h body s t))

/-- The course of an instruction without a counter. -/
def issue (outs : Bool) (h : Head) (nro : BitVec 16) (body : State → Thread → Ev Done) (s : State) : Out :=
  issueAt outs h nro 0 body s

/-- An event's end: always a next state. -/
abbrev ev (s : State) : Out := .next s

end Sys2Proof.Machine
end

