-- ==== Sys2Proof/Machine/Access.lean ====
section
/-! DEFINITION. Accesses on their way: the gates before one is issued, making and sending it, walks, the home's
answer, acknowledgements, held faults, delivered traps, replay and abandonment (spec 05 R99-R108, 07 R163,
11 R257-R262, 13 R300-R306). -/
namespace Sys2Proof.Machine
open Sys2Proof

/-- A queued command that makes accesses (R180); `prel`, `arel`, `azero` and `mma` make none. -/
def cmdAccesses : CmdOp → Bool
  | .prel _ | .arel _ | .azero _ | .mma _ _ _ _ => false
  | .drnm _ _ bias _ _ _ _ => bias
  | _ => true

/-- Whether a started command has no access to make any longer: a `drnm` has read its bias (R180, R197). -/
def Started.quiet (x : Started) : Bool :=
  !cmdAccesses x.cmd.op || (match x.cmd.op with
    | .drnm _ _ _ _ _ _ _ => x.stage == 1
    | _ => false)

/-- Whether every earlier command of a thread in one of its queues has had its accesses acknowledged (R180). A fence in the
handler does not wait for the faulted command that is being handled: nothing else could end its wait (DESIGN CHOICE, log entry
59). -/
def queueQuiet (r : TRef) (q : CmdQueue) : Bool :=
  q.waiting.all (fun c => c.t != r || !cmdAccesses c.op)
    && q.started.all (fun x => x.cmd.t != r || x.quiet || (q.faulted.contains x.cmd.id && x.fault.isNone))

/-- Whether a thread's commands have had their accesses acknowledged (R180). -/
def cmdsQuiet (s : State) (t : Thread) : Bool :=
  let c := s.core (s.homeOf t.ref)
  c.mq.all (queueQuiet t.ref) && c.tq.all (queueQuiet t.ref) && t.cmdFaults.isEmpty

/-- The gate of a fence-class instruction: every earlier access acknowledged, every earlier command quiet (R101,
R180). In a handler it waits also for an access whose fault is held until H = 0 (R304), so that it does not end there: R303 lets no
such instruction take effect before that fault is taken (DESIGN CHOICE, log entry 62). -/
def fenceGate (s : State) (t : Thread) : Ev Unit :=
  if t.pend.isEmpty && cmdsQuiet s t then .ok () else .error .hold
/-- The gate of an instruction that makes an access: no acquire load is waiting (R106). -/
def accessGate (t : Thread) : Ev Unit := if t.acq.isNone then .ok () else .error .hold
/-- The gate of a load or store with acquire or release (R101, R106). -/
def orderGate (s : State) (t : Thread) (fenced : Bool) : Ev Unit := do
  accessGate t
  if fenced then fenceGate s t

/-- Whether an evicted core's image is still being written, in which time its router refuses (R294). -/
def evicting (s : State) (ctx cc : Nat) : Bool :=
  match s.imageAny? ctx cc with
  | some im => !im.complete
  | none => false

/-- Whether a thread's core is stopped or evicted, so that what is addressed to the thread goes to the landing table (R292,
R313), or is held on the core during a live dump (R372). -/
def landsIn (s : State) (r : TRef) : Bool := (s.imageAny? r.ctx (TRef.cc r)).isSome
/-- First address of an image (R293). -/
def Image.base (im : Image) : Nat := im.region + im.core * 0x100000
/-- Bytes of entries that a landing table holds (R313). -/
def Image.landed (im : Image) : Nat := (im.landing.map (fun x => 8 * x.2.length)).foldl (· + ·) 0
/-- Bytes of entries for which a landing table has room: 108 KiB less the count (R313). -/
def landingRoom : Nat := 0x1B000 - 8
/-- An entry appended to the landing table of a thread's core (R313): after the others, and counted. What a live dump holds
is not in memory (R372). -/
def State.land (s : State) (r : TRef) (x : Landing) (ws : List Word) : State :=
  match s.imageAny? r.ctx (TRef.cc r) with
  | none => s
  | some im =>
    let s := s.updImage r.ctx (TRef.cc r) (fun im => { im with landing := im.landing ++ [(x, ws)] })
    if im.dump.isSome then s
    else
      let at_ := im.base + 0xE5000
      let mem := Memory.writeN s.mem 8 at_ (im.landed + 8 * ws.length)
      { s with mem := ws.zipIdx.foldl (fun m w => Memory.writeN m 8 (at_ + 8 + im.landed + 8 * w.2) w.1.toNat) mem }
/-- Header of a landing table entry (R313). -/
def landHeader (r : TRef) (tag : Tag) (len knd : Nat) : Word :=
  BitVec.ofNat 64 (len * 2 ^ 32 + knd * 2 ^ 27 + TRef.tid r * 2 ^ 19 + tag.toNat)
/-- Whether a read's values are of vector registers (R159-R164). -/
def Assemble.wide : Assemble → Bool
  | .line _ | .lanes | .rows => true
  | _ => false
/-- The words of a delivery in a landing table (R313): of 128 bytes for a vector memory access, whether or not a register still waits
for it, and for what no access of the thread brings as the register is. -/
def valueEntry (s : State) (d : Delivery) : List Word :=
  match d.val with
  | .pois w => [landHeader d.t d.tag 8 1, w]
  | .val v =>
    let wide (t : Thread) : Bool := match t.pend.find? (fun p => some p.id == d.acks), t.holderOf d.tag with
      | some p, _ => p.asm.wide
      | none, some (.v _) => true
      | none, _ => false
    if (s.threadAny? d.t).any wide
    then landHeader d.t d.tag 128 0 :: (List.range 16).map (fun i => (v >>> (64 * i)).setWidth 64)
    else [landHeader d.t d.tag 8 0, v.setWidth 64]

/-- The router's refusal of a request to an address (R20, R294): the issuing core's router, or the evicting
core's. -/
def routerGate (s : State) (t : Thread) (va : Nat) : Ev Unit :=
  let mc := s.homeOf t.ref
  if (s.core mc).refusing then .error (.notReady .retry (.router mc))
  else match windowOf (TRef.cc t.ref) va with
    | .scratch cc _ =>
      if evicting s t.ref.ctx cc then .error (.notReady .retry (.router (s.mcOf t.ref.ctx cc))) else .ok ()
    | _ => .ok ()

/-- What a trap record carries of a fault of an access, whose own fields it has besides (R301, R302). -/
def TrapInfo.ofFault (i : TrapInfo) (f : FaultInfo) : TrapInfo :=
  { i with c := { i.c with lvl := f.lvl, mal := f.mal }, addr := f.addr, info := f.info }

/-- What a trap record carries of an access that faults at issue (R301, R302): no tag has been taken. -/
def accInfo (c : CauseWord) (data prog : Word) : TrapInfo := { c := c, data := data, prog := prog }

/-- The faults of an address at issue: alignment, then bits [63:48], the windows, the core set and the share, and
a stored translation's (R99, R102, R250, R251, R257); `i` is what the record says of the access. -/
def addrGate (s : State) (t : Thread) (va : Word) (align : Nat) (write : Bool) (i : TrapInfo) : Ev Unit := do
  if va.toNat % align ≠ 0 then .error (.trap .alignment { i with addr := va })
  match windowFault s t.ref.ctx (TRef.cc t.ref) va.toNat with
  | some f => .error (.trap f.cause (i.ofFault f))
  | none =>
    match windowOf (TRef.cc t.ref) va.toNat with
    | .hbm =>
      match xlatNow s (s.homeOf t.ref) t.ref.ctx va.toNat write true with
      | some (.error f) => .error (.trap f.cause (i.ofFault f))
      | _ => .ok ()
    | _ => .ok ()

/-- An access of a thread as it is issued (R99, R239). -/
def mkAccess (s : State) (t : Thread) (kind : AKind) (va size : Nat) (data : BitVec 1024) (exp : BitVec 64)
    (be : BitVec 128) (acc unit : Nat) : Access where
  id := acc
  ctx := t.ref.ctx
  core := TRef.cc t.ref
  agent := t.ref.agent
  kind := kind
  va := va
  size := size
  data := data
  exp := exp
  be := be
  remoteOk := false
  pc := t.pc
  st := t.stamps s
  sink := .thread t.ref acc unit
  pa := none
  key := 0

/-- Whether an access writes, for the page's W bit (R102). -/
def AKind.isWrite : AKind → Bool
  | .read => false
  | _ => true


/-- The fault reply of an access to whoever issued it (R180, R300). -/
def faultOf (a : Access) (f : FaultInfo) : Option Instr :=
  match a.sink with
  | .thread t acc unit => some (.faultReply t acc unit f)
  | .cmd id unit _ => some (.commandFault id unit f)
  | .rma c q off => some (.acknowledgement (.rma c q off) none (some f.info))
  | .none => none

/-- An access sent (R100, R258): a unit whose address names nothing faults (R99, R163); else it goes to its
walk, or to its home when a translation is stored or the address needs none. -/
def sendAccess (s : State) (a : Access) : State :=
  match windowFault s a.ctx a.core a.va with
  | some f => s.post (faultOf a f).toList
  | none =>
    match windowOf a.core a.va with
    | .hbm =>
      match xlatNow s (s.mcOf a.ctx a.core) a.ctx a.va (AKind.isWrite a.kind) (!a.remoteOk) with
      | some (.ok x) => 
        if x.remote then s.post [.pageWalk a]
        else s.post [.accessAtHome { a with pa := some x.pa, key := x.key, bypass := x.bypass }]
      | _ => s.post [.pageWalk a]
    | _ => s.post [.accessAtHome a]

/-- Where an access lies when it reaches its home: its translated place, or a scratchpad place found there. -/
def placeOf (s : State) (a : Access) : Option (Nat × Nat) :=
  match a.pa with
  | some k => some (k, a.key)
  | none =>
    match windowOf a.core a.va with
    | .scratch cc off => (s.scratchSpot a.ctx cc off).map (fun k => (k, 0))
    | _ => none

/-- Units of an access issued by a thread: its record is kept in issue order, and its units go out, one by one
for `seq` (R101, R129). -/
def issueUnits (s : State) (t : Thread) (p : Pending) : State :=
  let s := s.updThread t.ref (fun t => { t with pend := t.pend ++ [p] })
  let out := (p.units.filter (fun u => !u.2)).map (·.1)
  (if p.asm = .seq then out.take 1 else out).foldl sendAccess s

/-- A record of an access with the fields that stay the same for every kind. -/
def mkPending (id : Nat) (pc : Word) (c : CauseWord) (addr data prog : Word) (units : List Access)
    (tags : List Tag) (asm : Assemble) (req : Option Instr) : Pending where
  id := id
  pc := pc
  cw := { c with acc := true }.word 0
  addr := addr
  data := data
  prog := prog
  units := units.map (fun a => (a, false))
  tags := tags
  got := []
  pois := []
  asm := asm
  fault := none
  req := req

/-- The acknowledgement of an access to whoever issued it (R101). -/
def ackOf (a : Access) (data : Option (BitVec 1024)) (pois : Option Word) : Instr := .acknowledgement a.sink data pois

/-- The poison word that a line gives a reader (R16, R19, R103): class and unit of the reader's producer. -/
def linePoison (a : Access) (kind : Nat) : Word :=
  match a.sink with
  | .cmd _ _ _ =>
    let e := (a.agent - 0x80000) % 8
    poisonWord (if e = 2 then 2 else if e = 3 then 4 else 3) kind e a.va
  | _ => poisonWord 1 kind 0 a.va

/-- The answer of a home put on its way: after the race-ring record's placement when there is one (R310). -/
def answer (s : State) (a : Access) (k : Nat) (res : HomeRes) (rec : Option (List Word)) : State :=
  let reply : Option Instr :=
    match res with
    | .value w => some (ackOf a (some w) none)
    | .done => some (ackOf a none none)
    | .poison kind => some (ackOf a none (some (linePoison a kind)))
    | .fault f => faultOf a f
  match rec with
  | none => s.post reply.toList
  | some r => s.collect 0 (dieOfKey k) (unitOfKey k) r reply

/-- Whether the access kind is order-revealing at its home (R244): its word is what the log orders (R377). -/
def revealing (a : Access) : Bool :=
  match a.kind with
  | .amo _ | .cas => true
  | _ => false

/-- An access at its home (R119): performed or refused, forwarded stores of its own thread laid over a read
(R108), and answered. -/
def accessHome (s : State) (a : Access) : State :=
  match placeOf s a with
  | none => s.post (faultOf a (walkFault .protection a.va 0 0 false)).toList
  | some (k, key) =>
    let (s, res, rec) := lineAccess s a k key
    let s := if revealing a then s.served a.ctx (.word k) a.agent 0 else s
    let res := match res, a.kind, a.sink with
      | .value w, .read, .thread r acc _ =>
        (match s.threadAny? r with
          | some t => .value (BitVec.ofNat 1024 (forwardOwn t acc a.core a.va a.size w.toNat))
          | none => res)
      | _, _, _ => res
    answer s a k res rec

/-- A walk's end (R257, R258): the access goes on to its home or faults; a load of an evicted core whose page
has been unmapped delivers poison of kind 5. -/
def walkEnd (s : State) (a : Access) : State :=
  match s.translate (s.mcOf a.ctx a.core) a.ctx a.va (AKind.isWrite a.kind) true with
  | .ok x => (s.tlbFill (s.mcOf a.ctx a.core) a.ctx a.va x).post
      [.accessAtHome { a with pa := some x.pa, key := x.key, bypass := x.bypass }]
  | .error f =>
    if a.kind == .read && f.cause == .translation && !f.mal && (s.image? a.ctx a.core).isSome && a.agent < 0x80000
    then s.post [ackOf a none (some (poisonWord 1 5 0 a.va))]
    else s.post (faultOf a f).toList

/-- A word source's value made from its bytes by a scalar load (R106). -/
def scalarOf (sx : Bool) (size : Nat) (w : Nat) : Word := if sx then sext64 (8 * size) w else zext64 (8 * size) w

/-- The number of a unit within its access. -/
def unitNo (a : Access) : Nat :=
  match a.sink with
  | .thread _ _ n => n
  | _ => 0

/-- What a unit of an access read: 0 for one without an access; a free value for one that a handler has marked done though
it was never performed, of which the spec states no value (DESIGN CHOICE, log entry 26). -/
def unitRead (p : Pending) (u : Nat) : Nat :=
  match p.got.find? (fun g => g.1 == u) with
  | some g => g.2.toNat
  | none =>
    if p.units.any (fun x => unitNo x.1 == u) then
      (List.range 8).foldl (fun w l => w + bits (Config.freeWord 4 ((p.id * 32 + u) * 8 + l)).toNat 31 0 * 2 ^ (32 * l)) 0
    else 0

/-- The value a register gets of the units of an access (R106, R159-R164). -/
def assembled (p : Pending) (i : Nat) : BitVec 1024 :=
  let of := unitRead p
  match p.asm with
  | .scalar sx size => (scalarOf sx size (of 0)).setWidth 1024
  | .line mask => ofLanes (fun l => if bit mask.toNat l then BitVec.ofNat 32 (of 0 >>> (32 * l)) else 0)
  | .lanes => ofLanes (fun l => BitVec.ofNat 32 (of l))
  | .rows => ofLanes (fun l => BitVec.ofNat 32 (of l >>> (32 * i)))
  | _ => 0

/-- The poison word of the lowest poisoned unit (R163, R190); of one unit's, the one of the lowest address. -/
def lowestPoison (l : List (Nat × Word)) : Option Word :=
  let less (x y : Nat × Word) : Bool := decide (x.1 < y.1) || (x.1 == y.1 && decide (fld x.2 47 0 < fld y.2 47 0))
  (l.foldl (fun m x => match m with
    | some y => if less x y then some x else some y
    | none => some x) none).map (·.2)

/-- What a completed access puts on its way: a delivery for each tag (R103, R163). -/
def deliveriesOf (r : TRef) (p : Pending) : List Instr :=
  p.tags.zipIdx.map (fun x => .taggedDelivery ⟨r, x.1,
    (match lowestPoison p.pois with
      | some w => .pois w
      | none => .val (assembled p x.2)), some p.id⟩)

/-- A unit of an access settled with data or poison. -/
def settleUnit (p : Pending) (unit : Nat) (data : Option (BitVec 1024)) (pois : Option Word) : Pending :=
  let mark (u : Access × Bool) : Access × Bool :=
    match u.1.sink with
    | .thread _ _ n => if n = unit then (u.1, true) else u
    | _ => u
  { p with
    units := p.units.map mark
    got := match data with
      | some d => p.got ++ [(unit, d)]
      | none => p.got
    pois := p.pois ++ (pois.map (fun w => (unit, w))).toList }

/-- Whether every unit of an access has been performed. -/
def Pending.allDone (p : Pending) : Bool := p.units.all (·.2)

/-- An acknowledgement at the issuing thread (R101): the unit is done; when all are, the destinations' deliveries
go out, or, with none, the access is over. -/
def ackThread (s : State) (r : TRef) (acc unit : Nat) (data : Option (BitVec 1024)) (pois : Option Word) : State :=
  match (s.threadAny? r).bind (fun t => t.pend.find? (fun p => p.id == acc)) with
  | none => s
  | some p =>
    let p := settleUnit p unit data pois
    let put (s : State) : State :=
      s.updAny r (fun t => { t with pend := t.pend.map (fun x => if x.id == acc then p else x) })
    if p.allDone then
      if p.tags.isEmpty then
        (s.updAny r (fun t => { t with pend := t.pend.filter (fun x => x.id != acc) })).nudge r
      else (put s).post (deliveriesOf r p)
    else
      let s := put s
      if p.asm = .seq then ((p.units.filter (fun u => !u.2)).map (·.1)).take 1 |>.foldl sendAccess s else s

/-- A delivery ends the access it acknowledges when it was its last (R101). -/
def endAcked (t : Thread) (acc : Nat) (tag : Tag) : Thread :=
  let pend := (t.pend.map (fun p => if p.id == acc then { p with tags := p.tags.filter (· != tag) } else p)).filter
    (fun p => !(p.id == acc && p.tags.isEmpty))
  nudgeT { t with pend := pend }

/-- A fault reply held at the core (R304): the lowest faulting unit of its access counts. -/
def holdFault (t : Thread) (acc unit : Nat) (f : FaultInfo) : Thread :=
  { t with pend := t.pend.map (fun p =>
      if p.id == acc then { p with fault := match p.fault with
        | some (u, g) => if unit < u then some (unit, f) else some (u, g)
        | none => some (unit, f) }
      else p) }

/-- Whether no unit of an access is still on its way: each is done, or its fault is held. -/
def settledUnits (s : State) (r : TRef) (p : Pending) : Bool :=
  !s.onWay.any (fun i => match i with
    | .accessAtHome a | .pageWalk a => (match a.sink with
        | .thread x acc _ => x == r && acc == p.id
        | _ => false)
    | .acknowledgement (.thread x acc _) _ _ => x == r && acc == p.id
    | .faultReply x acc _ _ => x == r && acc == p.id
    | _ => false)

/-- The held fault that a thread takes next, if it may take one now (R298, R304): the earliest issued, once all
before it are acknowledged or have faulted; in a handler only one of the handler's own. -/
def nextFault (s : State) (t : Thread) : Option (Pending × FaultInfo) :=
  let ok (p : Pending) : Bool := p.fault.isSome
  let lead := t.pend.takeWhile ok
  let cand := if t.h then lead.find? (fun p => decide (t.entryId ≤ p.id)) else lead.head?
  cand.bind (fun p => if settledUnits s t.ref p then p.fault.map (fun f => (p, f.2)) else none)

/-- Whether an access is compound by a mask of units (R163, R308). -/
def Assemble.masked : Assemble → Bool
  | .lanes | .rows | .mask => true
  | _ => false

/-- The progress field of an access's record (R308): the mask of units done or without an access; the offset of
the first line not published; else what it was issued with. -/
def progOf (p : Pending) : Word :=
  if p.asm.masked then p.units.foldl (fun w u => if u.2 then w ||| (1 <<< unitNo u.1) else w) p.prog
  else if p.asm = .seq then BitVec.ofNat 64 (128 * (p.units.filter (·.2)).length)
  else p.prog

/-- DATA of an access's record (R163, R301): of a compound access, what its faulting unit stores. -/
def faultData (p : Pending) : Word :=
  match p.fault with
  | some (u, _) =>
    if p.asm.masked then
      ((p.units.find? (fun x => unitNo x.1 == u)).map (fun x => x.1.data.setWidth 64)).getD 0
    else p.data
  | none => p.data

/-- What the record of an access's fault carries (R301, R302). -/
def accessTrap (p : Pending) (f : FaultInfo) : TrapInfo where
  c := { CauseWord.ofWord p.cw with acc := true, lvl := f.lvl, mal := f.mal }
  addr := f.addr
  data := faultData p
  prog := progOf p
  info := f.info
/-- The thread takes the trap of a held fault (R300, R301, R303). -/
def takeFault (s : State) (t : Thread) (p : Pending) (f : FaultInfo) : State :=
  let t := { t with pend := t.pend.filter (fun x => x.id != p.id), acq := none }
  (s.setThread t).takeTrap t f.cause (accessTrap p f) p.pc t.pc (.access p)

/-- The words of an access's fault in a landing table (R313): the trap record that it makes. -/
def faultEntry (s : State) (r : TRef) (acc unit : Nat) (f : FaultInfo) : List Word :=
  match s.threadAny? r with
  | none => []
  | some t =>
    match (holdFault t acc unit f).pend.find? (fun p => p.id == acc) with
    | none => []
    | some p => landHeader r (p.tags.headD 0) 64 2 :: recordWords f.cause (accessTrap p f) p.pc t.pc t.ts

/-- Whether memory holds a store of the thread that a waited load would overlap and that is not yet performed. -/
def ownStore (t : Thread) (va size : Nat) : Bool :=
  t.pend.any (fun p => p.units.any (fun u => !u.2 && AKind.isWrite u.1.kind
    && decide (canonVa (TRef.cc t.ref) u.1.va < canonVa (TRef.cc t.ref) va + size)
    && decide (canonVa (TRef.cc t.ref) va < canonVa (TRef.cc t.ref) u.1.va + u.1.size)))

/-- How the entry read of `calli` on a link-table line, one that the link guard binds or has bound, is served (R345): by the
current entry, as poison when its line is poisoned, or by the shadow, which is never poison (DESIGN CHOICE, log entry 33); none where
the check of R119 decides. -/
def linkRead (s : State) (t : Thread) (a : Access) (k key : Nat) : Option HomeRes :=
  let line := lineOf k
  let m := s.md line
  let v := t.fam.view
  let g := (s.ctxD a.ctx).linkGuard
  let before (sp : Nat) : Bool := decide (1 ≤ delta v sp) && decide (delta v sp < 2 ^ 15)
  if ordered s a.ctx a.agent a.st m true then none
  else if mdST m == 2 && mdBD m == g && before (mdSP m) then
    some (if s.pois line ≠ 0 then .poison (s.pois line).toNat else .value (BitVec.ofNat 1024 (s.load k 8 key)))
  else match s.shadows.find? (fun x => x.line == line) with
    | none => none
    | some x =>
      if x.valid && (before x.sp || decide (2 ^ 15 ≤ delta ((s.ctxD a.ctx).guard g).count x.sp)) then
        some (.value (BitVec.ofNat 1024 (bits x.data.toNat (8 * (k % 128) + 63) (8 * (k % 128)))))
      else none

/-- A load that the thread waits for in place, performed at one point of its issue (R81, R82, R94, R297): a
fault or poison is an instruction-class trap. It waits while an own store of its bytes is on its way (R108), and for its turn in
its line's logged order (R377). What the instruction sends waits for the race record that the load may make (R310): the step
sees to it. -/
def loadWait (s : State) (t : Thread) (va : Word) (link : Bool) : Ev (Word × State) := do
  let i : TrapInfo := { c := { sz := 3, kind := 1 } }
  if va.toNat % 8 ≠ 0 then .error (.trap .alignment { i with addr := va })
  accessGate t
  if ownStore t va.toNat 8 then .error .hold
  match spotOf s t.ref.ctx (TRef.cc t.ref) va.toNat false true with
  | .error f => .error (.trap f.cause (i.ofFault f))
  | .ok (.remote x) => .error (.trap .protection { i with addr := va, info := x.leaf })
  | .ok (.at_ k key) =>
    let a := mkAccess s t .read va.toNat 8 0 0 0 0 0
    let shadow := if link then linkRead s t a k key else none
    if shadow.isNone && !lineTurn s a k then .error (.seen (s.turnWait (.line (lineOf k)) t.ref a.agent) none)
    let (s, res, rec) := match shadow with
      | some r => (s, r, none)
      | none => lineAccess s { a with sink := .none } k key
    let s := match rec with
      | some r => s.collect 0 (dieOfKey k) (unitOfKey k) r none
      | none => s
    match res with
    | .value w => .ok (w.setWidth 64, s)
    | .poison kind => .error (.seen s (some (.poisonUse, { i with addr := va, info := poisonWord 1 kind 0 va.toNat })))
    | .fault f => .error (.seen s (some (f.cause, i.ofFault f)))
    | .done => .ok (0, s)

/-- What comes after a load that the thread has waited for, performed with this state: a trap leaves it performed (R310), and a
wait leaves it to be made anew. -/
def afterLoad {α : Type} (s : State) : Ev α → Ev α
  | .error (.trap c i) => .error (.seen s (some (c, i)))
  | .error (.seen _ none) => .error .hold
  | r => r

/-- A plain or release store of a thread issued (R107). -/
def storeNow (s : State) (t : Thread) (va : Word) (size : Nat) (w : Word) (c : CauseWord) : State :=
  let (id, s) := s.fresh
  let a := mkAccess s t .write va.toNat size (w.setWidth 1024) 0 0 id 0
  issueUnits s t (mkPending id t.pc { c with kind := 2, sz := size.log2 } va
    (zext64 (8 * size) w.toNat) 0 [a] [] .none none)

/-- Destinations of an abandoned access that are still PEND with its tag become EMPTY, and its sequence numbers
are free (R306). -/
def abandon (t : Thread) (tags : List Tag) : Thread :=
  let t := tags.foldl (fun t g => match t.holderOf g with
    | some o => t.setEmpty o
    | none => t) t
  { t with seqs := t.seqs.filter (fun n => !tags.any (fun g => seqOf g == n)), acq := none }

/-- A thread's access or command given up (R306): a queued command that waits for one of its tags is to be discarded
(R178). -/
def State.abandonTags (s : State) (r : TRef) (tags : List Tag) : State :=
  let drop (q : CmdQueue) : CmdQueue :=
    { q with waiting := q.waiting.map (fun c => match c.guard with
      | .waits g _ => if c.t == r && tags.contains g then { c with guard := .fails } else c
      | _ => c) }
  let s := s.updThread r (fun t => abandon t tags)
  { s with cores := s.cores.map (fun c => { c with mq := c.mq.map drop, tq := c.tq.map drop }) }

/-- The integer operation of an operation code (R113). -/
def aopOf (n : Nat) : Option AOp := [AOp.add, .and, .or, .xor, .min, .max, .minu, .maxu, .swap][n]?
/-- The `fred` operation of a code (R116). -/
def fopOf (n : Nat) : Option FOp := [FOp.add, .min, .max][n]?

/-- The kind of a single scalar access that `rply` forms from a cause word (R302, R305), tied to the kind the
access had: a `cas` stays one, a `fred` stays one. -/
def replayKind (c : CauseWord) (was : AKind) : Option AKind :=
  match c.kind with
  | 1 => some .read
  | 2 => some .write
  | 3 => if c.sz < 2 then none else if was = .cas then some .cas else (aopOf c.func).map AKind.amo
  | 4 =>
    match was with
    | .fred _ => if c.sz = 2 then (fopOf c.func).map AKind.fred else none
    | _ => if c.sz < 2 ∨ 8 ≤ c.func then none else (aopOf c.func).map AKind.red
  | _ => none

/-- The access that `rply` forms from its record (R305), or the cause of the trap when the record's fields form none that
its KIND allows, or a misaligned or too long address (R99; DEDUCED, log entry 31). A scalar access uses ADDR, DATA, PROG
and the cause word as memory holds them; a line access its ADDR and TAG; a compound one performs its undone units as formed at
issue, takes the fields of the cause word in memory and delivers from its TAG on, and what the units brought before is dropped. It is issued anew, with the thread's stamps of now and the record's PC
(R365). -/
def replayOf (s : State) (t : Thread) (p : Pending) (c : CauseWord) (pc addr data prog : Word) (id : Nat) :
    Except Cause Pending :=
  let was := (p.units.head?.map (fun u => u.1.kind)).getD .read
  let again (va : Nat) (a : Access) : Access :=
    { a with id := id, va := va, pa := none, pc := pc, st := t.stamps s, sink := .thread t.ref id (unitNo a) }
  let tag0 : Tag := BitVec.ofNat 16 c.tag
  let tags : List Tag := if c.tag = 0 then [] else p.tags.map (fun x => x - p.tags.headD 0 + tag0)
  let q : Pending := { p with id := id, pc := pc, cw := c.again.word 0, fault := none, tags := tags }
  let aligned (n : Nat) (x : Pending) : Except Cause Pending :=
    if addr.toNat % n ≠ 0 then .error .alignment else if 2 ^ 48 ≤ addr.toNat then .error .translation else .ok x
  if c.kind ≤ 4 then
    match replayKind c was with
    | none => .error .illegalOperand
    | some k =>
      let a := { mkAccess s t k addr.toNat (2 ^ c.sz) (data.setWidth 1024) prog 0 id 0 with pc := pc }
      let tags : List Tag := if c.tag = 0 then [] else [tag0]
      aligned (2 ^ c.sz)
        (mkPending id pc c.again addr data prog [a] tags (if k = .write then .none else .scalar c.sx (2 ^ c.sz)) none)
  else if c.kind ≠ (CauseWord.ofWord p.cw).kind then .error .illegalOperand
  else if p.asm.masked then
    let keep (u : Nat) : Bool := bit prog.toNat u
    .ok { q with
      units := p.units.map (fun u => (again u.1.va u.1, keep (unitNo u.1)))
      got := p.got.filter (fun g => keep g.1)
      pois := p.pois.filter (fun x => keep x.1) }
  else if p.asm = .seq then
    .ok { q with units := p.units.map (fun u => (again u.1.va u.1, decide (128 * unitNo u.1 < prog.toNat))) }
  else if c.kind = 8 then
    aligned 128 { q with addr := addr, got := [], pois := [], units := p.units.map (fun u => (again addr.toNat u.1, false)) }
  else .ok q

/-- Stamps of a port agent (R381): the holds that HGACQ got for it; its write guard is its newest exclusive one. -/
def portStamps (c : Ctx) (agent : Nat) : Stamps :=
  let holds := (c.portHolds.filter (fun p => p.1 == agent)).map (·.2)
  { holds := holds, wg := ((holds.filter (fun h => h.excl)).getLast?).map (·.guard), launch := none, path := [], marks := [],
    barred := false, report := fld c.mode 1 0 == 1, core := none }

/-- An access of a port agent (R381). -/
def portAccess (c : Ctx) (agent : Nat) (kind : AKind) (va len : Nat) (data : BitVec 1024) (sink : Sink) : Access where
  id := 0
  ctx := c.id
  core := Config.cores
  agent := agent
  kind := kind
  va := va
  size := len
  data := data
  exp := 0
  be := if len = 128 then BitVec.allOnes 128 else 0
  remoteOk := false
  pc := 0
  st := portStamps c agent
  sink := sink
  pa := none
  key := 0

end Sys2Proof.Machine
end

