-- ==== Sys2Proof/Machine/Control.lean ====
section
/-! DEFINITION. Control flow, loops, pauses, software traps, special registers and the reference clock
(spec 04 R73-R97). The ends of a thread and of a handler stand in Machine/Ending.lean. -/
namespace Sys2Proof.Machine
open Sys2Proof

/-- The target of a B-format word (R43). -/
def BForm.target (f : BForm) (pc : Word) : Word := pc + (f.off.signExtend 64 <<< 3)

/-- The check of a target that comes from a register or from memory (R75). -/
def targetGate (w : Word) : Ev Unit := if fld w 2 0 = 0 ∧ fld w 63 48 = 0 then .ok () else failAt .target w

/-- `br` (R78). -/
def execBr (f : BForm) (s : State) : Out :=
  issue true f.toHead 0 (fun s t => pure (.jump s (BForm.target f t.pc))) s

/-- The body of `bri` (R79). -/
def briBody (f : RForm) (s : State) (t : Thread) : Ev Done := do
  let a ← srcW s t f.A
  targetGate a
  pure (.jump (consumeOne s t.ref f.A (SrcMod.ofCode f.ma)) a)
/-- `bri` (R79). -/
def execBri (f : RForm) (s : State) : Out := issue true f.toHead f.nro (briBody f) s

/-- A return address pushed on the store; the oldest of 8 is dropped (R80). -/
def pushRas (l : List Word) (w : Word) : List Word := (w :: l).take 8

/-- What `call` and `calli` do once the target is known (R81): the return address stored, `g15` lowered, the
store pushed. A misaligned or non-canonical stack slot faults at issue (R99). No router refuses `call` (R77): its store
waits in the network where its home is stopping (R294). -/
def callTo (s : State) (t : Thread) (sp target : Word) : Ev Done := do
  addrGate s t (sp - 8) 8 true (accInfo { sz := 3, kind := 2 } (t.pc + 8) 0)
  let s := storeNow s t (sp - 8) 8 (t.pc + 8) {}
  pure (.jump (s.updThread t.ref (fun t => { t.setG 15 (.full (sp - 8)) with ras := pushRas t.ras (t.pc + 8) })) target)

/-- The body of `call` (R81). -/
def callBody (f : BForm) (s : State) (t : Thread) : Ev Done := do
  let sp ← srcW s t (.g 15)
  accessGate t
  callTo s t sp (BForm.target f t.pc)
/-- `call` (R81). -/
def execCall (f : BForm) (s : State) : Out := issue true f.toHead 0 (callBody f) s

/-- The body of `calli` (R81, R345). A router that refuses gives RETRY for its return-address store, never for its entry load,
which the thread waits for in place (DESIGN CHOICE, log entry 60). -/
def calliBody (f : RForm) (s : State) (t : Thread) : Ev Done := do
  let a ← srcW s t f.A
  let b ← srcW s t f.B
  let sp ← srcW s t (.g 15)
  let (target, s) ← loadWait s t (a + ((b + f.fn.setWidth 64) <<< 3)) true
  afterLoad s (targetGate target)
  routerGate s t (sp - 8).toNat
  afterLoad s (callTo s t sp target)
/-- `calli` (R81). -/
def execCalli (f : RForm) (s : State) : Out := issue true f.toHead f.nro (calliBody f) s

/-- The body of `ret` (R82). -/
def retBody (s : State) (t : Thread) : Ev Done := do
  let sp ← srcW s t (.g 15)
  match t.ras with
  | target :: l =>
    targetGate target
    pure (.jump (s.updThread t.ref (fun t => { t.setG 15 (.full (sp + 8)) with ras := l })) target)
  | [] => do
    let (target, s) ← loadWait s t sp false
    afterLoad s (targetGate target)
    pure (.jump (s.updThread t.ref (fun t => t.setG 15 (.full (sp + 8)))) target)
/-- `ret` (R82). -/
def execRet (f : RForm) (s : State) : Out := issue true f.toHead f.nro retBody s

/-- `rasclr` (R83). -/
def execRasclr (f : RForm) (s : State) : Out :=
  issue false f.toHead f.nro (fun s t => pure (.next (s.updThread t.ref (fun t => { t with ras := [] })))) s

/-- Number of the loop of a `loop` word (R84). -/
def BForm.ln (f : BForm) : Fin 2 := Fin.ofNat 2 f.d.toNat
/-- A loop begun with a count (R85). -/
def loopStart (f : BForm) (n : BitVec 32) (s : State) (t : Thread) : Done :=
  let j := BForm.ln f
  let last := loopAddr (BForm.target f t.pc)
  let set (t : Thread) : Thread := { t with ls := t.ls.set j (loopAddr (t.pc + 8)), le := t.le.set j last, lc := t.lc.set j n }
  if n = 0 then .jump (s.updThread t.ref (fun t => (set t).setLa j false)) (last + 8)
  else .next (s.updThread t.ref (fun t => (set t).setLa j true))
/-- The body of `loop` (R84, R85). -/
def loopBody (f : BForm) (s : State) (t : Thread) : Ev Done := do
  let a ← srcW s t f.A
  pure (loopStart f (a.setWidth 32) s t)
/-- `loop` (R84, R85). -/
def execLoop (f : BForm) (s : State) : Out := issue true f.toHead 0 (loopBody f) s
/-- `loopi` (R84, R85). -/
def execLoopi (f : BForm) (s : State) : Out :=
  issue true f.toHead 0 (fun s t => pure (loopStart f (BitVec.ofNat 32 (f.a.toNat * 64 + f.b.toNat)) s t)) s

/-- Whether a thread can be in the rotation: started and not parked, waiting, stopped or halted (R286). -/
def Thread.isReady (t : Thread) : Bool := t.run == .ready

/-- The other threads of its context on its core that are ready at the yield (R90). A thread that becomes ready only later does
not hold the yielding one back: the spec does not say at which time readiness is judged (DEDUCED, log entry 7). -/
def readyMates (s : State) (t : Thread) : List TRef :=
  (s.threads.filter (fun x => x.ref.ctx == t.ref.ctx && TRef.cc x.ref == TRef.cc t.ref && x.ref != t.ref
    && x.isReady)).map (·.ref)
/-- `yield` (R90). -/
def execYield (f : RForm) (s : State) : Out :=
  issue true f.toHead f.nro (fun s t => pure (.next (s.updThread t.ref (fun x => { x with yielded := readyMates s t })))) s

/-- The body of `park` (R91). -/
def parkBody (f : RForm) (s : State) (t : Thread) : Ev Done :=
  let st : Nat := match f.A with
    | .g i => slotState (t.getG i)
    | .v i => slotState (t.getV i)
    | .k i => slotState (t.getK i)
    | _ => 0
  if st = 1 then .error (.notReady .empty (.reg f.A))
  else if st = 2 then .error (.notReady .pend (.reg f.A))
  else pure (.next s)
/-- `park` (R91). -/
def execPark (f : RForm) (s : State) : Out := issue false f.toHead f.nro (parkBody f) s
/-- `nop` (R92). -/
def execNop (f : RForm) (s : State) : Out := issue false f.toHead f.nro (fun s _ => pure (.next s)) s

/-- The body of `trap` (R93). -/
def trapBody (f : RForm) (s : State) (t : Thread) : Ev Done := do
  let a ← srcW s t f.A
  pure (.trapAfter s .software { c := { n := f.fn.toNat }, data := a })
/-- `trap` (R93). -/
def execTrap (f : RForm) (s : State) : Out := issue true f.toHead f.nro (trapBody f) s
/-- `brk` (R93, R373). -/
def execBrk (f : RForm) (s : State) : Out :=
  issue true f.toHead f.nro (fun s _ => pure (.trapAfter s .breakpoint { c := { n := f.fn.toNat } })) s

/-- An energy counter's sum over the context's dies (R390); the hidden fraction is dropped. -/
def enSum (c : Ctx) (i : Nat) : Word :=
  let n := (c.energy.map (fun d => Nat.min (d.2.getD i 0 / 2 ^ 32) (2 ^ 48 - 1))).foldl (· + ·) 0
  BitVec.ofNat 64 (Nat.min n (2 ^ 48 - 1))

/-- A special register's value (R24). -/
def readSpecial (s : State) (t : Thread) (n : Nat) : Word :=
  if n = 0x000 then t.ts
  else if n = 0x001 then t.wg
  else if n = 0x002 then t.fam.lrp
  else if n = 0x003 then t.trp
  else if n = 0x004 then (s.ctxD t.ref.ctx).mode
  else if n = 0x005 then BitVec.ofNat 64 t.ras.length
  else if n = 0x008 then (t.lc.get 0).setWidth 64
  else if n = 0x009 then t.ls.get 0
  else if n = 0x00A then t.le.get 0
  else if n = 0x00C then (t.lc.get 1).setWidth 64
  else if n = 0x00D then t.ls.get 1
  else if n = 0x00E then t.le.get 1
  else if n = 0x010 then BitVec.ofNat 64 t.fam.lpd
  else if 0x020 ≤ n ∧ n < 0x028 then BitVec.ofNat 64 (t.fam.lpi.getD (n - 0x020) 0)
  else if 0x030 ≤ n ∧ n < 0x038 then BitVec.ofNat 64 (t.fam.lpx.getD (n - 0x030) 0)
  else if 0x040 ≤ n ∧ n < 0x048 then enSum (s.ctxD t.ref.ctx) (n - 0x040)
  else 0

/-- `mfs` (R95). -/
def execMfs (f : RForm) (s : State) : Out :=
  issue true f.toHead f.nro (fun s t => pure (.next (writeW s t.ref f.D (readSpecial s t f.fn.toNat)))) s

/-- A write of `mode` (R27): only in a handler, RCM 0 or 1, MMR and ACL as they are; reserved bits ignored. -/
def writeMode (s : State) (t : Thread) (w : Word) : Ev State := do
  let m := (s.ctxD t.ref.ctx).mode
  need t.h .protection
  need (fld w 1 0 < 2 && fld w 11 8 == fld m 11 8 && fld w 5 4 == fld m 5 4) .illegalOperand
  pure (s.updCtx t.ref.ctx (fun c => { c with mode := setFld c.mode 1 0 (fld w 1 0) }))

/-- The body of `mts` (R25, R27, R87, R95). A write of `ts` stands after the instruction's own clearing of NR and
OC (log entry 30). -/
def mtsBody (f : RForm) (s : State) (t : Thread) : Ev Done := do
  let a ← srcW s t f.A
  let eat (s : State) : State := consumeOne s t.ref f.A (SrcMod.ofCode f.ma)
  let up (g : Thread → Thread) : Ev Done := pure (.next ((eat s).updThread t.ref g))
  match f.fn.toNat with
  | 0x000 =>
    let t' := { t with ts := tsWrite t.ts a }.advance
    pure (.settled ((eat s).updThread t.ref (fun t => counted { t with ts := t'.ts, pc := t'.pc, lc := t'.lc, bySeq := t'.bySeq })))
  | 0x004 => do
    let s ← writeMode s t a
    pure (.next (eat s))
  | 0x008 => up (fun t => { t with lc := t.lc.set 0 (a.setWidth 32) })
  | 0x009 => up (fun t => { t with ls := t.ls.set 0 (loopAddr a) })
  | 0x00A => up (fun t => { t with le := t.le.set 0 (loopAddr a) })
  | 0x00C => up (fun t => { t with lc := t.lc.set 1 (a.setWidth 32) })
  | 0x00D => up (fun t => { t with ls := t.ls.set 1 (loopAddr a) })
  | 0x00E => up (fun t => { t with le := t.le.set 1 (loopAddr a) })
  | _ => failWith .illegalOperand
/-- `mts` (R95). -/
def execMts (f : RForm) (s : State) : Out := issue true f.toHead f.nro (mtsBody f) s

/-- `tstamp` (R96). -/
def execTstamp (f : RForm) (s : State) : Out :=
  issue true f.toHead f.nro (fun s t => do
    let (v, s) ← s.timing t (BitVec.ofNat 64 s.now)
    pure (.next (writeW s t.ref f.D v))) s

/-- `kend` reached (R74, R97): the end-of-kernel trap at its address. -/
def execKend (s : State) : Out :=
  match s.curThread with
  | none => .fault .noThread
  | some t => .next (s.takeTrap t .endOfKernel {} t.pc t.pc .none)

/-- The cause of a word that is not an instruction (R50). -/
def Reject.cause : Reject → Cause
  | .illegalInstruction => .illegalInstruction
  | .reservedEncoding => .reservedEncoding
  | .illegalOperand => .illegalOperand

/-- A word that is not an instruction (R50, R51): its trap; nothing else changes. -/
def execIllegalInstruction (r : Reject) (s : State) : Out :=
  match s.curThread with
  | none => .fault .noThread
  | some t => .next (s.takeTrap t (Reject.cause r) {} t.pc t.pc .none)

end Sys2Proof.Machine
end

