-- ==== Sys2Proof/Machine/Check.lean ====
section
/-! DEFINITION. Steps 2 and 3 of the word check of R51, for every instruction: reserved fields and values with
the rules of R34 and R35, then operand classes, modifiers and outcome predicates, as each entry gives them. -/
namespace Sys2Proof.Machine
open Sys2Proof

/-- Operand classes (R37). -/
inductive Cl where
  | G | V | K | X | Z | S
  deriving DecidableEq, Repr

/-- The class of an operand (R37). -/
def Opd.cls : Opd → Cl
  | .g _ => .G
  | .v _ => .V
  | .k _ => .K
  | .port _ => .X
  | .zr => .Z
  | _ => .S

/-- Class lists that entries share. -/
def clG : Option (List Cl) := some [.G]
/-- G, Z. -/
def clGZ : Option (List Cl) := some [.G, .Z]
/-- G, X, Z. -/
def clGXZ : Option (List Cl) := some [.G, .X, .Z]
/-- G, X, Z, S. -/
def clGXZS : Option (List Cl) := some [.G, .X, .Z, .S]
/-- V, Z (R155). -/
def clVZ : Option (List Cl) := some [.V, .Z]
/-- K. -/
def clK : Option (List Cl) := some [.K]

/-- A position that the entry does not use holds zero (R39). -/
def posRes (p : Option (List Cl)) (c : BitVec 6) : Bool := p.isNone && c != 0
/-- A class outside the entry's list (R39). -/
def posIll (p : Option (List Cl)) (c : BitVec 6) : Bool :=
  match p with
  | none => false
  | some l => !l.contains (Opd.cls (Opd.ofCode c))

/-- R34: GK = 0 with GN = 1 is reserved. -/
def headRes (h : Head) : Bool := h.gk == 0 && h.gn == 1

/-- The answer of steps 2 and 3. -/
def verdict (res ill : Bool) : Option Reject :=
  if res then some .reservedEncoding else if ill then some .illegalOperand else none

/-- A modifier that is wrong for its position: `m` accepted codes 0 plain only, 1 `.c`, 2 `.c` and `.m`
(R13, R40), and none on an operand that is no register (R15). -/
def modIll (m : Nat) (c : BitVec 6) (code : BitVec 2) : Bool :=
  code != 0 && (m < code.toNat || !([Cl.G, .V, .K].contains (Opd.cls (Opd.ofCode c))))

/-- R format (R35, R39, R40): classes, accepted modifiers, whether the entry has outcomes, and the entry's own
reserved and illegal conditions. -/
def ckR (f : RForm) (d a b : Option (List Cl)) (ma mb : Nat) (oc res ill : Bool) : Option Reject :=
  verdict
    (headRes f.toHead || (f.wd != 0 && !oc) || (f.wd != 1 && f.nro != 0)
      || posRes d f.d || posRes a f.a || posRes b f.b || f.ma == 3 || f.mb == 3
      || (f.ma != 0 && a.isNone) || (f.mb != 0 && b.isNone) || res)
    (posIll d f.d || posIll a f.a || posIll b f.b
      || (a.isSome && modIll ma f.a f.ma) || (b.isSome && modIll mb f.b f.mb) || ill)

/-- I format (R35, R39, R41). -/
def ckI (f : IForm) (d a : Option (List Cl)) (bRes res : Bool) : Option Reject :=
  verdict (headRes f.toHead || f.wd == 1 || posRes d f.d || posRes a f.a || bRes || res)
    (posIll d f.d || posIll a f.a)

/-- M format (R35, R39, R42). -/
def ckM (f : MForm) (d a b : Option (List Cl)) (oc res ill : Bool) : Option Reject :=
  verdict
    (headRes f.toHead || (f.wd != 0 && !oc) || (f.wd != 1 && f.nro != 0)
      || posRes d f.d || posRes a f.a || posRes b f.b || res)
    (posIll d f.d || posIll a f.a || posIll b f.b || ill)

/-- B format (R35, R39, R77). -/
def ckB (f : BForm) (a : Option (List Cl)) (res ill : Bool) : Option Reject :=
  verdict (headRes f.toHead || f.wd == 1 || posRes a f.a || res) (posIll a f.a || ill)

/-- E format (R35, R39, R44); `opv`: the entry has a round-trip form. Of an entry that has none, OPV = 1 takes the illegal-operand
trap of R44, not the reserved-encoding trap that R200 gives a field of its OPV column marked 0 (DESIGN CHOICE, log entry 59). -/
def ckE (f : EForm) (d a b : Option (List Cl)) (opv oc res ill : Bool) : Option Reject :=
  verdict
    (headRes f.toHead || (f.wd != 0 && !oc) || (f.wd != 1 && f.nro != 0)
      || posRes d f.d || posRes a f.a || posRes b f.b || (f.opv == 0 && f.opk != 0) || res)
    (posIll d f.d || posIll a f.a || posIll b f.b
      || (f.opv == 1 && (!opv || f.opk == 0)) || ill)

/-- Scalar integer group, FN without SAT and SK (R53, R54). -/
def ckScalar (f : RForm) : Option Reject :=
  ckR f clGXZ clGXZS clGXZS 1 1 true (bits f.fn.toNat 9 0 != 0) false
/-- `add`, `sub` with SAT (R56, R57). -/
def ckAddSub (f : RForm) : Option Reject :=
  ckR f clGXZ clGXZS clGXZS 1 1 true (f.cond != 0 || bits f.fn.toNat 3 0 != 0 || f.mid == 3) false
/-- `clz`, `ctz`, `popc` (R56). -/
def ckUnary (f : RForm) : Option Reject :=
  ckR f clGXZ clGXZS none 1 0 true (bits f.fn.toNat 9 0 != 0) false
/-- `bfi`: D is class G (R61). -/
def ckBfi (f : RForm) : Option Reject :=
  ckR f clG clGXZS clGXZS 1 1 true (bits f.fn.toNat 9 0 != 0) false
/-- `sel` (R54, R56). -/
def ckSel (f : RForm) : Option Reject :=
  ckR f clGXZ clGXZS clGXZS 1 1 true (bits f.fn.toNat 9 3 != 0) (f.top != 0)
/-- `cmp` (R63, R47). -/
def ckCmp (f : RForm) : Option Reject :=
  ckR f (some [.K, .G, .Z]) clGXZS clGXZS 1 1 true (bits f.fn.toNat 5 0 != 0 || 9 < f.cond) false
/-- `cmpi` (R64). -/
def ckCmpi (f : IForm) : Option Reject :=
  ckI f (some [.K, .G, .Z]) clGXZS false (bits f.b.toNat 5 4 != 0 || 9 < bits f.b.toNat 3 0)
/-- Predicate instructions (R65). -/
def ckK (f : RForm) (d a b : Option (List Cl)) (ill : Bool) : Option Reject :=
  ckR f d a b 1 (if b.isNone then 0 else 1) true (f.fn != 0) ill

/-- Whether D and A are registers of one class G, V or K. -/
def sameReg (f : RForm) : Bool :=
  match Opd.ofCode f.d, Opd.ofCode f.a with
  | .g _, .g _ => true
  | .v _, .v _ => true
  | .k _, .k _ => true
  | _, _ => false

/-- `mov` (R66). -/
def ckMov (f : RForm) : Option Reject :=
  let d := Opd.cls (Opd.ofCode f.d)
  let a := Opd.cls (Opd.ofCode f.a)
  let pair := sameReg f
    || ([Cl.G, .X, .Z].contains d && [Cl.G, .X, .Z, .S].contains a)
    || (d == .K && a == .Z)
  ckR f (some [.G, .V, .K, .X, .Z]) (some [.G, .V, .K, .X, .Z, .S]) none 2 0 true (f.fn != 0)
    (!pair || (f.ma == 2 && (!sameReg f || f.d == 48)))
/-- `movf` (R67). -/
def ckMovf (f : RForm) : Option Reject :=
  ckR f (some [.G, .V, .K]) (some [.G, .V, .K]) none 0 0 false (f.fn != 0) (!sameReg f || f.d == 48)
/-- `rst` (R68). -/
def ckRst (f : RForm) : Option Reject :=
  ckR f clG (some [.G, .V, .K, .X, .Z, .S]) none 0 0 false (f.fn != 0) false
/-- `rclr` (R69). -/
def ckRclr (f : RForm) : Option Reject :=
  ckR f (some [.G, .V, .K]) none none 0 0 false (f.fn != 0) false
/-- Immediate instructions with source a (R71). -/
def ckImm (f : IForm) : Option Reject := ckI f clGXZ clGXZS (f.b != 0) false
/-- `shli`, `shri`, `sari` (R71). -/
def ckShi (f : IForm) : Option Reject := ckI f clGXZ clGXZS (f.b != 0) (bits f.imm.toNat 31 6 != 0)
/-- `movi` (R71). -/
def ckMovi (f : IForm) : Option Reject := ckI f (some [.G, .K, .X, .Z]) none (f.b != 0) false
/-- `adr` (R71). -/
def ckAdr (f : IForm) : Option Reject := ckI f clGXZ none (f.b != 0) false

/-- `br`, `call` (R78, R81). -/
def ckBr (f : BForm) : Option Reject := ckB f none (f.d != 0 || f.b != 0) false
/-- `loop` (R84). -/
def ckLoop (f : BForm) : Option Reject :=
  ckB f clGZ (bits f.d.toNat 5 1 != 0 || f.b != 0 || toSigned 32 f.off.toNat ≤ 0) false
/-- `loopi` (R84): A and B carry the count. -/
def ckLoopi (f : BForm) : Option Reject :=
  verdict (headRes f.toHead || f.wd == 1 || bits f.d.toNat 5 1 != 0 || toSigned 32 f.off.toNat ≤ 0) false
/-- R-format entries of the control chapter without operands (R77). -/
def ckNone (f : RForm) (oc : Bool) : Option Reject := ckR f none none none 0 0 oc (f.fn != 0) false

/-- Special register numbers that are assigned (R24). -/
def srAssigned (n : Nat) : Bool :=
  n ≤ 5 || (8 ≤ n && n ≤ 0xA) || (0xC ≤ n && n ≤ 0xE) || n == 0x10
    || (0x20 ≤ n && n ≤ 0x27) || (0x30 ≤ n && n ≤ 0x37) || (0x40 ≤ n && n ≤ 0x47)
/-- Special registers that `mts` may name: `ts`, `mode`, the loop registers (R24, R27). -/
def srWritable (n : Nat) : Bool :=
  n == 0 || n == 4 || (8 ≤ n && n ≤ 0xA) || (0xC ≤ n && n ≤ 0xE)
/-- `mfs` (R95, R27). -/
def ckMfs (f : RForm) : Option Reject :=
  ckR f clG none none 0 0 true (!srAssigned f.fn.toNat) false
/-- `mts` (R95, R27). -/
def ckMts (f : RForm) : Option Reject :=
  ckR f none clGZ none 1 0 true (!srAssigned f.fn.toNat) (!srWritable f.fn.toNat)

/-- Scalar loads (R105). -/
def ckLd (f : MForm) (b : Option (List Cl)) : Option Reject :=
  ckM f clG clGZ b true (bits f.ext.toNat 4 2 != 0) false
/-- Scalar stores (R105). -/
def ckSt (f : MForm) (d : Option (List Cl)) : Option Reject :=
  ckM f d clGZ clGXZ true (bits f.ext.toNat 4 2 != 0 || f.x 0) false
/-- `pfh` (R110). -/
def ckPfh (f : MForm) : Option Reject :=
  ckM f none clGZ none false (f.sz != 3 || bits f.ext.toNat 4 1 != 0) false
/-- `amo`, `cas`, `red` (R112, R113): greatest operation code accepted. -/
def ckAtomic (f : MForm) (d b : Option (List Cl)) (top : Nat) : Option Reject :=
  ckM f d clGZ b true (top < bits f.ext.toNat 3 0) (f.sz.toNat < 2)
/-- `fred` (R112, R116). -/
def ckFred (f : MForm) : Option Reject :=
  ckM f none clGZ clG true (bits f.ext.toNat 4 2 != 0 || bits f.ext.toNat 1 0 == 3) (f.sz != 2)

/-- Vector memory (R42, R158): SZ is 0b10 and the unassigned EXT bits are zero. -/
def ckVM (f : MForm) (d b : Option (List Cl)) (extRes ill : Bool) : Option Reject :=
  ckM f d clGZ b true (f.sz != 2 || extRes) ill

/-- An odd register where a pair is named (R38). -/
def oddPair (c : BitVec 6) : Bool :=
  match Opd.ofCode c with
  | .v i => i.val % 2 == 1
  | _ => false

/-- Lane moves and vector integers (R165, R166): L of R46, reserved FN bits `res`, positions that are pairs
when L = 0b01. -/
def ckVI (f : RForm) (d a b : Option (List Cl)) (pd pa pb res ill : Bool) : Option Reject :=
  ckR f d a b 1 (if b.isNone then 0 else 1) true (1 < f.top || res)
    ((f.top == 1 && ((pd && oddPair f.d) || (pa && oddPair f.a) || (pb && oddPair f.b))) || ill)

/-- Vector floating point (R46, R169): T not reserved; `res`, `ill` of the entry. -/
def ckVF (f : RForm) (d b : Option (List Cl)) (res ill : Bool) : Option Reject :=
  ckR f d clVZ b 1 (if b.isNone then 0 else 1) true (f.top == 3 || res) ill
/-- Entries with rounding and no C or F (R169). -/
def ckVFrm (f : RForm) (b : Option (List Cl)) : Option Reject :=
  ckVF f clVZ b (f.cond != 0 || f.b19) false
/-- Entries that must encode RM = 0b00 (R48, R169). -/
def ckVFnr (f : RForm) (b : Option (List Cl)) : Option Reject :=
  ckVF f clVZ b (f.cond != 0 || f.b19 || f.mid != 0) false
/-- `vfscan`, `vfred` (R172). -/
def ckVFscan (f : RForm) (d : Option (List Cl)) : Option Reject :=
  ckVF f d none (2 < f.cond || f.b19 || f.mid != 0) false
/-- F codes that an MX entry does not accept (R174). -/
def mxIll (f : Nat) : Bool := f < 3 || 8 < f

/-- `pld`'s pairs of F and MX (R188). -/
def pldOk (f : Nat) (mx : Bool) : Bool :=
  if mx then 3 ≤ f && f ≤ 8 else 1 ≤ f && f ≤ 4
/-- `drn`'s combinations of RQ, MX and F (R196). -/
def drnOk (rq mx : Bool) (f : Nat) : Bool :=
  match rq, mx with
  | false, false => f == 0
  | true, false => f ≤ 4
  | true, true => 3 ≤ f && f ≤ 8
  | false, true => false

/-- Matrix entries name no outcome predicate (R176). -/
def ckX (f : EForm) (d a b : Option (List Cl)) (oc res ill : Bool) : Option Reject :=
  ckE f d a b false oc res ill
/-- Counter entries: FN[31:30] zero (R200). -/
def cnRes (f : EForm) : Bool := bits f.fn.toNat 7 6 != 0
/-- Level entries: FN[31:27] zero (R200). -/
def lvRes (f : EForm) : Bool := bits f.fn.toNat 7 3 != 0

/-- Steps 2 and 3 of R51 for every instruction; the other rows of the table are no words. -/
def check : Instr → Option Reject
  | .add f | .sub f => ckAddSub f
  | .mul f | .mulh f | .mulhu f | .div f | .divu f | .rem f | .remu f | .and f | .or f | .xor f | .andn f
  | .shl f | .shr f | .sar f | .rot f | .min f | .max f | .minu f | .maxu f | .bfx f | .bfxu f => ckScalar f
  | .clz f | .ctz f | .popc f => ckUnary f
  | .bfi f => ckBfi f
  | .sel f => ckSel f
  | .cmp f => ckCmp f
  | .cmpi f => ckCmpi f
  | .kand f | .kor f | .kxor f => ckK f clK clK clK false
  | .knot f => ckK f clK clK none false
  | .kmov f => ckK f (some [.K, .G]) (some [.K, .G]) none
      (Opd.cls (Opd.ofCode f.d) == .G && Opd.cls (Opd.ofCode f.a) == .G)
  | .kany f | .kall f => ckK f (some [.K, .G]) clK clK false
  | .kset f => ckK f clK clGZ clGZ false
  | .kget f => ckK f clG clK clGZ false
  | .mov f => ckMov f
  | .movf f => ckMovf f
  | .rst f => ckRst f
  | .rclr f => ckRclr f
  | .addi f | .andi f | .ori f | .xori f | .movh f => ckImm f
  | .shli f | .shri f | .sari f => ckShi f
  | .movi f => ckMovi f
  | .adr f => ckAdr f
  | .br f | .call f => ckBr f
  | .bri f => ckR f none clG none 1 0 true (f.fn != 0) false
  | .calli f => ckR f none clG clGZ 0 0 true false false
  | .ret f | .yield f | .eret f | .rply f => ckNone f true
  | .rasclr f | .nop f | .fence f => ckNone f false
  | .loop f => ckLoop f
  | .loopi f => ckLoopi f
  | .exit f => ckR f none clGZ none 0 0 true (f.fn != 0) false
  | .park f => ckR f none (some [.G, .V, .K]) none 0 0 false (f.fn != 0) false
  | .trap f => ckR f none clGZ none 0 0 true false false
  | .brk f => ckR f none none none 0 0 true false false
  | .mfs f => ckMfs f
  | .mts f => ckMts f
  | .tstamp f => ckR f clG none none 0 0 true (f.fn != 0) false
  | .ld f => ckLd f none
  | .ldx f => ckLd f clG
  | .st f => ckSt f none
  | .stx f => ckSt f clG
  | .pfh f => ckPfh f
  | .amo f => ckAtomic f clG clGZ 8
  | .cas f => ckAtomic f clG clGZ 0
  | .red f => ckAtomic f none clGZ 7
  | .fred f => ckFred f
  | .gacq f => ckE f clGZ clG none true true (f.fn != 0 || bits f.fl.toNat 3 2 != 0) false
  | .grel f => ckE f none clG none false true (f.fn != 0 || f.fl != 0) false
  | .ghand f => ckE f none clG clG true true (f.fn != 0 || f.fl != 0) false
  | .gpub f => ckE f none clG clG false true
      (f.fn != 0 || bits f.fl.toNat 3 3 != 0 || 5 < bits f.fl.toNat 2 0) false
  | .gbind f => ckE f none clGZ none false true (f.fn != 0 || f.fl != 0) false
  | .gstat f => ckE f clG clG none false true (f.fn != 0 || f.fl != 0) false
  | .vld f => ckVM f clVZ none (bits f.ext.toNat 4 3 != 0) false
  | .vst f => ckVM f none clVZ (bits f.ext.toNat 4 3 != 0) false
  | .vlds f => ckVM f clVZ clG (bits f.ext.toNat 4 3 != 0) false
  | .vsts f => ckVM f clG clVZ (bits f.ext.toNat 4 3 != 0) false
  | .vgth f | .vsct f => ckVM f clVZ clVZ (f.x 4) false
  | .vldt f => ckVM f (some [.V]) clG (f.ext != 0) (40 < f.d.toNat)
  | .vbc f | .viota f => ckVI f clVZ clGZ none true false false (bits f.fn.toNat 9 3 != 0) false
  | .vext f => ckVI f clG clVZ clGZ false true false
      (bits f.fn.toNat 9 4 != 0 || bits f.fn.toNat 2 0 != 0) (f.top == 1 && f.b19)
  | .vins f => ckVI f clVZ clGZ clGZ true false false (bits f.fn.toNat 9 0 != 0) false
  | .vadd f | .vsub f => ckVI f clVZ clVZ clVZ true true true (f.cond != 0 || f.b19 || f.mid == 3) false
  | .vmul f | .vmad f | .vand f | .vor f | .vxor f | .vshl f | .vshr f | .vsar f
  | .vmin f | .vmax f | .vminu f | .vmaxu f =>
      ckVI f clVZ clVZ clVZ true true true (bits f.fn.toNat 9 3 != 0) false
  | .vmulh f => ckVI f clVZ clVZ clVZ true true true (bits f.fn.toNat 9 4 != 0) false
  | .vwad f => ckVI f clVZ clVZ clVZ true true false (bits f.fn.toNat 9 4 != 0) (f.top == 0)
  | .vabs f => ckVI f clVZ clVZ none true true false (f.cond != 0 || f.b19 || 1 < f.mid) false
  | .vcmp f => ckVI f clK clVZ clVZ false true true (9 < f.cond || bits f.fn.toNat 5 3 != 0) false
  | .vsel f => ckVI f clVZ clVZ clVZ true true true (bits f.fn.toNat 9 3 != 0) false
  | .vscan f => ckVI f clVZ clVZ none true true false (f.cond != 0) false
  | .vred f => ckVI f clG clVZ none false true false (f.cond != 0) false
  | .vperm f => ckVI f clVZ clVZ clVZ true true false (bits f.fn.toNat 9 3 != 0) false
  | .vfadd f | .vfsub f | .vfmul f | .vfma f | .vfdiv f => ckVFrm f clVZ
  | .vfmin f | .vfmax f => ckVFnr f clVZ
  | .vfsqrt f | .vfrcp f | .vfrsq f => ckVFrm f none
  | .vfexp2 f | .vflog2 f | .vftanh f => ckVFnr f none
  | .vfcmp f => ckVF f clK clVZ
      ([4, 5, 8, 9, 12, 13, 14, 15].contains f.cond || f.b19 || f.mid != 0) (f.top != 0)
  | .vfscan f => ckVFscan f clVZ
  | .vfred f => ckVFscan f clG
  | .vfcvt f => ckVF f clVZ none (0xA < f.cond) (5 ≤ f.cond && f.cond ≤ 9)
  | .vmxq f => ckVF f clVZ none (0xA < f.cond || f.b19 || f.mid != 0) (f.top != 0 || mxIll f.cond)
  | .vmxd f => ckVF f clVZ none (0xA < f.cond || f.b19 || (f.top == 0 && f.mid != 0)) (mxIll f.cond)
  | .pclm f | .prel f => ckX f none none none true (f.lo != 0 || f.fl != 0) false
  | .pld f => ckX f none clG clG true (0xA < f.lo || bits f.fl.toNat 3 1 != 0) (!pldOk f.lo (f.flag 0))
  | .pldt f => ckX f none clG clG true (0xA < f.lo || f.fl != 0) (!pldOk f.lo false)
  | .aclm f => ckX f none none none true (f.fn != 0 || bits f.fl.toNat 1 0 == 3) false
  | .arel f | .azero f => ckX f none none none true (f.fn != 0 || bits f.fl.toNat 1 0 != 0) false
  | .mma f => ckX f none none none true (f.flag 0) false
  | .drn f => ckX f clGZ clG clGZ true (0xA < f.lo)
      (!drnOk (bit f.fn.toNat 5) (bit f.fn.toNat 4) f.lo || (bit f.fn.toNat 7 && Opd.ofCode f.b == .zr))
  | .drnm f => ckX f clGZ clG clGZ true (bits f.fn.toNat 5 0 != 0)
      (bit f.fn.toNat 7 && Opd.ofCode f.b == .zr)
  | .atbl f => ckX f none clG none true (f.fn != 0 || f.fl != 0) false
  | .mstat f => ckX f clG none none false (f.fn != 0 || bits f.fl.toNat 3 1 != 0) false
  | .send f =>
      let n := bits f.fn.toNat 4 0
      ckE f clG (some [.G, .S]) clG false true
        (bits f.fn.toNat 7 5 != 0 || 16 < n || bits f.fl.toNat 3 1 != 0 || (n == 0 && f.d != 0))
        (16 < f.d.toNat + n)
  | .rput f => ckE f none clG clGZ true true (f.fn != 0 || f.fl != 0) false
  | .qinit f => ckE f none clG clGZ false true (f.fn != 0 || f.fl != 0) false
  | .qpush f => ckE f none clG clGZ true true (f.fn != 0 || f.fl != 0) false
  | .qpop f => ckE f clGZ clG none true true (f.fn != 0 || f.fl != 0) false
  | .qlen f => ckE f clG clG none false true (f.fn != 0 || f.fl != 0) false
  | .barv f => ckE f clGZ none none false true (lvRes f || f.fl != 0) false
  | .bart f => ckE f none none none false true (lvRes f || f.fl != 0) false
  | .cpy f => ckE f clG clG clG false true
      (cnRes f || bits f.fl.toNat 3 1 != 0 || (!f.flag 0 && f.fn != 0)) false
  | .cpy2 f => ckE f clG clG clG false true
      (cnRes f || bits f.fl.toNat 3 1 != 0 || (!f.flag 0 && f.fn != 0)) (f.d == 15)
  | .waitc f => ckE f none clGZ none false true (cnRes f || f.fl != 0) false
  | .carm f => ckE f none clG clGZ false false (cnRes f || f.fl != 0) false
  | .cset f => ckE f none clGZ none false false (cnRes f || f.fl != 0) false
  | .trig f => ckE f none none none false false (lvRes f || f.fl != 0) false
  | .wdep f => ckE f none none none false true (lvRes f || f.fl != 0) false
  | .lnch f => ckE f none clG none false true
      (cnRes f || bits f.fl.toNat 3 1 != 0) false
  | .wake f | .migr f => ckE f none clG none false true (f.fn != 0 || f.fl != 0) false
  | .hopen f => ckE f clG clG none false true (f.fn != 0 || f.fl != 0) false
  | .hput f => ckE f clG clG clG false true (f.fn != 0 || f.fl != 0) false
  | .hclose f => ckE f clGZ clG none false false (f.fn != 0 || f.fl != 0) false
  | .hstat f => ckE f clG clG none false false (f.fn != 0 || bits f.fl.toNat 3 1 != 0) false
  | .hcfg f => ckE f clGZ clGZ none false false (f.fn != 0 || f.fl != 0) false
  | _ => none

end Sys2Proof.Machine
end

