-- ==== Sys2Proof/WellFormed.lean ====
section
/-! DEFINITION. The well-formed instructions: those whose word passes steps 2 and 3 of R51. -/
namespace Sys2Proof

/-- An instruction whose word the core accepts (R51). -/
abbrev Instr.WellFormed (i : Instr) : Prop := Machine.check i = none

end Sys2Proof
end

