-- ==== Sys2Proof/Decode.lean ====
section
/-! DEFINITION. The decoder, total on any bytes, rejecting by name, and after it the encoder, both from the
formats of spec 02 (R32, R40-R44) and the opcode map (R49). -/
namespace Sys2Proof
open Sys2Proof.Machine

/-- The fields common to every word (R32). -/
def headOf (w : Word) : Head where
  gk := w.extractLsb' 53 3
  gn := w.extractLsb' 52 1
  wd := w.extractLsb' 50 2
  d := w.extractLsb' 44 6
  a := w.extractLsb' 38 6
  b := w.extractLsb' 32 6

/-- R format (R40). -/
def rformOf (w : Word) : RForm where
  toHead := headOf w
  ma := w.extractLsb' 30 2
  mb := w.extractLsb' 28 2
  fn := w.extractLsb' 16 12
  nro := w.extractLsb' 0 16

/-- I format (R41). -/
def iformOf (w : Word) : IForm where
  toHead := headOf w
  imm := w.extractLsb' 0 32

/-- M format (R42). -/
def mformOf (w : Word) : MForm where
  toHead := headOf w
  sz := w.extractLsb' 30 2
  ext := w.extractLsb' 25 5
  dsp := w.extractLsb' 16 9
  nro := w.extractLsb' 0 16

/-- B format (R43). -/
def bformOf (w : Word) : BForm where
  toHead := headOf w
  off := w.extractLsb' 0 32

/-- E format (R44). -/
def eformOf (w : Word) : EForm where
  toHead := headOf w
  fn := w.extractLsb' 24 8
  opv := w.extractLsb' 23 1
  opk := w.extractLsb' 20 3
  fl := w.extractLsb' 16 4
  nro := w.extractLsb' 0 16

/-- Row 0x0_ of the opcode map (R49): the column gives the instruction. -/
def row0 (w : Word) : Nat → Option Instr
  | 0x1 => some (.add (rformOf w))
  | 0x2 => some (.sub (rformOf w))
  | 0x3 => some (.mul (rformOf w))
  | 0x4 => some (.mulh (rformOf w))
  | 0x5 => some (.mulhu (rformOf w))
  | 0x6 => some (.div (rformOf w))
  | 0x7 => some (.divu (rformOf w))
  | 0x8 => some (.rem (rformOf w))
  | 0x9 => some (.remu (rformOf w))
  | 0xA => some (.and (rformOf w))
  | 0xB => some (.or (rformOf w))
  | 0xC => some (.xor (rformOf w))
  | 0xD => some (.andn (rformOf w))
  | 0xE => some (.shl (rformOf w))
  | 0xF => some (.shr (rformOf w))
  | _ => none

/-- Row 0x1_ of the opcode map (R49): the column gives the instruction. -/
def row1 (w : Word) : Nat → Option Instr
  | 0x0 => some (.sar (rformOf w))
  | 0x1 => some (.rot (rformOf w))
  | 0x2 => some (.min (rformOf w))
  | 0x3 => some (.max (rformOf w))
  | 0x4 => some (.minu (rformOf w))
  | 0x5 => some (.maxu (rformOf w))
  | 0x6 => some (.clz (rformOf w))
  | 0x7 => some (.ctz (rformOf w))
  | 0x8 => some (.popc (rformOf w))
  | 0x9 => some (.bfx (rformOf w))
  | 0xA => some (.bfxu (rformOf w))
  | 0xB => some (.bfi (rformOf w))
  | 0xC => some (.sel (rformOf w))
  | 0xD => some (.cmp (rformOf w))
  | 0xE => some (.cmpi (iformOf w))
  | 0xF => some (.kand (rformOf w))
  | _ => none

/-- Row 0x2_ of the opcode map (R49): the column gives the instruction. -/
def row2 (w : Word) : Nat → Option Instr
  | 0x0 => some (.kor (rformOf w))
  | 0x1 => some (.kxor (rformOf w))
  | 0x2 => some (.knot (rformOf w))
  | 0x3 => some (.kmov (rformOf w))
  | 0x4 => some (.kany (rformOf w))
  | 0x5 => some (.kall (rformOf w))
  | 0x6 => some (.kset (rformOf w))
  | 0x7 => some (.kget (rformOf w))
  | 0x8 => some (.mov (rformOf w))
  | 0x9 => some (.movf (rformOf w))
  | 0xA => some (.rst (rformOf w))
  | 0xB => some (.rclr (rformOf w))
  | 0xC => some (.addi (iformOf w))
  | 0xD => some (.andi (iformOf w))
  | 0xE => some (.ori (iformOf w))
  | 0xF => some (.xori (iformOf w))
  | _ => none

/-- Row 0x3_ of the opcode map (R49): the column gives the instruction. -/
def row3 (w : Word) : Nat → Option Instr
  | 0x0 => some (.shli (iformOf w))
  | 0x1 => some (.shri (iformOf w))
  | 0x2 => some (.sari (iformOf w))
  | 0x3 => some (.movi (iformOf w))
  | 0x4 => some (.movh (iformOf w))
  | 0x5 => some (.adr (iformOf w))
  | 0x6 => some (.br (bformOf w))
  | 0x7 => some (.bri (rformOf w))
  | 0x8 => some (.call (bformOf w))
  | 0x9 => some (.calli (rformOf w))
  | 0xA => some (.ret (rformOf w))
  | 0xB => some (.rasclr (rformOf w))
  | 0xC => some (.loop (bformOf w))
  | 0xD => some (.loopi (bformOf w))
  | 0xE => some (.exit (rformOf w))
  | 0xF => some (.yield (rformOf w))
  | _ => none

/-- Row 0x4_ of the opcode map (R49): the column gives the instruction. -/
def row4 (w : Word) : Nat → Option Instr
  | 0x0 => some (.park (rformOf w))
  | 0x1 => some (.nop (rformOf w))
  | 0x2 => some (.trap (rformOf w))
  | 0x3 => some (.eret (rformOf w))
  | 0x4 => some (.rply (rformOf w))
  | 0x5 => some (.mfs (rformOf w))
  | 0x6 => some (.mts (rformOf w))
  | 0x7 => some (.tstamp (rformOf w))
  | 0x8 => some (.brk (rformOf w))
  | _ => none

/-- Row 0x5_ of the opcode map (R49): the column gives the instruction. -/
def row5 (w : Word) : Nat → Option Instr
  | 0x0 => some (.ld (mformOf w))
  | 0x1 => some (.ldx (mformOf w))
  | 0x2 => some (.st (mformOf w))
  | 0x3 => some (.stx (mformOf w))
  | 0x4 => some (.pfh (mformOf w))
  | 0x5 => some (.fence (rformOf w))
  | 0x6 => some (.amo (mformOf w))
  | 0x7 => some (.cas (mformOf w))
  | 0x8 => some (.red (mformOf w))
  | 0x9 => some (.fred (mformOf w))
  | 0xA => some (.gacq (eformOf w))
  | 0xB => some (.grel (eformOf w))
  | 0xC => some (.ghand (eformOf w))
  | 0xD => some (.gpub (eformOf w))
  | 0xE => some (.gbind (eformOf w))
  | 0xF => some (.gstat (eformOf w))
  | _ => none

/-- Row 0x6_ of the opcode map (R49): the column gives the instruction. -/
def row6 (w : Word) : Nat → Option Instr
  | 0x0 => some (.vld (mformOf w))
  | 0x1 => some (.vst (mformOf w))
  | 0x2 => some (.vlds (mformOf w))
  | 0x3 => some (.vsts (mformOf w))
  | 0x4 => some (.vgth (mformOf w))
  | 0x5 => some (.vsct (mformOf w))
  | 0x6 => some (.vldt (mformOf w))
  | 0x7 => some (.vbc (rformOf w))
  | 0x8 => some (.vext (rformOf w))
  | 0x9 => some (.vins (rformOf w))
  | 0xA => some (.viota (rformOf w))
  | _ => none

/-- Row 0x7_ of the opcode map (R49): the column gives the instruction. -/
def row7 (w : Word) : Nat → Option Instr
  | 0x0 => some (.vadd (rformOf w))
  | 0x1 => some (.vsub (rformOf w))
  | 0x2 => some (.vmul (rformOf w))
  | 0x3 => some (.vmulh (rformOf w))
  | 0x4 => some (.vmad (rformOf w))
  | 0x5 => some (.vwad (rformOf w))
  | 0x6 => some (.vand (rformOf w))
  | 0x7 => some (.vor (rformOf w))
  | 0x8 => some (.vxor (rformOf w))
  | 0x9 => some (.vshl (rformOf w))
  | 0xA => some (.vshr (rformOf w))
  | 0xB => some (.vsar (rformOf w))
  | 0xC => some (.vmin (rformOf w))
  | 0xD => some (.vmax (rformOf w))
  | 0xE => some (.vminu (rformOf w))
  | 0xF => some (.vmaxu (rformOf w))
  | _ => none

/-- Row 0x8_ of the opcode map (R49): the column gives the instruction. -/
def row8 (w : Word) : Nat → Option Instr
  | 0x0 => some (.vabs (rformOf w))
  | 0x1 => some (.vcmp (rformOf w))
  | 0x2 => some (.vsel (rformOf w))
  | 0x3 => some (.vscan (rformOf w))
  | 0x4 => some (.vred (rformOf w))
  | 0x5 => some (.vperm (rformOf w))
  | 0x8 => some (.vfadd (rformOf w))
  | 0x9 => some (.vfsub (rformOf w))
  | 0xA => some (.vfmul (rformOf w))
  | 0xB => some (.vfma (rformOf w))
  | 0xC => some (.vfmin (rformOf w))
  | 0xD => some (.vfmax (rformOf w))
  | 0xE => some (.vfdiv (rformOf w))
  | 0xF => some (.vfsqrt (rformOf w))
  | _ => none

/-- Row 0x9_ of the opcode map (R49): the column gives the instruction. -/
def row9 (w : Word) : Nat → Option Instr
  | 0x0 => some (.vfrcp (rformOf w))
  | 0x1 => some (.vfrsq (rformOf w))
  | 0x2 => some (.vfexp2 (rformOf w))
  | 0x3 => some (.vflog2 (rformOf w))
  | 0x4 => some (.vftanh (rformOf w))
  | 0x5 => some (.vfcmp (rformOf w))
  | 0x6 => some (.vfscan (rformOf w))
  | 0x7 => some (.vfred (rformOf w))
  | 0x8 => some (.vfcvt (rformOf w))
  | 0x9 => some (.vmxq (rformOf w))
  | 0xA => some (.vmxd (rformOf w))
  | _ => none

/-- Row 0xA_ of the opcode map (R49): the column gives the instruction. -/
def rowA (w : Word) : Nat → Option Instr
  | 0x0 => some (.pclm (eformOf w))
  | 0x1 => some (.prel (eformOf w))
  | 0x2 => some (.pld (eformOf w))
  | 0x3 => some (.pldt (eformOf w))
  | 0x4 => some (.aclm (eformOf w))
  | 0x5 => some (.arel (eformOf w))
  | 0x6 => some (.azero (eformOf w))
  | 0x7 => some (.mma (eformOf w))
  | 0x8 => some (.drn (eformOf w))
  | 0x9 => some (.drnm (eformOf w))
  | 0xA => some (.atbl (eformOf w))
  | 0xB => some (.mstat (eformOf w))
  | _ => none

/-- Row 0xB_ of the opcode map (R49): the column gives the instruction. -/
def rowB (w : Word) : Nat → Option Instr
  | 0x0 => some (.send (eformOf w))
  | 0x1 => some (.rput (eformOf w))
  | 0x2 => some (.qinit (eformOf w))
  | 0x3 => some (.qpush (eformOf w))
  | 0x4 => some (.qpop (eformOf w))
  | 0x5 => some (.qlen (eformOf w))
  | 0x6 => some (.barv (eformOf w))
  | 0x7 => some (.bart (eformOf w))
  | 0x8 => some (.cpy (eformOf w))
  | 0x9 => some (.cpy2 (eformOf w))
  | 0xA => some (.waitc (eformOf w))
  | 0xB => some (.carm (eformOf w))
  | 0xC => some (.cset (eformOf w))
  | 0xD => some (.trig (eformOf w))
  | 0xE => some (.wdep (eformOf w))
  | 0xF => some (.lnch (eformOf w))
  | _ => none

/-- Row 0xC_ of the opcode map (R49): the column gives the instruction. -/
def rowC (w : Word) : Nat → Option Instr
  | 0x0 => some (.wake (eformOf w))
  | 0x1 => some (.migr (eformOf w))
  | 0x8 => some (.hopen (eformOf w))
  | 0x9 => some (.hput (eformOf w))
  | 0xA => some (.hclose (eformOf w))
  | 0xB => some (.hstat (eformOf w))
  | 0xC => some (.hcfg (eformOf w))
  | _ => none

/-- Row 0xF_ of the opcode map (R49): the column gives the instruction. -/
def rowF (_w : Word) : Nat → Option Instr
  | 0xE => some .kend
  | _ => none

/-- Step 1 of R51: the major opcode gives the instruction and its format (R49, R50). -/
def parse (w : Word) : Option Instr :=
  let col := (w.extractLsb' 56 4).toNat
  match (w.extractLsb' 60 4).toNat with
  | 0x0 => row0 w col
  | 0x1 => row1 w col
  | 0x2 => row2 w col
  | 0x3 => row3 w col
  | 0x4 => row4 w col
  | 0x5 => row5 w col
  | 0x6 => row6 w col
  | 0x7 => row7 w col
  | 0x8 => row8 w col
  | 0x9 => row9 w col
  | 0xA => rowA w col
  | 0xB => rowB w col
  | 0xC => rowC w col
  | 0xF => rowF w col
  | _ => none

/-- The word check of R51, steps 1 to 3. -/
def decodeWord (w : Word) : Except Reject Instr :=
  match parse w with
  | none => .error .illegalInstruction
  | some i =>
    match check i with
    | some r => .error r
    | none => .ok i

/-- Little-endian value of bytes (R5). -/
def leValue : List Byte → Nat
  | [] => 0
  | b :: l => b.toNat + 256 * leValue l

/-- The decoder: the word at the head of a list of bytes (R33), with the rest. Fewer than eight bytes are no
instruction. -/
def decode (l : List Byte) : Except Reject (Instr × List Byte) :=
  if l.length < 8 then .error .illegalInstruction
  else
    match decodeWord (BitVec.ofNat 64 (leValue (l.take 8))) with
    | .ok i => .ok (i, l.drop 8)
    | .error r => .error r

/-- The n low bytes of a number, lowest first (R5). -/
def leBytes : Nat → Nat → List Byte
  | 0, _ => []
  | n + 1, x => BitVec.ofNat 8 x :: leBytes n (x / 256)

/-- What the decoder reads from a word numbered as the opcode table numbers it. -/
def decodeTableWord (nbits w : Nat) : Option Instr :=
  match decode (leBytes 8 (w % 2 ^ nbits)) with
  | .ok (i, _) => some i
  | .error _ => none

/-- The high word's fields below the opcode (R32). -/
def headBits (op : BitVec 8) (h : Head) : BitVec 32 :=
  op ++ (h.gk ++ (h.gn ++ (h.wd ++ (h.d ++ (h.a ++ h.b)))))

/-- R format (R40). -/
def encR (op : BitVec 8) (f : RForm) : Word := headBits op f.toHead ++ (f.ma ++ (f.mb ++ (f.fn ++ f.nro)))
/-- I format (R41). -/
def encI (op : BitVec 8) (f : IForm) : Word := headBits op f.toHead ++ f.imm
/-- M format (R42). -/
def encM (op : BitVec 8) (f : MForm) : Word := headBits op f.toHead ++ (f.sz ++ (f.ext ++ (f.dsp ++ f.nro)))
/-- B format (R43). -/
def encB (op : BitVec 8) (f : BForm) : Word := headBits op f.toHead ++ f.off
/-- E format (R44). -/
def encE (op : BitVec 8) (f : EForm) : Word :=
  headBits op f.toHead ++ (f.fn ++ (f.opv ++ (f.opk ++ (f.fl ++ f.nro))))

/-- The word of an instruction (R32, R49); rows that are no words have none. -/
def encode : Instr → Option Word
  | .add f => some (encR 0x01 f)
  | .sub f => some (encR 0x02 f)
  | .mul f => some (encR 0x03 f)
  | .mulh f => some (encR 0x04 f)
  | .mulhu f => some (encR 0x05 f)
  | .div f => some (encR 0x06 f)
  | .divu f => some (encR 0x07 f)
  | .rem f => some (encR 0x08 f)
  | .remu f => some (encR 0x09 f)
  | .and f => some (encR 0x0A f)
  | .or f => some (encR 0x0B f)
  | .xor f => some (encR 0x0C f)
  | .andn f => some (encR 0x0D f)
  | .shl f => some (encR 0x0E f)
  | .shr f => some (encR 0x0F f)
  | .sar f => some (encR 0x10 f)
  | .rot f => some (encR 0x11 f)
  | .min f => some (encR 0x12 f)
  | .max f => some (encR 0x13 f)
  | .minu f => some (encR 0x14 f)
  | .maxu f => some (encR 0x15 f)
  | .clz f => some (encR 0x16 f)
  | .ctz f => some (encR 0x17 f)
  | .popc f => some (encR 0x18 f)
  | .bfx f => some (encR 0x19 f)
  | .bfxu f => some (encR 0x1A f)
  | .bfi f => some (encR 0x1B f)
  | .sel f => some (encR 0x1C f)
  | .cmp f => some (encR 0x1D f)
  | .cmpi f => some (encI 0x1E f)
  | .kand f => some (encR 0x1F f)
  | .kor f => some (encR 0x20 f)
  | .kxor f => some (encR 0x21 f)
  | .knot f => some (encR 0x22 f)
  | .kmov f => some (encR 0x23 f)
  | .kany f => some (encR 0x24 f)
  | .kall f => some (encR 0x25 f)
  | .kset f => some (encR 0x26 f)
  | .kget f => some (encR 0x27 f)
  | .mov f => some (encR 0x28 f)
  | .movf f => some (encR 0x29 f)
  | .rst f => some (encR 0x2A f)
  | .rclr f => some (encR 0x2B f)
  | .addi f => some (encI 0x2C f)
  | .andi f => some (encI 0x2D f)
  | .ori f => some (encI 0x2E f)
  | .xori f => some (encI 0x2F f)
  | .shli f => some (encI 0x30 f)
  | .shri f => some (encI 0x31 f)
  | .sari f => some (encI 0x32 f)
  | .movi f => some (encI 0x33 f)
  | .movh f => some (encI 0x34 f)
  | .adr f => some (encI 0x35 f)
  | .br f => some (encB 0x36 f)
  | .bri f => some (encR 0x37 f)
  | .call f => some (encB 0x38 f)
  | .calli f => some (encR 0x39 f)
  | .ret f => some (encR 0x3A f)
  | .rasclr f => some (encR 0x3B f)
  | .loop f => some (encB 0x3C f)
  | .loopi f => some (encB 0x3D f)
  | .exit f => some (encR 0x3E f)
  | .yield f => some (encR 0x3F f)
  | .park f => some (encR 0x40 f)
  | .nop f => some (encR 0x41 f)
  | .trap f => some (encR 0x42 f)
  | .eret f => some (encR 0x43 f)
  | .rply f => some (encR 0x44 f)
  | .mfs f => some (encR 0x45 f)
  | .mts f => some (encR 0x46 f)
  | .tstamp f => some (encR 0x47 f)
  | .brk f => some (encR 0x48 f)
  | .ld f => some (encM 0x50 f)
  | .ldx f => some (encM 0x51 f)
  | .st f => some (encM 0x52 f)
  | .stx f => some (encM 0x53 f)
  | .pfh f => some (encM 0x54 f)
  | .fence f => some (encR 0x55 f)
  | .amo f => some (encM 0x56 f)
  | .cas f => some (encM 0x57 f)
  | .red f => some (encM 0x58 f)
  | .fred f => some (encM 0x59 f)
  | .gacq f => some (encE 0x5A f)
  | .grel f => some (encE 0x5B f)
  | .ghand f => some (encE 0x5C f)
  | .gpub f => some (encE 0x5D f)
  | .gbind f => some (encE 0x5E f)
  | .gstat f => some (encE 0x5F f)
  | .vld f => some (encM 0x60 f)
  | .vst f => some (encM 0x61 f)
  | .vlds f => some (encM 0x62 f)
  | .vsts f => some (encM 0x63 f)
  | .vgth f => some (encM 0x64 f)
  | .vsct f => some (encM 0x65 f)
  | .vldt f => some (encM 0x66 f)
  | .vbc f => some (encR 0x67 f)
  | .vext f => some (encR 0x68 f)
  | .vins f => some (encR 0x69 f)
  | .viota f => some (encR 0x6A f)
  | .vadd f => some (encR 0x70 f)
  | .vsub f => some (encR 0x71 f)
  | .vmul f => some (encR 0x72 f)
  | .vmulh f => some (encR 0x73 f)
  | .vmad f => some (encR 0x74 f)
  | .vwad f => some (encR 0x75 f)
  | .vand f => some (encR 0x76 f)
  | .vor f => some (encR 0x77 f)
  | .vxor f => some (encR 0x78 f)
  | .vshl f => some (encR 0x79 f)
  | .vshr f => some (encR 0x7A f)
  | .vsar f => some (encR 0x7B f)
  | .vmin f => some (encR 0x7C f)
  | .vmax f => some (encR 0x7D f)
  | .vminu f => some (encR 0x7E f)
  | .vmaxu f => some (encR 0x7F f)
  | .vabs f => some (encR 0x80 f)
  | .vcmp f => some (encR 0x81 f)
  | .vsel f => some (encR 0x82 f)
  | .vscan f => some (encR 0x83 f)
  | .vred f => some (encR 0x84 f)
  | .vperm f => some (encR 0x85 f)
  | .vfadd f => some (encR 0x88 f)
  | .vfsub f => some (encR 0x89 f)
  | .vfmul f => some (encR 0x8A f)
  | .vfma f => some (encR 0x8B f)
  | .vfmin f => some (encR 0x8C f)
  | .vfmax f => some (encR 0x8D f)
  | .vfdiv f => some (encR 0x8E f)
  | .vfsqrt f => some (encR 0x8F f)
  | .vfrcp f => some (encR 0x90 f)
  | .vfrsq f => some (encR 0x91 f)
  | .vfexp2 f => some (encR 0x92 f)
  | .vflog2 f => some (encR 0x93 f)
  | .vftanh f => some (encR 0x94 f)
  | .vfcmp f => some (encR 0x95 f)
  | .vfscan f => some (encR 0x96 f)
  | .vfred f => some (encR 0x97 f)
  | .vfcvt f => some (encR 0x98 f)
  | .vmxq f => some (encR 0x99 f)
  | .vmxd f => some (encR 0x9A f)
  | .pclm f => some (encE 0xA0 f)
  | .prel f => some (encE 0xA1 f)
  | .pld f => some (encE 0xA2 f)
  | .pldt f => some (encE 0xA3 f)
  | .aclm f => some (encE 0xA4 f)
  | .arel f => some (encE 0xA5 f)
  | .azero f => some (encE 0xA6 f)
  | .mma f => some (encE 0xA7 f)
  | .drn f => some (encE 0xA8 f)
  | .drnm f => some (encE 0xA9 f)
  | .atbl f => some (encE 0xAA f)
  | .mstat f => some (encE 0xAB f)
  | .send f => some (encE 0xB0 f)
  | .rput f => some (encE 0xB1 f)
  | .qinit f => some (encE 0xB2 f)
  | .qpush f => some (encE 0xB3 f)
  | .qpop f => some (encE 0xB4 f)
  | .qlen f => some (encE 0xB5 f)
  | .barv f => some (encE 0xB6 f)
  | .bart f => some (encE 0xB7 f)
  | .cpy f => some (encE 0xB8 f)
  | .cpy2 f => some (encE 0xB9 f)
  | .waitc f => some (encE 0xBA f)
  | .carm f => some (encE 0xBB f)
  | .cset f => some (encE 0xBC f)
  | .trig f => some (encE 0xBD f)
  | .wdep f => some (encE 0xBE f)
  | .lnch f => some (encE 0xBF f)
  | .wake f => some (encE 0xC0 f)
  | .migr f => some (encE 0xC1 f)
  | .hopen f => some (encE 0xC8 f)
  | .hput f => some (encE 0xC9 f)
  | .hclose f => some (encE 0xCA f)
  | .hstat f => some (encE 0xCB f)
  | .hcfg f => some (encE 0xCC f)
  | .kend => some 0xFE00000000000000
  | _ => none

/-- The bytes of an instruction's word (R33). -/
def encodeBytes (i : Instr) : Option (List Byte) := (encode i).map (fun w => leBytes 8 w.toNat)

end Sys2Proof
end

