-- ==== Sys2Proof/Machine/Memory.lean ====
section
/-! DEFINITION. Scalar loads and stores, prefetch, fence, atomics and reductions (spec 05 R105-R117). -/
namespace Sys2Proof.Machine
open Sys2Proof

/-- The scaled displacement of an M word for a unit of n bytes (R42). -/
def dispBytes (f : MForm) (n : Nat) : Word := BitVec.ofNat 64 (wrapN 64 (MForm.disp f * n))
/-- The effective address of R105: base, index times size, displacement. -/
def effAddr (f : MForm) (a idx : Word) : Word := a + idx * BitVec.ofNat 64 f.bytes + dispBytes f f.bytes

/-- The place of an address when it is known at issue, a scratchpad place or a stored translation's, with its key and
whether its page keeps it out of the caches (R256). -/
def knownPlace (s : State) (t : Thread) (va : Nat) : Option (Nat × Nat × Bool) :=
  match windowOf (TRef.cc t.ref) va with
  | .scratch cc off => (s.scratchSpot t.ref.ctx cc off).map (fun k => (k, 0, false))
  | .hbm =>
    match xlatNow s (s.homeOf t.ref) t.ref.ctx va false true with
    | some (.ok x) => some (x.pa, x.key, x.bypass)
    | _ => none
  | .hole => none

/-- The bytes of a read that a copy serves at issue (R262), and whether the copy is PUBLISHED; never while an own store to the line
is on its way (R261), nor where the home lets nothing be read (R124, R206). -/
def servedByCopy (s : State) (t : Thread) (va size : Nat) : Option (BitVec 1024 × Bool) :=
  match knownPlace s t va with
  | none => none
  | some (k, key, bypass) =>
    if ownStore t (va / 128 * 128) 128 || bypass || inQueue s k size || inGuardTable s k size then none
    else (s.copyFor (s.homeOf t.ref) t.ref.ctx t.ref.agent (lineOf k) key (t.stamps s)).map
      (fun c => (BitVec.ofNat 1024 (c.data.toNat >>> (8 * (k % 128)) % 2 ^ (8 * size)), mdST c.md == 3))

/-- Whether a load may report MISS (R9, R104): under BRANCH or FLAG, its line not in the near cache, by the
draw. -/
def missNow (s : State) (t : Thread) (wd : BitVec 2) (va : Nat) : Bool :=
  s.oracle.miss && takesOutcome wd && (match knownPlace s t va with
    | some (k, _) => !s.isNear (s.homeOf t.ref) (lineOf k)
    | none => true)

/-- A load or line read issued: served by a copy, or sent; with MISS reported when the draw says so. A read of a PUBLISHED copy
invalidates others as one at the home does (R236). -/
def issueRead (s : State) (t : Thread) (wd : BitVec 2) (p : Pending) (va size : Nat) : Done :=
  match servedByCopy s t va size, p.units.head? with
  | some (d, published), some (a, _) =>
    let s := if published then s.dropStale (s.homeOf t.ref) else s
    .next ((s.updThread t.ref (fun t => { t with pend := t.pend ++ [p] })).post [.acknowledgement a.sink (some d) none])
  | _, _ => if missNow s t wd va then .miss (issueUnits s t p) else .next (issueUnits s t p)

/-- The body of `ld` and `ldx` (R105, R106). -/
def loadBody (f : MForm) (idx : Bool) (s : State) (t : Thread) : Ev Done := do
  let a ← srcW s t f.A
  let b ← if idx then srcW s t f.B else pure 0
  let va := effAddr f a b
  let acq := f.x 1
  let c : CauseWord := { ar := acq, sx := f.x 0, reg := f.d.toNat, sz := f.sz.toNat, kind := 1 }
  addrGate s t va f.bytes false (accInfo c 0 0)
  orderGate s t acq
  routerGate s t va.toNat
  let (tag, s) ← takeTag s t 1
  let (id, s) := s.fresh
  let s := s.updThread t.ref (fun t => { t.setPend f.D tag with acq := if acq then some tag else t.acq })
  let p := mkPending id t.pc { c with tag := tag.toNat } va 0 0 [mkAccess s t .read va.toNat f.bytes 0 0 0 id 0] [tag] (.scalar (f.x 0) f.bytes) none
  pure (issueRead s t f.wd p va.toNat f.bytes)
/-- `ld` (R105, R106). -/
def execLd (f : MForm) (s : State) : Out := issue true f.toHead f.nro (loadBody f false) s
/-- `ldx` (R105, R106). -/
def execLdx (f : MForm) (s : State) : Out := issue true f.toHead f.nro (loadBody f true) s

/-- The body of `st` and `stx` (R105, R107): the index of `stx` is read after source b. -/
def storeBody (f : MForm) (idx : Bool) (s : State) (t : Thread) : Ev Done := do
  let a ← srcW s t f.A
  let b ← srcW s t f.B
  let d ← if idx then srcW s t f.D else pure 0
  let va := effAddr f a d
  let rel := f.x 1
  let c : CauseWord := { ar := rel, reg := f.b.toNat, sz := f.sz.toNat, kind := 2 }
  addrGate s t va f.bytes true (accInfo c (zext64 (8 * f.bytes) b.toNat) 0)
  orderGate s t rel
  routerGate s t va.toNat
  let s := consumeOne s t.ref f.B .plain
  pure (.next (storeNow s t va f.bytes b c))
/-- `st` (R105, R107). -/
def execSt (f : MForm) (s : State) : Out := issue true f.toHead f.nro (storeBody f false) s
/-- `stx` (R105, R107). -/
def execStx (f : MForm) (s : State) : Out := issue true f.toHead f.nro (storeBody f true) s

/-- The place of an address that a `pfh` may bring near, with its key: not one that would fault, lies in a remote page, is kept
out of the caches, is poisoned, or that no load reads (R110, R206, R256). -/
def pfhPlace (s : State) (t : Thread) (va : Nat) : Option (Nat × Nat) :=
  let mc := s.homeOf t.ref
  let at_ (k key : Nat) : Option (Nat × Nat) :=
    if s.pois (lineOf k) != 0 || inQueue s (128 * lineOf k) 128 || inGuardTable s (128 * lineOf k) 128 then none else some (k, key)
  match windowFault s t.ref.ctx (TRef.cc t.ref) va, windowOf (TRef.cc t.ref) va with
  | some _, _ => none
  | none, .scratch cc off => (s.scratchSpot t.ref.ctx cc off).bind (at_ · 0)
  | none, _ => match s.translate mc t.ref.ctx va false true with
    | .ok x => if x.remote || x.bypass then none else at_ x.pa x.key
    | .error _ => none
/-- The body of `pfh` (R110): nothing architectural. The line comes near at once, or not, as the draw says (DESIGN CHOICE, log
entry 60): into the near cache, or with EXT[0] into the die's remote-data cache only. -/
def pfhBody (f : MForm) (s : State) (t : Thread) : Ev Done := do
  let a ← srcW s t f.A
  let va := (a + dispBytes f 8).toNat
  pure (.next (match pfhPlace s t va with
    | some (k, key) =>
      if s.oracle.fill then s.bringNear (!f.x 0) t.ref.ctx (s.homeOf t.ref) k key (s.md (lineOf k)) else s
    | none => s))
/-- `pfh` (R110). -/
def execPfh (f : MForm) (s : State) : Out := issue false f.toHead f.nro (pfhBody f) s

/-- The body of `fence` (R111). -/
def fenceBody (s : State) (t : Thread) : Ev Done := do
  fenceGate s t
  pure (.next s)
/-- `fence` (R111). -/
def execFence (f : RForm) (s : State) : Out := issue false f.toHead f.nro fenceBody s

/-- An atomic with a value issued (R103, R112, R115): D PEND, the request sent. -/
def issueAtomic (f : MForm) (k : AKind) (func : Nat) (b exp : Word) (ord : Bool) (va : Word) (s : State) (t : Thread) :
    Ev Done := do
  let n := 8 * f.bytes
  let data := zext64 n b.toNat
  let prog := zext64 n exp.toNat
  let c : CauseWord := { func := func, ord := ord, reg := f.d.toNat, sz := f.sz.toNat, kind := 3 }
  addrGate s t va f.bytes true (accInfo c data prog)
  orderGate s t ord
  routerGate s t va.toNat
  let (tag, s) ← takeTag s t 1
  let (id, s) := s.fresh
  let s := s.updThread t.ref (fun t => t.setPend f.D tag)
  let acc := mkAccess s t k va.toNat f.bytes (data.setWidth 1024) prog 0 id 0
  pure (.next (issueUnits s t (mkPending id t.pc { c with tag := tag.toNat } va data prog [acc] [tag]
    (.scalar false f.bytes) none)))

/-- A reduction issued (R112, R116): nothing returned. -/
def issueReduction (f : MForm) (k : AKind) (func : Nat) (b : Word) (ord : Bool) (va : Word) (s : State) (t : Thread) :
    Ev Done := do
  let data := zext64 (8 * f.bytes) b.toNat
  let c : CauseWord := { func := func, ord := ord, reg := f.b.toNat, sz := f.sz.toNat, kind := 4 }
  addrGate s t va f.bytes true (accInfo c data 0)
  orderGate s t ord
  routerGate s t va.toNat
  let (id, s) := s.fresh
  let acc := mkAccess s t k va.toNat f.bytes (data.setWidth 1024) 0 0 id 0
  pure (.next (issueUnits s t (mkPending id t.pc c va data 0 [acc] [] .none none)))

/-- The operation code of an atomic word: EXT[3:0] (R112). -/
def MForm.op (f : MForm) : Nat := bits f.ext.toNat 3 0

/-- The body of `amo` (R112, R113). -/
def amoBody (f : MForm) (s : State) (t : Thread) : Ev Done := do
  let a ← srcW s t f.A
  let b ← srcW s t f.B
  issueAtomic f (.amo ((aopOf (MForm.op f)).getD .swap)) (MForm.op f) b 0 (f.x 4) (effAddr f a 0) s t
/-- `amo` (R112, R113). -/
def execAmo (f : MForm) (s : State) : Out := issue true f.toHead f.nro (amoBody f) s

/-- The body of `cas`: D is read as the expected value after source b (R114). -/
def casBody (f : MForm) (s : State) (t : Thread) : Ev Done := do
  let a ← srcW s t f.A
  let b ← srcW s t f.B
  let d ← srcW s t f.D
  issueAtomic f .cas 0 b d (f.x 4) (effAddr f a 0) s t
/-- `cas` (R114). -/
def execCas (f : MForm) (s : State) : Out := issue true f.toHead f.nro (casBody f) s

/-- The body of `red` (R112, R113). -/
def redBody (f : MForm) (s : State) (t : Thread) : Ev Done := do
  let a ← srcW s t f.A
  let b ← srcW s t f.B
  issueReduction f (.red ((aopOf (MForm.op f)).getD .add)) (MForm.op f) b (f.x 4) (effAddr f a 0) s t
/-- `red` (R112, R113). -/
def execRed (f : MForm) (s : State) : Out := issue true f.toHead f.nro (redBody f) s

/-- The body of `fred` (R116). -/
def fredBody (f : MForm) (s : State) (t : Thread) : Ev Done := do
  let a ← srcW s t f.A
  let b ← srcW s t f.B
  let o := bits f.ext.toNat 1 0
  issueReduction f (.fred ((fopOf o).getD .add)) o b false (effAddr f a 0) s t
/-- `fred` (R116). -/
def execFred (f : MForm) (s : State) : Out := issue true f.toHead f.nro (fredBody f) s

end Sys2Proof.Machine
end

