-- ==== Sys2Proof/Machine/VectorMem.lean ====
section
/-! DEFINITION. Vector loads and stores (spec 07 R155-R164). -/
namespace Sys2Proof.Machine
open Sys2Proof

/-- Byte enables of the selected lanes (R159). -/
def laneBytes (k : KWord) : BitVec 128 :=
  BitVec.ofNat 128 ((List.range 32).foldl (fun m i => if bit k.toNat i then m + 15 * 2 ^ (4 * i) else m) 0)

/-- A unit of a compound access: number, address, data (R163). -/
structure LaneUnit where
  n : Nat
  va : Word
  data : BitVec 32
  deriving DecidableEq, Repr

/-- The alignment fault of a vector access at issue (R99, R159-R164, R301). -/
def misaligned (c : CauseWord) (va data : Word) : Ev Unit := .error (.trap .alignment { c := c, addr := va, data := data })

/-- Destinations of a vector load: none for `zr` (R155). -/
def vecDests : Opd → List Opd
  | .v i => [.v i]
  | _ => []

/-- A compound access issued (R163): its units go out; the destinations are PEND, each with its tag. -/
def issueCompound (s : State) (t : Thread) (kind : AKind) (size : Nat) (base : Word) (reg : Nat) (dests : List Opd)
    (asm : Assemble) (us : List LaneUnit) : Ev Done := do
  accessGate t
  us.forM (fun u => routerGate s t u.va.toNat)
  let (tags, s) ← if dests.isEmpty then pure ([], s) else takeTags s t 1 dests.length
  let (id, s) := s.fresh
  let s := s.updThread t.ref (fun t => (dests.zip tags).foldl (fun t p => t.setPend p.1 p.2) t)
  let idle := us.foldl (fun m u => m - 2 ^ u.n) (2 ^ 32 - 1)
  let c : CauseWord := { tag := (tags.headD 0).toNat, reg := reg, sz := 2, kind := 8 }
  let accs := us.map (fun u => mkAccess s t kind u.va.toNat size (u.data.setWidth 1024) 0 0 id u.n)
  pure (.next (issueUnits s t (mkPending id t.pc c base 0 (BitVec.ofNat 64 idle) accs tags asm none)))

/-- The body of `vld` (R158, R159). -/
def vldBody (f : MForm) (s : State) (t : Thread) : Ev Done := do
  let a ← srcW s t f.A
  let k ← srcK t f.msk
  let va := a + dispBytes f 128
  let c : CauseWord := { reg := f.d.toNat, sz := 2, kind := 8 }
  if va.toNat % 128 ≠ 0 then misaligned c va 0
  if k = 0 then pure (.next (writeL s t.ref false f.D 0 0))
  else do
    addrGate s t va 128 false (accInfo c 0 0)
    accessGate t
    routerGate s t va.toNat
    let ds := vecDests f.D
    let (tags, s) ← if ds.isEmpty then pure ([], s) else takeTags s t 1 1
    let (id, s) := s.fresh
    let s := s.updThread t.ref (fun t => t.setPend f.D (tags.headD 0))
    let p := mkPending id t.pc { c with tag := (tags.headD 0).toNat } va 0 0 [mkAccess s t .read va.toNat 128 0 0 0 id 0] tags (.line k) none
    pure (issueRead s t f.wd p va.toNat 128)
/-- `vld` (R158, R159). -/
def execVld (f : MForm) (s : State) : Out := issue true f.toHead f.nro (vldBody f) s

/-- The body of `vst` (R158, R159). -/
def vstBody (f : MForm) (s : State) (t : Thread) : Ev Done := do
  let a ← srcW s t f.A
  let b ← srcV t f.B
  let k ← srcK t f.msk
  let va := a + dispBytes f 128
  let c : CauseWord := { reg := f.b.toNat, sz := 2, kind := 8 }
  let be := laneBytes k
  let first := BitVec.ofNat 64 (writtenBytes be.toNat b.toNat)
  if va.toNat % 128 ≠ 0 then misaligned c va first
  if k = 0 then pure (.next s)
  else do
    addrGate s t va 128 true (accInfo c first 0)
    accessGate t
    routerGate s t va.toNat
    let (id, s) := s.fresh
    pure (.next (issueUnits s t (mkPending id t.pc c va first 0 [mkAccess s t .write va.toNat 128 b 0 be id 0] [] .none none)))
/-- `vst` (R158, R159). -/
def execVst (f : MForm) (s : State) : Out := issue true f.toHead f.nro (vstBody f) s

/-- Lanes that a mask selects. -/
def selected (k : KWord) : List Nat := (List.range 32).filter (fun i => bit k.toNat i)
/-- base + i * s, modulo 2^64 (R160). -/
def strided (base st : Word) (i : Nat) : Word := base + BitVec.ofNat 64 i * st

/-- Lanes that no higher lane of the list has the address of (R160, R162). -/
def topLanes (us : List LaneUnit) : List LaneUnit :=
  us.filter (fun u => !us.any (fun v => decide (u.n < v.n) && v.va == u.va))

/-- The body of `vlds` (R160, R161). -/
def vldsBody (f : MForm) (s : State) (t : Thread) : Ev Done := do
  let a ← srcW s t f.A
  let b ← srcW s t f.B
  let k ← srcK t f.msk
  let base := a + dispBytes f 128
  if base.toNat % 4 ≠ 0 ∨ b.toNat % 4 ≠ 0 then misaligned { reg := f.d.toNat, sz := 2, kind := 8 } base 0
  if k = 0 then pure (.next (writeL s t.ref false f.D 0 0))
  else issueCompound s t .read 4 base f.d.toNat (vecDests f.D) .lanes ((selected k).map (fun i => ⟨i, strided base b i, 0⟩))
/-- `vlds` (R160). -/
def execVlds (f : MForm) (s : State) : Out := issue true f.toHead f.nro (vldsBody f) s

/-- The body of `vsts`: D is the stride, read after source b (R158, R160, R161). -/
def vstsBody (f : MForm) (s : State) (t : Thread) : Ev Done := do
  let a ← srcW s t f.A
  let b ← srcV t f.B
  let d ← srcW s t f.D
  let k ← srcK t f.msk
  let base := a + dispBytes f 128
  if base.toNat % 4 ≠ 0 ∨ d.toNat % 4 ≠ 0 then misaligned { reg := f.b.toNat, sz := 2, kind := 8 } base 0
  if k = 0 then pure (.next s)
  else
    issueCompound s t .write 4 base f.b.toNat [] .mask
      (topLanes ((selected k).map (fun i => ⟨i, strided base d i, lane b i⟩)))
/-- `vsts` (R160). -/
def execVsts (f : MForm) (s : State) : Out := issue true f.toHead f.nro (vstsBody f) s

/-- Units of the lanes whose index is in bound (R161). -/
def boundUnits (base : Word) (idx : VWord) (n : Word) (data : VWord) : List LaneUnit :=
  ((List.range 32).filter (fun i => decide ((lane idx i).toNat < n.toNat))).map
    (fun i => ⟨i, base + (lane idx i).setWidth 64 * 4, lane data i⟩)

/-- The bound register of a gather or scatter (R161). -/
def boundReg (f : MForm) : Opd := .g (Fin.ofNat 16 (bits f.ext.toNat 3 0))

/-- The body of `vgth` (R161). -/
def vgthBody (f : MForm) (s : State) (t : Thread) : Ev Done := do
  let a ← srcW s t f.A
  let b ← srcV t f.B
  let n ← srcW s t (boundReg f)
  let base := a + dispBytes f 128
  if base.toNat % 4 ≠ 0 then misaligned { reg := f.d.toNat, sz := 2, kind := 8 } base 0
  let us := boundUnits base b n 0
  if us.isEmpty then pure (.next (writeL s t.ref false f.D 0 0))
  else issueCompound s t .read 4 base f.d.toNat (vecDests f.D) .lanes us
/-- `vgth` (R161). -/
def execVgth (f : MForm) (s : State) : Out := issue true f.toHead f.nro (vgthBody f) s

/-- The body of `vsct` (R161, R162). -/
def vsctBody (f : MForm) (s : State) (t : Thread) : Ev Done := do
  let a ← srcW s t f.A
  let b ← srcV t f.B
  let d ← srcV t f.D
  let n ← srcW s t (boundReg f)
  let base := a + dispBytes f 128
  if base.toNat % 4 ≠ 0 then misaligned { reg := f.b.toNat, sz := 2, kind := 8 } base 0
  let us := topLanes (boundUnits base d n b)
  if us.isEmpty then pure (.next s)
  else issueCompound s t .write 4 base f.b.toNat [] .mask us
/-- `vsct` (R161, R162). -/
def execVsct (f : MForm) (s : State) : Out := issue true f.toHead f.nro (vsctBody f) s

/-- The eight destinations of `vldt` (R164). -/
def turnDests : Opd → List Opd
  | .v i => (List.range 8).map (fun c => .v (Fin.ofNat 32 (i.val + c)))
  | _ => []

/-- The body of `vldt` (R164). -/
def vldtBody (f : MForm) (s : State) (t : Thread) : Ev Done := do
  let a ← srcW s t f.A
  let b ← srcW s t f.B
  let base := a + dispBytes f 128
  if base.toNat % 32 ≠ 0 ∨ b.toNat % 32 ≠ 0 then misaligned { reg := f.d.toNat, sz := 2, kind := 8 } base 0
  issueCompound s t .read 32 base f.d.toNat (turnDests f.D) .rows ((List.range 32).map (fun j => ⟨j, strided base b j, 0⟩))
/-- `vldt` (R164). -/
def execVldt (f : MForm) (s : State) : Out := issue true f.toHead f.nro (vldtBody f) s

end Sys2Proof.Machine
end

