-- ==== Sys2Proof/Machine/Guards.lean ====
section
/-! DEFINITION. Guards: the six instructions, the guard's home, its replies, closing events, tickets and reservations
that end (spec 05 R121, R124-R132, 10 R240, R241, 11 R265, R267, 12 R288-R290). -/
namespace Sys2Proof.Machine
open Sys2Proof

/-- The cap of R265 in reference ns and advances. -/
def capWindow : Nat := 16000000
/-- Whether a binding's clock may advance once more now (R265). -/
def State.capOk (s : State) (ctx : Nat) (guarded : Bool) (bd : Nat) : Bool :=
  decide ((s.advances.filter (fun a => a.1 == ctx && a.2.1 == guarded && a.2.2.1 == bd
    && decide (s.now < a.2.2.2 + capWindow))).length < 2 ^ 14)
/-- A clock's advance noted; those past the window are forgotten (R265). -/
def State.advanced (s : State) (ctx : Nat) (guarded : Bool) (bd : Nat) : State :=
  { s with advances := s.advances.filter (fun a => decide (s.now < a.2.2.2 + capWindow)) ++ [(ctx, guarded, bd, s.now)] }

/-- A thread's router takes a request to a guard's home, or refuses it (R132). -/
def guardRouter (s : State) (t : Thread) : Ev Unit :=
  let mc := s.homeOf t.ref
  if (s.core mc).refusing then .error (.notReady .retry (.router mc)) else .ok ()

/-- The guard that a word names, below the table's size (R124). -/
def guardIdx (s : State) (t : Thread) (a : Word) : Ev Nat :=
  if fld a 21 0 < (s.ctxD t.ref.ctx).gsize then .ok (fld a 21 0) else failWith .protection

/-- Whether a context core lies in the instance that a guard's range names (R240). -/
def Ctx.inScope (c : Ctx) (g cc : Nat) : Bool :=
  let r := c.scopeOf g
  decide (r.c0 ≤ cc) && decide (cc ≤ r.c1)

/-- A guard request of a thread. -/
def guardReq (t : Thread) (g acc : Nat) (op : GOp) (pred dest : Option Tag) (parks tickets : Bool) : GuardReq where
  ctx := t.ref.ctx
  idx := g
  agent := t.ref.agent
  who := .thread t.ref
  op := op
  pred := pred
  dest := dest
  acc := acc
  pc := t.pc
  parks := parks
  tickets := tickets
  n := t.icount

/-- A guard request sent and kept as an access not yet acknowledged (R241); `req` is what its record replays or,
for an acquire the thread waits for, the instruction. -/
def sendGuard (s : State) (t : Thread) (id : Nat) (a b : Word) (reg : Nat) (r : GuardReq) (tags : List Tag) (keep : Instr) : State :=
  let p := mkPending id t.pc { tag := (tags.headD 0).toNat, reg := reg, kind := 6 } a b 0 [] tags .none (some keep)
  (s.updThread t.ref (fun t => { t with pend := t.pend ++ [p] })).post [.guardRequestAtHome r]

/-- Tags for an outcome predicate and, where D is a register, for D (R23, R126). -/
def predTags (s : State) (t : Thread) (cls : Nat) (k : Fin 8) (d : Opd) : Ev (List Tag × State) := do
  let n := match d with
    | .g _ => 2
    | _ => 1
  let (tags, s) ← takeTags s t cls n
  pure (tags, s.updThread t.ref (fun t =>
    (t.setPend (.k k) (tags.headD 0)).setPend (if n = 2 then d else .zr) (tags.getD 1 0)))

/-- The body of `gacq` (R126). While a handover that was known to succeed is on its way to the table's last entry, it
waits (R125, R130). A second acquire of a guard while the first is on its way is one of a guard that the thread has asked for: it
takes the fault of one that it holds (DESIGN CHOICE, log entry 59). -/
def gacqBody (f : EForm) (s : State) (t : Thread) : Ev Done := do
  let a ← srcW s t f.A
  need (fld a 63 22 == 0) .protection
  let g ← guardIdx s t a
  need ((s.ctxD t.ref.ctx).inScope g (TRef.cc t.ref)) .protection
  need ((holdOn t.holds g).isNone && !t.acquiring.contains g
    && decide (t.holds.length + t.acquiring.length < 8)) .protection
  if 8 ≤ holdsTaken s t then .error .hold
  guardRouter s t
  let (id, s) := s.fresh
  let op := GOp.acquire (f.flag 0) (f.flag 1)
  match f.pred with
  | none =>
    let d := Disp.ofCode f.wd
    let r := guardReq t g id op none none (d == .park) (d == .branch || d == .flag)
    pure (.settled ((sendGuard s t id a 0 f.d.toNat r [] (.gacq f)).updThread t.ref (fun t => { t with run := .waiting .reply })))
  | some k => do
    let (tags, s) ← predTags s t 6 k f.D
    let r := guardReq t g id op tags.head? tags[1]? false true
    pure (.next (sendGuard s t id a 0 (Opd.code (.k k)) r tags (.guardRequestAtHome r)))
/-- `gacq` (R126). -/
def execGacq (f : EForm) (s : State) : Out := issue true f.toHead f.nro (gacqBody f) s

/-- A thread without its hold on a guard; `wg` is cleared when it named it (R127, R241). -/
def dropHold (g : Nat) (t : Thread) : Thread :=
  { t with holds := t.holds.filter (fun h => h.guard != g)
           wg := if bit t.wg.toNat 63 && fld t.wg 21 0 == g then 0 else t.wg }
/-- `wg` naming a guard (R24, R128). -/
def wgWord (g : Nat) : Word := BitVec.ofNat 64 (2 ^ 63 + g % 2 ^ 22)

/-- The body of `grel` (R127); it waits for the cap of R265 as for a fence. -/
def grelBody (f : EForm) (s : State) (t : Thread) : Ev Done := do
  let a ← srcW s t f.A
  fenceGate s t
  let g := fld a 21 0
  need (holdOn t.holds g).isSome .protection
  if (holdOn t.holds g).any (fun h => h.excl) && !s.capOk t.ref.ctx true g then .error .hold
  guardRouter s t
  let (id, s) := s.fresh
  let r := guardReq t g id .release none none false false
  let s := sendGuard s t id a 0 60 r [] (.guardRequestAtHome r)
  pure (.next ((s.updThread t.ref (dropHold g)).offer t.ref.ctx (.handSlot g t.ref.agent)))
/-- `grel` (R127). -/
def execGrel (f : EForm) (s : State) : Out := issue true f.toHead f.nro (grelBody f) s

/-- Whether an identity is an engine of a context core (R119, R182, R202). -/
def engineOf (cc target : Nat) : Option Nat :=
  let e := (target - 0x80000) % 8
  if 0x80000 ≤ target ∧ target < 0xF0000 ∧ (target - 0x80000) / 8 = cc ∧ 2 ≤ e ∧ e ≤ 6 then some e else none

/-- The body of `ghand` (R130, R240). -/
def ghandBody (f : EForm) (s : State) (t : Thread) : Ev Done := do
  let a ← srcW s t f.A
  let b ← srcW s t f.B
  fenceGate s t
  let g := fld a 21 0
  let target := fld b 19 0
  let c := s.ctxD t.ref.ctx
  need (match holdOn t.holds g with
    | some h => h.excl
    | none => false) .protection
  need (target != t.ref.agent) .protection
  let near := target / 16 == TRef.cc t.ref && decide (target < 0x80000)
  need ((engineOf (TRef.cc t.ref) target).isSome
    || (decide (target < 0x80000) && c.has (target / 16) && c.inScope g (target / 16)
      && (!near || (s.agent? t.ref.ctx target).isSome))) .protection
  need (near || decide (0x80000 ≤ target) || f.opv == 1) .illegalOperand
  if near && !canTake s t.ref.ctx t.ref.agent (.handSlot g target) then .error (.notReady .slot (.handSlot g target))
  guardRouter s t
  let (id, s) := s.fresh
  let s := if near then s.took t.ref.ctx t.ref.agent (.handSlot g target) else s
  match f.pred with
  | none =>
    let r := guardReq t g id (.handTo target) none none false false
    pure (.next (sendGuard s t id a b 60 r [] (.guardRequestAtHome r)))
  | some k => do
    let (tags, s) ← predTags s t 6 k .zr
    let r := guardReq t g id (.handTo target) tags.head? none false false
    pure (.next (sendGuard s t id a b (Opd.code (.k k)) r tags (.guardRequestAtHome r)))
/-- `ghand` (R130). -/
def execGhand (f : EForm) (s : State) : Out := issue true f.toHead f.nro (ghandBody f) s

/-- The body of `gpub` (R129). -/
def gpubBody (f : EForm) (s : State) (t : Thread) : Ev Done := do
  let a ← srcW s t f.A
  let b ← srcW s t f.B
  if a.toNat % 128 ≠ 0 ∨ b.toNat % 128 ≠ 0 then .error (.trap .alignment { accInfo { kind := 5 } b 0 with addr := a })
  fenceGate s t
  routerGate s t a.toNat
  if b = 0 then pure (.next s)
  else
    let (id, s) := s.fresh
    let unit (i : Nat) : Access :=
      mkAccess s t (.gpub (bits f.fl.toNat 2 0)) (a + BitVec.ofNat 64 (128 * i)).toNat 128 0 0 0 id i
    pure (.next (issueUnits s t (mkPending id t.pc { kind := 5 } a b 0 ((List.range (b.toNat / 128)).map unit) [] .seq none)))
/-- `gpub` (R129). -/
def execGpub (f : EForm) (s : State) : Out := issue true f.toHead f.nro (gpubBody f) s

/-- The body of `gbind` (R128). -/
def gbindBody (f : EForm) (s : State) (t : Thread) : Ev Done := do
  let a ← srcW s t f.A
  match f.A with
  | .zr => pure (.next (s.updThread t.ref (fun t => { t with wg := 0 })))
  | _ => do
    need (holdOn t.holds (fld a 21 0)).isSome .protection
    pure (.next (s.updThread t.ref (fun t => { t with wg := wgWord (fld a 21 0) })))
/-- `gbind` (R128). -/
def execGbind (f : EForm) (s : State) : Out := issue true f.toHead f.nro (gbindBody f) s

/-- The body of `gstat` (R131). -/
def gstatBody (f : EForm) (s : State) (t : Thread) : Ev Done := do
  let a ← srcW s t f.A
  let g ← guardIdx s t a
  guardRouter s t
  let (tag, s) ← takeTag s t 6
  let (id, s) := s.fresh
  let r := guardReq t g id .stat none (some tag) false false
  let s := s.updThread t.ref (fun t => t.setPend f.D tag)
  pure (.next (sendGuard s t id a 0 f.d.toNat r [tag] (.guardRequestAtHome r)))
/-- `gstat` (R131). -/
def execGstat (f : EForm) (s : State) : Out := issue true f.toHead f.nro (gstatBody f) s

/-- The reference by which a request's entry stands in lists. -/
def reqRef (r : GuardReq) : TRef :=
  match r.who with
  | .thread t | .engine t _ => t
  | _ => ⟨r.ctx, r.agent, 0⟩
/-- Whether a request comes from a thread, which is told of a refusal. -/
def ofThread (r : GuardReq) : Bool :=
  match r.who with
  | .thread _ => true
  | _ => false

/-- Whether a guard's home grants an acquire now (R126, R290). -/
def grantable (s : State) (r : GuardReq) (excl : Bool) : Bool :=
  let g := (s.ctxD r.ctx).guard r.idx
  let l := s.waiters.filter (fun w => w.on r.ctx (.guard r.idx))
  let mine (w : Waiter) : Bool := w.agent == r.agent
  let older := l.takeWhile (fun w => !mine w)
  let reserved := l.any (fun w => mine w && w.reserved.isSome)
  if excl then g.isFree && (reserved || !l.any (fun w => w.reserved.isSome && !mine w))
  else !g.excl && (reserved || older.isEmpty)

/-- A guard set, and what it can now grant offered (R290). -/
def State.putGuard (s : State) (ctx idx : Nat) (g : Guard) : State :=
  (s.updCtx ctx (fun c => c.setGuard idx g)).reoffer ctx (.guard idx)
/-- A guard after the release of a hold (R127). -/
def Guard.released (g : Guard) : Guard :=
  if g.excl then ⟨false, 0, (g.count + 1) % 2 ^ 32, 0⟩ else { g with sharers := g.sharers - 1 }
/-- A guard's release performed at its home (R127, R265). -/
def State.releaseGuard (s : State) (ctx idx : Nat) : State :=
  let g := (s.ctxD ctx).guard idx
  (if g.excl then s.advanced ctx true idx else s).putGuard ctx idx g.released

/-- A hold entered in a thread's table, with what an acquire does there (R126, R241, R263). -/
def State.enterHold (s : State) (r : TRef) (h : Hold) (bind : Bool) : State :=
  (s.updThread r (fun t => nudgeT { t with holds := t.holds ++ [h], wg := if bind then wgWord h.guard else t.wg })).dropStale
    (s.homeOf r)

/-- Whether a target's hold table has an entry for a handover: what its core's own handovers keep counts (R125, R130). -/
def handRoom (s : State) (r : GuardReq) (x : Thread) : Bool :=
  decide (holdsTaken s x < 8) || (r.agent / 16 == TRef.cc x.ref && decide (x.holds.length + x.acquiring.length < 8))

/-- A handover at the guard's home (R130, R241, R240): to an engine of the sender's core, or to a thread whose table has
room, which one of the target's core has kept; held updates are applied as it takes effect (R121); a target that is no
running thread, or outside the guard's instance, takes the protection fault. -/
def handAtHome (s : State) (r : GuardReq) (t : TRef) (target : Nat) : State :=
  let g := (s.ctxD r.ctx).guard r.idx
  let h : Hold := ⟨r.idx, true, (g.count + 1) % 2 ^ 32⟩
  let give (s : State) : State :=
    (((s.closeHeld r.ctx true r.idx).updThread t (dropHold r.idx)).advanced r.ctx true r.idx).updCtx r.ctx (fun c =>
      c.setGuard r.idx { g with holder := target, count := h.count })
  let done (s : State) (ok : Bool) : State := s.post [.guardReply ⟨r, ok, 0, 0⟩]
  match engineOf (TRef.cc t) target with
  | some e => done (((give s).updThread t (fun x => { x with handed := x.handed ++ [(e, h)] })).offer r.ctx (.handSlot r.idx r.agent)) true
  | none =>
    match (if (s.ctxD r.ctx).inScope r.idx (target / 16) then s.agent? r.ctx target else none) with
    | none => s.post [.faultReply t r.acc 0 ⟨.protection, 0, 0, 0, false⟩]
    | some x =>
      if handRoom s r x && !s.mustRefuse r.ctx r.agent r.n
      then done (((give s).enterHold x.ref h false).offer r.ctx (.handSlot r.idx r.agent)) true
      else done s false

/-- A guard operation at the guard's home (R126, R127, R130, R131, R121). An exclusive release of a binding with held updates
sends the close first, for nothing can be granted before it; the last shared release applies them itself; one that would
pass the cap of R265 is kept. -/
def guardAtHome (s : State) (r : GuardReq) : State :=
  let g := (s.ctxD r.ctx).guard r.idx
  let closing := s.heldOf r.ctx true r.idx
  match r.op with
  | .acquire excl _ =>
    if grantable s r excl && !s.mustRefuse r.ctx r.agent r.n then
      let g' := if excl then { g with excl := true, holder := r.agent } else { g with sharers := g.sharers + 1 }
      let s := (s.endEntry r.ctx r.agent (.guard r.idx)).putGuard r.ctx r.idx g'
      (s.served r.ctx (.guard r.idx) r.agent (BitVec.ofNat 64 g.count)).post [.guardReply ⟨r, true, g.count, 0⟩]
    else
      let s := if r.parks || r.tickets || !(ofThread r) then
          s.enter (reqRef r) (.guard r.idx) (r.parks || !(ofThread r)) (!excl) 0 (if ofThread r then none else some r)
        else s
      if ofThread r then s.post [.guardReply ⟨r, false, 0, 0⟩] else s
  | .release =>
    if g.excl && closing then s.post [.fredClose r.ctx true r.idx, .guardRequestAtHome r]
    else if g.excl && !s.capOk r.ctx true r.idx then { s with capped := s.capped ++ [.guardRequestAtHome r] }
    else ((if g.sharers ≤ 1 then s.closeHeld r.ctx true r.idx else s).releaseGuard r.ctx r.idx).post [.guardReply ⟨r, true, 0, 0⟩]
  | .handTo target =>
    if !s.capOk r.ctx true r.idx then { s with capped := s.capped ++ [.guardRequestAtHome r] }
    else match r.who with
      | .thread t => handAtHome s r t target
      | _ => s
  | .stat =>
    let held := match s.agent? r.ctx r.agent with
      | some t => (holdOn t.holds r.idx).isSome
      | none => false
    let w := setFld (setFld ((s.ctxD r.ctx).guardWord r.idx) 57 52 (Nat.min g.sharers 63)) 58 58 held.toNat
    s.post [.guardReply ⟨r, true, 0, w⟩]
/-- `GUARD_REQUEST_AT_HOME` (R126). -/
def execGuardRequestAtHome (r : GuardReq) (s : State) : Out := ev (guardAtHome s r)

/-- The word that fills an outcome predicate (R23). -/
def predWord (ok : Bool) (code : Nat) : BitVec 1024 := if ok then 1 else BitVec.ofNat 1024 (code * 256)

/-- An outcome predicate and the value beside it delivered; a failure is logged (R23, R377). -/
def fillPred (s : State) (r : TRef) (n : Nat) (pred dest : Option Tag) (ok : Bool) (code : Nat) (v : BitVec 1024) : State :=
  let give (s : State) (tag : Tag) (v : BitVec 1024) : State :=
    if landsIn s r then s.post [.taggedDelivery ⟨r, tag, .val v, none⟩] else deliverTag s r tag (.val v)
  let s := match pred with
    | some k => give (if ok then s else s.refusal r.ctx r.agent n code) k (predWord ok code)
    | none => s
  match dest with
  | some d => give s d v
  | none => s

/-- The log of a grant that is undone as it was before (R377). -/
def unserved (k : RevKey) (agent : Nat) (c : Ctx) : Ctx :=
  { c with log := if c.replay = 1 then (c.log.reverse.eraseP (fun e => e.key == k && e.agent == agent)).reverse
                  else if c.replay = 2 then unuseEntry k c.log else c.log }
/-- A grant whose acquirer no longer waits for it undone at its home (R292, R300): `gacq` has not issued, so the guard's
COUNT stays (DEDUCED, log entry 31). -/
def State.ungrant (s : State) (r : GuardReq) (excl : Bool) : State :=
  let g := (s.ctxD r.ctx).guard r.idx
  let g' : Guard := if excl then { g with excl := false, holder := 0 } else { g with sharers := g.sharers - 1 }
  (s.updCtx r.ctx (unserved (.guard r.idx) r.agent)).putGuard r.ctx r.idx g'

/-- A guard home's reply at a thread (R126, R127, R130, R131, R241). A grant to a thread that is no longer in its reply
wait is undone (R300). -/
def guardReplyThread (s : State) (t : Thread) (rep : GuardRep) : State :=
  let r := rep.req
  let p := t.pend.find? (fun p => p.id == r.acc)
  let s := s.updThread t.ref (fun t => nudgeT { t with pend := t.pend.filter (fun p => p.id != r.acc) })
  match r.op with
  | .acquire excl bind =>
    let h : Hold := ⟨r.idx, excl, rep.count⟩
    let cnt : Word := BitVec.ofNat 64 rep.count
    match p.bind (·.req) with
    | some (.gacq f) =>
      let s := s.updThread t.ref (fun t => { t with run := .ready })
      if rep.granted then finish s true f.toHead f.nro t.ref (.next (writeW (s.enterHold t.ref h bind) t.ref f.D cnt))
      else match s.thread? t.ref with
        | none => s
        | some t =>
          let s := s.outcome t f.wd f.nro .hold (.guard r.idx) 0
          if s.waiters.any (fun w => w.on r.ctx (.guard r.idx) && w.t == t.ref && w.parked && w.reserved.isSome)
          then s.updThread t.ref (fun t => { t with run := .ready }) else s
    | none =>
      if rep.granted then s.ungrant r excl else s
    | _ =>
      let s := if rep.granted then s.enterHold t.ref h bind else s
      fillPred s t.ref r.n r.pred r.dest rep.granted 7 (if rep.granted then cnt.setWidth 1024 else 0)
  | .release => s
  | .handTo _ => fillPred s t.ref r.n r.pred none rep.granted 5 0
  | .stat =>
    let (w, s) := s.timingAt t.ref r.n rep.word
    fillPred s t.ref r.n none r.dest true 0 (w.setWidth 1024)

/-- `FRED_CLOSE` (R116, R121): the units apply a binding's held updates and acknowledge. -/
def execFredClose (ctx : Nat) (guarded : Bool) (bd : Nat) (s : State) : Out := ev (s.closeHeld ctx guarded bd)

/-- An entry's reservation ended unused: the unit passes to the next entry; the entry's ticket is dead when its 512
cycles are over too (R289, R290). -/
def endReservation (s : State) (id : Nat) : State :=
  match s.waiters.find? (fun w => w.id == id) with
  | none => s
  | some w =>
    let s' := (s.without (fun x => x.id == id)).reoffer w.ctx w.obj
    if w.parked || decide (s.cycle ≤ w.last + 512) then
      { s' with waiters := s.waiters.map (fun x =>
          if x.id == id then { x with reserved := none } else (s'.waiters.find? (fun y => y.id == x.id)).getD x) }
    else s'
/-- `RESERVATION_EXPIRY` (R290). -/
def execReservationExpiry (id : Nat) (s : State) : Out := ev (endReservation s id)
/-- `TICKET_EXPIRY` (R289): the ticket dies; a unit reserved for it is offered on. -/
def execTicketExpiry (id : Nat) (s : State) : Out :=
  match s.waiters.find? (fun w => w.id == id) with
  | none => ev s
  | some w => ev ((s.without (fun x => x.id == id)).reoffer w.ctx w.obj)

/-- `CLOCK_CAP_RELEASE` (R265): an operation kept by the cap goes on; past the last one kept, the threads whose `grel`
waits for the cap look again. -/
def execClockCapRelease (idx : Nat) (s : State) : Out :=
  match s.capped[idx]? with
  | some i => ev ({ s with capped := s.capped.eraseIdx idx }.post [i])
  | none => ev { s with threads := s.threads.map nudgeT }

end Sys2Proof.Machine
end

