-- ==== Sys2Proof/Machine/Objects.lean ====
section
/-! DEFINITION. Shared objects: what the device itself reads and writes, wakes, counters, messages and how a thread
starts, deposits (spec 01 R17, R18, R28, R30, 09 R203-R205, R213-R215, 12 R275, R295). -/
namespace Sys2Proof.Machine
open Sys2Proof

/-- A word that the device itself reads in a context's space, unchecked, at an address of the context's one numbering (R251);
none where nothing is mapped (log entry 27). -/
def State.devWord? (s : State) (ctx va : Nat) : Option Word :=
  match spotOf s ctx 0 va false false with
  | .ok (.at_ k key) => some (BitVec.ofNat 64 (s.load k 8 key))
  | _ => none
/-- The same, 0 where nothing is mapped. -/
def State.devWord (s : State) (ctx va : Nat) : Word := (s.devWord? ctx va).getD 0
/-- A word that the device itself writes in a context's space, unchecked: the line's metadata stay (log entry 27). -/
def State.devPut (s : State) (ctx va : Nat) (w : Word) : State :=
  match spotOf s ctx 0 va true false with
  | .ok (.at_ k key) => { s.store k 8 key w.toNat with copies := s.copies.filter (fun c => c.line != lineOf k) }
  | _ => s

/-- STAT or TRG of a record written, with the threads that wait on it made ready (R219, R275). -/
def State.putField (s : State) (ctx rec off : Nat) (w : Word) : State :=
  (s.devPut ctx (rec + off) w).wakeOn ctx (fun o => o == .dep rec)

/-- A counter of a core set. -/
def Core.setCounter (c : Core) (n : Nat) (x : Counter) : Core := { c with counters := c.counters.set (Fin.ofNat 64 n) x }
/-- A counter of a core. -/
def Core.counter (c : Core) (n : Nat) : Counter := c.counters.get (Fin.ofNat 64 n)

/-- The entries of a counter's list that its value satisfies, in park order (R213, R214): one whose target is not met keeps
none behind it from its own test. -/
def servable : Nat → List Waiter → List Waiter
  | _, [] => []
  | v, w :: l =>
    if w.reserved.isSome then servable (v - w.amount) l
    else if w.amount ≤ v then w :: servable (v - w.amount) l else servable v l
/-- A counter's value offered to the threads parked on it, in park order (R214). -/
def State.serveCounter (s : State) (ctx mc n : Nat) : State :=
  let v := ((s.core mc).counter n).val.toNat
  (servable v (s.waiters.filter (fun w => w.on ctx (.counter mc n)))).foldl State.reserve s

/-- An increment of a counter (R213): saturating; the parked threads re-test. -/
def State.increment (s : State) (ctx mc n : Nat) : State :=
  let c := s.core mc
  let x := c.counter n
  let v := if x.val = 0xFFFFFFFF then x.val else x.val + 1
  (s.setCore (c.setCounter n { x with val := v })).serveCounter ctx mc n

/-- A stretch of an image: offset, bytes, value. -/
abbrev Area := Nat × Nat × Nat

/-- Bits of a Pip's control word (R223). -/
def pipCtl (p : Pip) : Nat :=
  let states (l : List PipReg) : Nat := packBits 2 (l.map (fun r => r.st.toNat))
  states p.g + states p.k * 2 ^ 32 + fld p.resume 47 3 * 2 ^ 46 + p.lact.toNat * 2 ^ 91 + p.lsel.toNat * 2 ^ 92
    + p.lc.toNat * 2 ^ 93 + p.lso.toNat * 2 ^ 125 + p.leo.toNat * 2 ^ 141
/-- The 176 bytes of a Pip (R223); a POIS `k` register holds bits [63:48] of its poison word (R19). -/
def pipBytes (p : Pip) : Nat :=
  packBits 64 (p.g.map (fun r => if r.st = 1 then 0 else r.val.toNat))
    + packBits 32 (p.k.map (fun r => if r.st = 1 then 0 else if r.st = 3 then fld r.val 63 48 else r.val.toNat % 2 ^ 32)) * 2 ^ 1024
    + pipCtl p * 2 ^ 1248

/-- Words of an entry of the pending log (R295): a Pip's are its 176 bytes (R223). -/
def logWords (i : Instr) : List Nat :=
  match i with
  | .messageArrival m => [1 + m.reply.toNat * 2 ^ 8 + m.payload.length * 2 ^ 16, m.entry.toNat] ++ m.payload.map (·.toNat)
  | .counterIncrement _ _ n => [2 + n * 2 ^ 16]
  | .barrierArrivalAtAgent _ l lv p x => [3 + lv * 2 ^ 8 + x.toNat * 2 ^ 15 + l * 2 ^ 16] ++ p
  | .untaggedDeposit d => [4 + Opd.code d.reg * 2 ^ 8 + d.agent * 2 ^ 16, d.val.toNat]
  | .pipArrival p => (5 + 22 * 2 ^ 16) :: (List.range 22).map (fun i => pipBytes p / 2 ^ (64 * i) % 2 ^ 64)
  | _ => []
/-- Bytes that a pending log has room for: its area less the latches and the count. -/
def logRoom : Nat := 0xC00 - 0xC8
/-- Whether a pending log has room for an entry (R295). -/
def Image.logs (im : Image) (i : Instr) : Bool :=
  decide (((im.log ++ [i]).map (fun i => 8 * (logWords i).length)).foldl (· + ·) 0 ≤ logRoom)
/-- The pending log's area: a count of bytes, and the entries. -/
def logArea (l : List Instr) : List Area :=
  let ws := (l.map logWords).flatten
  (0x14C0, 8, 8 * ws.length) :: ws.zipIdx.map (fun w => (0x14C8 + 8 * w.2, 8, w.1))

/-- Where a context core's work is kept in its image when it is evicted and complete: at the end of the pending log (R295). -/
def State.logged (s : State) (ctx cc : Nat) (i : Instr) : Option State :=
  match s.image? ctx cc with
  | some im =>
    let s := s.updImage ctx cc (fun im => { im with log := im.log ++ [i] })
    some { s with mem := (logArea (im.log ++ [i])).foldl (fun m a => Memory.writeN m a.2.1 (im.base + a.1) a.2.2) s.mem }
  | none => none

/-- `COUNTER_INCREMENT` (R213, R295): `core` is a context core. -/
def execCounterIncrement (ctx core n : Nat) (s : State) : Out :=
  match s.logged ctx core (.counterIncrement ctx core n) with
  | some s => ev s
  | none => ev (s.increment ctx (s.mcOf ctx core) n)

/-- A thread as R30 starts it, before its payload: every register FULL with zero. -/
def newThread (s : State) (ref : TRef) (fam : Family) (pc : Word) (marks : List Nat) : Thread where
  ref := ref
  fam := fam
  g := Vector.replicate 16 (.full 0)
  v := Vector.replicate 32 (.full 0)
  k := Vector.replicate 8 (.full 0)
  pc := pc
  ts := 0
  wg := 0
  trp := 0
  lc := Vector.replicate 2 0
  ls := Vector.replicate 2 0
  le := Vector.replicate 2 0
  ras := []
  holds := []
  handed := []
  arrived := []
  marks := marks
  wakeRight := none
  run := .ready
  pend := []
  cmdFaults := []
  trapped := .none
  seqs := []
  acq := none
  reserved := none
  cguard := none
  fetched := false
  nextIssue := s.cycle
  entryId := 0
  yielded := []
  skipCmp := false
  bySeq := false
  icount := 0
  prods := []

/-- A thread with payload words in `g0` onward (R30, R204). -/
def withPayload (t : Thread) (ws : List Word) : Thread :=
  ws.zipIdx.foldl (fun t p => t.setG (Fin.ofNat 16 p.2) (.full p.1)) t

/-- The seen-phase marks of a thread that starts in a family now (R238): of each level of its launch. -/
def startMarks (s : State) (fam : Family) : List Nat :=
  match fam.launch.bind s.launch? with
  | some l => l.ext.map (fun _ => l.comps.length)
  | none => []

/-- Thread contexts of a context's mask on a module core that nobody occupies (R273). -/
def freeTids (s : State) (ctx cc : Nat) : List Nat :=
  match (s.core (s.mcOf ctx cc)).resident? ctx with
  | none => []
  | some r => (List.range 16).filter (fun i => bit r.mask i && (s.agent? ctx (cc * 16 + i)).isNone)

/-- A thread put into the machine (R30, R204, R263, R376): every copy not PUBLISHED is invalidated at its core. -/
def State.enrol (s : State) (t : Thread) : State :=
  let s : State := { s with threads := s.threads ++ [t] }
  (s.dropStale (s.homeOf t.ref)).trace t 2 0 t.pc

/-- Number under which the starts of a launch's threads are logged, each under one of its own, and of its root thread under that
of `linear` 0 (R377): from the launch record's address. -/
def launchOrigin (record linear : Nat) : Nat := 4 * (record * 2 ^ 32 + linear) + 3
/-- Number under which the placements of the threads that a message's origin starts are logged (R377): of the thread that sends it,
moves or has issued its `drnm`; of its counter; of its launch. -/
def originOf (m : Msg) : Nat :=
  match m.origin with
  | .send _ | .pip _ => 4 * m.fam.self
  | .row _ _ => 4 * m.fam.self + 1
  | .counter n => 4 * (m.core * 64 + n) + 2
  | .subLaunch => launchOrigin m.fam.lrp.toNat (m.fam.linear + 1)
/-- Key of a message's start in the replay log. -/
def startKey (m : Msg) : RevKey := .start (originOf m) m.core m.reply
/-- Whether a log entry is of a thread's start in an agent's thread context. -/
def RevEntry.startsAt (agent : Nat) (e : RevEntry) : Bool :=
  match e.key with
  | .start _ _ _ => e.val.toNat == agent
  | _ => false
/-- The part of the log before the entry that a start makes (RECORD) or uses (REPLAY): all of it where REPLAY has none. -/
def Ctx.logBefore (c : Ctx) (k : RevKey) : List RevEntry :=
  match c.replay with
  | 0 => []
  | 1 => c.log
  | _ => c.log.take ((c.log.findIdx? (fun e => e.key == k && !e.used)).getD c.log.length)
/-- Whether REPLAY lets a start happen now in an agent's thread context: after those that the log has there before it, so that an
agent names the same thread in both runs (R377; DEDUCED, log entry 54). -/
def startTurn (s : State) (ctx : Nat) (k : RevKey) (agent : Nat) : Bool :=
  (s.replayNext ctx k).isNone || ((s.ctxD ctx).logBefore k).all (fun e => e.used || !e.startsAt agent)
/-- The thread context that a start may have now (R204, R377): the logged one, or a free one by the draw; none while the log has no
room for it. -/
def startTid (s : State) (ctx cc : Nat) (k : RevKey) : Option Nat :=
  let free := if (s.ctxD ctx).logFull then [] else freeTids s ctx cc
  match s.replayNext ctx k with
  | some e =>
    let i := e.val.toNat % 16
    if free.contains i && startTurn s ctx k e.val.toNat then some i else none
  | none => free[s.oracle.seed % free.length]?
/-- A thread starts (R30), and the agent is logged under the key of its start, whose order R204 and R282 fix; a replay that has no
entry for it meets a mismatch (R377, R378). Its instructions are counted from 2^64 times the number of threads logged in its
thread context before it, so that no two share a key of the log. -/
def State.start (s : State) (k : RevKey) (t : Thread) : State :=
  let r := t.ref
  let s := if (s.replayNext r.ctx k).isNone then s.notLogged r else s
  let n := (((s.ctxD r.ctx).logBefore k).filter (RevEntry.startsAt r.agent)).length
  let s := s.served r.ctx k r.agent (BitVec.ofNat 64 r.agent)
  s.enrol { t with icount := n * 2 ^ 64, fam := { t.fam with self := n * 2 ^ 24 + r.agent } }

/-- A register from a Pip. -/
def slotOfPip (w : Nat) (r : PipReg) : Slot w :=
  match r.st.toNat with
  | 0 => .full (r.val.setWidth w)
  | 3 => .pois r.val
  | _ => .empty

/-- The thread that a Pip makes (R222): its registers and states, the active loop, the rest as a new thread's. -/
def pipThread (s : State) (p : Pip) (ref : TRef) : Thread :=
  let t := newThread s ref p.fam p.resume (startMarks s p.fam)
  let t := p.g.zipIdx.foldl (fun t x => t.setG (Fin.ofNat 16 x.2) (slotOfPip 64 x.1)) t
  let t := p.k.zipIdx.foldl (fun t x => t.setK (Fin.ofNat 8 (x.2 + 1)) (slotOfPip 32 x.1)) t
  let t := { t with wakeRight := p.right, bySeq := true }
  if p.lact then
    let j : Fin 2 := if p.lsel then 1 else 0
    let at_ (o : BitVec 16) : Word := p.resume + (o.signExtend 64 <<< 3)
    { t with lc := t.lc.set j p.lc, ls := t.ls.set j (loopAddr (at_ p.lso)), le := t.le.set j (loopAddr (at_ p.leo)) }.setLa j true
  else t

/-- What a launch's thread finds in its registers (R30, R278): `g0`, `g14`, `g15`. -/
def launchRegs (l : Launch) (lin : Nat) (t : Thread) : Thread :=
  ((t.setG 0 (.full l.arg)).setG 14 (.full l.link)).setG 15 (.full (l.stk + BitVec.ofNat 64 (lin + 1) * l.stkSize))

/-- The thread context that a message starts in (R204, R278, R377): a launch's thread in its own. -/
def msgTid (s : State) (m : Msg) : Option Nat :=
  match m.origin with
  | .subLaunch =>
    ((m.fam.launch.bind s.launch?).bind (fun l => l.placed.find? (fun p => p.1 == m.fam.path))).bind
      (fun p => if !(s.ctxD m.ctx).logFull && (freeTids s m.ctx m.core).contains p.2.2
          && startTurn s m.ctx (startKey m) (m.core * 16 + p.2.2) then some p.2.2 else none)
  | _ => startTid s m.ctx m.core (startKey m)

/-- The thread that a message starts (R204): a Pip's own (R222), or a new one with the payload; one of a sub-launch has its
launch's registers besides (R220, R278). -/
def msgThread (s : State) (m : Msg) (ref : TRef) : Thread :=
  match m.origin with
  | .pip p => pipThread s p ref
  | .subLaunch =>
    let t := newThread s ref m.fam m.entry (startMarks s m.fam)
    (match m.fam.launch.bind s.launch? with
      | some l => launchRegs l m.fam.linear t
      | none => t)
  | _ => withPayload (newThread s ref m.fam m.entry (startMarks s m.fam)) m.payload

/-- A message starts its thread in a thread context (R204). -/
def startMsg (s : State) (m : Msg) (tid : Nat) : State :=
  let (gen, s) := s.fresh
  s.start (startKey m) (msgThread s m ⟨m.ctx, m.core * 16 + tid, gen⟩)

/-- Room in the inbound buffer for a message of a channel: 16 entries, 4 kept for replies (R204). -/
def inboxRoom (c : Core) (reply : Bool) : Bool :=
  decide (c.inbox.length < 16) && (reply || decide ((c.inbox.filter (fun m => !m.reply)).length < 12))

/-- Whether a message of the same channel and target waits before a new one (R204). None passes another there, whoever sent it:
the spec gives the order of one sender only (DESIGN CHOICE, log entry 59). -/
def behindOthers (c : Core) (m : Msg) : Bool := c.inbox.any (fun x => x.reply == m.reply && x.ctx == m.ctx)

/-- A message as the pending log keeps it: one that brings a Pip as that Pip (R295). -/
def asLogged (m : Msg) : Instr :=
  match m.origin with
  | .pip p => .pipArrival p
  | _ => .messageArrival m

/-- An active message at its target (R204, R295): logged in an image; started; or kept in the inbound buffer; with
no room the network holds it. -/
def msgArrive (s : State) (m : Msg) : State :=
  match s.logged m.ctx m.core (asLogged m) with
  | some s => s
  | none =>
    let mc := s.mcOf m.ctx m.core
    let c := s.core mc
    match (if behindOthers c m then none else msgTid s m) with
    | some tid => startMsg s m tid
    | none =>
      if inboxRoom c m.reply then s.setCore { c with inbox := c.inbox ++ [m] } else s.post [.messageArrival m]
/-- `MESSAGE_ARRIVAL` (R204). -/
def execMessageArrival (m : Msg) (s : State) : Out := ev (msgArrive s m)

/-- `MESSAGE_START_FROM_BUFFER` (R204): the idx-th message of a core's inbound buffer starts when it can. -/
def execMessageStartFromBuffer (core idx : Nat) (s : State) : Out :=
  let c := s.core core
  match c.inbox[idx]? with
  | none => ev s
  | some m =>
    match msgTid s m with
    | none => ev s
    | some tid => ev (startMsg (s.setCore { c with inbox := c.inbox.eraseIdx idx }) m tid)

/-- `COUNTER_FIRE` (R215): an armed counter at its target is reduced and disarmed, and its message starts a thread
on its core; it comes on the request channel (DESIGN CHOICE, log entry 62). -/
def execCounterFire (core n : Nat) (s : State) : Out :=
  let c := s.core core
  let x := c.counter n
  match x.arm with
  | none => ev s
  | some a =>
    if x.val.toNat < a.target.toNat then ev s
    else
      let s := s.setCore (c.setCounter n { x with val := x.val - a.target, arm := none })
      match x.owner.bind (fun ctx => ((s.ctxD ctx).ccOf core).map (fun cc => (ctx, cc))) with
      | none => ev s
      | some (ctx, cc) =>
        ev (msgArrive s ⟨ctx, cc, a.entry, [BitVec.ofNat 64 n, a.target.setWidth 64], false, a.fam, .counter n⟩)

/-- What a thread passes to one that its message starts (R204): its path and launch, no member's duties. -/
def heirFamily (fam : Family) : Family := { fam with inherited := fam.lpd, counts := false }

/-- A deposit's predicate filled (R205). -/
def depositDone (s : State) (d : Deposit) (ok : Bool) : State :=
  match d.pred with
  | none => s
  | some (t, tag) => s.post [.taggedDelivery ⟨t, tag, .val (predWord ok 5), none⟩]

/-- A deposit landed in an EMPTY register (R17, R237, R263): an acquire. -/
def landDeposit (s : State) (t : Thread) (d : Deposit) : State :=
  let s := s.updThread t.ref (fun t => wakeReg ((t.setFull d.reg (d.val.setWidth 1024)).producer d.reg 0) d.reg)
  let s := s.served d.ctx (.reg d.agent (Opd.code d.reg)) d.src 0
  depositDone (s.dropStale (s.homeOf t.ref)) d true

/-- `UNTAGGED_DEPOSIT` (R17, R18, R205, R295): logged in an image; discarded when its thread context is not running;
landed; or put at the back of the core's deposit latch; a full latch's router refuses it, and the network holds it. -/
def execUntaggedDeposit (d : Deposit) (s : State) : Out :=
  let cc := d.agent / 16
  match s.logged d.ctx cc (.untaggedDeposit d) with
  | some s => ev s
  | none =>
    match s.agent? d.ctx d.agent with
    | none => ev (depositDone s d false)
    | some t =>
      let c := s.core (s.homeOf t.ref)
      let before := c.depLatch.any (fun x => x.ctx == d.ctx && x.agent == d.agent && x.reg == d.reg)
      if isEmpty t d.reg && !before then ev (landDeposit s t d)
      else if c.depLatch.length < 8 then ev (s.setCore { c with depLatch := c.depLatch ++ [d] })
      else ev (s.post [.untaggedDeposit d])

/-- The oldest deposit-latch entry of a core that can land. -/
def latchReady (s : State) (c : Core) : Option (Nat × Deposit × Thread) :=
  (c.depLatch.zipIdx.filterMap (fun p =>
    (s.agent? p.1.ctx p.1.agent).bind (fun t => if isEmpty t p.1.reg then some (p.2, p.1, t) else none))).head?

/-- `DEPOSIT_LATCH_LAND` (R18). -/
def execDepositLatchLand (core : Nat) (s : State) : Out :=
  let c := s.core core
  match latchReady s c with
  | none => ev s
  | some (i, d, t) => ev (landDeposit (s.setCore { c with depLatch := c.depLatch.eraseIdx i }) t d)

/-- Entries of an outbound message buffer (R28). -/
def outboxCap : Nat := 8
/-- Whether a core's outbound buffer has an entry for a thread: one it has reserved counts as its own (R201). -/
def outboxRoom (s : State) (t : Thread) : Bool :=
  let mc := s.homeOf t.ref
  t.reserved == some 0 || decide ((s.core mc).outbox.length
    + (s.threads.filter (fun x => x.reserved == some 0 && s.homeOf x.ref == mc)).length < outboxCap)

/-- The course of an instruction that sends to a context core through the outbound buffer (R201): FULL is decided at issue,
and RETRY where a router refuses, the core's own or that of a target that stops for its image (R294); then the entry is
reserved and the fence wait begins; `send` puts the message in. -/
def viaOutbox (s : State) (t : Thread) (dst : Nat) (send : State → Ev Done) : Ev Done := do
  let mc := s.homeOf t.ref
  if !outboxRoom s t then .error (.notReady .full (.outbound mc))
  if (s.core mc).refusing then .error (.notReady .retry (.router mc))
  if evicting s t.ref.ctx dst then .error (.notReady .retry (.router (s.mcOf t.ref.ctx dst)))
  match fenceGate s t with
  | .ok _ => send (s.updThread t.ref (fun t => { t with reserved := none }))
  | .error _ => pure (.settled (s.updThread t.ref (fun t => { t with reserved := some 0, run := .waiting .fence })))

/-- A message put into the outbound buffer of a thread's core. -/
def State.outboxPut (s : State) (r : TRef) (i : Instr) : State :=
  s.updCore (s.homeOf r) (fun c => { c with outbox := c.outbox ++ [i] })

/-- The root thread whose `wake` of a launch has left the core goes on: the one of the queue's root launches that waits there for no
reply but that; the queue's next launch may start (R221, R282). -/
def wakeLeft (s : State) (core ctx uid : Nat) : State :=
  match s.launch? uid with
  | none => s
  | some l =>
    let s := s.updCtx ctx (fun c => { c with queues := c.queues.map (fun q =>
      if some q.id == l.queue then { q with starting := none } else q) })
    let root (t : Thread) : Bool := t.ref.ctx == ctx && t.run == .waiting .reply && t.pend.isEmpty && t.wakeRight.isNone
      && s.homeOf t.ref == core && t.fam.counts && l.queue.isSome
      && (t.fam.launch.bind s.launch?).any (fun x => x.root && x.queue == l.queue)
    match s.threads.find? root with
    | some t => s.updThread t.ref (fun t => counted ({ t with run := .ready }.okNext true))
    | none => s

/-- `MESSAGE_LEFT_CORE` (R203, R221): the oldest message of a core's outbound buffer leaves; the threads parked on
the buffer are made ready, and a `wake` completes. -/
def execMessageLeftCore (core : Nat) (s : State) : Out :=
  let c := s.core core
  match c.outbox with
  | [] => ev s
  | i :: l =>
    let s := s.setCore { c with outbox := l }
    let s : State := { s with threads := s.threads.map (fun t =>
      match t.run with
      | .parked (.outbound x) _ => if x == core then { t with run := .ready } else t
      | _ => t) }
    let s := match i with
      | .wakeForward ctx uid _ _ => wakeLeft s core ctx uid
      | _ => s
    ev (s.post [i])

/-- An event record of a kind of trace without a thread of its own (R376). -/
def State.traceAt (s : State) (ctx die agent slot linear kind hi : Nat) (pc : Word) : State :=
  if bit (s.ctxD ctx).trace.toNat (kind - 1) then
    s.collect 2 die agent
      [BitVec.ofNat 64 s.now, BitVec.ofNat 64 (ctx * 2 ^ 48 + slot * 2 ^ 42 + kind * 2 ^ 32 + linear % 2 ^ 32),
       BitVec.ofNat 64 (hi % 2 ^ 32 * 2 ^ 32 + agent), pc &&& 0xFFFFFFFFFFFF] none
  else s

end Sys2Proof.Machine
end

