-- ==== Sys2Proof/Machine/Launches.lean ====
section
/-! DEFINITION. Launch records, placement, starting and completing launches, barriers, dependences, `lnch` and
`wake`, and the end of a thread (spec 04 R89, 09 R211, R212, R219-R221, 10 R238, 12 R274-R284). -/
namespace Sys2Proof.Machine
open Sys2Proof

/-- The words of a launch record (R274), read by the device; a fault where it is not mapped. -/
def readRecord (s : State) (ctx cc va : Nat) : Except FaultInfo (List Word) :=
  match spotOf s ctx cc va false false with
  | .error f => .error f
  | .ok (.remote x) => .error ⟨.protection, BitVec.ofNat 64 va, x.leaf, 0, false⟩
  | .ok (.at_ k key) => .ok ((List.range 32).map (fun i => BitVec.ofNat 64 (s.load (k + 8 * i) 8 key)))

/-- A field of a record by its offset (R274). -/
def recAt (r : List Word) (off : Nat) : Word := r.getD (off / 8) 0
/-- NLEV of a record. -/
def recLevels (r : List Word) : Nat := fld (recAt r 0x40) 10 8 + 1
/-- Level descriptors in use (R277). -/
def recLvl (r : List Word) : List Word := (List.range (recLevels r)).map (fun i => recAt r (0x90 + 8 * i))
/-- Extents. -/
def recExt (r : List Word) : List Nat := (recLvl r).map (fun w => fld w 15 0)
/-- Domains. -/
def recDom (r : List Word) : List Nat := (recLvl r).map (fun w => fld w 18 16)

/-- Whether a list never falls. -/
def ascending : List Nat → Bool
  | x :: y :: l => decide (x ≤ y) && ascending (y :: l)
  | _ => true

/-- The rules of R277. -/
def levelsOk (r : List Word) : Bool :=
  let ext := recExt r
  let dom := recDom r
  (recLvl r).all (fun w => fld w 63 19 == 0) && ext.all (fun e => e != 0) && dom.all (fun d => d ≤ 5)
    && ascending dom && dom.getLastD 0 == 5 && dom.dropLast.all (fun d => d != 5)
    && (ext.zip dom).all (fun p => p.2 != 0 || p.1 == 1)
    && decide (instancesBefore ext ext.length ≤ 65536)

/-- The fields of R274 and R275 that make a record malformed (state 8). -/
def recordOk (r : List Word) : Bool :=
  let w := recAt r
  let ctl := w 0x40
  let al (off n : Nat) : Bool := (w off).toNat % n == 0
  fld ctl 15 12 == 0 && fld ctl 31 16 == 0 && fld ctl 63 48 == 0 && fld (w 0x30) 63 32 == 0
    && [0xE8, 0xF0, 0xF8].all (fun o => w o == 0)
    && (List.range 8).all (fun i => fld (w (0x50 + 8 * i)) 63 48 == 0 && fld (w (0x50 + 8 * i)) 6 3 == 0)
    && al 0x00 8 && al 0x08 8 && al 0x10 8 && al 0x28 16 && al 0x30 16 && al 0x38 8 && al 0x48 8
    && decide ((w 0x00).toNat ≤ (w 0x08).toNat) && decide ((w 0x08).toNat < (w 0x10).toNat)
    && fld ctl 7 6 < 2 && fld ctl 5 4 < 2 && levelsOk r

/-- Whether the mode fields of a record are those of a context's mode (R26, R282, R284). -/
def sameMode (mode ctl : Word) : Bool :=
  fld ctl 3 0 == fld mode 11 8 && fld ctl 5 4 == fld mode 5 4 && fld ctl 7 6 == fld mode 1 0

/-- A sub-launch's own rules (R284). -/
def subOk (r : List Word) (mode : Word) (lpd : Nat) : Bool :=
  let ctl := recAt r 0x40
  (recDom r).all (fun d => 3 ≤ d) && decide (recLevels r + lpd ≤ 8) && sameMode mode ctl

/-- The thread mask of a context on a context core, resident or in its image (R273). -/
def maskOn (s : State) (ctx cc : Nat) : Nat :=
  match s.image? ctx cc with
  | some im => ((im.state.resident? ctx).map (·.mask)).getD 0
  | none => (((s.core (s.mcOf ctx cc)).resident? ctx).map (·.mask)).getD 0

/-- Distinct numbers in ascending order. -/
def distinct (l : List Nat) : List Nat := (sortBy (fun (a b : Nat) => decide (a ≤ b)) l).eraseDups

/-- The coordinate of a domain: mixed-radix over the levels bound to it (R278). -/
def coordOf (ext dom path : List Nat) (d : Nat) : Nat :=
  let sel := ((ext.zip path).zip dom).filter (fun x => x.2 == d)
  radix (sel.map (·.1.1)) (sel.map (·.1.2))

/-- The place of a path inside a region (R278): core and thread context, which are a thread's agent identity (R358). -/
def placeIn (s : State) (ctx : Nat) (ext dom path : List Nat) : List Nat → List Nat → Option (Nat × Nat)
  | [], _ => none
  | d :: ds, region =>
    let c := coordOf ext dom path d
    if d = 5 then
      ((region.map (fun cc => ((List.range 16).filter (fun i => bit (maskOn s ctx cc) i)).map (fun i => (cc, i)))).flatten)[c]?
    else
      match (distinct (region.map (unitOf d)))[c]? with
      | none => none
      | some u => placeIn s ctx ext dom path ds (region.filter (fun cc => unitOf d cc == u))

/-- Every path of extents in linear order. -/
def allPaths (ext : List Nat) : List (List Nat) :=
  (List.range (ext.foldl (· * ·) 1)).map (unradix ext)

/-- Placement of a launch in a region (R278), or none when some coordinate is too large. -/
def placement (s : State) (ctx : Nat) (ext dom region : List Nat) : Option (List (List Nat × Nat × Nat)) :=
  (allPaths ext).mapM (fun p => (placeIn s ctx ext dom p (distinct dom) region).map (fun x => (p, x)))

/-- The checks of R275 in their order: the STAT of a refusal, or the placement. -/
def checkRecord (s : State) (ctx : Nat) (r : List Word) (region : List Nat) (sub : Option (Word × Nat)) :
    Except Nat (List (List Nat × Nat × Nat)) :=
  if fld (recAt r 0x40) 47 32 ≠ ctx then .error 11
  else if !recordOk r || !(match sub with
      | some (m, lpd) => subOk r m lpd
      | none => true) then .error 8
  else if fld (recAt r 0x40) 3 0 ≠ 1 then .error 9
  else match placement s ctx (recExt r) (recDom r) region with
    | none => .error 10
    | some l => .ok l

/-- Whether a launch slot is in use or retired (R279, R283). -/
def slotUsed (s : State) (ctx slot : Nat) : Bool :=
  s.launches.any (fun l => l.ctx == ctx && l.slot == slot && !l.done) || (s.ctxD ctx).retired.any (fun x => x.1 == slot)
/-- The lowest free launch slot of a context (R279): 0 for the first launch of a fresh one (R358). -/
def lowSlot (s : State) (ctx : Nat) : Option Nat := (List.range 64).find? (fun i => !slotUsed s ctx i)
/-- The slot of a root thread's own instance: the highest free (log entry 28). -/
def highSlot (s : State) (ctx : Nat) : Option Nat := (List.range 64).reverse.find? (fun i => !slotUsed s ctx i)

/-- The part of a family that a launch's threads share (R24, R274, R278). -/
def launchFamily (uid rec : Nat) (r : List Word) (upPath upExt : List Nat) (view : Nat) : Family where
  launch := some uid
  path := []
  inherited := upPath.length
  lrp := BitVec.ofNat 64 rec
  lpd := upPath.length + recLevels r
  lpi := upPath
  lpx := upExt ++ recExt r
  linear := 0
  counts := true
  handler := recAt r 0x38
  bound := recAt r 0x10
  view := view
  self := 0

/-- The family of one thread of a launch. -/
def Launch.famOf (l : Launch) (path : List Nat) : Family :=
  { l.fam with path := path, lpi := l.fam.lpi ++ path, linear := radix l.ext path }

/-- A launch begun from its record (R274, R279). -/
def newLaunch (uid ctx cc rec slot : Nat) (queue : Option Nat) (seq : Nat) (r : List Word)
    (placed : List (List Nat × Nat × Nat)) (fam : Family) (join : Option (Nat × Nat)) : Launch where
  uid := uid
  ctx := ctx
  queue := queue
  seq := seq
  record := rec
  slot := slot
  root := false
  ext := recExt r
  dom := recDom r
  placed := placed
  toStart := List.range placed.length
  exits := []
  comps := []
  arrivals := []
  fam := fam
  entry := recAt r 0x08
  stk := recAt r 0x28
  stkSize := BitVec.ofNat 64 (fld (recAt r 0x30) 31 0)
  arg := recAt r 0x18
  link := recAt r 0x20
  exw := if recAt r 0x48 = 0 then 0 else canonVa cc (recAt r 0x48).toNat
  join := join
  done := false

/-- Whether every member of an instance has arrived or exited (R212). -/
def Launch.full (l : Launch) (inst : List Nat) : Bool :=
  let members := (l.ext.drop inst.length).foldl (· * ·) 1
  let gone (lin : Nat) : Bool := l.exits.any (fun e => e.1 == lin)
  let arr := (l.arrivals.filter (fun a => a.2.1 == inst && !gone a.2.2)).length
  let out := (l.exits.filter (fun e => inst.isPrefixOf (unradix l.ext e.1))).length
  arr + out == members

/-- Arrivals that a completion has made void taken from what is on its way and from the pending logs, whose bytes follow. -/
def State.voidArrivals (s : State) (void : Instr → Bool) : State :=
  let im' (im : Image) : Image := { im with log := im.log.filter (fun i => !void i) }
  let s : State := { s with flight := s.flight.filter (fun i => !void i), capped := s.capped.filter (fun i => !void i) }
  let hit := s.images.filter (fun im => im.log.any void)
  { s with
    images := s.images.map im'
    mem := hit.foldl (fun m im => (logArea (im' im).log).foldl (fun m a => Memory.writeN m a.2.1 (im.base + a.1) a.2.2) m) s.mem }

/-- A barrier's completion (R212, R238, R121): held updates of the instance and of those within it are applied, the
phases advance, the arrival marks clear, and the waiting threads are made ready. An arrival at an instance within it that is
still on its way belongs to the phase that is over, and counts no longer. The marks are the agent's: a member's own arrival bit
of R211 stays until its `bart` (DESIGN CHOICE, log entry 59). -/
def barrierComplete (s : State) (l : Launch) (inst : List Nat) : State :=
  let within (bd : Nat) : Bool := bd / 2 ^ 16 == l.slot && (match instanceOf l.ext (bd % 2 ^ 16) with
    | some p => inst.isPrefixOf p
    | none => false)
  let bds := distinct ((s.held.filter (fun h => h.ctx == l.ctx && !h.guarded && within h.bd)).map (·.bd))
  let s := bds.foldl (fun s bd => s.closeHeld l.ctx false bd) s
  let s := s.voidArrivals (fun i => match i with
    | .barrierArrivalAtAgent _ uid level path false => uid == l.uid && inst.isPrefixOf (path.take (level + 1)) && decide (inst.length ≤ level)
    | _ => false)
  let s := s.updLaunch l.uid (fun l => { l with
    comps := l.comps ++ [(inst.length - 1, inst)]
    arrivals := l.arrivals.filter (fun a => !inst.isPrefixOf a.2.1) })
  let s := s.advanced l.ctx false (l.slot * 2 ^ 16 + ordinalOf l.ext inst (inst.length - 1))
  s.wakeOn l.ctx (fun o => match o with
    | .barrier bd => within bd
    | _ => false)

/-- The instances of a launch whose barriers completed within the cap's window, oldest first (R265). -/
def recentComps (s : State) (l : Launch) : List (List Nat) :=
  s.advances.filterMap (fun a =>
    if a.1 == l.ctx && !a.2.1 && a.2.2.1 / 2 ^ 16 == l.slot && decide (s.now < a.2.2.2 + capWindow)
    then instanceOf l.ext (a.2.2.1 % 2 ^ 16) else none)
/-- Whether the phase of an instance, and of every one within it, may advance once more now: completions of enclosing
instances advance them too (R238, R265). -/
def State.phaseCapOk (s : State) (l : Launch) (inst : List Nat) : Bool :=
  let r := recentComps s l
  (inst :: r.filter (fun j => inst.isPrefixOf j)).all (fun j => decide ((r.filter (fun i => i.isPrefixOf j)).length < 2 ^ 14))

/-- The context core of an instance's agent (R212): of a launch, the lowest that hosts a member (R279); a root thread's own group has
its agent with it. -/
def barrierAgent (l : Launch) (inst : List Nat) : Option Nat :=
  if l.queue.isSome || !l.root
  then some (((l.placed.filter (fun p => inst.isPrefixOf p.1)).map (·.2.1)).foldl Nat.min Config.cores) else none

/-- The test of an instance at an arrival or exit (R212): whether it completed now, or is kept by the cap (R265), or until the
core of its agent is resumed (R295). -/
def barrierTest (s : State) (uid level : Nat) (path : List Nat) : State × Bool :=
  match s.launch? uid with
  | none => (s, false)
  | some l =>
    let inst := path.take (level + 1)
    if !l.full inst then (s, false)
    else if (barrierAgent l inst).any (fun cc => (s.imageAny? l.ctx cc).isSome) then
      (s.post [.barrierArrivalAtAgent l.ctx uid level path true], true)
    else if !s.phaseCapOk l inst then
      ({ s with capped := s.capped ++ [.barrierArrivalAtAgent l.ctx uid level path true] }, true)
    else
      let lin := radix l.ext path
      let at_ := ((l.placed.find? (fun p => p.1 == path)).map (·.2)).getD (0, 0)
      let s := barrierComplete s l inst
      let ph := (completionsOf l.comps inst + 1) % 2 ^ 32
      let (n, s) := s.fresh
      (s.traceAt l.ctx (dieOf (s.mcOf l.ctx at_.1)) (at_.1 * 16 + at_.2) l.slot lin 6 ph (Config.freeWord 0 n), true)

/-- `BARRIER_ARRIVAL_AT_AGENT` (R212): an arrival of the thread of a path at a level, or (`exited`) a test without a
new arrival. An arrival for an evicted agent's core is logged in its image (R295). One that comes when every member has
exited completes nothing (R212). -/
def execBarrierArrivalAtAgent (ctx launch level : Nat) (path : List Nat) (exited : Bool) (s : State) : Out :=
  match s.launch? launch with
  | none => ev s
  | some l =>
    let inst := path.take (level + 1)
    match (barrierAgent l inst).bind (fun cc => s.logged ctx cc (.barrierArrivalAtAgent ctx launch level path exited)) with
    | some s => ev s
    | none =>
      let a := (level, inst, radix l.ext path)
      let members := (l.ext.drop inst.length).foldl (· * ·) 1
      let allLeft := (l.exits.filter (fun e => inst.isPrefixOf (unradix l.ext e.1))).length == members
      if allLeft && !exited then ev s
      else
      let s := if exited || l.arrivals.contains a then s
        else s.updLaunch launch (fun l => { l with arrivals := l.arrivals ++ [a] })
      ev (barrierTest s launch level path).1

/-- The tests at an exit, outer levels first, until one completes (R212). -/
def exitTests (s : State) (uid : Nat) (path : List Nat) : List Nat → State
  | [] => s
  | l :: ls =>
    let (s, hit) := barrierTest s uid l path
    if hit then s else exitTests s uid path ls

/-- A launch's completion (R220, R283): exit words in spawn order, STAT 2, the slot retired, the join counted. -/
def launchComplete (s : State) (l : Launch) : State :=
  let s := if l.exw = 0 then s
    else (sortBy (fun (a b : Nat × Word) => decide (a.1 ≤ b.1)) l.exits).foldl (fun s e => s.devPut l.ctx (l.exw + 8 * e.1) e.2) s
  let s := s.updLaunch l.uid (fun l => { l with done := true })
  let s := s.updCtx l.ctx (fun c => { c with retired := c.retired ++ [(l.slot, s.agerRounds)] })
  if l.root then s
  else
    let s := s.putField l.ctx l.record 0xD8 (BitVec.ofNat 64 (l.exits.length * 2 ^ 32 + 2))
    match l.join with
    | some (core, n) => s.post [.counterIncrement l.ctx core n]
    | none => s

/-- The exit of a launch's thread (R89, R212, R283). -/
def memberExit (s : State) (uid : Nat) (path : List Nat) (w : Word) : State :=
  let s := s.updLaunch uid (fun l => { l with exits := l.exits ++ [(radix l.ext path, w)] })
  match s.launch? uid with
  | none => s
  | some l =>
    let s := exitTests s uid path (List.range l.ext.length)
    match s.launch? uid with
    | none => s
    | some l =>
      if l.exits.length = l.placed.length then launchComplete s l
      else if l.root then s
      else s.putField l.ctx l.record 0xD8 (BitVec.ofNat 64 (l.exits.length * 2 ^ 32 + 1))

/-- A thread context freed (R89): later deliveries find no thread; its deposit-latch entries are dropped and count
as discarded (R205); handovers that wait for it re-issue (R130). A hold handed to an engine that no command has taken yet is given
up with the thread, and the engine stays the guard's holder (DESIGN CHOICE, log entry 62). -/
def freeContext (s : State) (t : Thread) : State :=
  let mc := s.homeOf t.ref
  let mine (d : Deposit) : Bool := d.ctx == t.ref.ctx && d.agent == t.ref.agent
  let gone := (s.core mc).depLatch.filter mine
  let s := s.updCore mc (fun c => { c with depLatch := c.depLatch.filter (fun d => !mine d) })
  let s := (s.dropEntries t.ref).dropThread t.ref
  let s := gone.foldl (fun s d => depositDone s d false) s
  let s := s.without (fun w => w.wants t.ref.ctx (.handSlot 0 t.ref.agent))
  s.wakeOn t.ref.ctx (fun o => unitObj o == .handSlot 0 t.ref.agent)

/-- THE END OF A THREAD (R89, R125): every hold released in ascending guard index, the context freed, the launch
told. -/
def endThread (s : State) (t : Thread) (w : Word) : State :=
  let s := s.trace t 3 w.toNat t.pc
  let holds := sortBy (fun (a b : Hold) => decide (a.guard ≤ b.guard)) t.holds
  let s := holds.foldl (fun s h =>
    let (id, s) := s.fresh
    s.post [.guardRequestAtHome (guardReq t h.guard id .release none none false false)]) s
  let s := freeContext s t
  match t.fam.launch, t.fam.counts with
  | some uid, true => memberExit s uid t.fam.path w
  | _, _ => s

/-- The own level of a barrier word, or the illegal-operand trap (R211, R204, R284). -/
def barrierLevel (t : Thread) (f : EForm) : Ev (Nat × Nat) :=
  match t.fam.launch with
  | some uid =>
    if t.fam.inherited ≤ f.lv ∧ f.lv < t.fam.lpd ∧ t.fam.counts then .ok (uid, f.lv - t.fam.inherited)
    else failWith .illegalOperand
  | none => failWith .illegalOperand

/-- The phase of a thread's instance at a level, and its BD. -/
def phaseOf (s : State) (uid l : Nat) (path : List Nat) : Nat × Nat :=
  match s.launch? uid with
  | some x => (x.phase (path.take (l + 1)), x.slot * 2 ^ 16 + ordinalOf x.ext path l)
  | none => (0, 0)

/-- The body of `barv` (R211). -/
def barvBody (f : EForm) (s : State) (t : Thread) : Ev Done := do
  let (uid, l) ← barrierLevel t f
  let (ph, bd) := phaseOf s uid l t.fam.path
  if t.arrived.any (fun a => a.1 == l) then .error (.notReady .barr (.barrier bd))
  fenceGate s t
  let s := s.updThread t.ref (fun t => { t with arrived := t.arrived ++ [(l, ph)] })
  let s := s.post [.barrierArrivalAtAgent t.ref.ctx uid l t.fam.path false]
  pure (.next (writeW s t.ref f.D (BitVec.ofNat 64 ph)))
/-- `barv` (R211). -/
def execBarv (f : EForm) (s : State) : Out := issue true f.toHead f.nro (barvBody f) s

/-- A successful `bart` (R211, R238, R263): the arrival bit clears and the seen phases from its level inward are
those of now. -/
def bartOk (s : State) (t : Thread) (uid l : Nat) : State :=
  match s.launch? uid with
  | none => s
  | some x =>
    let n := x.comps.length
    (s.updThread t.ref (fun t => { t with
      arrived := t.arrived.filter (fun a => a.1 != l)
      marks := t.marks.zipIdx.map (fun m => if l ≤ m.2 then n else m.1) })).dropStale (s.homeOf t.ref)
/-- The body of `bart` (R211). -/
def bartBody (f : EForm) (s : State) (t : Thread) : Ev Done := do
  let (uid, l) ← barrierLevel t f
  let (ph, bd) := phaseOf s uid l t.fam.path
  if t.arrived.any (fun a => a.1 == l && a.2 == ph) then .error (.notReady .barr (.barrier bd))
  pure (.next (bartOk s t uid l))
/-- `bart` (R211). -/
def execBart (f : EForm) (s : State) : Out := issue true f.toHead f.nro (bartBody f) s

/-- The body of `trig` (R219). -/
def trigBody (f : EForm) (s : State) (t : Thread) : Ev Done := do
  fenceGate s t
  let base := t.fam.lrp.toNat
  let m := s.devWord t.ref.ctx (base + 0xD0)
  pure (.next (if bit m.toNat f.lv then s else s.putField t.ref.ctx base 0xD0 (m ||| BitVec.ofNat 64 (2 ^ f.lv))))
/-- `trig` (R219). -/
def execTrig (f : EForm) (s : State) : Out := issue false f.toHead f.nro (trigBody f) s

/-- The body of `wdep` (R219, R276): an acquire when it succeeds (R201, R263). -/
def wdepBody (f : EForm) (s : State) (t : Thread) : Ev Done := do
  let w := s.devWord t.ref.ctx (t.fam.lrp.toNat + 0x50 + 8 * f.lv)
  let base := canonVa (TRef.cc t.ref) (fld w 47 8 * 256)
  if bit w.toNat 7 && !bit (s.devWord t.ref.ctx (base + 0xD0)).toNat (fld w 2 0)
      && fld (s.devWord t.ref.ctx (base + 0xD8)) 3 0 != 2 then
    .error (.notReady .dep (.dep base))
  pure (.next (s.dropStale (s.homeOf t.ref)))
/-- `wdep` (R219). -/
def execWdep (f : EForm) (s : State) : Out := issue true f.toHead f.nro (wdepBody f) s

/-- Whether a counter is assigned to a context (R29). -/
def ownsCounter (s : State) (ctx mc n : Nat) : Bool := ((s.core mc).counter n).owner == some ctx

/-- A record noted as a launch record though its launch was refused: threads may not write its device fields (R274). -/
def State.refusedRecord (s : State) (ctx rec : Nat) : State :=
  s.updCtx ctx (fun c => { c with refused := c.refused.filter (· != rec) ++ [rec] })
/-- A refused `lnch`: STAT written, then the trap (R275). -/
def refuseLnch (s : State) (t : Thread) (rec st : Nat) (c : Cause) : Done :=
  .settled (((s.refusedRecord t.ref.ctx rec).putField t.ref.ctx rec 0xD8 (BitVec.ofNat 64 st)).takeTrap t c {} t.pc t.pc .none)

/-- The body of `lnch` (R220, R275, R284). -/
def lnchBody (f : EForm) (s : State) (t : Thread) : Ev Done := do
  let a ← srcW s t f.A
  let mc := s.homeOf t.ref
  let ctx := t.ref.ctx
  if a.toNat % 256 ≠ 0 then failAt .alignment a
  need (!f.flag 0 || ownsCounter s ctx mc f.cn) .protection
  viaOutbox s t (TRef.cc t.ref) (fun s => do
    let rp : Nat := canonVa (TRef.cc t.ref) a.toNat
    match readRecord s ctx (TRef.cc t.ref) a.toNat with
    | .error x => .error (.trap x.cause (TrapInfo.ofFault {} x))
    | .ok r =>
      let c := s.ctxD ctx
      let region := c.coreSet.filter (fun cc => unitOf 3 cc == unitOf 3 (TRef.cc t.ref))
      match checkRecord s ctx r region (some (c.mode, t.fam.lpd)) with
      | .error st => pure (refuseLnch s t rp st (if st = 11 then .protection else .illegalOperand))
      | .ok placed =>
        match lowSlot s ctx with
        | none => .error (.notReady .full .launchSlot)
        | some slot =>
          let (uid, s) := s.fresh
          let fam := launchFamily uid rp r t.fam.lpi t.fam.lpx t.fam.view
          let join := if f.flag 0 then some (TRef.cc t.ref, f.cn) else none
          let s : State := { s with launches := s.launches ++ [newLaunch uid ctx (TRef.cc t.ref) rp slot none 0 r placed fam join] }
          let s := (s.putField ctx rp 0xE0 (BitVec.ofNat 64 slot)).putField ctx rp 0xD8 1
          pure (.next (s.outboxPut t.ref (.wakeForward ctx uid (TRef.cc t.ref) 0))))
/-- `lnch` (R220). -/
def execLnch (f : EForm) (s : State) : Out := issue true f.toHead f.nro (lnchBody f) s

/-- STATUS of a LAUNCH completion for a STAT (R380, R382; log entry 29). -/
def statusOf (st : Nat) : Nat :=
  match st with
  | 8 => 1
  | 9 => 4
  | 10 => 3
  | 11 => 2
  | _ => 0

/-- The queue whose launch a root thread is to wake. -/
def rootQueue (s : State) (ctx : Nat) (t : Thread) : Option (HQueue × Nat) :=
  (t.fam.launch.bind s.launch?).bind (fun l => l.queue.bind (fun q =>
    ((s.ctxD ctx).queues.find? (fun x => x.id == q)).map (fun x => (x, l.seq))))

/-- A completion sent for a host message (R380), whose value has 56 bits; the newest of a message is sent again. -/
def State.complete (s : State) (h : Hdr) (status : Nat) (v : Word) : State :=
  let c : Completion := ⟨h, status, BitVec.ofNat 64 (fld v 55 0)⟩
  { s with done := s.done ++ [c], answers := s.answers.filter (fun x => x.h != h) ++ [c] }

/-- The completion of a LAUNCH message sent (R380). -/
def launchDone (s : State) (ctx q seq st : Nat) : State :=
  s.complete ⟨q, ctx, seq⟩ (statusOf st) (BitVec.ofNat 64 st)

/-- The core set in the order of the spanning tree (R281): by distance of dies from the designated one. -/
def treeOrder (c : Ctx) (die : Nat) : List Nat :=
  ((List.range 4).map (fun k => c.coreSet.filter (fun cc => (dieOf cc + 4 - die % 4) % 4 == k))).flatten

/-- The body of `wake` (R221, R275, R279, R281). The right is used up; a refused launch starts nothing. The launch takes its
queue's link view, which its root thread, of the same `lrp`, uses from then on (R345). The wake goes to L[0], the root core, also
from a root thread that has migrated (R281; DEDUCED, log entry 44). The trace record of kind 1 names the launch slot of the
thread's own family (DESIGN CHOICE, log entry 60). -/
def wakeBody (f : EForm) (s : State) (t : Thread) : Ev Done := do
  let a ← srcW s t f.A
  let rp : Nat := canonVa (TRef.cc t.ref) a.toNat
  need (t.wakeRight == some (BitVec.ofNat 64 rp)) .protection
  viaOutbox s t (TRef.cc t.ref) (fun s => do
    let ctx := t.ref.ctx
    let used (s : State) : State := s.updThread t.ref (fun t => { t with wakeRight := none })
    let (q, seq) := (rootQueue s ctx t).getD (⟨0, 0, 0, 0, 0, [], none⟩, 0)
    match readRecord s ctx (TRef.cc t.ref) a.toNat with
    | .error x => .error (.trap x.cause (TrapInfo.ofFault {} x))
    | .ok r =>
      match checkRecord s ctx r (s.ctxD ctx).coreSet none with
      | .error st =>
        let s := launchDone (((s.wakeBuffer t).refusedRecord ctx rp).putField ctx rp 0xD8 (BitVec.ofNat 64 st)) ctx q.id seq st
        pure (.next ((used s).updCtx ctx (fun c => { c with queues := c.queues.map (fun x =>
          if x.id == q.id then { x with starting := none } else x) })))
      | .ok placed =>
        match lowSlot s ctx with
        | none => .error .hold
        | some slot =>
          let (uid, s) := s.fresh
          let fam := launchFamily uid rp r [] [] q.view
          let l := newLaunch uid ctx (TRef.cc t.ref) rp slot (some q.id) seq r placed fam none
          let s : State := { s with launches := s.launches ++ [l] }
          let s := (s.putField ctx rp 0xE0 (BitVec.ofNat 64 slot)).putField ctx rp 0xD8 1
          let s := (launchDone s ctx q.id seq 1).trace t 1 1 t.pc
          pure (.settled (((used s).updThread t.ref (fun t => { t with run := .waiting .reply, fam := { t.fam with view := q.view } })).outboxPut t.ref
            (.wakeForward ctx uid ((treeOrder (s.ctxD ctx) q.die).headD (TRef.cc t.ref)) 0))))
/-- `wake` (R221). -/
def execWake (f : EForm) (s : State) : Out := issue true f.toHead f.nro (wakeBody f) s

/-- `WAKE_FORWARD` (R281, R284): a core that stops for its image or is evicted forwards at once, and its threads start after
its resumption (R294 and R295 name no wakes; DESIGN CHOICE, log entry 60). The core at position `pos` forwards the wake, the largest step first, then starts
its own threads in ascending `tid`; a sub-launch's threads go out as active messages (R220), on the request channel (DESIGN CHOICE,
log entry 62). -/
def execWakeForward (ctx launch core pos : Nat) (s : State) : Out :=
  match s.launch? launch with
  | none => ev s
  | some l =>
    match l.queue with
    | none =>
      ev (s.post (l.placed.map (fun p =>
        .messageArrival ⟨ctx, p.2.1, l.entry, [], false, l.famOf p.1, .subLaunch⟩)))
    | some q =>
      let c := s.ctxD ctx
      let order := treeOrder c (((c.queues.find? (fun x => x.id == q)).map (·.die)).getD 0)
      let next := ((List.range 11).reverse.filter (fun k => decide (pos < 2 ^ k) && decide (pos + 2 ^ k < order.length))).map
        (fun k => Instr.wakeForward ctx launch (order.getD (pos + 2 ^ k) 0) (pos + 2 ^ k))
      let here := (sortBy (fun (a b : List Nat × Nat × Nat) => decide (a.2.2 ≤ b.2.2)) (l.placed.filter (fun p => p.2.1 == core))).map
        (fun p => Instr.threadStart ctx launch (radix l.ext p.1))
      ev (s.post (next ++ here))

/-- Key in the replay log of the start of a launch's thread on a context core (R377). -/
def launchKey (l : Launch) (linear cc : Nat) : RevKey := .start (launchOrigin l.record (linear + 1)) cc false
/-- `THREAD_START` (R278, R281, R282): a launch's thread starts in its thread context. -/
def execThreadStart (ctx launch linear : Nat) (s : State) : Out :=
  match s.launch? launch with
  | none => ev s
  | some l =>
    match l.placed[linear]? with
    | none => ev s
    | some (path, cc, tid) =>
      let (gen, s) := s.fresh
      let s := s.updLaunch launch (fun l => { l with toStart := l.toStart.filter (· != linear) })
      let fam := l.famOf path
      ev (s.start (launchKey l linear cc) (launchRegs l linear (newThread s ⟨ctx, cc * 16 + tid, gen⟩ fam l.entry (startMarks s fam))))

/-- The mode that a record's fields make (R26, R282); reserved codes leave it as it is. MMR reads 1 on every context (R234). -/
def modeFrom (mode ctl : Word) : Word :=
  if fld ctl 7 6 < 2 ∧ fld ctl 5 4 < 2 then setFld (setFld mode 5 4 (fld ctl 5 4)) 1 0 (fld ctl 7 6)
  else mode

/-- The launches of a context that run (R282): started, not complete; a root thread's instance is none. -/
def running (s : State) (ctx : Nat) : List Launch := s.launches.filter (fun l => l.ctx == ctx && !l.root && !l.done)

/-- The context core of a queue's root threads: the lowest of its die. -/
def rootCore (c : Ctx) (q : HQueue) : Nat := (c.coreSet.filter (fun cc => dieOf cc == q.die)).headD Config.cores

/-- Whether a link update of a context holds the link guard until its race record is placed (R346, R310, R391), or a port agent's
acquire of that guard is on its way. -/
def linkPending (c : Ctx) : Bool :=
  let g := c.guard c.linkGuard
  g.excl && decide (portAgent 0 0 ≤ g.holder) && decide (g.holder < portAgent 16 0)
    && !c.portHolds.any (fun p => p.2.guard == c.linkGuard)

/-- Key in the replay log of the start of a launch's root thread on a context core (R377). -/
def rootKey (record cc : Nat) : RevKey := .start (launchOrigin record 0) cc false
/-- Whether the next posted launch of a queue may start its root thread (R282), behind the link updates before it (R346). -/
def rootReady (s : State) (c : Ctx) (q : HQueue) : Bool :=
  match q.posted with
  | [] => false
  | (rec, _) :: _ =>
    let ctl := s.devWord c.id (rec + 0x40)
    let busy := s.launches.any (fun l => l.ctx == c.id && l.root && !l.done && l.queue == some q.id && q.starting.isSome)
    let other := !(running s c.id).isEmpty || c.queues.any (fun x => x.starting.isSome)
    q.starting.isNone && !busy && !linkPending c && (startTid s c.id (rootCore c q) (rootKey rec (rootCore c q))).isSome && (highSlot s c.id).isSome
      && (!bit ctl.toNat 11 || !(running s c.id).any (fun l => l.queue == some q.id))
      && (sameMode c.mode ctl || !other)

/-- `LAUNCH_ROOT_START` (R280, R282): the root thread of a queue's next launch starts at the stub, with the wake
right, in an instance of its own; `mode` takes the record's fields. -/
def execLaunchRootStart (ctx queue : Nat) (s : State) : Out :=
  match s.ctx? ctx with
  | none => ev s
  | some c =>
    match c.queues.find? (fun q => q.id == queue) with
    | none => ev s
    | some q =>
      match q.posted, highSlot s ctx, (c.coreSet.filter (fun cc => dieOf cc == q.die)).head? with
      | (rec, seq) :: rest, some slot, some cc =>
        match startTid s ctx cc (rootKey rec cc) with
        | none => ev s
        | some tid =>
          let (uid, s) := s.fresh
          let (gen, s) := s.fresh
          let word (off : Nat) : Word := s.devWord ctx (rec + off)
          let a : Word := BitVec.ofNat 64 rec
          let fam : Family := { launch := some uid, path := [0], inherited := 0, lrp := a, lpd := 1, lpi := [0], lpx := [1],
                                linear := 0, counts := true, handler := word 0x38, bound := word 0x10, view := q.view }
          let l : Launch := { uid := uid, ctx := ctx, queue := some queue, seq := seq, record := rec, slot := slot, root := true,
                              ext := [1], dom := [5], placed := [([0], cc, tid)], toStart := [], exits := [], comps := [],
                              arrivals := [], fam := fam, entry := q.stub, stk := 0, stkSize := 0, arg := a, link := 0, exw := 0,
                              join := none, done := false }
          let s : State := { s with launches := s.launches ++ [l] }
          let s := s.updCtx ctx (fun c => { c with
            mode := modeFrom c.mode (word 0x40)
            queues := c.queues.map (fun x => if x.id == queue then { x with posted := rest, starting := some seq } else x) })
          let t := { withPayload (newThread s ⟨ctx, cc * 16 + tid, gen⟩ fam q.stub [0]) [a] with wakeRight := some a }
          ev (s.start (rootKey rec cc) t)
      | _, _, _ => ev s

end Sys2Proof.Machine
end

