-- ==== Sys2Proof/Machine/Engine.lean ====
section
/-! DEFINITION. The matrix and transfer queues: issuing an engine command, its guard, its engines' accesses, its
completion, its faults and their returns (spec 08 R176-R182, 09 R202, 05 R130, 13 R301-R308). -/
namespace Sys2Proof.Machine
open Sys2Proof

/-- Whether a command goes to the transfer queue (R202). -/
def isTransfer : CmdOp → Bool
  | .cpy _ _ _ _ _ _ _ _ | .hput _ _ _ => true
  | _ => false

/-- A context's queue on a core: its transfer queue, or its matrix queue. -/
def queueOf (tr : Bool) (c : Core) (ctx : Nat) : CmdQueue :=
  ((if tr then c.tq else c.mq).find? (fun q => q.ctx == ctx)).getD ⟨c.id, ctx, [], [], []⟩
/-- A core with a queue replaced, or listed. -/
def putQueue (tr : Bool) (c : Core) (q : CmdQueue) : Core :=
  let put (l : List CmdQueue) : List CmdQueue :=
    if l.any (fun x => x.ctx == q.ctx) then l.map (fun x => if x.ctx == q.ctx then q else x) else l ++ [q]
  if tr then { c with tq := put c.tq } else { c with mq := put c.mq }
/-- A state with a function applied to a queue. -/
def State.updQueue (s : State) (tr : Bool) (mc ctx : Nat) (f : CmdQueue → CmdQueue) : State :=
  s.updCore mc (fun c => putQueue tr c (f (queueOf tr c ctx)))

/-- Where a command stands: core, queue kind, queue. -/
structure CmdPlace where
  mc : Nat
  tr : Bool
  q : CmdQueue
  deriving DecidableEq, Repr

/-- Every queue of the module's cores with its place. -/
def cmdPlaces (s : State) : List CmdPlace :=
  (s.cores.map (fun c => c.mq.map (fun q => ⟨c.id, false, q⟩) ++ c.tq.map (fun q => ⟨c.id, true, q⟩))).flatten
/-- A started command and its place. -/
def State.started? (s : State) (id : Nat) : Option (CmdPlace × Started) :=
  ((cmdPlaces s).filterMap (fun p => (p.q.started.find? (fun x => x.cmd.id == id)).map (fun x => (p, x)))).head?
/-- A state with a function applied to a started command. -/
def State.updStarted (s : State) (id : Nat) (f : Started → Started) : State :=
  match s.started? id with
  | none => s
  | some (p, _) =>
    s.updQueue p.tr p.mc p.q.ctx (fun q => { q with started := q.started.map (fun x => if x.cmd.id == id then f x else x) })

/-- The engines a command uses (R182, R202). -/
def enginesOf : CmdOp → List Nat
  | .pld _ _ _ _ _ | .pldt _ _ _ _ | .atbl _ => [4]
  | .drn _ _ bias _ _ _ _ _ _ _ => if bias then [4, 6] else [6]
  | .drnm _ _ bias _ _ _ _ => if bias then [4] else []
  | .mma _ _ _ _ => [5]
  | .cpy _ _ _ _ _ _ _ _ => [2]
  | .hput _ _ _ => [3]
  | _ => []

/-- Agent identity of an engine (R119). -/
def engineId (cc e : Nat) : Nat := 0x80000 + cc * 8 + e

/-- The stamps of an engine for a command (R182, R130): what the thread had at issue, with the holds handed to the
engine; the newest of these is its write guard. -/
def engineStamps (c : Cmd) (e : Nat) : Stamps :=
  let mine := (c.handed.filter (fun h => h.1 == e)).map (·.2)
  { c.st with
    holds := mine ++ c.st.holds
    wg := match mine.getLast? with
      | some h => some h.guard
      | none => c.st.wg }

/-- An access of an engine for a command (R182). -/
def engineAccess (c : Cmd) (e : Nat) (kind : AKind) (va size : Nat) (data : BitVec 1024) (unit part : Nat) : Access where
  id := c.id
  ctx := c.t.ctx
  core := TRef.cc c.t
  agent := engineId (TRef.cc c.t) e
  kind := kind
  va := va
  size := size
  data := data
  exp := 0
  be := 0
  remoteOk := false
  pc := c.pc
  st := engineStamps c e
  sink := .cmd c.id unit part
  pa := none
  key := 0

/-- A byte range cut at line boundaries: (address, length) pairs (R100). -/
def pieces : Nat → Nat → Nat → List (Nat × Nat)
  | 0, _, _ => []
  | fuel + 1, va, n =>
    if n = 0 then []
    else
      let m := Nat.min n (128 - va % 128)
      (va, m) :: pieces fuel (va + m) (n - m)
/-- A byte range of any length an engine reads as one unit. -/
def linesOf (va n : Nat) : List (Nat × Nat) := pieces (n / 128 + 2) va n

/-- The reads of one unit of a command, numbered as parts from a first number. -/
def unitReads (c : Cmd) (e unit from_ : Nat) (ranges : List (Nat × Nat)) : List Access :=
  ((ranges.map (fun r => linesOf r.1 r.2)).flatten.zipIdx).map (fun p =>
    engineAccess c e .read p.1.1 p.1.2 0 unit (from_ + p.2))

/-- Unit and part of an access of a command. -/
def unitPart (a : Access) : Nat × Nat :=
  match a.sink with
  | .cmd _ u p => (u, p)
  | _ => (0, 0)

/-- Whether an access of a started command has been answered. -/
def Started.has (x : Started) (a : Access) : Bool := x.got.any (fun g => (g.1, g.2.1) == unitPart a)
/-- Whether a unit is done: marked so, or all its accesses answered. -/
def Started.unitDone (x : Started) (u : Nat) : Bool :=
  x.doneUnits.contains u || ((x.need.any (fun a => (unitPart a).1 == u))
    && (x.need.filter (fun a => (unitPart a).1 == u)).all x.has)
/-- Whether every access that the command needs has been answered or belongs to a unit marked done. -/
def Started.allDone (x : Started) : Bool := x.need.all (fun a => x.has a || x.doneUnits.contains (unitPart a).1)
/-- The bytes of a unit as a number, its parts in order. A unit that a handler marked done without its bytes having
come has no stated contents: a free value (log entry 26). -/
def Started.bytesOf (x : Started) (u : Nat) : Nat :=
  let mine := x.need.filter (fun a => (unitPart a).1 == u)
  if mine.all x.has then
    (mine.foldr (fun a v =>
      let d := ((x.got.find? (fun g => (g.1, g.2.1) == unitPart a)).map (fun g => g.2.2.toNat)).getD 0
      d % 2 ^ (8 * a.size) + v * 2 ^ (8 * a.size)) 0)
  else (Config.freeWord 1 (x.cmd.id * 64 + u)).toNat

/-- Whether an access of a command, its answer or its fault is on its way. -/
def cmdOutstanding (s : State) (id : Nat) : Bool :=
  s.onWay.any (fun i => match i with
    | .accessAtHome a | .pageWalk a => (match a.sink with
        | .cmd x _ _ => x == id
        | _ => false)
    | .acknowledgement (.cmd x _ _) _ _ => x == id
    | .commandFault x _ _ => x == id
    | .copyPacketWrite p => p.cmd == id
    | _ => false)

/-- Threads parked on a full queue made ready when an entry frees (R176). -/
def State.entryFreed (s : State) (tr : Bool) (mc ctx : Nat) : State :=
  s.wakeOn ctx (fun o => o == (if tr then .transferQueue mc else .matrixQueue mc))

/-- The holds handed to a command's engines released (R130). -/
def releaseHanded (s : State) (c : Cmd) : State :=
  s.post (c.handed.map (fun h => .guardRequestAtHome
    { ctx := c.t.ctx, idx := h.2.guard, agent := engineId (TRef.cc c.t) h.1, who := .engine c.t c.id, op := .release,
      pred := none, dest := none, acc := 0, pc := c.pc, parks := false, tickets := false }))
/-- The destination of a command delivered (R179). -/
def deliverDest (s : State) (c : Cmd) (v : DVal) : State :=
  match c.dest with
  | some g => s.post [.taggedDelivery ⟨c.t, g, v, none⟩]
  | none => s
/-- Threads in a fence wait look again: a command's accesses are acknowledged (R180). -/
def State.nudgeCmd (s : State) (c : Cmd) : State := s.nudge c.t

/-- A started command is over (R177, R179): gone from its queue, its handed holds released, D delivered. -/
def completeCmd (s : State) (id : Nat) (v : DVal) : State :=
  match s.started? id with
  | none => s
  | some (p, x) =>
    let s := s.updQueue p.tr p.mc p.q.ctx (fun q => { q with started := q.started.filter (fun y => y.cmd.id != id) })
    (deliverDest (releaseHanded s x.cmd) x.cmd v).nudgeCmd x.cmd

/-- A queued command discarded (R178, R179, R181): every object stays as it is, D gets 0. -/
def discardHead (s : State) (tr : Bool) (mc : Nat) (c : Cmd) : State :=
  let s := s.updQueue tr mc c.t.ctx (fun q => { q with waiting := q.waiting.filter (fun x => x.id != c.id) })
  ((deliverDest (releaseHanded s c) c (.val 0)).nudgeCmd c).entryFreed tr mc c.t.ctx

/-- A queue from which a faulted command has been returned (R180). -/
def State.cmdReturned (s : State) (id : Nat) : State :=
  { s with cores := s.cores.map (fun c => { c with
      mq := c.mq.map (fun q => { q with faulted := q.faulted.filter (· != id) })
      tq := c.tq.map (fun q => { q with faulted := q.faulted.filter (· != id) }) }) }

/-- Whether a record of a command's fault carries an access (R297). -/
def cmdAcc (op : CmdOp) (c : Cause) : Bool :=
  match c with
  | .translation | .protection | .race => true
  | .poisonUse => (match op with
    | .cpy _ _ _ _ _ _ _ _ => true
    | _ => false)
  | _ => false

/-- The progress field of a command (R308). -/
def cmdProg (x : Started) : Word :=
  let mask (n : Nat) : Word := BitVec.ofNat 64 ((List.range n).foldl (fun m u => if x.unitDone u then m + 2 ^ u else m) 0)
  match x.cmd.op with
  | .pld _ _ _ _ _ | .pldt _ _ _ _ => mask 32
  | .drn _ _ _ _ _ _ _ _ _ _ => if x.stage = 0 then 0 else mask 32
  | .drnm _ _ _ _ _ _ _ => BitVec.ofNat 64 (2 ^ x.pos - 1)
  | .cpy _ _ len _ _ _ _ two =>
    if two ∧ len ≠ 0 then BitVec.ofNat 64 (x.pos / len * 2 ^ 32 + x.pos % len) else BitVec.ofNat 64 x.pos
  | .hput _ _ _ => BitVec.ofNat 64 (128 * x.pos)
  | _ => 0

/-- What a command's fault record carries (R301, R302). -/
def cmdTrapInfo (s : State) (f : CmdFault) : TrapInfo :=
  let kind := if f.transfer then 10 else 9
  match s.started? f.cmd with
  | none => { c := { reg := f.reg, kind := kind }, addr := f.f.addr, data := f.word, info := f.f.info }
  | some (_, x) =>
    { c := { tag := (x.cmd.dest.getD 0).toNat, reg := x.cmd.reg, lvl := f.f.lvl, mal := f.f.mal,
             acc := cmdAcc x.cmd.op f.f.cause, kind := kind },
      addr := f.f.addr, data := f.word, prog := cmdProg x, info := f.f.info }

/-- Whether what comes for a thread of an evicted core finds room in its landing table (R313). -/
def landRoom (s : State) (r : TRef) (ws : List Word) : Bool :=
  match s.imageAny? r.ctx (TRef.cc r) with
  | some im => im.dump.isSome || decide (im.landed + 8 * ws.length ≤ landingRoom)
  | none => true
/-- A command's fault given to its thread: held for it, or in the landing table of its core; where that has no room it waits in
the fabric (R180, R304, R313). -/
def State.giveFault (s : State) (r : TRef) (f : CmdFault) : State :=
  if landsIn s r then
    match s.threadAny? r with
    | none => s
    | some t =>
      let i := cmdTrapInfo s f
      let ws := landHeader r (BitVec.ofNat 16 i.c.tag) 64 2 :: recordWords f.f.cause i f.pc t.pc t.ts
      if landRoom s r ws then s.land r (.command r f) ws else s.post [.commandFault f.cmd 0 f.f]
  else s.updThread r (fun t => { t with cmdFaults := t.cmdFaults ++ [f] })

/-- A command fault held for its thread (R180, R304): told once no access of the command is on its way; a parked
thread takes it too, and a thread that is gone leaves the command complete and its queue going on. -/
def tellFault (s : State) (c : Cmd) (f : FaultInfo) : State :=
  if (s.threadAny? c.t).isNone then (completeCmd s c.id (.val 0)).cmdReturned c.id
  else s.giveFault c.t ⟨c.id, c.pc, c.word, isTransfer c.op, f, 60⟩
/-- A started command's fault told when nothing of it is on its way any more. -/
def settleFault (s : State) (id : Nat) : State :=
  match s.started? id with
  | none => s
  | some (_, x) =>
    match x.fault with
    | none => s
    | some (_, f) =>
      if cmdOutstanding s id then s
      else tellFault (s.updStarted id (fun x => { x with fault := none })) x.cmd f

/-- A command's fault (R180): the queue stops, the lowest faulting unit counts. -/
def commandFaulted (s : State) (id unit : Nat) (f : FaultInfo) : State :=
  match s.started? id with
  | none => s
  | some (p, _) =>
    let s := s.updQueue p.tr p.mc p.q.ctx (fun q =>
      { q with faulted := if q.faulted.contains id then q.faulted else q.faulted ++ [id] })
    let s := s.updStarted id (fun x => { x with fault := match x.fault with
      | some (u, g) => if unit < u then some (unit, f) else some (u, g)
      | none => some (unit, f) })
    settleFault s id
/-- `COMMAND_FAULT` (R180). -/
def execCommandFault (id unit : Nat) (f : FaultInfo) (s : State) : Out := ev (commandFaulted s id unit f)

/-- A command that brought poison to its thread (R193, R195): POIS to D, or the poison-use trap `f`. -/
def poisonCmd (s : State) (x : Started) (f : FaultInfo) : State :=
  match x.cmd.dest with
  | some _ => completeCmd s x.cmd.id (.pois f.info)
  | none => commandFaulted s x.cmd.id 0 f

/-- The fence of an engine command and the room in its queue (R176, R201): FULL is decided at issue; a command that
passes reserves its entry and waits for the thread's earlier accesses. -/
def queueRoom (s : State) (t : Thread) (tr : Bool) : Bool :=
  let k := if tr then 2 else 1
  let mc := s.homeOf t.ref
  t.reserved == some k || decide ((queueOf tr (s.core mc) t.ref.ctx).waiting.length
    + (s.threads.filter (fun x => x.reserved == some k && x.ref.ctx == t.ref.ctx && s.homeOf x.ref == mc)).length < 16)

/-- An engine command issued (R176, R179, R130): appended in issue order with what it needs later. -/
def appendCmd (s : State) (t : Thread) (op : CmdOp) (g : CGuard) (word : Word) (d : Opd) : Ev Done := do
  let tr := isTransfer op
  let mc := s.homeOf t.ref
  if !queueRoom s t tr then .error (.notReady .full (if tr then .transferQueue mc else .matrixQueue mc))
  if !t.pend.isEmpty then
    pure (.settled (s.updThread t.ref (fun t =>
      { t with reserved := some (if tr then 2 else 1), cguard := some g, run := .waiting .fence })))
  else do
    let (tag, s) ← match d with
      | .g _ => do
        let (x, s) ← takeTag s t 3
        pure (some x, s)
      | _ => pure (none, s)
    let (id, s) := s.fresh
    let mine := t.handed.filter (fun h => (enginesOf op).contains h.1)
    let c : Cmd := { id := id, t := t.ref, op := op, word := word, pc := t.pc, st := t.stamps s, fam := t.fam, handed := mine,
                     guard := g, dest := tag, reg := Opd.code d }
    let s := s.updThread t.ref (fun t =>
      { t.setPend d (tag.getD 0) with reserved := none, cguard := none, handed := t.handed.filter (fun h => !(enginesOf op).contains h.1) })
    pure (.next (s.updQueue tr mc t.ref.ctx (fun q => { q with waiting := q.waiting ++ [c] })))

/-- The guard of an engine command (R178): one that is PEND goes with the command. -/
def cmdGuard (t : Thread) (h : Head) : Ev (Option CGuard) :=
  let i := Fin.ofNat 8 h.gk.toNat
  match t.getK i with
  | .full k => .ok (if bit k.toNat 0 != (h.gn == 1) then some .open_ else none)
  | .pend g => .ok (some (.waits g (h.gn == 1)))
  | .empty => .error (.notReady .empty (.reg (.k i)))
  | .pois p => .error (poisonTrap (.k i) p)

/-- The evaluation of an engine command (R12, R178): one that has waited for its fence goes on with the condition that it had at
its issue, or with what has filled it since. -/
def cmdCourse (h : Head) (body : CGuard → State → Thread → Ev Done) (s : State) (t : Thread) : Ev Done := do
  match (if t.reserved = some 1 ∨ t.reserved = some 2 then t.cguard else none) with
  | some g => body g s t
  | none =>
    match ← cmdGuard t h with
    | none => pure .skip
    | some g => body g s t

/-- THE COURSE OF AN ENGINE COMMAND's ISSUE (R176, R178). -/
def issueCmd (f : EForm) (body : CGuard → State → Thread → Ev Done) (s : State) : Out :=
  match s.curThread with
  | none => .fault .noThread
  | some t =>
    let c := s.ctxD t.ref.ctx
    if takesOutcome f.wd && c.replay != 0 then
      .next (s.replayEnd true f.toHead f.nro 0 t c (cmdCourse f.toHead body))
    else .next (s.applyEnd true f.toHead f.nro 0 t (cmdCourse f.toHead body s t))

/-- What becomes of a queue's head (R177, R178, R181). -/
inductive HeadAct where
  | wait | discard | poison (w : Word) (reg : Nat) | start
  deriving DecidableEq, Repr

/-- The head's condition (R178): a tag that no register of the thread holds any longer counts as a fill with 0. -/
def guardAct (s : State) (c : Cmd) : HeadAct :=
  match c.guard with
  | .open_ => .start
  | .fails => .discard
  | .pois w reg => .poison w reg
  | .waits g _ => if ((s.thread? c.t).bind (fun t => t.holderOf g)).isNone then .discard else .wait

/-- Whether the earlier commands of a command's thread in the other queue have had their accesses acknowledged: those of a
faulted one are so only once it has been returned from (R180). -/
def otherQuiet (s : State) (mc : Nat) (c : Cmd) : Bool :=
  let q := queueOf (!isTransfer c.op) (s.core mc) c.t.ctx
  q.waiting.all (fun x => x.t != c.t || c.id < x.id || !cmdAccesses x.op)
    && q.started.all (fun x => x.cmd.t != c.t || c.id < x.cmd.id || x.quiet)

/-- A command that leaves the head to run. -/
def beginCmd (s : State) (tr : Bool) (mc : Nat) (c : Cmd) (x : Started) : State :=
  (s.updQueue tr mc c.t.ctx (fun q =>
    { q with waiting := q.waiting.filter (fun y => y.id != c.id), started := q.started ++ [x] })).entryFreed tr mc c.t.ctx
/-- A started command with nothing done yet. -/
def Started.new (c : Cmd) : Started := ⟨c, [], [], [], [], none, 0, 0, []⟩

/-- A head whose condition is poisoned (R178): discarded, and its thread takes the trap; the queue stops until it is
returned from. -/
def poisonHead (s : State) (tr : Bool) (mc : Nat) (c : Cmd) (w : Word) (reg : Nat) : State :=
  let s := discardHead s tr mc c
  if (s.thread? c.t).isNone then s
  else
    (s.updQueue tr mc c.t.ctx (fun q => { q with faulted := q.faulted ++ [c.id] })).updThread c.t (fun t =>
      { t with cmdFaults := t.cmdFaults ++ [⟨c.id, c.pc, c.word, tr, ⟨.poisonUse, 0, w, 0, false⟩, reg⟩] })

end Sys2Proof.Machine
end

