-- ==== Sys2Proof/Machine/Matrix.lean ====
section
/-! DEFINITION. The matrix unit: its twelve instructions, the start of its commands and what they make of Pods,
accumulators and memory (spec 08 R176-R198, 06 R134-R153). -/
namespace Sys2Proof.Machine
open Sys2Proof

/-- Pod n of a core. -/
def Core.pod (c : Core) (n : Nat) : Pod := c.pods.get (Fin.ofNat 16 n)
/-- A core with a Pod set. -/
def Core.setPod (c : Core) (n : Nat) (p : Pod) : Core := { c with pods := c.pods.set (Fin.ofNat 16 n) p }
/-- Accumulator n of a core. -/
def Core.acc (c : Core) (n : Nat) : Acc := c.accs.get (Fin.ofNat 4 n)
/-- A core with an accumulator set. -/
def Core.setAcc (c : Core) (n : Nat) (a : Acc) : Core := { c with accs := c.accs.set (Fin.ofNat 4 n) a }
/-- An accumulator's elements, each +0 (R185, R187). -/
def zeroEls : List (BitVec 32) := List.replicate 1024 0

/-- What a command reads or writes of the unit: Pods, accumulators, and the drain profile, which a later drain takes
as the last earlier `atbl` left it (R177, R194). -/
inductive MObj where
  | pod (n : Nat) | acc (n : Nat) | profile
  deriving DecidableEq, Repr

/-- Objects that a command reads. -/
def opReads : CmdOp → List MObj
  | .mma n pa pb _ => [.pod pa, .pod pb, .acc n]
  | .drn n _ _ _ _ _ _ _ _ _ | .drnm n _ _ _ _ _ _ => [.acc n, .profile]
  | _ => []
/-- Objects that a command writes. -/
def opWrites : CmdOp → List MObj
  | .prel n | .pld n _ _ _ _ | .pldt n _ _ _ => [.pod n]
  | .arel n | .azero n | .mma n _ _ _ => [.acc n]
  | .drn n _ _ _ _ _ zc _ _ _ => if zc then [.acc n] else []
  | .drnm n _ _ _ zc _ _ => if zc then [.acc n] else []
  | .atbl _ => [.profile]
  | _ => []

/-- Whether a queued `prel` or `arel` names an object (R186). -/
def relQueued (q : CmdQueue) (o : MObj) : Bool :=
  q.waiting.any (fun c => match c.op, o with
    | .prel n, .pod m => n == m
    | .arel n, .acc m => n == m
    | _, _ => false)
/-- Whether a queued command makes an object PEND (R179). -/
def fillQueued (q : CmdQueue) (o : MObj) : Bool :=
  let fills (op : CmdOp) : Bool := match op with
    | .pld _ _ _ _ _ | .pldt _ _ _ _ | .mma _ _ _ _ | .azero _ => (opWrites op).contains o
    | _ => false
  q.waiting.any (fun c => fills c.op) || q.started.any (fun x => fills x.cmd.op)

/-- The rule of R29 and R184 for an object named other than by its claim. -/
def objGate (s : State) (t : Thread) (o : MObj) : Ev Unit := do
  let c := s.core (s.homeOf t.ref)
  let q := queueOf false c t.ref.ctx
  let (st, owner) := match o with
    | .pod n => ((c.pod n).st, (c.pod n).owner)
    | .acc n => ((c.acc n).st, (c.acc n).owner)
    | .profile => (PodSt.full, some t.ref.ctx)
  need (st != .free) .illegalOperand
  need (owner == some t.ref.ctx) .protection
  need (!relQueued q o) .illegalOperand

/-- The body of `pclm` (R185). -/
def pclmBody (f : EForm) (s : State) (t : Thread) : Ev Done :=
  let mc := s.homeOf t.ref
  if canTake s t.ref.ctx t.ref.agent (.pod mc f.hi) then
    .ok (.next ((s.updCore mc (fun c => c.setPod f.hi ⟨.empty, some t.ref.ctx, none, [], []⟩)).took t.ref.ctx t.ref.agent
      (.pod mc f.hi)))
  else .error (.notReady .slot (.pod mc f.hi))
/-- `pclm` (R185). -/
def execPclm (f : EForm) (s : State) : Out := issue true f.toHead f.nro (pclmBody f) s

/-- The body of `aclm` (R185). -/
def aclmBody (f : EForm) (s : State) (t : Thread) : Ev Done := do
  let mc := s.homeOf t.ref
  let m := bits f.fl.toNat 1 0
  need (m == 0 || fld (s.ctxD t.ref.ctx).mode 5 4 != 0) .protection
  if canTake s t.ref.ctx t.ref.agent (.accum mc f.an) then
    pure (.next ((s.updCore mc (fun c => c.setAcc f.an ⟨.full, some t.ref.ctx, BitVec.ofNat 2 m, zeroEls⟩)).took
      t.ref.ctx t.ref.agent (.accum mc f.an)))
  else .error (.notReady .slot (.accum mc f.an))
/-- `aclm` (R185). -/
def execAclm (f : EForm) (s : State) : Out := issue true f.toHead f.nro (aclmBody f) s

/-- `prel` (R186). -/
def execPrel (f : EForm) (s : State) : Out :=
  issueCmd f (fun g s t => do
    objGate s t (.pod f.hi)
    appendCmd s t (.prel f.hi) g (encE 0xA1 f) .zr) s
/-- `arel` (R186). -/
def execArel (f : EForm) (s : State) : Out :=
  issueCmd f (fun g s t => do
    objGate s t (.acc f.an)
    appendCmd s t (.arel f.an) g (encE 0xA5 f) .zr) s
/-- `azero` (R187). -/
def execAzero (f : EForm) (s : State) : Out :=
  issueCmd f (fun g s t => do
    objGate s t (.acc f.an)
    appendCmd s t (.azero f.an) g (encE 0xA6 f) .zr) s

/-- Alignment of a base and a stride (R188). -/
def strideGate (a b : Word) (n : Nat) : Ev Unit := if a.toNat % n = 0 ∧ b.toNat % n = 0 then .ok () else failAt .alignment a

/-- Alignment that an element format asks for (R188). -/
def fmtAlign (f : Nat) : Nat := if f = 1 ∨ f = 2 then 2 else 1
/-- Elements per Pod row (R188). -/
def fmtK (f : Nat) : Nat := if f = 1 ∨ f = 2 then 256 else if f = 7 then 1024 else 512
/-- Bytes that a row of `pld` has in memory (R188). -/
def fmtRow (f : Nat) (mx : Bool) : Nat := if mx then fmtK f / 32 * (fieldBytes f + 1) else 512

/-- `pld` (R188). -/
def execPld (f : EForm) (s : State) : Out :=
  issueCmd f (fun g s t => do
    let a ← srcW s t f.A
    let b ← srcW s t f.B
    objGate s t (.pod f.hi)
    strideGate a b (fmtAlign f.lo)
    appendCmd s t (.pld f.hi f.lo (f.flag 0) a b) g (encE 0xA2 f) .zr) s
/-- `pldt` (R188). -/
def execPldt (f : EForm) (s : State) : Out :=
  issueCmd f (fun g s t => do
    let a ← srcW s t f.A
    let b ← srcW s t f.B
    objGate s t (.pod f.hi)
    strideGate a b (fmtAlign f.lo)
    appendCmd s t (.pldt f.hi f.lo a b) g (encE 0xA3 f) .zr) s

/-- The format tag that a queued fill leaves on a Pod (R188). -/
def fillFmt (n : Nat) (op : CmdOp) : Option (Nat × Bool) :=
  match op with
  | .pld m f mx _ _ => if m = n then some (f, mx) else none
  | .pldt m f _ _ => if m = n then some (f, false) else none
  | _ => none
/-- The format tag of a Pod as its last queued fill leaves it (R191). -/
def fmtAt (s : State) (mc ctx n : Nat) : Option (Nat × Bool) :=
  let q := queueOf false (s.core mc) ctx
  let l := (q.started.map (fun x => fillFmt n x.cmd.op)) ++ (q.waiting.map (fun c => fillFmt n c.op))
  match (l.filterMap id).getLast? with
  | some x => some x
  | none => ((s.core mc).pod n).fmt

/-- The class of R191's table that a format falls in: two Pods pair when theirs agree. -/
def mmaClass : Nat × Bool → Nat
  | (1, _) => 1
  | (2, _) => 2
  | (8, _) => 3
  | (7, _) => 4
  | _ => 0
/-- Whether two format tags pair (R191). -/
def mmaPair (a b : Option (Nat × Bool)) : Bool :=
  match a, b with
  | some x, some y => mmaClass x == mmaClass y
  | _, _ => false

/-- `mma` (R191). -/
def execMma (f : EForm) (s : State) : Out :=
  issueCmd f (fun g s t => do
    let mc := s.homeOf t.ref
    objGate s t (.acc f.an)
    objGate s t (.pod f.hi)
    objGate s t (.pod f.lo)
    need (mmaPair (fmtAt s mc t.ref.ctx f.hi) (fmtAt s mc t.ref.ctx f.lo)) .illegalOperand
    need (!f.flag 1 || ((s.core mc).acc f.an).mode != 0) .illegalOperand
    appendCmd s t (.mma f.an f.hi f.lo (f.flag 1)) g (encE 0xA7 f) .zr) s

/-- `drn` (R195, R196). -/
def execDrn (f : EForm) (s : State) : Out :=
  issueCmd f (fun g s t => do
    let a ← srcW s t f.A
    let b ← srcW s t f.B
    objGate s t (.acc f.an)
    appendCmd s t (.drn f.an (f.flag 1) (bit f.fn.toNat 7) (bit f.fn.toNat 6) (bit f.fn.toNat 5) (bit f.fn.toNat 4)
      (f.flag 0) f.lo a b) g (encE 0xA8 f) f.D) s
/-- `drnm` (R195, R197). -/
def execDrnm (f : EForm) (s : State) : Out :=
  issueCmd f (fun g s t => do
    let a ← srcW s t f.A
    let b ← srcW s t f.B
    objGate s t (.acc f.an)
    targetGate a
    appendCmd s t (.drnm f.an (f.flag 1) (bit f.fn.toNat 7) (bit f.fn.toNat 6) (f.flag 0) a b) g (encE 0xA9 f) f.D) s
/-- `atbl` (R194). -/
def execAtbl (f : EForm) (s : State) : Out :=
  issueCmd f (fun g s t => do
    let a ← srcW s t f.A
    if a.toNat % 16 ≠ 0 then failAt .alignment a
    appendCmd s t (.atbl a) g (encE 0xAA f) .zr) s

/-- The state code of an object in `mstat`'s words (R28, R198). Another context's object whose release is pending fits two
codes: it shows 0b110 (DESIGN CHOICE, log entry 57). -/
def objCode (s : State) (mc ctx : Nat) (o : MObj) (st : PodSt) (owner : Option Nat) : Nat :=
  let q := queueOf false (s.core mc) ctx
  if st = .free then 0
  else if owner ≠ some ctx then 6
  else if relQueued q o then 5
  else if fillQueued q o then 2
  else match st with
    | .free => 0
    | .empty => 1
    | .pend => 2
    | .full => 3
    | .pois _ => 4

/-- The word of `mstat` (R198). -/
def mstatWord (s : State) (mc ctx : Nat) (sel : Bool) : Word :=
  let c := s.core mc
  let q := queueOf false c ctx
  if sel then
    let accs := (List.range 4).foldl (fun w n =>
      w + objCode s mc ctx (.acc n) (c.acc n).st (c.acc n).owner * 2 ^ (3 * n) + (c.acc n).mode.toNat * 2 ^ (2 * n + 12)) 0
    BitVec.ofNat 64 (accs + q.waiting.length * 2 ^ 20 + (!q.faulted.isEmpty).toNat * 2 ^ 25)
  else
    BitVec.ofNat 64 ((List.range 16).foldl (fun w n =>
      w + objCode s mc ctx (.pod n) (c.pod n).st (c.pod n).owner * 2 ^ (3 * n)) 0)
/-- `mstat` (R198): its value depends on timing (R377). -/
def execMstat (f : EForm) (s : State) : Out :=
  issue false f.toHead f.nro (fun s t => do
    let (w, s) ← s.timing t (mstatWord s (s.homeOf t.ref) t.ref.ctx (f.flag 0))
    .ok (.next (writeW s t.ref f.D w))) s

/-- Whether a started command stands in the way of another (R177). -/
def conflicts (x : Started) (c : Cmd) : Bool :=
  (opWrites x.cmd.op).any (fun o => (opReads c.op).contains o || (opWrites c.op).contains o)
    || (opReads x.cmd.op).any (fun o => (opWrites c.op).contains o)
/-- Whether a started command is an `mma` (R177: the array runs one). -/
def isMma : CmdOp → Bool
  | .mma _ _ _ _ => true
  | _ => false
/-- Whether the array is free. -/
def arrayFree (c : Core) : Bool := c.mq.all (fun q => q.started.all (fun x => !isMma x.cmd.op))

/-- The payload of a row's message (R197): two elements in each of `g0`-`g15`. -/
def rowPayload (ys : List (BitVec 32)) : List Word :=
  (List.range 16).map (fun m => (ys.getD (2 * m + 1) 0) ++ (ys.getD (2 * m) 0))
/-- The message of row `pos` of a drain (R197). -/
def rowMsg (x : Started) (a : Word) : Msg :=
  ⟨x.cmd.t.ctx, TRef.cc x.cmd.t, a + BitVec.ofNat 64 (8 * x.pos), rowPayload (x.rows.getD x.pos []), false, heirFamily x.cmd.fam,
    .row x.cmd.id x.pos⟩
/-- Whether a message can leave the drain of a core now (R197, R204): it finds a thread context, behind no other of its context, or
one of the 12 request entries. -/
def rowRoom (s : State) (m : Msg) : Bool :=
  let c := s.core (s.mcOf m.ctx m.core)
  (!behindOthers c m && (msgTid s m).isSome) || inboxRoom c m.reply
/-- Whether a started `drnm` holds a row that has no room (R197). -/
def drainHolds (s : State) (x : Started) : Bool :=
  match x.cmd.op with
  | .drnm _ _ _ _ _ a _ => x.stage == 1 && !rowRoom s (rowMsg x a)
  | _ => false

/-- Whether a command would read a Pod or accumulator that is EMPTY (R181). -/
def readsEmpty (c : Core) (op : CmdOp) : Bool :=
  (opReads op).any (fun o => match o with
    | .pod n => (c.pod n).st == .empty
    | .acc n => (c.acc n).st == .empty
    | .profile => false)

/-- What becomes of a matrix queue's head now (R177, R178, R180, R181); none starts while its core is stopped for an image
(R183). -/
def matrixHead (s : State) (mc ctx : Nat) : Option (Cmd × HeadAct) :=
  let co := s.core mc
  let q := queueOf false co ctx
  match q.waiting with
  | [] => none
  | c :: _ =>
    if !q.faulted.isEmpty || evicting s ctx (TRef.cc c.t) || q.started.any (drainHolds s) then none
    else match guardAct s c with
      | .start =>
        if q.started.any (fun x => conflicts x c) || (isMma c.op && !arrayFree co) || !otherQuiet s mc c then none
        else some (c, if readsEmpty co c.op then .discard else .start)
      | .wait => none
      | a => some (c, a)

/-- Reads of a Pod load (R189, R190): unit i is row i, or K/32 memory rows of a transposed load. -/
def podReads (c : Cmd) : List Access :=
  match c.op with
  | .pld _ f mx a st => ((List.range 32).map (fun i =>
      unitReads c 4 i 0 [((a + BitVec.ofNat 64 i * st).toNat, fmtRow f mx)])).flatten
  | .pldt _ f a st =>
    let n := fmtK f / 32
    ((List.range 32).map (fun i =>
      unitReads c 4 i 0 ((List.range n).map (fun j =>
        ((a + BitVec.ofNat 64 (i * n + j) * st).toNat, 4 * fmtBits f))))).flatten
  | _ => []

/-- The number of the one unit of a bias or a profile; no row has it. -/
def soleUnit : Nat := 63
/-- Reads of the bias (R195). -/
def biasReads (c : Cmd) (b : Word) : List Access := unitReads c 4 soleUnit 0 [(b.toNat, 128)]
/-- Reads of a drain profile (R194). -/
def profileReads (c : Cmd) (a : Word) : List Access := unitReads c 4 soleUnit 0 [(a.toNat, 2064)]

/-- A context's drain profile before its first `atbl` (R194). -/
def Profile.initial : Profile := ⟨0, 0, 128, List.replicate 256 (0x3F800000, 0)⟩
/-- The drain profile of a context on a core. -/
def Core.profile (c : Core) (ctx : Nat) : Profile := ((c.profiles.find? (fun p => p.1 == ctx)).map (·.2)).getD Profile.initial

/-- floor of a finite number. -/
def XR.floor : XR → Int
  | .fin neg m e =>
    let n : Int := if neg then -(m : Int) else m
    if 0 ≤ e then n * 2 ^ e.toNat else n / 2 ^ (-e).toNat
  | _ => 0

/-- The segment of a profile that an element falls in (R195); infinities clamp. -/
def segOf (p : Profile) (y : XR) : Nat :=
  match y with
  | .inf neg => if neg then 0 else 255
  | _ =>
    let t := XR.floor ((XR.add false y (XR.neg (decodeF 0 p.lo.toNat))).scale (-(toSigned 32 p.exp.toNat)))
    (min (max t 0) 255).toNat

/-- The stages of the drain chain for one element (R195): bias, then the activation; FP32 encodings. -/
def drainEl (p : Profile) (act : Bool) (bias : Option (BitVec 32)) (y : BitVec 32) : BitVec 32 :=
  let y := match bias with
    | some b => BitVec.ofNat 32 (roundF 0 0 (XR.add false (decodeF 0 y.toNat) (decodeF 0 b.toNat)))
    | none => y
  if act then
    let v := decodeF 0 y.toNat
    if v.isNan then 0x7FC00000
    else
      let (slope, icpt) := p.seg.getD (segOf p v) (0x3F800000, 0)
      BitVec.ofNat 32 (roundF 0 0 (XR.add false (XR.mul (decodeF 0 slope.toNat) v) (decodeF 0 icpt.toNat)))
  else y

/-- F code of a pair mode's halves (R185). -/
def halfFmt (mode : BitVec 2) : Nat := if mode = 1 then 2 else 1
/-- An element of an accumulator, or its half H, widened exactly to FP32 (R195). -/
def accEl (a : Acc) (h : Bool) (i : Nat) : BitVec 32 :=
  let x := a.el.getD i 0
  if a.mode = 0 then x
  else BitVec.ofNat 32 (roundF 0 0 (decodeF (halfFmt a.mode) (if h then bits x.toNat 31 16 else bits x.toNat 15 0)))
/-- An element, or its half H, set (R192). -/
def putEl (a : Acc) (h : Bool) (old : BitVec 32) (v : Nat) : BitVec 32 :=
  if a.mode = 0 then BitVec.ofNat 32 v
  else if h then BitVec.ofNat 32 (v % 2 ^ 16 * 2 ^ 16 + old.toNat % 2 ^ 16)
  else BitVec.ofNat 32 (old.toNat / 2 ^ 16 * 2 ^ 16 + v % 2 ^ 16)
/-- An accumulator with every element, or every half H, +0 (R195). -/
def clearEls (a : Acc) (h : Bool) : Acc := { a with el := a.el.map (fun x => putEl a h x 0) }

/-- The 32 rows that a drain makes of an accumulator. -/
def drainRows (p : Profile) (a : Acc) (h act : Bool) (bias : Option Nat) : List (List (BitVec 32)) :=
  (List.range 32).map (fun i => (List.range 32).map (fun j =>
    drainEl p act (bias.map (fun b => BitVec.ofNat 32 (b >>> (32 * j)))) (accEl a h (32 * i + j))))

/-- The bytes of a drained row in memory and how many they are (R196). -/
def rowImage (rq mx : Bool) (f : Nat) (ys : List (BitVec 32)) : Nat × Nat :=
  let vs := ys.map (fun y => decodeF 0 y.toNat)
  if !rq then (128, packBits 32 (ys.map (·.toNat)))
  else if mx then (fieldBytes f + 1, blockImage f (quantise f vs))
  else (4 * fmtBits f, packBits (fmtBits f) (vs.map (roundF f 0)))

/-- The writes of one drained row (R182, R196). -/
def rowWrites (c : Cmd) (i : Nat) (va n x : Nat) : List Access :=
  ((linesOf va n).zipIdx).map (fun p =>
    let off := ((p.1.1 + 2 ^ 64 - va) % 2 ^ 64)
    let be : BitVec 128 := if p.1.2 = 128 then BitVec.allOnes 128 else 0
    { engineAccess c 6 .write p.1.1 p.1.2 (BitVec.ofNat 1024 (x / 2 ^ (8 * off) % 2 ^ (8 * p.1.2))) i p.2 with be := be })

/-- Accesses of a command sent. -/
def sendAll (s : State) (l : List Access) : State := l.foldl sendAccess s

/-- The drain proper, once the bias is there (R193, R195, R196, R197): the rows are read, ZC clears, `drn` writes and
`drnm` begins to send. Whether ZC clears when the base or the stride is misaligned is not stated: it does (DESIGN CHOICE, log
entry 57). -/
def drainNow (s : State) (id : Nat) (bias : Option Nat) : State :=
  match s.started? id with
  | none => s
  | some (p, x) =>
    let c := s.core p.mc
    let pr := c.profile p.q.ctx
    match x.cmd.op with
    | .drn n h _ act rq mx zc f a _ =>
      let ac := c.acc n
      let rows := drainRows pr ac h act bias
      let img := rows.map (rowImage rq mx f)
      let el := if mx then 1 else if rq then fmtBits f / 8 else 4
      let s := if zc then s.updCore p.mc (fun c => c.setAcc n (clearEls ac h)) else s
      if a.toNat % el ≠ 0 ∨ pr.stride.toNat % el ≠ 0 then
        commandFaulted (s.updStarted id (fun x => { x with stage := 1 })) id 0 ⟨.alignment, a, 0, 0, false⟩
      else
        let ws := (img.zipIdx.map (fun r => rowWrites x.cmd r.2 (a + BitVec.ofNat 64 r.2 * pr.stride).toNat r.1.1 r.1.2)).flatten
        let s := s.updStarted id (fun x => { x with stage := 1, need := ws, got := [], rows := rows })
        let go := ws.filter (fun a => !x.doneUnits.contains (unitPart a).1)
        if go.isEmpty then s.post [.drainComplete id] else sendAll s go
    | .drnm n h _ act zc _ _ =>
      let ac := c.acc n
      let s := if zc then s.updCore p.mc (fun c => c.setAcc n (clearEls ac h)) else s
      (s.updStarted id (fun x => { x with stage := 1, need := [], got := [], rows := drainRows pr ac h act bias })).nudgeCmd x.cmd
    | _ => s

/-- A drain's start (R193, R195): a POIS accumulator ends it, before its bias is looked at (DESIGN CHOICE, log entry 62); else the
bias is read first. -/
def drainStart (s : State) (x : Started) (n : Nat) (bias : Bool) (b : Word) (mc : Nat) : State :=
  match ((s.core mc).acc n).st with
  | .pois w => poisonCmd s x ⟨.poisonUse, 0, w, 0, false⟩
  | _ =>
    if !bias then drainNow s x.cmd.id none
    else if b.toNat % 4 ≠ 0 then commandFaulted s x.cmd.id 0 ⟨.alignment, b, 0, 0, false⟩
    else
      let rs := biasReads x.cmd b
      sendAll (s.updStarted x.cmd.id (fun x => { x with need := rs })) rs

/-- A drain whose fault left it no access to make begun again (R180): it meets what it met, a POIS accumulator, a misaligned bias,
base or stride (R193, R195, R196), unless every row of its output is marked done. -/
def drainAgain (s : State) (id : Nat) : State :=
  match s.started? id with
  | none => s
  | some (p, x) =>
    match x.cmd.op with
    | .drn n _ bias _ _ _ _ _ a b =>
      if x.stage = 0 then drainStart s x n bias b p.mc
      else if (List.range 32).all x.doneUnits.contains then s.post [.drainComplete id]
      else commandFaulted s id 0 ⟨.alignment, a, 0, 0, false⟩
    | .drnm n _ bias _ _ _ b => drainStart s x n bias b p.mc
    | _ => s

/-- A matrix command's start (R177, R186, R187, R189, R192, R194, R195). -/
def matrixStart (s : State) (mc : Nat) (c : Cmd) : State :=
  let x := Started.new c
  let ctx := c.t.ctx
  match c.op with
  | .prel n =>
    ((completeCmd (beginCmd s false mc c x) c.id (.val 0)).updCore mc (fun c => c.setPod n Pod.reset)).offer ctx (.pod mc n)
  | .arel n =>
    ((completeCmd (beginCmd s false mc c x) c.id (.val 0)).updCore mc (fun c => c.setAcc n Acc.reset)).offer ctx (.accum mc n)
  | .azero n =>
    (completeCmd (beginCmd s false mc c x) c.id (.val 0)).updCore mc (fun c =>
      c.setAcc n { c.acc n with st := .full, el := zeroEls })
  | .pld _ _ _ _ _ | .pldt _ _ _ _ =>
    let rs := podReads c
    sendAll (beginCmd s false mc c { x with need := rs }) rs
  | .atbl a =>
    let rs := profileReads c a
    sendAll (beginCmd s false mc c { x with need := rs }) rs
  | .mma _ _ _ _ => beginCmd s false mc c { x with pos := s.cycle + 32 }
  | .drn n _ bias _ _ _ _ _ _ b => drainStart (beginCmd s false mc c x) x n bias b mc
  | .drnm n _ bias _ _ _ b => drainStart (beginCmd s false mc c x) x n bias b mc
  | _ => s

/-- `MATRIX_COMMAND_START` (R177, R178, R181). -/
def execMatrixCommandStart (core ctx : Nat) (s : State) : Out :=
  match matrixHead s core ctx with
  | none => ev s
  | some (c, act) =>
    match act with
    | .start => ev (matrixStart s core c)
    | .discard => ev (discardHead s false core c)
    | .poison w reg => ev (poisonHead s false core c w reg)
    | .wait => ev s

/-- The 512 data bytes and 32 side bytes that a row's bytes in memory make (R139, R189). Side bytes past an MX row's last
block are 0: the spec states none (DESIGN CHOICE, log entry 57). -/
def podRow (f : Nat) (mx : Bool) (m : Nat) : BitVec 4096 × BitVec 256 :=
  let n := fmtK f / 32
  let fb := fieldBytes f
  let ones : Nat := (2 ^ 256 - 1) / 255 * 0x7F
  if mx then
    ((List.range n).foldr (fun k acc =>
        BitVec.ofNat 4096 (acc.toNat * 2 ^ (8 * fb) + m / 2 ^ (8 * (k * (fb + 1))) % 2 ^ (8 * fb))) 0,
     BitVec.ofNat 256 ((List.range n).foldr (fun k acc =>
        acc * 256 + m / 2 ^ (8 * (k * (fb + 1) + fb)) % 256) 0))
  else (BitVec.ofNat 4096 m, BitVec.ofNat 256 ones)

/-- A row of a transposed load (R189): element k is element c of memory row k. -/
def podCol (f : Nat) (rows : List Nat) (c : Nat) : BitVec 4096 :=
  let w := fmtBits f
  BitVec.ofNat 4096 (packBits w (rows.map (fun m => m / 2 ^ (w * c) % 2 ^ w)))

/-- A Pod as a load that has all its bytes leaves it (R189, R190). -/
def loadedPod (x : Started) (old : Pod) : Pod :=
  let st : PodSt := match lowestPoison x.pois with
    | some w => .pois w
    | none => .full
  match x.cmd.op with
  | .pld _ f mx _ _ =>
    let rows := (List.range 32).map (fun i => podRow f mx (x.bytesOf i))
    { old with st := st, fmt := some (f, mx), rows := rows.map (·.1), side := rows.map (·.2) }
  | .pldt _ f _ _ =>
    let n := fmtK f / 32
    let sz := 32 * fmtBits f
    let mem := ((List.range 32).map (fun u => (List.range n).map (fun j => x.bytesOf u / 2 ^ (sz * j) % 2 ^ sz))).flatten
    { old with st := st, fmt := some (f, false), rows := (List.range 32).map (podCol f mem)
               side := List.replicate 32 (podRow f false 0).2 }
  | _ => old

/-- `POD_LOAD_COMPLETE` (R189, R190). -/
def execPodLoadComplete (id : Nat) (s : State) : Out :=
  match s.started? id with
  | none => ev s
  | some (p, x) =>
    match x.cmd.op with
    | .pld n _ _ _ _ | .pldt n _ _ _ =>
      ev (completeCmd (s.updCore p.mc (fun c => c.setPod n (loadedPod x (c.pod n)))) id (.val 32))
    | _ => ev s

/-- `val(p, r, k)` of R192 for the elements of one block. -/
def blockVals (p : Pod) (f r blk : Nat) : List XR :=
  let w := fmtBits f
  let field := bits (p.rows.getD r 0).toNat (32 * w * (blk + 1) - 1) (32 * w * blk)
  let sc := bits (p.side.getD r 0).toNat (8 * blk + 7) (8 * blk)
  (List.range 32).map (fun k => blockVal f field k sc)

/-- One element of a product (R152, R192): the blocks' exact sums rounded in one after the other. -/
def mmaEl (a : Acc) (h : Bool) (xs ys : List (List XR)) (old : BitVec 32) : BitVec 32 :=
  let f := if a.mode = 0 then 0 else halfFmt a.mode
  let cur := if a.mode = 0 then old.toNat else if h then bits old.toNat 31 16 else bits old.toNat 15 0
  let v := (xs.zip ys).foldl (fun v b =>
    roundF f 0 (XR.add false (decodeF f v) (sumExact (List.zipWith XR.mul b.1 b.2)))) cur
  putEl a h old v

/-- The accumulator after an `mma` (R192, R193). Of two POIS Pods it takes Pod A's word (DESIGN CHOICE, log entry 60), and one that is
POIS already keeps its own word whatever the Pods are (DESIGN CHOICE, log entry 62). A pair of Pods whose formats no longer pair (a fill that was checked for and then discarded, R179) has no stated product: every element is
a free value (log entry 26). -/
def mmaResult (c : Core) (n pa pb : Nat) (h : Bool) (free : Nat) : Acc :=
  let a := c.acc n
  let x := c.pod pa
  let y := c.pod pb
  match a.st, x.st, y.st with
  | .pois _, _, _ => a
  | _, .pois w, _ => { a with st := .pois w }
  | _, _, .pois w => { a with st := .pois w }
  | _, _, _ =>
    if mmaPair x.fmt y.fmt then
      let fx := (x.fmt.getD (0, false)).1
      let fy := (y.fmt.getD (0, false)).1
      let nb := fmtK fx / 32
      let bx := (List.range 32).map (fun i => (List.range nb).map (blockVals x fx i))
      let bs := (List.range 32).map (fun j => (List.range nb).map (blockVals y fy j))
      { a with st := .full, el := a.el.zipIdx.map (fun e => mmaEl a h (bx.getD (e.2 / 32) []) (bs.getD (e.2 % 32) []) e.1) }
    else { a with st := .full, el := a.el.zipIdx.map (fun e => putEl a h e.1 (Config.freeWord 2 (free * 1024 + e.2)).toNat) }

/-- `MMA_COMPLETE` (R192): 32 cycles after its start. -/
def execMmaComplete (id : Nat) (s : State) : Out :=
  match s.started? id with
  | none => ev s
  | some (p, x) =>
    match x.cmd.op with
    | .mma n pa pb h =>
      let (k, s) := s.fresh
      ev (completeCmd (s.updCore p.mc (fun c => c.setAcc n (mmaResult c n pa pb h k))) id (.val 0))
    | _ => ev s

/-- A drain profile from its bytes (R194). -/
def profileOf (m : Nat) : Profile where
  lo := BitVec.ofNat 32 m
  exp := BitVec.ofNat 32 (m >>> 32)
  stride := BitVec.ofNat 64 (m >>> 64)
  seg := (List.range 256).map (fun i => (BitVec.ofNat 32 (m >>> (128 + 64 * i)), BitVec.ofNat 32 (m >>> (160 + 64 * i))))
/-- Whether a profile is accepted (R194). -/
def profileOk (p : Profile) : Bool :=
  let e := toSigned 32 p.exp.toNat
  decide (-126 ≤ e) && decide (e ≤ 127) && bits p.lo.toNat 30 23 != 255

/-- `ATBL_COMPLETE` (R194). -/
def execAtblComplete (id : Nat) (s : State) : Out :=
  match s.started? id with
  | none => ev s
  | some (p, x) =>
    match lowestPoison x.pois with
    | some w => ev (commandFaulted s id 0 (poisonFault w))
    | none =>
      let pr := profileOf (x.bytesOf soleUnit)
      if profileOk pr then
        ev (completeCmd (s.updCore p.mc (fun c =>
          { c with profiles := c.profiles.filter (fun y => y.1 != p.q.ctx) ++ [(p.q.ctx, pr)] })) id (.val 0))
      else ev (commandFaulted s id 0 ⟨.illegalOperand, 0, 0, 0, false⟩)

/-- `DRAIN_COMPLETE` (R196): every row's writes are acknowledged; D gets 32. -/
def execDrainComplete (id : Nat) (s : State) : Out := ev (completeCmd s id (.val 32))

/-- `DRNM_ROW` (R197): the next row of a `drnm` leaves as a message, once there is room; after the last, D gets 32. -/
def execDrnmRow (id : Nat) (s : State) : Out :=
  match s.started? id with
  | none => ev s
  | some (_, x) =>
    match x.cmd.op, x.stage with
    | .drnm _ _ _ _ _ a _, 1 =>
      let i := x.pos
      if !rowRoom s (rowMsg x a) then ev s
      else
        let s := s.updStarted id (fun x => { x with pos := i + 1 })
        let s := if x.doneUnits.contains i then s else msgArrive s (rowMsg x a)
        ev (if i + 1 < 32 then s else completeCmd s id (.val 32))
    | _, _ => ev s

/-- What an answered access makes of a matrix command (R189, R194, R195): the next step once all have come. -/
def matrixAnswered (s : State) (id : Nat) : State :=
  match s.started? id with
  | none => s
  | some (_, x) =>
    if !x.allDone || x.fault.isSome then s
    else match x.cmd.op with
      | .pld _ _ _ _ _ | .pldt _ _ _ _ => s.post [.podLoadComplete id]
      | .atbl _ => s.post [.atblComplete id]
      | .drn _ _ _ _ _ _ _ _ _ _ =>
        if x.stage = 0 then
          (match lowestPoison x.pois with
            | some w => poisonCmd s x (poisonFault w)
            | none => drainNow s id (some (x.bytesOf soleUnit)))
        else s.post [.drainComplete id]
      | .drnm _ _ _ _ _ _ _ =>
        (match lowestPoison x.pois with
          | some w => poisonCmd s x (poisonFault w)
          | none => drainNow s id (some (x.bytesOf soleUnit)))
      | _ => s

end Sys2Proof.Machine
end

