-- ==== Sys2Proof/Machine/Husk.lean ====
section
/-! DEFINITION. The Husk: opening, arrivals, application in position order, deadline, release, notification, abort and
status (spec 09 R224-R232, R392). -/
namespace Sys2Proof.Machine
open Sys2Proof

/-- Word at an offset of an open descriptor (R225). -/
def dscAt (d : List Word) (off : Nat) : Word := d.getD (off / 8) 0
/-- CFG of a descriptor. -/
def dscCfg (d : List Word) : Word := dscAt d 0x08
/-- NEXP. -/
def dscNexp (d : List Word) : Nat := fld (dscCfg d) 2 0 + 1
/-- WIDTH. -/
def dscWidth (d : List Word) : Nat := 64 * fld (dscCfg d) 24 16
/-- EXP[i], 16 bits. -/
def dscExp (d : List Word) (i : Nat) : Nat := fld (dscAt d (0x10 + 8 * (i / 4))) (16 * (i % 4) + 15) (16 * (i % 4))
/-- The expert list. -/
def dscList (d : List Word) : List Nat := (List.range (dscNexp d)).map (dscExp d)
/-- WT[i]. -/
def dscWt (d : List Word) (i : Nat) : XR := decodeF 0 (fld (dscAt d (0x20 + 8 * (i / 2))) (32 * (i % 2) + 31) (32 * (i % 2)))
/-- POL. -/
def dscPol (d : List Word) : Nat := fld (dscCfg d) 6 5
/-- ORD. -/
def dscOrd (d : List Word) : Bool := bit (dscCfg d).toNat 7
/-- NK. -/
def dscNk (d : List Word) : Bool := bit (dscCfg d).toNat 8
/-- Bytes of an element of a result (IN). -/
def dscIn (d : List Word) : Nat := if bit (dscCfg d).toNat 3 then 4 else 2
/-- Lines of a result vector (R227). -/
def dscLines (d : List Word) : Nat := dscWidth d * dscIn d / 128

/-- The checks of a descriptor that take the illegal-operand trap (R225, R226). -/
def dscOk (d : List Word) : Bool :=
  let cfg := dscCfg d
  let w := fld cfg 24 16
  let exps := dscList d
  fld cfg 15 9 == 0 && fld cfg 63 25 == 0 && dscPol d != 3 && w != 0 && decide (w ≤ 256)
    && exps.all (fun e => e < 4096) && exps.eraseDups.length == exps.length
    && (dscAt d 0x40).toNat % 128 == 0 && (dscPol d != 2 || (dscAt d 0x50).toNat % 128 == 0)
    && (if dscNk d then fld (dscAt d 0x58) 63 43 == 0 && fld (dscAt d 0x58) 31 6 == 0 else (dscAt d 0x58).toNat % 16 == 0)
    && fld (dscAt d 0x60) 63 22 == 0 && [0x68, 0x70, 0x78].all (fun o => dscAt d o == 0)

/-- The queue a notification goes to: context core and offset (R226). -/
def ntfQueue (cc : Nat) (d : List Word) : Option (Nat × Nat) :=
  match windowOf cc (dscAt d 0x58).toNat with
  | .scratch c off => some (c, off)
  | _ => none

/-- The counter of a context core, resident or in its image. -/
def counterOf (s : State) (ctx cc n : Nat) : Counter :=
  match s.image? ctx cc with
  | some im => im.state.counter n
  | none => (s.core (s.mcOf ctx cc)).counter n

/-- The targets of a descriptor (R226): queue or counter of the context, a `dev` guard below the table's size. -/
def dscTargets (s : State) (ctx cc : Nat) (d : List Word) : Bool :=
  let c := s.ctxD ctx
  let g := fld (dscAt d 0x60) 21 0
  (if dscNk d then c.has (fld (dscAt d 0x58) 42 32)
      && (counterOf s ctx (fld (dscAt d 0x58) 42 32) (fld (dscAt d 0x58) 5 0)).owner == some ctx
    else match ntfQueue cc d with
      | some (q, off) => (s.queue? ctx q off).isSome
      | none => false)
    && decide (g < c.gsize) && (c.scopeOf g).scope == 0

/-- A slot handle (R224). -/
def handleOf (die : Nat) (x : HSlot) : Word := BitVec.ofNat 64 (x.gen % 2 ^ 16 * 2 ^ 16 + die * 2 ^ 12 + x.idx)
/-- A slot of a die's Husk by number. -/
def Husk.slot? (h : Husk) (i : Nat) : Option HSlot := h.slots.find? (fun x => x.idx == i)
/-- A Husk with a slot replaced, or listed. -/
def Husk.setSlot (h : Husk) (x : HSlot) : Husk :=
  if h.slots.any (fun y => y.idx == x.idx) then { h with slots := h.slots.map (fun y => if y.idx == x.idx then x else y) }
  else { h with slots := h.slots ++ [x] }
/-- A state with a function applied to a slot. -/
def State.updSlot (s : State) (die i : Nat) (f : HSlot → HSlot) : State :=
  let h := s.husk die
  match h.slot? i with
  | some x => s.setHusk (h.setSlot (f x))
  | none => s
/-- The slot that a handle names on a die, unless it is stale (R224). -/
def handleSlot (s : State) (die : Nat) (h : Word) : Option HSlot :=
  if h &&& ~~~(0xFFFF33FF : Word) = 0 ∧ fld h 13 12 = die then
    match (s.husk die).slot? (fld h 9 0) with
    | some x => if x.gen % 2 ^ 16 = fld h 31 16 then some x else none
    | none => none
  else none

/-- Agent identity of a die's Husk (R230). -/
def huskAgent (die : Nat) : Nat := 0xFFFF8 + die

/-- A late-ring record (R232). -/
def State.lateRecord (s : State) (die slot : Nat) (token handle : Word) (expert pos reason : Nat) : State :=
  s.collect 3 die slot
    [token, handle, BitVec.ofNat 64 (reason % 16 * 2 ^ 16 + pos % 16 * 2 ^ 12 + expert % 2 ^ 12), BitVec.ofNat 64 s.now] none
/-- A late arrival (R227): its record, and the late counter, which counts it, written or not (R391). -/
def State.late (s : State) (die slot : Nat) (token handle : Word) (expert pos reason : Nat) : State :=
  let h := s.husk die
  (s.setHusk { h with late := h.late + 1 }).lateRecord die slot token handle expert pos reason

/-- The stamps of a die's Husk: none, or its hold on the output guard (R230, R392). -/
def huskStamps (s : State) (ctx : Nat) (h : Option Hold) : Stamps where
  holds := h.toList
  wg := h.map (·.guard)
  launch := none
  path := []
  marks := []
  barred := false
  report := fld (s.ctxD ctx).mode 1 0 == 1
  core := none

/-- An access of a die's Husk (R392). -/
def huskLine (s : State) (die ctx : Nat) (kind : AKind) (va : Nat) (data : BitVec 1024) (h : Option Hold) : Access where
  id := 0
  ctx := ctx
  core := Config.cores
  agent := huskAgent die
  kind := kind
  va := va
  size := 128
  data := data
  exp := 0
  be := BitVec.allOnes 128
  remoteOk := false
  pc := 0
  st := huskStamps s ctx h
  sink := .none
  pa := none
  key := 0

/-- Whether the Husk's accesses to some lines come in the lines' logged order (R377). -/
def huskTurn (s : State) (die ctx : Nat) (kind : AKind) (vas : List Nat) : Bool :=
  vas.all (fun va => match spotOf s ctx Config.cores va (AKind.isWrite kind) true with
    | .ok (.at_ k _) => lineTurn s (huskLine s die ctx kind va 0 none) k
    | _ => true)

/-- An access of a die's Husk performed at one point (R392): the state and what its home answered; none where its
translation failed. What its step sends waits for the race record that it may make (R310): the step sees to it. -/
def huskAccess (s : State) (die ctx : Nat) (kind : AKind) (va : Nat) (data : BitVec 1024) (h : Option Hold) :
    State × Option HomeRes :=
  let a := huskLine s die ctx kind va data h
  match spotOf s ctx Config.cores va (AKind.isWrite kind) true with
  | .ok (.at_ k key) =>
    let (s, r, rec) := lineAccess s a k key
    let s := match rec with
      | some w => s.collect 0 (dieOfKey k) (unitOfKey k) w none
      | none => s
    (s, some r)
  | _ => (s, none)

/-- `acc[e] := RNE32(acc[e] + w * x[e])` for every element (R228). -/
def applyVec (acc : List (BitVec 32)) (w : XR) (x : Nat → XR) : List (BitVec 32) :=
  acc.zipIdx.map (fun p => BitVec.ofNat 32 (roundF 0 0 (XR.add false (decodeF 0 p.1.toNat) (XR.mul w (x p.2)))))

/-- Element e of the arrived result of a position, widened from IN (R228). -/
def arrivedEl (x : HSlot) (p e : Nat) : XR :=
  let n := 128 / dscIn x.desc
  let line := ((x.lines.find? (fun l => l.1 == p && l.2.1 == e / n)).map (fun l => l.2.2.toNat)).getD 0
  if dscIn x.desc = 4 then decodeF 0 (bits line (32 * (e % n) + 31) (32 * (e % n)))
  else decodeF 1 (bits line (16 * (e % n) + 15) (16 * (e % n)))

/-- What is logged of an opening that `hclose` ended: no SUB (R377; log entry 54). -/
def closedSub : Nat := 256
/-- The end of a slot's present opening logged, or its entry used: SUB, 0 where no position is missing, or `closedSub` (R377). -/
def State.logSub (s : State) (die : Nat) (x : HSlot) (sub : Nat) : State :=
  s.served x.ctx (.slot die x.idx) (huskAgent die) (BitVec.ofNat 64 sub)
/-- SUB that a replay imposes on a slot's present opening, where that opening was released (R377). -/
def replaySub (s : State) (ctx die slot : Nat) : Option Nat :=
  ((s.replayNext ctx (.slot die slot)).map (·.val.toNat)).filter (· < closedSub)
/-- The positions that a replay does not apply as they arrive: those of SUB, and all of an opening that was closed (R377). -/
def heldBack (s : State) (ctx die slot : Nat) : Nat :=
  ((s.replayNext ctx (.slot die slot)).map (fun e => if e.val.toNat < closedSub then e.val.toNat else 255)).getD 0

/-- Positions applied as far as they have arrived, in ascending order (R228); one that a replay treats as missing stops
them (R377). -/
def applyReady (sub : Nat) : Nat → HSlot → HSlot
  | 0, x => x
  | n + 1, x =>
    let p := dscNexp x.desc - (n + 1)
    if bit x.applied.toNat p then applyReady sub n x
    else if bit x.arr.toNat p && !bit sub p then
      applyReady sub n { x with acc := applyVec x.acc (dscWt x.desc p) (arrivedEl x p), applied := x.applied ||| BitVec.ofNat 8 (2 ^ p) }
    else x

/-- Whether every position has been applied (R230). -/
def allApplied (x : HSlot) : Bool := (List.range (dscNexp x.desc)).all (bit x.applied.toNat)

/-- Release begins (R230): the Husk asks for the output guard. -/
def beginRelease (s : State) (die slot : Nat) : State :=
  match (s.husk die).slot? slot with
  | none => s
  | some x =>
    (s.updSlot die slot (fun x => { x with st := .releasing })).post [.guardRequestAtHome
      { ctx := x.ctx, idx := fld (dscAt x.desc 0x60) 21 0, agent := huskAgent die, who := .husk die slot,
        op := .acquire true false, pred := none, dest := none, acc := 0, pc := 0, parks := true, tickets := false }]

/-- The next position applied and, after the last, release begun. -/
def huskApply (s : State) (die slot : Nat) : State :=
  match (s.husk die).slot? slot with
  | none => s
  | some x =>
    let x' := applyReady (heldBack s x.ctx die slot) (dscNexp x.desc) x
    let s := s.updSlot die slot (fun _ => x')
    if allApplied x' then beginRelease (s.logSub die x' 0) die slot else s

/-- Whether a deadline is past (R227, R229); a replay takes its timeouts from the log (R377). -/
def pastDeadline (s : State) (x : HSlot) : Bool :=
  (s.ctxD x.ctx).replay != 2 && decide ((dscAt x.desc 0x48).toNat ≤ s.now)

/-- Why a line that reaches a slot is late, if it is (R227, R232): the slot is closed; it lies outside the vector or the
list; it was written before; it comes at or after the deadline, at which release has begun, or a replay takes its position as missing
(R377). Of several that apply the first of these is logged (DESIGN CHOICE, log entry 60). -/
def lateReason (s : State) (x : HSlot) (l : HLine) : Option Nat :=
  if x.st = .free then some (if x.aborted then 4 else 1)
  else if dscNexp x.desc ≤ l.pos ∨ dscLines x.desc ≤ l.line then some 3
  else if x.lines.any (fun y => y.1 == l.pos && y.2.1 == l.line) then some 2
  else if x.st = .open_ ∧ !pastDeadline s x ∧ !(replaySub s x.ctx l.die x.idx).any (bit · l.pos) then none
  else some 5

/-- `HUSK_ARRIVAL` (R227, R228): a line accepted, or logged late and discarded. A line of an `hput` whose slot has been
opened again is a stale handle's: its record names that handle and no token. -/
def execHuskArrival (l : HLine) (s : State) : Out :=
  let stale (g : Nat) : Out :=
    ev (s.late l.die l.slot 0 (BitVec.ofNat 64 (g % 2 ^ 16 * 2 ^ 16 + l.die * 2 ^ 12 + l.slot)) l.expert l.pos 1)
  match (s.husk l.die).slot? l.slot with
  | none => stale (l.gen.getD 0)
  | some x =>
    if l.gen.any (· != x.gen) then stale (l.gen.getD 0)
    else match lateReason s x l with
    | some reason =>
      let ex := if l.gen.isSome then l.expert else if l.pos < dscNexp x.desc then dscExp x.desc l.pos else 0
      ev (s.late l.die l.slot (dscAt x.desc 0) (handleOf l.die x) ex l.pos reason)
    | none =>
      let lines := x.lines ++ [(l.pos, l.line, l.data)]
      let full := (lines.filter (fun y => y.1 == l.pos)).length == dscLines x.desc
      let s := s.updSlot l.die l.slot (fun x =>
        { x with lines := lines, arr := if full then x.arr ||| BitVec.ofNat 8 (2 ^ l.pos) else x.arr })
      ev (if full then huskApply s l.die l.slot else s)

/-- The lines of the substitute vector of a position (R229). -/
def subLines (x : HSlot) (p : Nat) : List Nat :=
  (List.range (dscWidth x.desc / 32)).map (fun i => (dscAt x.desc 0x50).toNat + p * dscWidth x.desc * 4 + 128 * i)
/-- The lines of the substitute vectors that a slot's deadline reads: of the positions that have not arrived (R229). -/
def deadlineLines (x : HSlot) : List Nat :=
  if dscPol x.desc = 2 then ((List.range (dscNexp x.desc)).filter (fun p => !bit x.arr.toNat p)).flatMap (subLines x) else []

/-- The substitute vector of a position read line by line (R229): FP32 elements; a line that cannot be read contributes
nothing and is logged. -/
def readSub (x : HSlot) (die p : Nat) : List Nat → State → List (Nat × Nat) → State × List (Nat × Nat)
  | [], s, got => (s, got)
  | i :: is, s, got =>
    let va := (dscAt x.desc 0x50).toNat + p * dscWidth x.desc * 4 + 128 * i
    let (s, r) := huskAccess s die x.ctx .read va 0 none
    match r with
    | some (.value w) => readSub x die p is s (got ++ [(i, w.toNat)])
    | _ => readSub x die p is (s.lateRecord die x.idx (dscAt x.desc 0) (handleOf die x) (dscExp x.desc p) p 6) got

/-- A position applied at the deadline (R229): an arrived one as it is; a missing one by the policy. -/
def deadlinePos (s : State) (die slot p : Nat) : State :=
  match (s.husk die).slot? slot with
  | none => s
  | some x =>
    let mark (x : HSlot) : HSlot := { x with applied := x.applied ||| BitVec.ofNat 8 (2 ^ p) }
    if bit x.applied.toNat p then s
    else if !bit x.sub.toNat p then
      s.updSlot die slot (fun x => mark { x with acc := applyVec x.acc (dscWt x.desc p) (arrivedEl x p) })
    else if dscPol x.desc = 2 then
      let (s, got) := readSub x die p (List.range (dscWidth x.desc / 32)) s []
      let acc := x.acc.zipIdx.map (fun e =>
        match got.find? (fun g => g.1 == e.2 / 32) with
        | some g => BitVec.ofNat 32 (roundF 0 0 (XR.add false (decodeF 0 e.1.toNat)
            (XR.mul (dscWt x.desc p) (decodeF 0 (bits g.2 (32 * (e.2 % 32) + 31) (32 * (e.2 % 32)))))))
        | none => e.1)
      s.updSlot die slot (fun x => mark { x with acc := acc })
    else s.updSlot die slot mark

/-- RENORM at the deadline (R229). -/
def renorm (x : HSlot) : HSlot :=
  let ps := (List.range (dscNexp x.desc)).filter (fun p => !bit x.sub.toNat p)
  let sum := ps.foldl (fun v p => rne32 (XR.add false v (dscWt x.desc p))) (.fin false 0 0)
  let zero : List (BitVec 32) := List.replicate (dscWidth x.desc) 0
  let all : BitVec 8 := BitVec.ofNat 8 (2 ^ dscNexp x.desc - 1)
  if sum.isZero then { x with acc := zero, applied := all }
  else
    { x with acc := ps.foldl (fun acc p => applyVec acc (rne32 (XR.div (dscWt x.desc p) sum)) (arrivedEl x p)) zero
             applied := all }

/-- `HUSK_DEADLINE` (R229, R377). -/
def execHuskDeadline (die slot : Nat) (s : State) : Out :=
  match (s.husk die).slot? slot with
  | none => ev s
  | some x =>
    if x.st != .open_ then ev s
    else
      let n := dscNexp x.desc
      let miss := (List.range n).foldl (fun m p => if bit x.arr.toNat p then m else m + 2 ^ p) 0
      let sub := (replaySub s x.ctx die slot).getD miss
      let s := s.logSub die x sub
      let s := s.updSlot die slot (fun x => { x with sub := BitVec.ofNat 8 sub })
      let s := if dscPol x.desc = 1 then s.updSlot die slot renorm
        else (List.range n).foldl (fun s p => deadlinePos s die slot p) s
      ev (beginRelease s die slot)

/-- The bytes of an output line (R230). -/
def outLine (x : HSlot) (i : Nat) : BitVec 1024 :=
  if bit (dscCfg x.desc).toNat 4 then
    BitVec.ofNat 1024 (packBits 32 ((List.range 32).map (fun j => (x.acc.getD (32 * i + j) 0).toNat)))
  else
    BitVec.ofNat 1024 (packBits 16 ((List.range 64).map (fun j => roundF 1 0 (decodeF 0 (x.acc.getD (64 * i + j) 0).toNat))))
/-- Output lines of a slot. -/
def outLines (d : List Word) : Nat := dscWidth d * (if bit (dscCfg d).toNat 4 then 4 else 2) / 128

/-- One output line written, or refused and logged (R230). -/
def writeOut (die : Nat) (x : HSlot) (s : State) (i : Nat) : State :=
  let (s, r) := huskAccess s die x.ctx .write ((dscAt x.desc 0x40).toNat + 128 * i) (outLine x i) x.hold
  match r with
  | some .done => s
  | _ => (s.lateRecord die x.idx (dscAt x.desc 0) (handleOf die x) i 0 7).updSlot die x.idx (fun x => { x with outf := true })

/-- `HUSK_RELEASE` (R230): the output written under the guard, which is then released. -/
def execHuskRelease (die slot : Nat) (s : State) : Out :=
  match (s.husk die).slot? slot with
  | none => ev s
  | some x =>
    match x.hold with
    | none => ev s
    | some h =>
      let s := (List.range (outLines x.desc)).foldl (writeOut die x) s
      let s := s.updSlot die slot (fun x => { x with st := .written })
      ev (s.post [.guardRequestAtHome
        { ctx := x.ctx, idx := h.guard, agent := huskAgent die, who := .husk die slot, op := .release, pred := none,
          dest := none, acc := 0, pc := 0, parks := false, tickets := false }])

/-- Word 0x08 of the token record (R230). -/
def tokenWord (die : Nat) (x : HSlot) : Word :=
  BitVec.ofNat 64 (x.arr.toNat + x.sub.toNat * 2 ^ 8 + x.idx * 2 ^ 16 + die * 2 ^ 26 + x.outf.toNat * 2 ^ 28)

/-- Whether two slots notify one target (R230). -/
def sameTarget (x y : HSlot) : Bool :=
  x.ctx == y.ctx && dscNk x.desc == dscNk y.desc && (if dscNk x.desc then dscAt x.desc 0x58 == dscAt y.desc 0x58
    else ntfQueue x.core x.desc == ntfQueue y.core y.desc)

/-- Whether a slot has ended its release and has its guard back (R230). -/
def HSlot.ready (x : HSlot) : Bool := x.st == .written && x.hold.isNone
/-- Whether a slot may notify now (R230, R377): after every earlier-opened ORDERED slot of its target, or, once the tick in
which it ended is over, after the EARLY slots of lower index that ended in it; with two entries free where a queue is
told. -/
def mayNotify (s : State) (die : Nat) (x : HSlot) : Bool :=
  let h := s.husk die
  let busy (y : HSlot) : Bool := y.st == .open_ || y.st == .releasing || y.st == .written
  x.ready
    && (if dscOrd x.desc then
          !h.slots.any (fun y => busy y && dscOrd y.desc && sameTarget x y && decide (y.opened < x.opened))
        else decide (x.ended < s.now)
          && !h.slots.any (fun y => y.ready && !dscOrd y.desc && y.ended == x.ended && decide (y.idx < x.idx))
          && (match s.replayNext x.ctx (.slot die huskSlots) with
            | some e => e.val == BitVec.ofNat 64 x.idx
            | none => true))
    && (dscNk x.desc || (match (ntfQueue x.core x.desc) with
      | none => true
      | some (q, off) => (s.queue? x.ctx q off).isNone
          || decide (reservedFor s x.ctx (huskAgent die) (.queue q off true) + 2 ≤ avail s x.ctx (.queue q off true))))

/-- Items pushed by the Husk to a queue; what is there is offered to the poppers (R230, R290). -/
def huskPush (s : State) (x : HSlot) (ws : List Word) : Option State :=
  match (ntfQueue x.core x.desc) with
  | none => none
  | some (c, off) =>
    (s.queue? x.ctx c off).map (fun q =>
      (s.setQueue x.ctx c { q with items := q.items ++ ws.map (fun w => (w, true)) }).offer x.ctx (.queue c off false))

/-- `HUSK_NOTIFY` (R230, R231, R232): the notification made; the slot frees, its futures are delivered, an acquire for their
threads (R237), and a waiting `hopen` is offered the unit. -/
def execHuskNotify (die slot : Nat) (s : State) : Out :=
  match (s.husk die).slot? slot with
  | none => ev s
  | some x =>
    if !mayNotify s die x then ev s
    else
      let w := tokenWord die x
      let s := if dscOrd x.desc then s else s.served x.ctx (.slot die huskSlots) (huskAgent die) (BitVec.ofNat 64 x.idx)
      let s := if dscNk x.desc then
          s.post [.counterIncrement x.ctx (fld (dscAt x.desc 0x58) 42 32) (fld (dscAt x.desc 0x58) 5 0)]
        else match huskPush s x [dscAt x.desc 0, w] with
          | some s => s
          | none => s.lateRecord die slot (dscAt x.desc 0) (handleOf die x) 0 0 8
      let s := s.traceAt x.ctx die (huskAgent die) 0 0 7 (handleOf die x).toNat 0
      let s := s.post (x.futures.map (fun f => .taggedDelivery ⟨f.1, f.2, .val (w.setWidth 1024), none⟩))
      let s := x.futures.foldl (fun s f => if (s.thread? f.1).isSome then s.dropStale (s.homeOf f.1) else s) s
      let s := s.updSlot die slot (fun x => { x with st := .free, word8 := w, futures := [] })
      ev (s.offer x.ctx (.husk die))

/-- The die of a thread's core. -/
def dieOfThread (s : State) (t : Thread) : Nat := dieOf (s.homeOf t.ref)

/-- The words of an open descriptor read by the issuing thread (R226). -/
def readDesc (t : Thread) (a : Word) : List Nat → State → List Word → Ev (List Word × State)
  | [], s, ws => .ok (ws, s)
  | i :: is, s, ws => do
    let (w, s) ← (if i = 0 then id else afterLoad s) (loadWait s t (a + BitVec.ofNat 64 (8 * i)) false)
    readDesc t a is s (ws ++ [w])

/-- A thread that leaves the rotation until the Husk of its die answers (R224). -/
def askHusk (s : State) (t : Thread) (i : Instr) (a : Word) (wd : BitVec 2) (desc : List Word) (ask : HAsk) : Done :=
  let (id, s) := s.fresh
  let d := Disp.ofCode wd
  let p := mkPending id t.pc {} a 0 0 [] [] .none (some i)
  .settled ((s.updThread t.ref (fun t => { t with pend := t.pend ++ [p], run := .waiting .reply })).post
    [.huskOpen ⟨t.ref, id, dieOfThread s t, desc, d == .branch || d == .flag, d == .park, ask⟩])

/-- The body of `hopen` (R226). A descriptor that is not 128-byte aligned takes the alignment fault at issue; R226 does not
say which trap: DESIGN CHOICE (log entry 58). -/
def hopenBody (f : EForm) (s : State) (t : Thread) : Ev Done := do
  let a ← srcW s t f.A
  if a.toNat % 128 ≠ 0 then failAt .alignment a
  fenceGate s t
  let (ws, s) ← readDesc t a (List.range 16) s []
  pure (askHusk s t (.hopen f) a f.wd ws .opening)
/-- `hopen` (R226). -/
def execHopen (f : EForm) (s : State) : Out := issue true f.toHead f.nro (hopenBody f) s

/-- The instruction with which a pending entry waits for the Husk. -/
def huskForm (p : Pending) : Option EForm :=
  match p.req with
  | some (.hopen f) | some (.hclose f) | some (.hstat f) => some f
  | _ => none
/-- The `hopen`, `hclose` or `hstat` that a thread waits with under a number. -/
def hopenOf (t : Thread) (acc : Nat) : Option EForm := (t.pend.find? (fun p => p.id == acc)).bind huskForm

/-- The free slot of a die's Husk that opens next: the lowest, as R358 takes it for its run (DESIGN CHOICE, log entry 60). -/
def freeSlot (s : State) (die : Nat) : Option Nat :=
  (List.range huskSlots).find? (fun i => !((s.husk die).slots.any (fun x => x.idx == i && x.st != .free)))

/-- A slot opened (R226). -/
def openSlot (s : State) (r : HOpen) (cc i : Nat) : State × Word :=
  let h := s.husk r.die
  let gen := (((h.slot? i).map (·.gen)).getD 0 + 1) % 2 ^ 16
  let x : HSlot := { idx := i, gen := gen, st := .open_, ctx := r.t.ctx, desc := r.desc,
                     acc := List.replicate (dscWidth r.desc) 0, arr := 0, sub := 0, applied := 0, lines := [],
                     opened := h.opens, core := cc, outf := false, futures := [], word8 := 0, hold := none, ended := 0,
                     aborted := false }
  (s.setHusk { h.setSlot x with opens := h.opens + 1 }, handleOf r.die x)

/-- A POIS future of an aborted slot (R231). -/
def abortWord (die : Nat) (h : Word) : Word := poisonWord 4 4 die h.toNat

/-- Whether the slot that a replay has logged for an `hopen` is free; the request waits at the Husk for it (R377; log entry
54). -/
def loggedSlotFree (s : State) (r : HOpen) (n : Nat) : Bool :=
  match s.replayNext r.t.ctx (.timing r.t.agent n) with
  | some e => ((s.husk r.die).slot? e.val.toNat).all (fun x => x.st == .free)
  | none => true
/-- An open request at the Husk (R225, R226); a SLOT that a replay has logged is given, and the slot that opens is logged
(R377; log entry 54). -/
def huskOpened (r : HOpen) (f : EForm) (t : Thread) (s : State) : State :=
  let o := WObj.husk r.die
  if !canTake s r.t.ctx r.t.agent o || s.mustRefuse r.t.ctx r.t.agent t.icount then
    let s := if r.parks || r.tickets then s.enter r.t o r.parks false 0 none else s
    s.outcome t f.wd f.nro .slot o 0
  else if !dscOk r.desc then s.takeTrap t .illegalOperand {} t.pc t.pc .none
  else if !dscTargets s r.t.ctx (TRef.cc r.t) r.desc then s.takeTrap t .protection {} t.pc t.pc .none
  else match freeSlot s r.die with
    | none => s
    | some i =>
      let (i, s) := s.timingAt r.t t.icount (BitVec.ofNat 64 i)
      let (s, h) := openSlot s r (TRef.cc r.t) i.toNat
      let s := s.took r.t.ctx r.t.agent o
      finish s true f.toHead f.nro r.t (.next (writeW s r.t f.D h))

/-- A close request at the Husk (R231): an open slot aborts, and 1 answers; else 0 does. That its opening ends so is logged
(R377, R378). -/
def huskClosed (r : HOpen) (f : EForm) (a : Word) (s : State) : State :=
  match (handleSlot s r.die a).filter (fun x => x.st == .open_) with
  | some x =>
    let s := s.post (x.futures.map (fun fu => .taggedDelivery ⟨fu.1, fu.2, .pois (abortWord r.die a), none⟩))
    let s := s.updSlot r.die x.idx (fun x => { x with st := .free, aborted := true, futures := [] })
    let s := if (s.replayNext x.ctx (.slot r.die x.idx)).isNone then s.notLogged r.t else s
    let s := s.logSub r.die x closedSub
    finish s false f.toHead f.nro r.t (.next (writeW (s.offer x.ctx (.husk r.die)) r.t f.D 1))
  | none => finish s false f.toHead f.nro r.t (.next (writeW s r.t f.D 0))

/-- The word of `hstat` (R231). -/
def hstatWord (s : State) (die : Nat) (h : Word) : Word :=
  match (s.husk die).slot? (fld h 9 0) with
  | none => 0
  | some x =>
    let st := match handleSlot s die h with
      | none => 0
      | some x => (match x.st with
        | .free => 0
        | .open_ => 1
        | _ => 2)
    BitVec.ofNat 64 (x.sub.toNat * 2 ^ 48 + x.applied.toNat * 2 ^ 40 + x.arr.toNat * 2 ^ 32 + x.gen % 2 ^ 16 * 2 ^ 16 + st)

/-- `HUSK_OPEN` (R224, R226, R231): the Husk answers a request, and the thread goes on with its reply. -/
def execHuskOpen (r : HOpen) (s : State) : Out :=
  match s.thread? r.t with
  | none => ev s
  | some t =>
    match hopenOf t r.acc with
    | none => ev s
    | some f =>
      let s := s.updThread r.t (fun t => { t with run := .ready, pend := t.pend.filter (fun p => p.id != r.acc) })
      match r.ask with
      | .opening => ev (huskOpened r f { t with run := .ready, pend := [] } s)
      | .closing h => ev (huskClosed r f h s)
      | .status h =>
        let (w, s) := s.timingAt r.t t.icount (hstatWord s r.die h)
        ev (finish s false f.toHead f.nro r.t (.next (writeW s r.t f.D w)))

/-- The body of `hclose` (R224, R231). -/
def hcloseBody (f : EForm) (s : State) (t : Thread) : Ev Done := do
  let a ← srcW s t f.A
  fenceGate s t
  pure (askHusk s t (.hclose f) a f.wd [] (.closing a))
/-- `hclose` (R231). -/
def execHclose (f : EForm) (s : State) : Out := issue false f.toHead f.nro (hcloseBody f) s

/-- The body of `hstat` (R231): with W a future; without, the thread waits for the Husk's reply (R224). What a slot has
notified already is received at once (R237). -/
def hstatBody (f : EForm) (s : State) (t : Thread) : Ev Done := do
  let a ← srcW s t f.A
  let die := dieOfThread s t
  if !f.flag 0 then pure (askHusk s t (.hstat f) a f.wd [] (.status a))
  else do
    let (tag, s) ← takeTag s t 4
    let s := s.updThread t.ref (fun t => t.setPend f.D tag)
    let now (s : State) (v : DVal) : State := s.post [.taggedDelivery ⟨t.ref, tag, v, none⟩]
    match handleSlot s die a with
    | none => pure (.next (now s (.val 0)))
    | some x =>
      if x.st == .free then
        pure (.next (if x.aborted then now s (.pois (abortWord die a))
          else now (s.dropStale (s.homeOf t.ref)) (.val (x.word8.setWidth 1024))))
      else pure (.next (s.updSlot die x.idx (fun x => { x with futures := x.futures ++ [(t.ref, tag)] })))
/-- `hstat` (R231). -/
def execHstat (f : EForm) (s : State) : Out := issue false f.toHead f.nro (hstatBody f) s

/-- The body of `hcfg` (R224). -/
def hcfgBody (f : EForm) (s : State) (t : Thread) : Ev Done := do
  let a ← srcW s t f.A
  let die := dieOfThread s t
  let c := s.ctxD t.ref.ctx
  let ceil := ((c.ceil.find? (fun p => p.1 == die)).map (·.2)).getD 0
  let q := Nat.min (fld a 10 0) ceil
  let s := s.updCtx c.id (fun c => { c with quota := c.quota.filter (fun p => p.1 != die) ++ [(die, q)] })
  pure (.next (writeW (s.offer c.id (.husk die)) t.ref f.D (BitVec.ofNat 64 q)))
/-- `hcfg` (R224). -/
def execHcfg (f : EForm) (s : State) : Out := issue false f.toHead f.nro (hcfgBody f) s

end Sys2Proof.Machine
end

