-- ==== Sys2Proof/Machine/Transfer.lean ====
section
/-! DEFINITION. The transfer queue's commands: copies and expert results (spec 09 R202, R216-R218, R227, 11 R253,
R269). -/
namespace Sys2Proof.Machine
open Sys2Proof

/-- First and last byte of a strided span (R216). -/
def spanOf (a : Nat) (len rows : Nat) (st : Int) : Int × Int :=
  let far := (a : Int) + (rows - 1 : Nat) * st
  (min (a : Int) far, max (a : Int) far + len - 1)
/-- Whether two spans share a byte. -/
def spansMeet (x y : Int × Int) : Bool := decide (x.1 ≤ y.2) && decide (y.1 ≤ x.2)

/-- What a copy's word asks of its registers (R216), then the command appended. -/
def copyIssue (f : EForm) (g : CGuard) (word a b d : Word) (rows : Nat) (ss ds : Int) (two : Bool) (s : State) (t : Thread) :
    Ev Done := do
  let ctx := t.ref.ctx
  let len := fld d 31 0
  let nc := fld d 42 32
  need (fld d 47 43 == 0 && (two || fld d 63 48 == 0)) .illegalOperand
  need (rows != 0 && (rows ≤ 1 || decide (len ≤ ds.natAbs))) .illegalOperand
  need (len == 0 || !spansMeet (spanOf a.toNat len rows ss) (spanOf b.toNat len rows ds)) .illegalOperand
  need (f.flag 0 || nc == 0) .illegalOperand
  need (!f.flag 0 || ((s.ctxD ctx).has nc && (counterOf s ctx nc f.cn).owner == some ctx)) .protection
  appendCmd s t (.cpy a b len rows ss ds (if f.flag 0 then some (nc, f.cn) else none) two) g word .zr

/-- `cpy` (R216). -/
def execCpy (f : EForm) (s : State) : Out :=
  issueCmd f (fun g s t => do
    let a ← srcW s t f.A
    let b ← srcW s t f.B
    let d ← srcW s t f.D
    copyIssue f g (encE 0xB8 f) a b d 1 0 0 false s t) s
/-- `cpy2` (R216). -/
def execCpy2 (f : EForm) (s : State) : Out :=
  issueCmd f (fun g s t => do
    let a ← srcW s t f.A
    let b ← srcW s t f.B
    let d ← srcW s t f.D
    let e ← srcW s t (.g (Fin.ofNat 16 (f.d.toNat + 1)))
    copyIssue f g (encE 0xB9 f) a b d (fld d 63 48) (toSigned 32 (fld e 31 0)) (toSigned 32 (fld e 63 32)) true s t) s

/-- `hput` (R227): the handle, the vector's address and the expert index are read at issue. -/
def execHput (f : EForm) (s : State) : Out :=
  issueCmd f (fun g s t => do
    let a ← srcW s t f.A
    let b ← srcW s t f.B
    let d ← srcW s t f.D
    if b.toNat % 128 ≠ 0 then failAt .alignment b
    appendCmd s t (.hput a b (fld d 11 0)) g (encE 0xC9 f) .zr) s

/-- Source and destination of byte j of a copy (R216): row j / L, offset j mod L. -/
def copyByte (op : CmdOp) (j : Nat) : Nat × Nat :=
  match op with
  | .cpy a b len _ ss ds _ _ =>
    let r := j / len
    let o := j % len
    ((a + BitVec.ofInt 64 (r * ss)).toNat + o, (b + BitVec.ofInt 64 (r * ds)).toNat + o)
  | _ => (0, 0)
/-- Bytes of a copy. -/
def copyTotal : CmdOp → Nat
  | .cpy _ _ len rows _ _ _ _ => len * rows
  | _ => 0
/-- Bytes per row of a copy. -/
def copyLen : CmdOp → Nat
  | .cpy _ _ len _ _ _ _ _ => len
  | _ => 0
/-- Rows of a copy. -/
def copyRows : CmdOp → Nat
  | .cpy _ _ _ rows _ _ _ _ => rows
  | _ => 0

/-- The first byte from j on whose destination window is not done (R217). -/
def nextByte (op : CmdOp) (done : List Nat) : Nat → Nat → Option Nat
  | 0, _ => none
  | fuel + 1, j =>
    if copyTotal op ≤ j then none
    else
      let d := (copyByte op j).2
      if done.contains (d / 256) then
        nextByte op done fuel (Nat.min (j + (256 - d % 256)) ((j / copyLen op + 1) * copyLen op))
      else some j
/-- Steps that `nextByte` can need. -/
def copyFuel (op : CmdOp) : Nat := copyRows op * (copyLen op / 256 + 3) + 1

/-- The bytes of a copy that fall in a window, from byte `pos` on: (offset in the copy, length), row by row (R217). -/
def windowRuns (op : CmdOp) (pos k : Nat) : List (Nat × Nat) :=
  (List.range (copyRows op)).filterMap (fun r =>
    let d := (copyByte op (r * copyLen op)).2
    let lo := Nat.max (256 * k - d) (pos - r * copyLen op)
    let hi := Nat.min (copyLen op) (256 * k + 256 - d)
    if lo < hi then some (r * copyLen op + lo, hi - lo) else none)

/-- Runs cut where the source or the destination passes a line, which cuts them at pages too (R269). -/
def cutRuns (op : CmdOp) : Nat → Nat → Nat → List (Nat × Nat)
  | 0, _, _ => []
  | fuel + 1, j, n =>
    if n = 0 then []
    else
      let (a, b) := copyByte op j
      let m := Nat.min n (Nat.min (128 - a % 128) (128 - b % 128))
      (j, m) :: cutRuns op fuel (j + m) (n - m)

/-- The agent of the streamer that reads a piece (R218, R253, R269): the copy engine of the core that owns the scratchpad,
or of the module core beside an HBM byte's home, whatever the core map holds, under its context number (R272), or its module
number where the context has none for it (log entry 48); for a remote page the agent of the port that the remote map names
(R381). -/
def streamerOf (s : State) (ctx cc va : Nat) (sp : Except FaultInfo Spot) : Nat :=
  match sp, windowOf cc va with
  | .ok (.remote x), _ =>
    (match (s.ctxD ctx).remotes.find? (fun r => r.1 == fld x.leaf 39 16) with
      | some (_, peer, ep, _) => portAgent (Config.remotePort peer ep % 16) ctx
      | none => engineId cc 2)
  | _, .scratch c _ => engineId c 2
  | .ok (.at_ k _), _ => engineId (((s.ctxD ctx).ccOf (homeCore k)).getD (homeCore k)) 2
  | _, _ => engineId cc 2

/-- Bytes that a remote page brings: the other module's, free here (log entry 26). -/
def remoteBytes (k n : Nat) : Nat :=
  (List.range 16).foldl (fun v i => v + (Config.freeWord 3 (16 * k + i)).toNat * 2 ^ (64 * i)) 0 % 2 ^ (8 * n)

/-- What one read of a copy comes to. -/
inductive ReadRes where
  | bytes (r : CopyRun)
  | poison (w : Word)
  | fault (f : FaultInfo)
  deriving DecidableEq, Repr

/-- An access of a command as a streamer makes it: its agent and the core it lies on, by which scopes are judged (R119,
R240). -/
def asStreamer (a : Access) (agent : Nat) : Access :=
  { a with agent := agent, st := { a.st with core := coreOfAgent agent } }

/-- One source piece read by its streamer (R218, R253, R255): a remote page through the context's remote map, whose lost
device poisons (kind 3). -/
def readRun (s : State) (c : Cmd) (j n : Nat) : State × ReadRes × List (Nat × List Word) :=
  let (va, dst) := copyByte c.op j
  let cc := TRef.cc c.t
  let sp := spotOf s c.t.ctx cc va false false
  let agent := streamerOf s c.t.ctx cc va sp
  match sp with
  | .error f => (s, .fault f, [])
  | .ok (.remote x) =>
    if !(s.ctxD c.t.ctx).remotes.any (fun r => r.1 == fld x.leaf 39 16) then
      (s, .fault ⟨.translation, BitVec.ofNat 64 va, x.leaf, 0, false⟩, [])
    else if s.oracle.fail % 2 = 1 then (s, .poison (poisonWord 2 3 2 va), [])
    else
      let (k, s) := s.fresh
      (s, .bytes ⟨j, dst, n, remoteBytes k n, agent⟩, [])
  | .ok (.at_ k key) =>
    let a := asStreamer (engineAccess c 2 .read va n 0 0 0) agent
    let (s, r, rec) := lineAccess s a k key
    let recs := rec.toList.map (fun w => (k, w))
    match r with
    | .value w => (s, .bytes ⟨j, dst, n, w.toNat, agent⟩, recs)
    | .poison kind => (s, .poison (poisonWord 2 kind 2 va), recs)
    | .fault f => (s, .fault f, recs)
    | .done => (s, .bytes ⟨j, dst, n, 0, agent⟩, recs)

/-- The pieces of the next packet of a copy, read line by line (R217, R269). -/
def nextPieces (x : Started) (j : Nat) : List (Nat × Nat) :=
  ((windowRuns x.cmd.op j ((copyByte x.cmd.op j).2 / 256)).map (fun r => cutRuns x.cmd.op 300 r.1 r.2)).flatten
/-- Whether the accesses of a streamer to some bytes come in their lines' logged order (R377). -/
def streamTurn (s : State) (c : Cmd) (va agent : Nat) (write : Bool) : Bool :=
  match spotOf s c.t.ctx (TRef.cc c.t) va write false with
  | .ok (.at_ k _) => lineTurn s (asStreamer (engineAccess c 2 (if write then .write else .read) va 1 0 0 0) agent) k
  | _ => true
/-- Whether the reads of a copy's next packet come in their lines' logged order (R377). -/
def readTurn (s : State) (x : Started) : Bool :=
  !x.cmd.st.report || (match nextByte x.cmd.op x.doneUnits (copyFuel x.cmd.op) x.pos with
    | none => true
    | some j => (nextPieces x j).all (fun r =>
        let va := (copyByte x.cmd.op r.1).1
        streamTurn s x.cmd va (streamerOf s x.cmd.t.ctx (TRef.cc x.cmd.t) va (spotOf s x.cmd.t.ctx (TRef.cc x.cmd.t) va false false)) false))
/-- Whether the writes of a packet come in their lines' logged order (R377). -/
def writeTurn (s : State) (x : Started) (p : Packet) : Bool :=
  p.written || p.runs.all (fun r => streamTurn s x.cmd r.dst r.agent true)

/-- What the reads of a packet come to: the bytes, where they stopped, if they did, and the race records of those that
REPORT let pass (R310). -/
structure PacketReads where
  got : List CopyRun
  stop : Option ReadRes
  recs : List (Nat × List Word)
  deriving DecidableEq, Repr

/-- Source pieces read in order up to the first that faults or is poisoned (R218). -/
def readRuns (c : Cmd) : List (Nat × Nat) → State → PacketReads → State × PacketReads
  | [], s, p => (s, p)
  | (j, n) :: l, s, p =>
    match readRun s c j n with
    | (s, .bytes r, recs) => readRuns c l s { p with got := p.got ++ [r], recs := p.recs ++ recs }
    | (s, r, recs) => (s, { p with stop := some r, recs := p.recs ++ recs })

/-- Whether a piece meets, with no gap between them, one of a group in the same destination line. -/
def goesOn (g : List CopyRun) (r : CopyRun) : Bool :=
  g.any (fun x => x.dst / 128 == r.dst / 128 && decide (x.dst ≤ r.dst + r.n) && decide (r.dst ≤ x.dst + x.n))
/-- A piece put to the groups that it meets, which become one, or alone. -/
def joinRun (l : List (List CopyRun)) (r : CopyRun) : List (List CopyRun) :=
  match l.findIdx? (fun g => goesOn g r) with
  | some i => l.take i ++ [(l.filter (fun g => goesOn g r)).flatten ++ [r]] ++ (l.drop (i + 1)).filter (fun g => !goesOn g r)
  | none => l ++ [[r]]
/-- The pieces of a packet in groups, each the bytes of one write: whatever their rows and pages, those of a destination line
without a gap between them (R217, R271). -/
def joinRuns (l : List CopyRun) : List (List CopyRun) := l.foldl joinRun []
/-- The one write of a group, by the streamer of its first piece; of two pieces with a byte the later one gives it. -/
def joined (g : List CopyRun) : CopyRun :=
  let r := g.headD ⟨0, 0, 0, 0, 0⟩
  let lo := g.foldl (fun m x => Nat.min m x.dst) r.dst
  let put (v : Nat) (x : CopyRun) : Nat :=
    let sh := 8 * (x.dst - lo)
    v - v / 2 ^ sh % 2 ^ (8 * x.n) * 2 ^ sh + x.data % 2 ^ (8 * x.n) * 2 ^ sh
  { r with
    dst := lo
    n := g.foldl (fun m x => Nat.max m (x.dst + x.n)) r.dst - lo
    data := g.foldl put 0 }

/-- `COPY_PIECE_AT_STREAMER` (R217, R218, R269): the source bytes of the next packet are read, and the packet pushed; a
poisoned line ends the copy with nothing of the packet written; past the last window the copy is complete. -/
def execCopyPieceAtStreamer (id : Nat) (s : State) : Out :=
  match s.started? id with
  | none => ev s
  | some (_, x) =>
    match nextByte x.cmd.op x.doneUnits (copyFuel x.cmd.op) x.pos with
    | none => ev (completeCmd s id (.val 0))
    | some j =>
      let k := (copyByte x.cmd.op j).2 / 256
      let s := s.updStarted id (fun x => { x with pos := j })
      let (s, p) := readRuns x.cmd (nextPieces x j) s ⟨[], none, []⟩
      let out (f : Option FaultInfo) : Instr := .copyPacketWrite ⟨id, k, p.got, f, false, none⟩
      match p.stop with
      | some (.poison w) => ev (s.collectAll p.recs (.commandFault id 0 (poisonFault w)))
      | some (.fault f) => ev (s.collectAll p.recs (out (some f)))
      | _ => ev (s.collectAll p.recs (out none))

/-- One destination piece written (R218): its fault, if its home refuses it. A remote page's bytes leave the module. -/
def writeRun (s : State) (c : Cmd) (r : CopyRun) : State × Option FaultInfo × List (Nat × List Word) :=
  let cc := TRef.cc c.t
  match spotOf s c.t.ctx cc r.dst true false with
  | .error f => (s, some f, [])
  | .ok (.remote x) =>
    if (s.ctxD c.t.ctx).remotes.any (fun y => y.1 == fld x.leaf 39 16) then (s, none, [])
    else (s, some ⟨.translation, BitVec.ofNat 64 r.dst, x.leaf, 0, false⟩, [])
  | .ok (.at_ k key) =>
    let be : BitVec 128 := if r.n = 128 then BitVec.allOnes 128 else 0
    let a := { asStreamer (engineAccess c 2 .write r.dst r.n (BitVec.ofNat 1024 r.data) 0 0) r.agent with be := be }
    let (s, res, rec) := lineAccess s a k key
    let recs := rec.toList.map (fun w => (k, w))
    match res with
    | .fault f => (s, some f, recs)
    | _ => (s, none, recs)

/-- The writes of a packet made in order (R218), the pieces of each group by one: those written, where it stopped, if it did, and the race records. -/
def writeRuns (c : Cmd) : List (List CopyRun) → State → List CopyRun → List (Nat × List Word) →
    State × List CopyRun × Option FaultInfo × List (Nat × List Word)
  | [], s, done, recs => (s, done, none, recs)
  | g :: l, s, done, recs =>
    match writeRun s c (joined g) with
    | (s, none, x) => writeRuns c l s (done ++ g) (recs ++ x)
    | (s, some f, x) => (s, done, some f, recs ++ x)

/-- The first byte of a copy from j on that is not written (R218): its window is not done, and no piece of the packet that
stopped has it. -/
def firstUnwritten (op : CmdOp) (done : List Nat) (runs : List CopyRun) : Nat → Nat → Nat
  | 0, j => j
  | fuel + 1, j =>
    match nextByte op done (copyFuel op) j with
    | none => copyTotal op
    | some j =>
      match runs.find? (fun r => decide (r.off ≤ j) && decide (j < r.off + r.n)) with
      | some r => firstUnwritten op done runs fuel (r.off + r.n)
      | none => j

/-- A packet's writes are performed and recorded: it is counted when it completes its window; a fault stops the copy at the
first byte not written (R217, R218, R269). -/
def packetWritten (s : State) (x : Started) (p : Packet) : State :=
  match p.fault with
  | some f =>
    let off := firstUnwritten x.cmd.op x.doneUnits p.runs (p.runs.length + 1) x.pos
    commandFaulted (s.updStarted p.cmd (fun x => { x with pos := off })) p.cmd 0 f
  | none =>
    let s := s.updStarted p.cmd (fun x => { x with doneUnits := x.doneUnits ++ [p.window] })
    let s := match x.cmd.op with
      | .cpy _ _ _ _ _ _ (some (core, n)) _ => s.post [.counterIncrement x.cmd.t.ctx core n]
      | _ => s
    if (nextByte x.cmd.op (x.doneUnits ++ [p.window]) (copyFuel x.cmd.op) x.pos).isNone then completeCmd s p.cmd (.val 0) else s

/-- The pieces of a packet of another module's copy written as the port's agent (R381): up to one that is refused. -/
def portRuns (c : Ctx) (agent : Nat) : List CopyRun → State → List (Nat × List Word) → State × Bool × List (Nat × List Word)
  | [], s, recs => (s, true, recs)
  | r :: l, s, recs =>
    match spotOf s c.id Config.cores r.dst true false with
    | .ok (.at_ k key) =>
      let (s, res, rec) := lineAccess s (portAccess c agent .write r.dst r.n (BitVec.ofNat 1024 r.data) .none) k key
      let recs := recs ++ rec.toList.map (fun w => (k, w))
      (match res with
        | .fault _ => (s, false, recs)
        | _ => portRuns c agent l s recs)
    | _ => (s, false, recs)
/-- A packet of a counted copy from another module (R217, R218, R381): written, and counted once its writes are performed; one that is refused, or names no port, gets a
protection response, which carries the number its sender gave it. -/
def outsidePacket (p : Packet) (port ctx : Nat) (cnt : Option (Nat × Nat)) (s : State) : State :=
  let counted (s : State) : State := s.post (cnt.toList.map (fun x => .counterIncrement ctx x.1 x.2))
  match s.ctx? ctx with
  | none => s
  | some c =>
    if p.written then counted s
    else if 16 ≤ port then { s with rmaOut := s.rmaOut ++ [(ctx, p.cmd, none)] }
    else match portRuns c (portAgent port ctx) ((joinRuns p.runs).map joined) s [] with
      | (s, ok, recs) =>
        if !ok then
          let s := recs.foldl (fun s x => s.collect 0 (dieOfKey x.1) (unitOfKey x.1) x.2 none) s
          { s with rmaOut := s.rmaOut ++ [(ctx, p.cmd, none)] }
        else if recs.isEmpty then counted s else s.collectAll recs (.copyPacketWrite { p with written := true })

/-- `COPY_PACKET_WRITE` (R217, R218, R269, R381): the packet's writes are performed; what comes of them waits for the race
records that REPORT makes of them (R310). -/
def execCopyPacketWrite (p : Packet) (s : State) : Out :=
  match p.port with
  | some (port, ctx, cnt) => ev (outsidePacket p port ctx cnt s)
  | none =>
  match s.started? p.cmd with
  | none => ev s
  | some (_, x) =>
    if p.written then ev (packetWritten s x p)
    else
      let (s, done, stop, recs) := writeRuns x.cmd (joinRuns p.runs) s [] []
      let p' : Packet := { p with runs := done, fault := stop.or p.fault, written := true }
      ev (if recs.isEmpty then packetWritten s x p' else s.collectAll recs (.copyPacketWrite p'))

/-- What an `hput` finds of its slot when it starts (R227): lines to read, position; or the reason of its late record. -/
def hputPlan (s : State) (c : Cmd) (h : Word) (expert : Nat) : Except (Nat × Option HSlot) (HSlot × Nat) :=
  match handleSlot s (dieOf (s.homeOf c.t)) h with
  | none => .error (1, none)
  | some x =>
    if x.st != .open_ then .error (if x.aborted && x.st == .free then 4 else 1, some x)
    else match (dscList x.desc).findIdx? (· == expert) with
      | some p => .ok (x, p)
      | none => .error (3, some x)

/-- The next line that an `hput` reads (R227). -/
def hputRead (c : Cmd) (b : Word) (i : Nat) : Access := engineAccess c 3 .read (b + BitVec.ofNat 64 (128 * i)).toNat 128 0 i 0

/-- An `hput` on its way (R227): line `pos` is read next; after the last it is complete. The slot may have closed since:
its lines then arrive late. -/
def hputNext (s : State) (id : Nat) : State :=
  match s.started? id with
  | none => s
  | some (_, x) =>
    match x.cmd.op with
    | .hput _ b _ =>
      if x.stage ≤ x.pos then completeCmd s id (.val 0)
      else
        let a := hputRead x.cmd b x.pos
        sendAccess (s.updStarted id (fun x => { x with need := [a], got := [] })) a
    | _ => s

/-- A transfer command's start (R202, R216, R227). -/
def transferStart (s : State) (mc : Nat) (c : Cmd) : State :=
  let x := Started.new c
  match c.op with
  | .hput h _ expert =>
    (match hputPlan s c h expert with
      | .error (why, x') =>
        let die := dieOf (s.homeOf c.t)
        let pos := (x'.bind (fun y => (dscList y.desc).findIdx? (· == expert))).getD 0
        let s := s.late die (fld h 9 0) ((x'.map (fun y => dscAt y.desc 0)).getD 0) h expert pos why
        completeCmd (beginCmd s true mc c x) c.id (.val 0)
      | .ok (y, p) =>
        hputNext (beginCmd s true mc c { x with stage := dscLines y.desc, doneUnits := [dieOf (s.homeOf c.t), y.idx, y.gen, p] }) c.id)
  | _ =>
    let s := beginCmd s true mc c x
    if copyTotal c.op = 0 then completeCmd s c.id (.val 0) else s

/-- What an answered read makes of an `hput` (R227): the line goes to the Husk, and the next is read; poison is its
thread's trap. -/
def hputAnswered (s : State) (id : Nat) : State :=
  match s.started? id with
  | none => s
  | some (_, x) =>
    match x.cmd.op, lowestPoison x.pois, x.doneUnits with
    | .hput _ _ _, some w, _ => commandFaulted s id 0 (poisonFault w)
    | .hput _ _ e, none, [die, slot, gen, p] =>
      if x.fault.isSome then s
      else
        let d := ((x.got.head?).map (fun g => g.2.2)).getD 0
        let s := s.post [.huskArrival ⟨die, slot, some gen, p, x.pos, d, e⟩]
        hputNext (s.updStarted id (fun x => { x with pos := x.pos + 1 })) id
    | _, _, _ => s

/-- What becomes of a transfer queue's head now (R178, R180, R202). -/
def transferHead (s : State) (mc ctx : Nat) : Option (Cmd × HeadAct) :=
  let q := queueOf true (s.core mc) ctx
  match q.waiting with
  | [] => none
  | c :: _ =>
    if !q.faulted.isEmpty || evicting s ctx (TRef.cc c.t) then none
    else match guardAct s c with
      | .start => if otherQuiet s mc c then some (c, .start) else none
      | .wait => none
      | a => some (c, a)

/-- `TRANSFER_COMMAND_START` (R202). -/
def execTransferCommandStart (core ctx : Nat) (s : State) : Out :=
  match transferHead s core ctx with
  | none => ev s
  | some (c, act) =>
    match act with
    | .start => ev (transferStart s core c)
    | .discard => ev (discardHead s true core c)
    | .poison w reg => ev (poisonHead s true core c w reg)
    | .wait => ev s

/-- An answer to an access of a command (R177, R190): noted, and the command goes on. -/
def cmdAnswered (s : State) (id unit part : Nat) (data : Option (BitVec 1024)) (pois : Option Word) : State :=
  let s := s.updStarted id (fun x =>
    { x with
      got := x.got ++ [(unit, part, data.getD 0)]
      pois := x.pois ++ (pois.map (fun w => (unit, w))).toList })
  match s.started? id with
  | none => s
  | some (_, x) =>
    if x.fault.isSome then settleFault s id
    else match x.cmd.op with
      | .hput _ _ _ => hputAnswered s id
      | _ => matrixAnswered s id

/-- A faulted command's undone units performed again (R180, R305): from the record's progress field, under the race-check
mode in force now; a window of a copy with bytes between a progress field that memory sets back and the byte where it stopped is
written, and counted, again. -/
def resumeCmd (s : State) (id : Nat) (prog : Word) (report : Bool) : State :=
  match (s.cmdReturned id).started? id with
  | none => s.cmdReturned id
  | some (_, x) =>
    let s := s.cmdReturned id
    let now (a : Access) : Access := { a with st := { a.st with report := report }, pa := none }
    let anew (c : Cmd) : Cmd := { c with st := { c.st with report := report } }
    let marked := (List.range 32).filter (bit prog.toNat)
    match x.cmd.op with
    | .hput _ _ _ =>
      hputNext (s.updStarted id (fun x => { x with pos := prog.toNat / 128, pois := [], cmd := anew x.cmd })) id
    | .cpy _ _ len _ _ _ _ two =>
      let pos := if two then fld prog 63 32 * len + fld prog 31 0 else prog.toNat
      s.updStarted id (fun x => { x with
        pos := pos
        doneUnits := x.doneUnits.filter (fun k => !(windowRuns x.cmd.op pos k).any (fun r => decide (r.1 < x.pos)))
        cmd := anew x.cmd })
    | op =>
      let marks := match op with
        | .atbl _ => []
        | _ => marked
      let stay (u : Nat) : Bool := x.stage == 1 && marks.contains u || (match op with
        | .pld _ _ _ _ _ | .pldt _ _ _ _ => marks.contains u
        | _ => false)
      let s := s.updStarted id (fun x => { x with
        need := x.need.map now
        doneUnits := marks
        got := x.got.filter (fun g => stay g.1)
        pois := x.pois.filter (fun y => stay y.1)
        cmd := anew x.cmd })
      let go := (x.need.map now).filter (fun a => !stay (unitPart a).1)
      if x.need.isEmpty then drainAgain s id else if go.isEmpty then matrixAnswered s id else sendAll s go

/-- A faulted command abandoned (R180): its undone units are never performed; a Pod, or D, still PEND from it becomes
EMPTY, and it counts as complete. The Pod keeps the format tag recorded at issue (R188). -/
def abandonCmd (s : State) (id : Nat) : State :=
  let s := s.cmdReturned id
  match s.started? id with
  | none => s
  | some (p, x) =>
    let s := match x.cmd.op with
      | .pld n _ _ _ _ | .pldt n _ _ _ => s.updCore p.mc (fun c => c.setPod n { c.pod n with st := .empty, fmt := fillFmt n x.cmd.op })
      | _ => s
    let s := s.abandonTags x.cmd.t x.cmd.dest.toList
    let s := s.updQueue p.tr p.mc p.q.ctx (fun q => { q with started := q.started.filter (fun y => y.cmd.id != id) })
    (releaseHanded s x.cmd).nudgeCmd x.cmd

/-- The command that a record reports, if it stands in a queue still: whether it is a transfer. -/
def cmdKind (s : State) (id : Nat) : Option Nat := (s.started? id).map (fun p => if p.1.tr then 10 else 9)

end Sys2Proof.Machine
end

