-- ==== Sys2Proof/Machine/Ending.lean ====
section
/-! DEFINITION. The end of a thread and the returns from a handler: `exit`, `eret`, `rply` (spec 04 R89, R94,
13 R305-R308). -/
namespace Sys2Proof.Machine
open Sys2Proof

/-- The body of `exit` (R89). -/
def exitBody (f : RForm) (s : State) (t : Thread) : Ev Done := do
  let w ← srcW s t f.A
  fenceGate s t
  pure (.settled (endThread s t w))
/-- `exit` (R89). -/
def execExit (f : RForm) (s : State) : Out := issue true f.toHead f.nro (exitBody f) s

/-- What the record at `trp` says when it is read (R94, R301, R305). -/
structure Record where
  cause : CauseWord
  pc : Word
  resume : Word
  status : Word
  addr : Word
  data : Word
  prog : Word
  deriving DecidableEq, Repr

/-- The record's words read by ordinary loads that the thread waits for (R94). -/
def readRecordAt (s : State) (t : Thread) : Ev (Record × State) := do
  let (c, s) ← loadWait s t t.trp false
  let (pc, s) ← afterLoad s (loadWait s t (t.trp + 0x08) false)
  let (resume, s) ← afterLoad s (loadWait s t (t.trp + 0x10) false)
  let (status, s) ← afterLoad s (loadWait s t (t.trp + 0x18) false)
  let (addr, s) ← afterLoad s (loadWait s t (t.trp + 0x20) false)
  let (data, s) ← afterLoad s (loadWait s t (t.trp + 0x28) false)
  let (prog, s) ← afterLoad s (loadWait s t (t.trp + 0x30) false)
  pure (⟨CauseWord.ofWord c, pc, resume, status, addr, data, prog⟩, s)

/-- A thread out of its handler (R94): status as saved, H clear, `trp` 0, the PC at RESUME; a RESUME at the segment
bound is one that sequential advance had reached (R74; log entry 31). -/
def leaveHandler (r : Record) (t : Thread) : Thread :=
  { counted t with ts := tsReturn t.ts r.status, trp := 0, pc := r.resume, bySeq := true, trapped := .none }

/-- The request of a guard or queue operation made again (R305): with the target or the queue and value that ADDR and
DATA name, and the recorded TAG for its outcome predicate, or for its result where it has none; the cause of the trap
where they name no operation. -/
def againReq (cc : Nat) (i : Instr) (id : Nat) (tag : Tag) (pc addr data : Word) : Except Cause Instr :=
  let retag (pred dest : Option Tag) : Option Tag × Option Tag :=
    if pred.isSome then (some tag, dest) else (none, dest.map (fun _ => tag))
  match i with
  | .guardRequestAtHome r =>
    let (p, d) := retag r.pred r.dest
    .ok (.guardRequestAtHome { r with acc := id, pc := pc, pred := p, dest := d, op := (match r.op with
      | .handTo _ => .handTo (fld data 19 0)
      | o => o) })
  | .remoteQueueOp q =>
    if addr.toNat % 16 ≠ 0 then .error .alignment
    else match windowOf cc addr.toNat with
      | .scratch c off => let (p, d) := retag q.pred q.dest
        .ok (.remoteQueueOp { q with acc := id, core := c, off := off, pred := p, dest := d, kind := (match q.kind with
          | .push _ => .push data
          | k => k) })
      | _ => .error .protection
  | _ => .error .illegalOperand

/-- A record of no access, for a record that a handler has given one (R302: ACC and the fields are RW). -/
def blankPending (pc : Word) : Pending := mkPending 0 pc {} 0 0 0 [] [] .none none

/-- A replayed access issued (R305): its undone units go out; one that has none left is over; a guard or queue
operation is asked again. -/
def issueReplay (s : State) (r : TRef) (p : Pending) : State :=
  let acq : Option Tag := if (CauseWord.ofWord p.cw).ar && (CauseWord.ofWord p.cw).kind == 1 then p.tags.head? else none
  let s := s.updThread r (fun t => { t with acq := acq.orElse (fun _ => t.acq) })
  match p.req with
  | some i => (s.updThread r (fun t => { t with pend := t.pend ++ [p] })).post [i]
  | none =>
    match s.thread? r with
    | none => s
    | some t =>
      if p.allDone then
        if p.tags.isEmpty then s
        else (s.updThread r (fun t => { t with pend := t.pend ++ [p] })).post (deliveriesOf r p)
      else issueUnits s t p

/-- The access that a record replays, or the cause of the trap when its fields form none (R305). -/
def replayed (s : State) (t : Thread) (r : Record) (p : Pending) (id : Nat) : Except Cause Pending :=
  match p.req with
  | none => replayOf s t p r.cause r.pc r.addr r.data r.prog id
  | some i =>
    if r.cause.kind ≠ (CauseWord.ofWord p.cw).kind then .error .illegalOperand
    else
      let tag : Tag := BitVec.ofNat 16 r.cause.tag
      (againReq (TRef.cc t.ref) i id tag r.pc r.addr r.data).map
        (fun i => { p with
          id := id
          pc := r.pc
          cw := r.cause.again.word 0
          addr := r.addr
          data := r.data
          fault := none
          tags := (p.tags.take 1).map (fun _ => tag) ++ p.tags.drop 1
          req := some i })

/-- Whether a guard or queue operation is of a fence-class instruction: `ghand`, a remote `qpush` or `qpop` (R101, R201). -/
def fenceReq (i : Instr) : Bool :=
  match i with
  | .guardRequestAtHome r => (match r.op with
    | .handTo _ => true
    | _ => false)
  | .remoteQueueOp q => q.kind != .len
  | _ => false
/-- The gate of a replay that R101 orders, an acquire load, a release store, an `.ord` atomic, `gpub`, `ghand` or a remote queue
operation: every access and command before it is
acknowledged, or its fault is held until H is 0 (R304; DEDUCED, log entry 31). -/
def replayGate (s : State) (t : Thread) (c : CauseWord) : Ev Unit :=
  let m := s.core (s.homeOf t.ref)
  let fenced := (c.ar && (c.kind == 1 || c.kind == 2)) || (c.ord && (c.kind == 3 || c.kind == 4)) || c.kind == 5
    || (match t.trapped with
      | .access p => p.req.any fenceReq
      | _ => false)
  if !fenced || (t.pend.all (fun p => p.fault.isSome) && m.mq.all (queueQuiet t.ref) && m.tq.all (queueQuiet t.ref)) then .ok ()
  else .error .hold

/-- `rply` on a record that carries an access (R305): performed again; one whose ADDR is no address of it faults as it is issued,
a new trap whose record carries it as this one did (R94, R301, R302; DEDUCED, log entry 31); fields that form no access take the
illegal-operand trap at the `rply` with H already 0, the access being given up. -/
def replayReturn (s : State) (t : Thread) (r : Record) : State :=
  let refuse (s : State) (c : Cause) : State :=
    match s.thread? t.ref with
    | none => s
    | some x => (s.setThread { x with pc := t.pc }).takeTrap { x with pc := t.pc } c {} t.pc t.pc .none
  let again (s : State) (c : Cause) (tied : Trapped) : State :=
    match s.thread? t.ref with
    | none => s
    | some x => s.takeTrap x c { c := r.cause.again, addr := r.addr, data := r.data, prog := r.prog }
        r.pc r.resume tied
  let out (s : State) : State := s.updThread t.ref (leaveHandler r)
  match t.trapped with
  | .command id =>
    if cmdKind s id = some r.cause.kind then resumeCmd (out s) id r.prog (t.stamps s).report
    else refuse (abandonCmd (out s) id) .illegalOperand
  | .access p =>
    let (id, s) := s.fresh
    (match replayed s t r p id with
      | .ok p => issueReplay (out s) t.ref p
      | .error .illegalOperand => refuse ((out s).abandonTags t.ref p.tags) .illegalOperand
      | .error c => again (out s) c t.trapped)
  | .none =>
    let (id, s) := s.fresh
    (match (if 1 ≤ r.cause.kind ∧ r.cause.kind ≤ 4 then replayed s t r (blankPending r.pc) id else .error .illegalOperand) with
      | .ok p => issueReplay (out s) t.ref p
      | .error .illegalOperand => refuse (out s) .illegalOperand
      | .error c => again (out s) c .none)

/-- `eret`, or `rply` on a record that carries no access (R94, R306): the access or command is abandoned. -/
def abandonReturn (s : State) (t : Thread) (r : Record) : State :=
  let s := s.updThread t.ref (leaveHandler r)
  match t.trapped with
  | .access p => s.abandonTags t.ref p.tags
  | .command id => abandonCmd s id
  | .none => s

/-- The body of `eret` and `rply` (R94). -/
def returnBody (replay : Bool) (s : State) (t : Thread) : Ev Done := do
  need t.h .protection
  let (r, s) ← readRecordAt s t
  afterLoad s (targetGate r.resume)
  if replay && r.cause.acc then replayGate s t r.cause
  pure (.settled (if replay && r.cause.acc then replayReturn s t r else abandonReturn s t r))
/-- `eret` (R94). -/
def execEret (f : RForm) (s : State) : Out := issue true f.toHead f.nro (returnBody false) s
/-- `rply` (R94, R305). -/
def execRply (f : RForm) (s : State) : Out := issue true f.toHead f.nro (returnBody true) s

end Sys2Proof.Machine
end

