-- ==== Sys2Proof/Machine/Messages.lean ====
section
/-! DEFINITION. Active messages and deposits, queues, completion counters, migration (spec 09 R203-R210, R213-R215,
R222, R223). -/
namespace Sys2Proof.Machine
open Sys2Proof

/-- The payload registers of a `send` read in ascending order (R203). -/
def payloadOf (s : State) (t : Thread) (d : Nat) : List Nat → Ev (List Word)
  | [] => .ok []
  | i :: l => do
    let w ← srcW s t (.g (Fin.ofNat 16 (d + i)))
    let ws ← payloadOf s t d l
    pure (w :: ws)

/-- The body of `send` (R203). -/
def sendBody (f : EForm) (s : State) (t : Thread) : Ev Done := do
  let a ← srcW s t f.A
  let b ← srcW s t f.B
  let ws ← payloadOf s t f.d.toNat (List.range (bits f.fn.toNat 4 0))
  need (fld a 63 11 == 0) .illegalOperand
  need ((s.ctxD t.ref.ctx).has a.toNat) .protection
  targetGate b
  viaOutbox s t a.toNat (fun s => pure (.next (s.outboxPut t.ref
    (.messageArrival ⟨t.ref.ctx, a.toNat, b, ws, f.flag 0, heirFamily t.fam, .send t.ref⟩))))
/-- `send` (R203). -/
def execSend (f : EForm) (s : State) : Out := issue true f.toHead f.nro (sendBody f) s

/-- The body of `rput` (R205). -/
def rputBody (f : EForm) (s : State) (t : Thread) : Ev Done := do
  let a ← srcW s t f.A
  let b ← srcW s t f.B
  let code := fld a 25 20
  need (fld a 63 26 == 0 && (code < 16 || (49 ≤ code && code ≤ 55))) .illegalOperand
  viaOutbox s t (fld a 19 0 / 16) (fun s => do
    let (pred, s) ← match f.pred with
      | none => pure (none, s)
      | some k => do
        let (tags, s) ← predTags s t 5 k .zr
        pure (tags.head?, s)
    pure (.next (s.outboxPut t.ref (.untaggedDeposit
      ⟨t.ref.ctx, fld a 19 0, Opd.ofCode (BitVec.ofNat 6 code), b, pred.map (fun g => (t.ref, g)), t.ref.agent⟩))))
/-- `rput` (R205). -/
def execRput (f : EForm) (s : State) : Out := issue true f.toHead f.nro (rputBody f) s

/-- The queue operand (R206): context core and offset of the descriptor. -/
def queueAt (t : Thread) (a : Word) : Ev (Nat × Nat) :=
  if a.toNat % 16 ≠ 0 then failAt .alignment a
  else match windowOf (TRef.cc t.ref) a.toNat with
    | .scratch c off => if a.toNat < 2 ^ 48 then .ok (c, off) else failAt .protection a
    | _ => failAt .protection a

/-- Bytes of a queue (R206). -/
def queueSize (cap : Nat) : Nat := 16 + 8 * cap

/-- A queue destroyed (R207): its bytes are zero, those parked on it are made ready and their entries gone. -/
def destroyQueue (s : State) (ctx cc : Nat) (q : Queue) : State :=
  let mc := s.mcOf ctx cc
  let s := s.updCore mc (fun c => { c with queues := c.queues.filter (fun x => !(x.ctx == ctx && x.off == q.off)) })
  let s := match s.scratchSpot ctx cc q.off with
    | some k => ((List.range (queueSize q.cap / 8)).foldl (fun (s : State) i => s.store (k + 8 * i) 8 0 0) s).dropCopies k (queueSize q.cap)
    | none => s
  let mine (o : WObj) : Bool := o == .queue cc q.off true || o == .queue cc q.off false
  ((s.without (fun w => w.ctx == ctx && mine w.obj)).wakeOn ctx mine).wakeAll (fun o => o == WObj.qslots mc)

/-- The body of `qinit` (R207). -/
def qinitBody (f : EForm) (s : State) (t : Thread) : Ev Done := do
  let a ← srcW s t f.A
  let b ← srcW s t f.B
  let (cc, off) ← queueAt t a
  let ctx := t.ref.ctx
  let mc := s.homeOf t.ref
  need (cc == TRef.cc t.ref) .protection
  need (b.toNat ≤ 256) .illegalOperand
  if b = 0 then
    match s.queue? ctx cc off with
    | some q => pure (.next (destroyQueue s ctx cc q))
    | none => failWith .protection
  else do
    let qs := (s.core mc).queues
    need (((s.core mc).resident? ctx).any (fun r => decide (off + queueSize b.toNat ≤ r.size))) .protection
    need (!qs.any (fun q => q.ctx == ctx && decide (off < q.off + queueSize q.cap)
      && decide (q.off < off + queueSize b.toNat))) .protection
    match (List.range 32).find? (fun i => !qs.any (fun q => q.qid == i)) with
    | none => .error (.notReady .slot (.qslots mc))
    | some i =>
      let q : Queue := ⟨off, i, ctx, b.toNat, 0, [], none⟩
      pure (.next ((s.updCore mc (fun c => { c with queues := c.queues ++ [q] })).queueBytes ctx cc q))
/-- `qinit` (R207). -/
def execQinit (f : EForm) (s : State) : Out := issue true f.toHead f.nro (qinitBody f) s

/-- A queue operation applied where the queue is (R208, R290): the state, whether it succeeded, and the item or the
count. A failure leaves nothing here. -/
def queueApply (s : State) (ctx agent cc off : Nat) (q : Queue) (k : QKind) : State × Bool × Word :=
  let key := RevKey.queue cc off
  match k with
  | .push v =>
    if canTake s ctx agent (.queue cc off true) then
      let s := (s.setQueue ctx cc { q with items := q.items ++ [(v, false)] }).took ctx agent (.queue cc off true)
      ((s.offer ctx (.queue cc off false)).served ctx key agent 0, true, 0)
    else (s, false, 0)
  | .pop =>
    if canTake s ctx agent (.queue cc off false) then
      let s := (s.setQueue ctx cc { q with items := q.items.drop 1, head := (q.head + 1) % q.cap }).took ctx agent
        (.queue cc off false)
      ((s.offer ctx (.queue cc off true)).served ctx key agent 0, true, (q.items.headD (0, false)).1)
    else (s, false, 0)
  | .len => (s.served ctx key agent 0, true, BitVec.ofNat 64 q.items.length)

/-- Whether a pop now would receive a Husk's notification, which is an acquire (R201, R237). -/
def popsToken (q : Queue) (k : QKind) : Bool := k == .pop && (q.items.headD (0, false)).2

/-- The list on which a failed queue operation waits. -/
def queueObj (cc off : Nat) : QKind → WObj
  | .push _ => .queue cc off true
  | _ => .queue cc off false
/-- The outcome of a failed queue operation (R208). -/
def queueOc : QKind → OC
  | .push _ => .full
  | _ => .empty

/-- A local queue operation (R208): decided at issue; its outcome goes to the disposition or to the predicate. Under
REPLAY it waits for its turn, or gives the failure that is logged, to its predicate or to its disposition, and a full log holds it
(R377). -/
def localQueue (f : EForm) (k : QKind) (d : Opd) (cc off : Nat) (s : State) (t : Thread) : Ev Done := do
  let ctx := t.ref.ctx
  let agent := t.ref.agent
  match s.queue? ctx cc off with
  | none => failWith .protection
  | some q =>
    if (s.ctxD ctx).logFull then .error .hold
    let fails := if f.pred.isSome then s.mustRefuse ctx agent t.icount
      else (s.replayNext ctx (.thread agent t.icount)).any (fun e => e.val.toNat == outcomeWord (queueOc k) (queueObj cc off k))
    if !fails && !s.replayTurn ctx (.queue cc off) agent then pure (.settled (s.turnWait (.queue cc off) t.ref agent))
    else
      let (s', done, w) := queueApply s ctx agent cc off q k
      let ok := done && !fails
      let s' := if ok && popsToken q k then s'.dropStale (s'.homeOf t.ref) else s'
      match f.pred with
      | none => if ok then pure (.next (writeW s' t.ref d w)) else .error (.notReady (queueOc k) (queueObj cc off k))
      | some p =>
        let fill (s : State) : State := s.updThread t.ref (fun t => t.setFull (.k p) (predWord ok (OC.num (queueOc k))))
        if ok then pure (.next (fill (writeW s' t.ref d w)))
        else if !s.answerTurn ctx agent t.icount false then pure (.settled s)
        else
          let s := (s.enter t.ref (queueObj cc off k) false false 0 none).refusal ctx agent t.icount (OC.num (queueOc k))
          pure (.next (fill (writeW s t.ref d 0)))

/-- A remote queue operation sent (R209): a send; predicate and D become PEND. -/
def remoteQueue (f : EForm) (k : QKind) (d : Opd) (a b : Word) (cc off : Nat) (s : State) (t : Thread) : Ev Done := do
  accessGate t
  routerGate s t a.toNat
  let (id, s) := s.fresh
  let go (s : State) (pred dest : Option Tag) (tags : List Tag) : Ev Done :=
    let q : QReq := ⟨t.ref, cc, off, k, pred, dest, id, t.icount⟩
    let p := mkPending id t.pc { tag := (tags.headD 0).toNat, reg := ((f.pred.map (fun p => Opd.code (.k p))).getD (Opd.code d)), kind := 7 } a b 0 [] tags .none
      (some (.remoteQueueOp q))
    .ok (.next ((s.updThread t.ref (fun t => { t with pend := t.pend ++ [p] })).post [.remoteQueueOp q]))
  match f.pred with
  | some p => do
    let (tags, s) ← predTags s t 5 p d
    go s tags.head? tags[1]? tags
  | none => do
    let (tag, s) ← takeTag s t 5
    go (s.updThread t.ref (fun t => t.setPend d tag)) none (some tag) [tag]

/-- The body of `qpush` (R208, R209). -/
def qpushBody (f : EForm) (s : State) (t : Thread) : Ev Done := do
  let a ← srcW s t f.A
  let b ← srcW s t f.B
  let (cc, off) ← queueAt t a
  if cc = TRef.cc t.ref then localQueue f (.push b) .zr cc off s t
  else do
    need f.pred.isSome .illegalOperand
    fenceGate s t
    remoteQueue f (.push b) .zr a b cc off s t
/-- `qpush` (R208, R209). -/
def execQpush (f : EForm) (s : State) : Out := issue true f.toHead f.nro (qpushBody f) s

/-- The body of `qpop` (R208, R209). -/
def qpopBody (f : EForm) (s : State) (t : Thread) : Ev Done := do
  let a ← srcW s t f.A
  let (cc, off) ← queueAt t a
  if cc = TRef.cc t.ref then localQueue f .pop f.D cc off s t
  else do
    need f.pred.isSome .illegalOperand
    fenceGate s t
    remoteQueue f .pop f.D a 0 cc off s t
/-- `qpop` (R208, R209). -/
def execQpop (f : EForm) (s : State) : Out := issue true f.toHead f.nro (qpopBody f) s

/-- The body of `qlen` (R208, R209). -/
def qlenBody (f : EForm) (s : State) (t : Thread) : Ev Done := do
  let a ← srcW s t f.A
  let (cc, off) ← queueAt t a
  if cc = TRef.cc t.ref then localQueue f .len f.D cc off s t else remoteQueue f .len f.D a 0 cc off s t
/-- `qlen` (R208, R209). -/
def execQlen (f : EForm) (s : State) : Out := issue true f.toHead f.nro (qlenBody f) s

/-- `REMOTE_QUEUE_OP` (R209, R295): applied at the queue's home or on its image, and replied to; a queue that does not
exist faults; a refusal leaves a ticket. -/
def execRemoteQueueOp (q : QReq) (s : State) : Out :=
  let ctx := q.t.ctx
  match s.queue? ctx q.core q.off with
  | none =>
    ev (s.post [.faultReply q.t q.acc 0 ⟨.protection, BitVec.ofNat 64 (globalBase + q.core * 0x100000 + q.off), 0, 0, false⟩])
  | some x =>
    let (s', done, w) := queueApply s ctx q.t.agent q.core q.off x q.kind
    let ok := done && !s.mustRefuse ctx q.t.agent q.n
    let code := OC.num (queueOc q.kind)
    let s := if ok then s'
      else (if (s.thread? q.t).isSome then s.enter q.t (queueObj q.core q.off q.kind) false false 0 none else s).refusal ctx
        q.t.agent q.n code
    let s := match s.queue? ctx q.core q.off with
      | some x => s.setQueue ctx q.core { x with turn := some (s.cycle, q.t.agent, q.acc) }
      | none => s
    let s := if ok && popsToken x q.kind then s.dropStale (s.homeOf q.t) else s
    let tell (g : Option Tag) (v : BitVec 1024) : List Instr :=
      (g.map (fun g => Instr.taggedDelivery ⟨q.t, g, .val v, some q.acc⟩)).toList
    ev (s.post (tell q.pred (predWord ok code) ++ tell q.dest (if ok then w.setWidth 1024 else 0)))

/-- The target that a `waitc` would wait for (R214). -/
def waitTarget (f : EForm) (s : State) : Nat :=
  match s.curThread with
  | none => 0
  | some t => (match srcW s t f.A with
    | .ok a => fld a 31 0
    | .error _ => 0)

/-- The body of `waitc` (R214, R263): an acquire when it succeeds. -/
def waitcBody (f : EForm) (s : State) (t : Thread) : Ev Done := do
  let a ← srcW s t f.A
  let mc := s.homeOf t.ref
  let ctx := t.ref.ctx
  need (ownsCounter s ctx mc f.cn) .protection
  let x := (s.core mc).counter f.cn
  if x.val.toNat < fld a 31 0 then .error (.notReady .cnt (.counter mc f.cn))
  let s := s.updCore mc (fun c => c.setCounter f.cn { x with val := x.val - a.setWidth 32 })
  pure (.next ((s.endEntry ctx t.ref.agent (.counter mc f.cn)).dropStale mc))
/-- `waitc` (R214). -/
def execWaitc (f : EForm) (s : State) : Out := issueAt true f.toHead f.nro (waitTarget f s) (waitcBody f) s

/-- The body of `carm` (R215): a counter that already qualifies fires in the next cycle. -/
def carmBody (f : EForm) (s : State) (t : Thread) : Ev Done := do
  let a ← srcW s t f.A
  let b ← srcW s t f.B
  let mc := s.homeOf t.ref
  need (ownsCounter s t.ref.ctx mc f.cn) .protection
  targetGate a
  let x := (s.core mc).counter f.cn
  pure (.next (s.updCore mc (fun c => c.setCounter f.cn { x with
    arm := some ⟨a, b.setWidth 32, heirFamily t.fam, if b.setWidth 32 ≤ x.val then s.cycle + 1 else s.cycle⟩ })))
/-- `carm` (R215). -/
def execCarm (f : EForm) (s : State) : Out := issue false f.toHead f.nro (carmBody f) s

/-- The body of `cset` (R215): those parked on the counter look again. -/
def csetBody (f : EForm) (s : State) (t : Thread) : Ev Done := do
  let a ← srcW s t f.A
  let mc := s.homeOf t.ref
  need (ownsCounter s t.ref.ctx mc f.cn) .protection
  let x := (s.core mc).counter f.cn
  let s := s.updCore mc (fun c => c.setCounter f.cn { x with val := a.setWidth 32, arm := none })
  pure (.next (s.serveCounter t.ref.ctx mc f.cn))
/-- `cset` (R215). -/
def execCset (f : EForm) (s : State) : Out := issue false f.toHead f.nro (csetBody f) s

/-- A register as a Pip carries it (R223). -/
def pipSlot {w : Nat} : Slot w → PipReg
  | .full v => ⟨0, v.setWidth 64⟩
  | .empty => ⟨1, 0⟩
  | .pend _ => ⟨2, 0⟩
  | .pois p => ⟨3, p⟩
/-- Signed words from an address to another (R223). -/
def wordsFrom (x y : Word) : Int := (x - y).toInt / 8

/-- The loop state of a Pip for a thread that resumes at its PC (R222, R223): which loop, if one, is active. -/
def activeLoop (t : Thread) : Option (Fin 2) := if t.la 0 then some 0 else if t.la 1 then some 1 else none
/-- Whether the loops let a thread migrate (R222). -/
def loopsMove (t : Thread) : Bool :=
  !(t.la 0 && t.la 1) && (match activeLoop t with
    | none => true
    | some j => decide ((wordsFrom (t.ls.get j) t.pc).natAbs < 32768) && decide ((wordsFrom (t.le.get j) t.pc).natAbs < 32768))

/-- The Pip of a thread that has advanced past its `migr` (R222, R223). -/
def pipOf (t : Thread) (cc : Nat) : Pip where
  src := t.ref
  ctx := t.ref.ctx
  core := cc
  g := t.g.toList.map pipSlot
  k := (t.k.toList.drop 1).map pipSlot
  resume := t.pc
  lact := (activeLoop t).isSome
  lsel := activeLoop t == some 1
  lc := match activeLoop t with
    | some j => t.lc.get j
    | none => 0
  lso := match activeLoop t with
    | some j => BitVec.ofInt 16 (wordsFrom (t.ls.get j) t.pc)
    | none => 0
  leo := match activeLoop t with
    | some j => BitVec.ofInt 16 (wordsFrom (t.le.get j) t.pc)
    | none => 0
  fam := t.fam
  right := t.wakeRight

/-- The context core that homes an address (R222, R253); its faults are of the instruction. -/
def homeOfAddr (s : State) (t : Thread) (a : Word) : Ev Nat :=
  match spotOf s t.ref.ctx (TRef.cc t.ref) a.toNat false true with
  | .error f => .error (.trap f.cause (TrapInfo.ofFault {} f))
  | .ok (.remote x) => .error (.trap .protection { addr := a, info := x.leaf })
  | .ok (.at_ k _) =>
    match windowOf (TRef.cc t.ref) a.toNat with
    | .scratch c _ => .ok c
    | _ =>
      match (s.ctxD t.ref.ctx).ccOf (homeCore k) with
      | some cc => .ok cc
      | none => failAt .protection a

/-- The lowest-numbered `g` or `k` register that is PEND (R222). -/
def pendingReg (t : Thread) : Option Opd :=
  ((allRegs.filter (fun o => match o with
    | .v _ => false
    | _ => true)).find? (fun o => (t.tagOf o).isSome))

/-- The body of `migr` (R222). The loop test is made on the loops as they stand after the back-edge advance, before the fence
wait: the spec does not say on which (DESIGN CHOICE, log entry 58). -/
def migrBody (f : EForm) (s : State) (t : Thread) : Ev Done := do
  let a ← srcW s t f.A
  need (!t.h) .illegalOperand
  match pendingReg t with
  | some o => .error (.notReady .pend (.reg o))
  | none => do
    need t.holds.isEmpty .protection
    let t' := t.advance
    need (loopsMove t') .illegalOperand
    let cc ← homeOfAddr s t a
    if cc = TRef.cc t.ref then do
      fenceGate s t
      pure (.next s)
    else do
      viaOutbox s t cc (fun s =>
        pure (.settled ((freeContext s t).updCore (s.homeOf t.ref) (fun c =>
          { c with outbox := c.outbox ++ [.pipArrival (pipOf t' cc)] }))))
/-- `migr` (R222). -/
def execMigr (f : EForm) (s : State) : Out := issue true f.toHead f.nro (migrBody f) s

/-- A Pip as the message that starts its thread (R222), on the request channel (DESIGN CHOICE, log entry 62). -/
def pipMsg (p : Pip) : Msg := ⟨p.ctx, p.core, p.resume, [], false, p.fam, .pip p⟩
/-- `PIP_ARRIVAL` (R222, R204, R295): the thread starts like a message, or its Pip waits in the inbound buffer. -/
def execPipArrival (p : Pip) (s : State) : Out := ev (msgArrive s (pipMsg p))

end Sys2Proof.Machine
end

