-- ==== Sys2Proof/Machine/Events.lean ====
section
/-! DEFINITION. What reaches a thread: deliveries, acknowledgements, guard replies, fetched lines, walks, accesses at
their homes, fault replies, delivered traps; routers, the metadata ager, soft errors (spec 01 R17, 04 R73, 05 R101, R119,
11 R257, R258, R265, R270, 12 R283, R291, 13 R298, R300, R304, R313). -/
namespace Sys2Proof.Machine
open Sys2Proof

/-- A tagged delivery at its thread (R17, R101). -/
def taggedHere (s : State) (d : Delivery) : State :=
  let s := deliverTag s d.t d.tag d.val
  match d.acks with
  | some acc => s.updThread d.t (fun t => endAcked t acc d.tag)
  | none => s
/-- `TAGGED_DELIVERY` (R17, R313). -/
def execTaggedDelivery (d : Delivery) (s : State) : Out :=
  ev (if landsIn s d.t then s.land d.t (.value d) (valueEntry s d) else taggedHere s d)

/-- A line of an RMA access answered (R381): after the last one its response is sent, the bytes read, 0 for a write done, or
none when a line was refused. -/
def rmaAnswered (s : State) (c q off : Nat) (data : Option (BitVec 1024)) (pois : Option Word) : State :=
  let mine (o : RmaOpen) : Bool := o.ctx == c && o.seq == q
  match s.rmaOpen.find? mine with
  | none => s
  | some o =>
    let o' : RmaOpen := { o with left := o.left - 1, ok := o.ok && pois.isNone, data := o.data + (data.getD 0).toNat * 2 ^ (8 * off) }
    if o'.left = 0 then
      { s with rmaOpen := s.rmaOpen.filter (fun o => !mine o), rmaOut := s.rmaOut ++ [(c, q, if o'.ok then some o'.data else none)] }
    else { s with rmaOpen := s.rmaOpen.map (fun x => if mine x then o' else x) }

/-- `ACKNOWLEDGEMENT` (R101, R180, R381). -/
def execAcknowledgement (k : Sink) (data : Option (BitVec 1024)) (pois : Option Word) (s : State) : Out :=
  match k with
  | .thread t acc unit =>
    ev (ackThread s t acc unit data pois)
  | .cmd id unit part => ev (cmdAnswered s id unit part data pois)
  | .rma c q off => ev (rmaAnswered s c q off data pois)
  | .none => ev s

/-- `PAGE_WALK` (R257, R258). -/
def execPageWalk (a : Access) (s : State) : Out := ev (walkEnd s a)
/-- `ACCESS_AT_HOME` (R119). -/
def execAccessAtHome (a : Access) (s : State) : Out := ev (accessHome s a)

/-- A Husk's reply from its output guard's home (R230): the hold it releases with, or the end of its release. -/
def huskGuard (s : State) (die slot : Nat) (rep : GuardRep) : State :=
  match rep.req.op with
  | .acquire excl _ =>
    (s.updSlot die slot (fun x => { x with hold := some ⟨rep.req.idx, excl, rep.count⟩ })).post [.huskRelease die slot]
  | _ => s.updSlot die slot (fun x => { x with hold := none, ended := s.now })

/-- A port agent's reply from a guard's home (R381, R383): the hold kept for it, and the command's completion. -/
def portGuard (s : State) (queue seq : Nat) (rep : GuardRep) : State :=
  let r := rep.req
  let s : State := match r.op with
    | .acquire excl _ => s.updCtx r.ctx (fun c => { c with portHolds := c.portHolds ++ [(r.agent, ⟨r.idx, excl, rep.count⟩)] })
    | _ => s
  s.complete ⟨queue, r.ctx, seq⟩ 0 0

/-- `GUARD_REPLY` (R126, R230, R381). A released engine's hold tells nobody (R130). -/
def execGuardReply (rep : GuardRep) (s : State) : Out :=
  match rep.req.who with
  | .thread r => (match s.thread? r with
    | some t => ev (guardReplyThread s t rep)
    | none => (match rep.granted, rep.req.op with
      | true, .acquire excl _ => ev (s.ungrant rep.req excl)
      | _, _ => ev s))
  | .engine _ _ => ev s
  | .husk die slot => ev (huskGuard s die slot rep)
  | .port queue seq => ev (portGuard s queue seq rep)

/-- What a thread's fetch finds (R73): the word, a translation miss, or the fetch fault. -/
inductive Fetch where
  | word (w : Word)
  | miss
  | fault
  deriving DecidableEq, Repr

/-- The word at a place, when its line is PUBLISHED to a core (R73, R240). A poisoned line is not fetched from (log
entry 31). -/
def fetchFrom (s : State) (agent k key : Nat) : Fetch :=
  let m := s.md (lineOf k)
  if mdST m = 3 ∧ inReach (mdSC m) agent (some (agent / 16)) (mdWR m) ∧ s.pois (lineOf k) = 0 ∧ inQueue s k 8 = false
  then .word (BitVec.ofNat 64 (s.load k 8 key)) else .fault

/-- A thread's fetch at its PC (R73): by a stored translation, or by the walk that a waited fetch has made; from a
misaligned PC it faults (R33). -/
def fetchAt (s : State) (t : Thread) : Fetch :=
  let cc := TRef.cc t.ref
  let va := t.pc.toNat
  if va % 8 ≠ 0 then .fault
  else match windowFault s t.ref.ctx cc va with
  | some _ => .fault
  | none =>
    match windowOf cc va with
    | .scratch c off => (match s.scratchSpot t.ref.ctx c off with
      | some k => fetchFrom s t.ref.agent k 0
      | none => .fault)
    | _ =>
      let known := if t.fetched then some (s.translate (s.homeOf t.ref) t.ref.ctx va false true) else xlatNow s (s.homeOf t.ref) t.ref.ctx va false true
      match known with
      | none => .miss
      | some (.error _) => .fault
      | some (.ok x) => if x.remote then .fault else fetchFrom s t.ref.agent x.pa x.key

/-- `FETCH_LINE_ARRIVAL` (R73, R258): the thread is back in the rotation. -/
def execFetchLineArrival (r : TRef) (s : State) : Out :=
  match s.thread? r with
  | none => ev s
  | some t =>
    let s := match s.translate (s.homeOf r) r.ctx t.pc.toNat false true with
      | .ok x => s.tlbFill (s.homeOf r) r.ctx t.pc.toNat x
      | .error _ => s
    ev (s.updThread r (fun t => { t with fetched := true, run := if t.run = .waiting .fetch then .ready else t.run }))

/-- `FAULT_REPLY` (R304, R313): the fault is held at the core. -/
def execFaultReply (r : TRef) (acc unit : Nat) (f : FaultInfo) (s : State) : Out :=
  ev (if landsIn s r then s.land r (.fault r acc unit f) (faultEntry s r acc unit f)
    else s.updThread r (fun t => holdFault t acc unit f))

/-- The earliest fault of a thread's commands that it may take now (R180, R304). -/
def nextCmdFault (t : Thread) : Option CmdFault :=
  let ok (c : CmdFault) : Bool := (!t.h || decide (t.entryId ≤ c.cmd))
    && t.pend.all (fun p => decide (c.cmd < p.id) || (t.h && p.fault.isSome))
  (sortBy (fun (a b : CmdFault) => decide (a.cmd ≤ b.cmd)) (t.cmdFaults.filter ok)).head?

/-- What a thread takes at its next issue opportunity (R300, R304). -/
inductive Due where
  | access (p : Pending) (f : FaultInfo)
  | command (c : CmdFault)
  | fetch
  | target
  | none
  deriving DecidableEq, Repr

/-- The held fault that is due: of the access or command issued earliest (R304). -/
def dueFault (s : State) (t : Thread) : Due :=
  match nextFault s t, nextCmdFault t with
  | some (p, f), some c => if p.id < c.cmd then .access p f else .command c
  | some (p, f), none => .access p f
  | none, some c => .command c
  | none, none => .none

/-- The fault due to a thread: a held one, else, for a thread ready to issue, its fetch fault (R73), or the target
fault of a misaligned PC (R33, R75). -/
def dueOf (s : State) (t : Thread) : Due :=
  match dueFault s t with
  | .none => if t.run == .ready && fetchAt s t == .fault then (if t.pc.toNat % 8 ≠ 0 then .target else .fetch) else .none
  | d => d

/-- Whether a thread is where it can take a delivered trap (R300). -/
def takesTraps (t : Thread) : Bool :=
  match t.run with
  | .ready | .parked _ _ | .waiting _ => true
  | _ => false

/-- `TAKE_TRAP` (R298, R300, R304, R73): the fault that is due is taken. -/
def execTakeTrap (r : TRef) (s : State) : Out :=
  match s.thread? r with
  | none => ev s
  | some t =>
    match dueOf s t with
    | .access p f => ev (takeFault s t p f)
    | .command c =>
      let t' := { t with cmdFaults := t.cmdFaults.filter (· != c) }
      ev ((s.setThread t').takeTrap t' c.f.cause (cmdTrapInfo s c) c.pc t.pc (.command c.cmd))
    | .fetch => ev (s.takeTrap t .fetch { addr := t.pc } t.pc t.pc .none)
    | .target => ev (s.takeTrap t .target { addr := t.pc } t.pc t.pc .none)
    | .none => ev s

/-- `ROUTER_ACCEPT` (R20, R291): the threads parked on the router are made ready. -/
def execRouterAccept (core : Nat) (s : State) : Out :=
  ev ((s.updCore core (fun c => { c with refusing := false })).wakeAll (fun o => o == .router core))

/-- The lines with metadata that a die's ager visits (R265). -/
def stampedOn (s : State) (die : Nat) : List Nat :=
  (s.lines.map (·.1)).filter (fun l => dieOfKey (128 * l) == die)

/-- A visit noted (R265): when every line of the die has been visited its round is over. -/
def State.visited (s : State) (line : Nat) : State :=
  let d := dieOfKey (128 * line)
  let a := s.ager d
  let seen := a.seen ++ [line]
  s.setAger (if (stampedOn s d).all seen.contains then ⟨d, s.now, [], a.rounds + 1⟩ else { a with seen := seen })

/-- A launch slot that every die's ager has visited in full since it retired is free again (R283): its launch is forgotten
but for its record (R274), and who waits for a slot looks again. -/
def freeSlots (s : State) : State :=
  let kept (r : List Nat) : Bool := r.zipIdx.any (fun x => decide ((s.ager x.2).rounds < x.1))
  let stays (ctx slot : Nat) : Bool := (s.ctxD ctx).retired.any (fun x => x.1 == slot && kept x.2)
  let gone := s.launches.filter (fun l => l.done && !stays l.ctx l.slot)
  let ended (c : Ctx) : List Nat := (gone.filter (fun l => l.ctx == c.id)).map (·.record)
  let s' : State := { s with
    ctxs := s.ctxs.map (fun c => { c with
      retired := c.retired.filter (fun x => kept x.2)
      refused := c.refused.filter (fun r => !(ended c).contains r) ++ (ended c).eraseDups })
    launches := s.launches.filter (fun l => !l.done || stays l.ctx l.slot)
    advances := s.advances.filter (fun a => a.2.1 || !gone.any (fun l => l.ctx == a.1 && l.slot == a.2.2.1 / 2 ^ 16)) }
  if gone.isEmpty then s' else
    let s' := s'.wakeAll (fun o => o == .launchSlot)
    { s' with threads := s'.threads.map nudgeT }

/-- `AGER_VISIT` (R265, R283): a settled line's stamp is pulled into the window; a retired slot's line becomes FREE. -/
def execAgerVisit (line : Nat) (s : State) : Out :=
  let m := s.md line
  let ctx := s.ownerOf line
  let s := if mdST m ≠ 1 ∧ mdST m ≠ 2 then s
    else match s.clock ctx m with
      | none => s.putMd line 0
      | some c =>
        if 2 ^ 15 ≤ delta c (mdSP m) then
          s.putMd line (mkMd (mdST m) (mdAT m) (mdWR m) (mdBD m) ((c % 2 ^ 16 + 2 ^ 15) % 2 ^ 16) (mdSC m))
        else s
  ev (freeSlots (s.visited line))

/-- An error counted: class 2n for correctable errors of a storage, 2n+1 for uncorrectable ones (R270, R385). -/
def State.countError (s : State) (cls : Nat) : State := { s with errors := tabSet 0 s.errors cls (tabGet 0 s.errors cls + 1) }
/-- Poison kind of a line: 2 where HBM itself fails, 1 elsewhere; whether an HBM line stood in L2 is the draw's (R270). -/
def lineKind (s : State) (line : Nat) : BitVec 4 :=
  if (scratchCore (128 * line)).isSome || s.oracle.fail % 2 == 0 then 1 else 2

/-- A correctable error of HBM itself counted on its channel (R370), which has the number of its L2 slice (R252). -/
def State.countChannel (s : State) (x : Storage) : State :=
  let hbm (line : Nat) : State := if lineKind s line == 2 then s.count (4000 + sliceOf (128 * line)) 0 else s
  match x with
  | .mem k => hbm (lineOf k)
  | .meta_ l => hbm l
  | _ => s

/-- Number of a storage in the error counts: each storage of R270, with the Pods and accumulators of R190 and R193, has its
own (R385). -/
def storageNo (s : State) : Storage → Nat
  | .mem k => if (scratchCore k).isSome then 0 else if lineKind s (lineOf k) == 2 then 3 else 2
  | .cache _ => 1
  | .meta_ _ => 4
  | .reg _ _ => 5
  | .podStore _ _ => 6
  | .accStore _ _ => 7

/-- A Pod or accumulator whose storage fails while it holds something (R190, R193). -/
def strike (st : PodSt) (w : Word) : PodSt :=
  match st with
  | .full => .pois w
  | x => x

/-- An uncorrectable error's effect (R270): only a register that holds a value can lose it; its poison's class is that of its
last producer. The address field of a struck Pod's or accumulator's poison is not stated, nor are the unit and address fields of
that of a register: they are 0 (DESIGN CHOICE, log entry 57). -/
def State.strike (s : State) (x : Storage) : State :=
  match x with
  | .mem k => s.setPois (lineOf k) (lineKind s (lineOf k))
  | .meta_ l => (s.putMd l 0).setPois l (lineKind s l)
  | .cache l => { s with copies := s.copies.filter (fun c => c.line != l) }
  | .reg r o =>
    let full (t : Thread) : Bool := match o with
      | .g i => slotState (t.getG i) == 0
      | .v i => slotState (t.getV i) == 0
      | .k i => slotState (t.getK i) == 0
      | _ => false
    s.updThread r (fun t => if full t then t.setPois o (poisonWord (t.producerOf o) 1 0 0) else t)
  | .podStore c n => s.updCore c (fun co => co.setPod n { co.pod n with st := Machine.strike (co.pod n).st (poisonWord 3 1 4 0) })
  | .accStore c n => s.updCore c (fun co => co.setAcc n { co.acc n with st := Machine.strike (co.acc n).st (poisonWord 3 1 5 0) })

/-- `SOFT_ERROR` (R270, R384): corrected and counted, or counted, poisoning what it struck and reported. -/
def execSoftError (x : Storage) (correctable : Bool) (s : State) : Out :=
  let n := storageNo s x
  if correctable then ev ((s.countError (2 * n)).countChannel x)
  else ev (((s.strike x).countError (2 * n + 1)).emitAll 6 (BitVec.ofNat 64 n))

/-- `HOST_FREES_MEMORY` (R129): PUBLISHED lines of the range become FREE, their copies invalid module-wide. -/
def execHostFreesMemory (base len : Nat) (s : State) : Out :=
  let hit (l : Nat) : Bool := decide (base ≤ 128 * l) && decide (128 * l < base + len)
  let gone := (s.lines.filter (fun l => hit l.1 && mdST l.2 == 3)).map (·.1)
  let s := gone.foldl (fun s l => s.putMd l 0) s
  ev { s with copies := s.copies.filter (fun c => !(hit c.line && mdST c.md == 3)) }

end Sys2Proof.Machine
end

