-- ==== Sys2Proof/Machine/Debug.lean ====
section
/-! DEFINITION. Stops, comparators and replay mismatch; the Acorn pulse, snapshots and rings; droop and energy (spec 13
R311, 21 R367-R378, 22 R389-R391). -/
namespace Sys2Proof.Machine
open Sys2Proof

/-- Why a thread is stopped by a host stop-all, beside the comparators 0-3 and `brk` (R375). -/
def stopAllCause : Nat := 5

/-- One thread stopped at its instruction boundary (R375): one that waits for a reply stops once it has it. -/
def stopOne (why : Nat) (s : State) (t : Thread) : State :=
  match t.run with
  | .ready | .parked _ _ | .waiting .fence | .waiting .over | .waiting .fetch => s.stopThread t why t.pc t.pc
  | .waiting .reply => s.post [.addressComparatorStop t.ref why]
  | _ => s
/-- Threads in ascending agent identity (R375). -/
def byAgent (l : List Thread) : List Thread := sortBy (fun a b => decide (a.ref.agent ≤ b.ref.agent)) l

/-- A thread of an evicted core stopped (R375). -/
def stopImage (why : Nat) (t : Thread) : Thread :=
  match t.run with
  | .stopped _ | .halted => t
  | _ => { t with run := .stopped why }

/-- Every thread of a context but one stopped (R375, R378), those of evicted cores in their images. -/
def stopContext (s : State) (ctx why : Nat) (but : Option TRef) : State :=
  let s := (byAgent (s.threads.filter (fun t => t.ref.ctx == ctx && some t.ref != but))).foldl (stopOne why) s
  let out := byAgent ((s.images.filter (fun im => im.ctx == ctx)).map (·.threads)).flatten
  let fresh := out.filter (fun t => stopImage why t != t)
  let s := fresh.foldl (fun s t => (s.emitStop t.ref why t.pc).trace t 5 why t.pc) s
  { s with images := s.images.map (fun im =>
      if im.ctx == ctx then { im with threads := im.threads.map (stopImage why) } else im) }

/-- `ADDRESS_COMPARATOR_STOP` (R374, R375): the thread stops before the instruction at its PC; with ALL so does every
other thread of its context. -/
def execAddressComparatorStop (r : TRef) (n : Nat) (s : State) : Out :=
  match s.thread? r with
  | none => ev s
  | some t =>
    match t.run with
    | .stopped _ | .halted => ev s
    | _ =>
      let s := s.stopThread t n t.pc t.pc
      let all := (s.ctxD r.ctx).addrm.toList.getD n 0
      ev (if n < 4 ∧ bit all.toNat 1 then stopContext s r.ctx n (some r) else s)

/-- The comparator that stops a thread about to issue (R374). -/
def comparatorHit (s : State) (t : Thread) : Option Nat :=
  let c := s.ctxD t.ref.ctx
  if !c.dbg || t.skipCmp then none
  else (List.range 4).find? (fun n =>
    let w := c.addrm.toList.getD n 0
    bit w.toNat 0 && fld w 47 3 == fld t.pc 47 3)

/-- `REPLAY_MISMATCH` (R378): every thread of the context stops, and an event names the thread and the entry, by its place in
the log. The entry imposes nothing any longer. -/
def execReplayMismatch (r : TRef) (entry : Nat) (s : State) : Out :=
  let s := s.updCtx r.ctx (fun c => { c with
    log := c.log.zipIdx.map (fun x => if x.2 = entry then { x.1 with used := true } else x.1) })
  ev ((stopContext s r.ctx stopAllCause none).emit 4 (some r.ctx) (TRef.cc r) (TRef.tid r) (BitVec.ofNat 64 entry))

/-- Run state code of a sample (R369). -/
def runCode (t : Thread) : Nat :=
  match t.run with
  | .ready => 1
  | .parked _ _ => 2
  | .waiting _ => 3
  | .stopped _ => 4
  | .halted => 5
/-- Outcome code of a parked thread, else 0 (R369). -/
def parkCode (t : Thread) : Nat :=
  match t.run with
  | .parked _ oc => OC.num oc
  | _ => 0

/-- A thread entry of a sample (R369). -/
def threadEntry (c : Core) (t : Thread) : Word :=
  BitVec.ofNat 64 (runCode t * 2 ^ 61 + t.h.toNat * 2 ^ 60 + parkCode t * 2 ^ 56
    + ((c.resident? t.ref.ctx).map (·.slot)).getD 0 * 2 ^ 54 + TRef.tid t.ref * 2 ^ 50 + fld t.pc 47 3)

/-- The threads on a module core in ascending thread context. -/
def threadsOn (s : State) (mc : Nat) : List Thread :=
  sortBy (fun a b => decide (TRef.tid a.ref ≤ TRef.tid b.ref)) (s.threads.filter (fun t => s.homeOf t.ref == mc))

/-- The sample record of a core (R368). -/
def sampleRecord (s : State) (mc tick : Nat) : List Word :=
  let c := s.core mc
  let ts := threadsOn s mc
  let occ := ts.foldl (fun m t => m ||| 2 ^ TRef.tid t.ref) 0
  let ctxs := (List.range 4).foldl (fun w i =>
    w + ((c.residents.find? (fun r => r.slot == i)).map (·.ctx)).getD 0xFFFF % 2 ^ 16 * 2 ^ (16 * i)) 0
  [BitVec.ofNat 64 tick, BitVec.ofNat 64 (occ * 2 ^ 48 + mc * 2 ^ 32), BitVec.ofNat 64 ctxs] ++ ts.map (threadEntry c)

/-- `ACORN_PULSE` (R367, R368, R371): each core's record waits for its die's ring; the pulse is a snapshot trigger. -/
def execAcornPulse (s : State) : Out :=
  let tick := s.probe.nextPulse
  let cores := (List.range Config.cores).filter (fun c => (s.ring? 1 (dieOf c)).isSome)
  let s := cores.foldl (fun s c => s.collect 1 (dieOf c) c (sampleRecord s c tick) none) s
  let s : State := { s with probe := { s.probe with nextPulse := tick + s.probe.pulsep } }
  ev (s.snapAt tick .pulse)

/-- `SNAPSHOT_TRIGGER` (R371). -/
def execSnapshotTrigger (src : SnapSrc) (s : State) : Out := ev (s.snap src)
/-- `EXTERNAL_TRIGGER` (R371). -/
def execExternalTrigger (s : State) : Out := ev (s.snap .ext)

/-- A 48-bit counter value (R370). -/
def cnt48 (n : Nat) : BitVec 48 := BitVec.ofNat 48 n
/-- The frames of every Ethernet port that are not the module's messages, added to its counts (log entry 23). -/
def otherFrames (s : State) : State :=
  (List.range 32).foldl (fun s i =>
    s.countBy (5000 + i / 2) (i % 2) (Config.blockCount (5000 + i / 2) (i % 2) s.draws).toNat) s
/-- The units of a boot step that are in service, of so many; unit u stands or falls with the step's unit `of u` (R387). -/
def inService (s : State) (step n : Nat) (of : Nat → Nat) : List Nat :=
  (List.range n).filter (fun u => !s.mgmt.fenced.contains (step, of u))
/-- What every block latches (R370): cores from block 0, L2 slices from 2000, Husks from 3000, HBM channels from 4000,
Ethernet ports from 5000; fenced units have none (R387). -/
def blockValues (s : State) : List (Nat × List (BitVec 48)) :=
  (inService s 5 Config.cores id).map (fun c =>
      let x := s.core c
      (c, x.issued.toList.map cnt48 ++ x.parks.toList.map cnt48 ++ [cnt48 x.retries]))
    ++ (List.range 256).map (fun u => (2000 + u, [cnt48 (s.countOf (2000 + u) 0), cnt48 (s.countOf (2000 + u) 1),
      cnt48 (s.holding u), cnt48 (s.countOf (2000 + u) 3)]))
    ++ (List.range 4).map (fun d => (3000 + d, [cnt48 (((s.husk d).slots.filter (fun x => x.st == .open_)).length), cnt48 (s.husk d).late]))
    ++ (inService s 3 256 (· / 32)).map (fun h => (4000 + h, [cnt48 (s.countOf (4000 + h) 0)]))
    ++ (inService s 7 16 id).map (fun p => (5000 + p, [cnt48 (s.countOf (5000 + p) 0), cnt48 (s.countOf (5000 + p) 1)]))

/-- `SNAPSHOT_LATCH` (R370, R371): every block latches; ARMED clears and SRC tells the triggers of the tick. -/
def execSnapshotLatch (s : State) : Out :=
  let p := s.probe
  match p.latchAt with
  | none => ev s
  | some _ =>
    let s := otherFrames s
    ev { s with probe := { p with latched := blockValues s, latchAt := none, src := 0
                                  snapctl := setFld (setFld p.snapctl 11 8 p.src.toNat) 7 7 0 } }

/-- Record size of a ring kind (R391). -/
def ringSize (kind : Nat) : Nat :=
  match kind with
  | 0 => 64
  | 1 => 256
  | _ => 32

/-- Words of a ring record stored at a physical place, the lines becoming FREE. -/
def putWords (s : State) (k : Nat) (ws : List Word) : State :=
  let s := ws.zipIdx.foldl (fun s p => s.store (k + 8 * p.2) 8 0 p.1.toNat) s
  (distinct (ws.zipIdx.map (fun p => lineOf (k + 8 * p.2)))).foldl (fun s l =>
    { s.setMd l 0 with copies := s.copies.filter (fun c => c.line != l) }) s

/-- A ring with a state: what a placement changes. -/
def State.putRing (s : State) (r : Ring) : State :=
  { s with rings := s.rings.map (fun x => if x.kind == r.kind && x.die == r.die then r else x) }

/-- One record placed, or dropped where its ring is full (R311, R391); a race record written is a snapshot trigger (R371);
its access is answered after it (R310). -/
def placeRecord (kind die : Nat) (s : State) (e : Nat × Nat × List Word × List Instr) : State :=
  match s.ring? kind die with
  | none => s.post e.2.2.2
  | some r =>
    let used := (r.tail + 2 ^ 32 - r.head % 2 ^ 32) % 2 ^ 32
    let s : State :=
      if used = 2 ^ r.k then
        let s := s.putRing { r with drop := Nat.min (r.drop + 1) 0xFFFFFFFF, raised := true }
        if r.raised then s
        else if kind = 2 then s.emit 5 (some (fld (e.2.2.1.getD 1 0) 63 48)) 0 0 2
        else s.emitAll 5 (BitVec.ofNat 64 kind)
      else
        let ws := if kind = 0 then e.2.2.1.take 7 ++ [BitVec.ofNat 64 (r.drop * 2 ^ 32 + r.tail)]
          else e.2.2.1 ++ List.replicate (ringSize kind / 8 - e.2.2.1.length) 0
        let s := (putWords s (r.base + r.tail % 2 ^ r.k * ringSize kind) ws).putRing { r with tail := (r.tail + 1) % 2 ^ 32 }
        if kind = 0 then s.snap .race else s
    s.post e.2.2.2

/-- The order of a ring's records of finished ticks: by tick, then by the ring's own key (R311, R368, R376, R391). -/
def ringOrder (l : List (Nat × Nat × List Word × List Instr)) : List (Nat × Nat × List Word × List Instr) :=
  sortBy (fun a b => decide (a.1 < b.1) || (a.1 == b.1 && decide (a.2.1 ≤ b.2.1))) l

/-- `RING_TICK_PLACEMENT` (R311, R391): a die places the records of the ticks that are over. -/
def execRingTickPlacement (die : Nat) (s : State) : Out :=
  let mine := s.rings.filter (fun r => r.die == die)
  ev (mine.foldl (fun s r =>
    let due := ringOrder (r.coll.filter (fun e => decide (e.1 < s.now)))
    let s := s.putRing { r with coll := r.coll.filter (fun e => !decide (e.1 < s.now)) }
    due.foldl (placeRecord r.kind die) s) s)

/-- `DROOP_ALARM` (R389): the clock is stretched for six core cycles; the 64 cycles after this one have restricted issue. How much a stretched
cycle lengthens is open (R6): six thirds of a reference nanosecond pass here with no core cycle (DESIGN CHOICE, log entry
2). -/
def execDroopAlarm (s : State) : Out := ev { s with thirds := s.thirds + 6, droopEnd := some (s.cycle + 65) }
/-- `DROOP_WINDOW_END` (R389). -/
def execDroopWindowEnd (s : State) : Out := ev { s with droopEnd := none }

/-- A counter of energy with its 32-bit fraction, saturating at 2^48 - 1 microjoule (R390). -/
def enAdd (x n : Nat) : Nat := Nat.min (x + n) (2 ^ 80 - 1)
/-- Energy charged to a context on a die, in its class and in the total (R390). -/
def State.charge (s : State) (ctx die cls n : Nat) : State :=
  s.updCtx ctx (fun c =>
    let old := ((c.energy.find? (fun e => e.1 == die)).map (·.2)).getD (List.replicate 8 0)
    let new := old.zipIdx.map (fun x => if x.2 == cls || x.2 == 7 then enAdd x.1 n else x.1)
    { c with energy := c.energy.filter (fun e => e.1 != die) ++ [(die, new)] })

/-- Valid entries of a core's slot table for a resident slot (R285, R390). -/
def validEntries (c : Core) (slot : Nat) : Nat :=
  (c.slotTable.filter (fun e => bit e.toNat 3 && bits e.toNat 1 0 == slot)).length

/-- `ENERGY_STATIC_TICK` (R390): one reference microsecond's static energy. -/
def execEnergyStaticTick (s : State) : Out :=
  let s := s.cores.foldl (fun s c => c.residents.foldl (fun s r =>
    s.charge r.ctx (dieOf c.id) 6 (Config.energyWeight 6 0 * validEntries c r.slot / 64)) s) s
  ev { s with nextStatic := s.nextStatic + 3000 }

end Sys2Proof.Machine
end

