-- ==== Sys2Proof/Machine/CoreImage.lean ====
section
/-! DEFINITION. The bytes of a core image (spec 12 R293, 21 R375): what each area holds, and the core's state read back
from it. R293 gives the areas, and R194 and R313 two of their layouts; the places within the others are the model's
(DESIGN CHOICE, log entry 32). -/
namespace Sys2Proof.Machine
open Sys2Proof

/-- State code and value of a register in a thread block: 0 FULL, 1 EMPTY, 2 PEND with its tag, 3 POIS with its word. -/
def slotCode {w : Nat} (x : Slot w) : Nat × Nat :=
  match x with
  | .full v => (0, v.toNat)
  | .empty => (1, 0)
  | .pend t => (2, t.toNat)
  | .pois p => (3, p.toNat)
/-- The same of a `k` register, which holds only bits [63:48] of a poison word, in its bits [15:0] (R19). -/
def slotCodeK (x : Slot 32) : Nat × Nat :=
  match x with
  | .pois p => (3, p.toNat / 2 ^ 48)
  | x => slotCode x
/-- The register of a state code and value. -/
def slotRead {w : Nat} (st v : Nat) : Slot w :=
  match st % 4 with
  | 0 => .full (BitVec.ofNat w v)
  | 1 => .empty
  | 2 => .pend (BitVec.ofNat 16 v)
  | _ => .pois (BitVec.ofNat 64 v)

/-- The same of a `k` register (R19). -/
def slotReadK (st v : Nat) : Slot 32 :=
  match slotRead st v with
  | .pois p => .pois (p <<< 48)
  | x => x

/-- A hold in eight bytes: guard, exclusive, valid, COUNT. -/
def holdCode (h : Hold) : Nat := h.guard + h.excl.toNat * 2 ^ 22 + 2 ^ 23 + h.count * 2 ^ 32
/-- The hold of eight bytes. -/
def holdRead (n : Nat) : Option Hold := if bit n 23 then some ⟨bits n 21 0, bit n 22, bits n 63 32⟩ else none
/-- The object that an instruction is parked on, by its kind and numbers; 0 for none. -/
def objWord (t : Thread) : Nat :=
  match t.run with
  | .parked o _ => (match o with
    | .reg o => 1 + Opd.code o * 2 ^ 8
    | .portIn d => 2 + (Dir.idx d).val * 2 ^ 8
    | .portOut d => 3 + (Dir.idx d).val * 2 ^ 8
    | .queue c off p => 4 + p.toNat * 2 ^ 8 + c * 2 ^ 16 + off * 2 ^ 32
    | .guard i => 5 + i * 2 ^ 8
    | .handSlot g a => 6 + a * 2 ^ 8 + g * 2 ^ 32
    | .pod c n => 7 + n * 2 ^ 8 + c * 2 ^ 16
    | .accum c n => 8 + n * 2 ^ 8 + c * 2 ^ 16
    | .counter c n => 9 + n * 2 ^ 8 + c * 2 ^ 16
    | .barrier b => 10 + b * 2 ^ 8
    | .dep r => 11 + r * 2 ^ 8
    | .husk d => 12 + d * 2 ^ 8
    | .router c => 13 + c * 2 ^ 8
    | .matrixQueue c => 14 + c * 2 ^ 8
    | .transferQueue c => 15 + c * 2 ^ 8
    | .outbound c => 16 + c * 2 ^ 8
    | .qslots c => 17 + c * 2 ^ 8
    | .launchSlot => 18)
  | _ => 0

/-- A thread block (R293): `v` from 0, `g` from 0x1000, `k` from 0x1080, the states from 0x10C0, then PC, `ts`, `wg`, `trp`,
the loop registers, the hold table and the parked instruction's object. -/
def threadBlock (t : Thread) : List Area :=
  let regs (at_ size states : Nat) (l : List (Nat × Nat)) : List Area :=
    l.zipIdx.flatMap (fun x => [(at_ + size * x.2, size, x.1.2), (states + x.2, 1, x.1.1)])
  regs 0 128 0x10D0 (t.v.toList.map slotCode) ++ regs 0x1000 8 0x10C0 (t.g.toList.map slotCode)
    ++ regs 0x1080 8 0x10F0 (t.k.toList.map slotCodeK)
    ++ [(0x1100, 8, t.pc.toNat), (0x1108, 8, t.ts.toNat), (0x1110, 8, t.wg.toNat), (0x1118, 8, t.trp.toNat)]
    ++ t.lc.toList.zipIdx.map (fun x => (0x1120 + 4 * x.2, 4, x.1.toNat))
    ++ t.ls.toList.zipIdx.map (fun x => (0x1128 + 8 * x.2, 8, x.1.toNat))
    ++ t.le.toList.zipIdx.map (fun x => (0x1138 + 8 * x.2, 8, x.1.toNat))
    ++ (t.holds.take 8).zipIdx.map (fun x => (0x1148 + 8 * x.2, 8, holdCode x.1))
    ++ [(0x1188, 8, objWord t)]

/-- A thread with what its block holds; `rd` reads bytes of the block. Reserved bits read as zero (R8, R10, R24, R25). -/
def blockRead (rd : Nat → Nat → Nat) (t : Thread) : Thread :=
  let regs {w : Nat} (n at_ size states : Nat) (read : Nat → Nat → Slot w) : Vector (Slot w) n :=
    Vector.ofFn (fun i => read (rd (states + i.val) 1) (rd (at_ + size * i.val) size))
  { t with
    v := regs 32 0 128 0x10D0 slotRead
    g := regs 16 0x1000 8 0x10C0 slotRead
    k := regs 8 0x1080 8 0x10F0 slotReadK
    pc := BitVec.ofNat 64 (rd 0x1100 8) &&& 0xFFFFFFFFFFFFFFF8
    ts := BitVec.ofNat 64 (rd 0x1108 8) &&& 0xFE01
    wg := BitVec.ofNat 64 (rd 0x1110 8) &&& 0x80000000003FFFFF
    trp := BitVec.ofNat 64 (rd 0x1118 8)
    lc := Vector.ofFn (fun i => BitVec.ofNat 32 (rd (0x1120 + 4 * i.val) 4))
    ls := Vector.ofFn (fun i => loopAddr (BitVec.ofNat 64 (rd (0x1128 + 8 * i.val) 8)))
    le := Vector.ofFn (fun i => loopAddr (BitVec.ofNat 64 (rd (0x1138 + 8 * i.val) 8)))
    holds := (List.range 8).filterMap (fun i => holdRead (rd (0x1148 + 8 * i) 8)) }

/-- A thread with what its block at a place of memory holds (R293). -/
def State.readBlock (s : State) (at_ : Nat) (t : Thread) : Thread := blockRead (fun off n => Memory.readN s.mem n (at_ + off)) t
/-- Place of a thread's block in an image (R293). -/
def blockPlace (base : Nat) (r : TRef) : Nat := base + 0x2000 + 4608 * TRef.tid r
/-- A thread with what the host has changed in its block (R375): `was` is the thread as the block gave it when it was written, `now`
as it gives it; what the host left alone is the thread's. -/
def edited (was now t : Thread) : Thread :=
  let pick {α : Type} [DecidableEq α] (a b x : α) : α := if b = a then x else b
  let each {α : Type} [DecidableEq α] {n : Nat} (a b x : Vector α n) : Vector α n :=
    Vector.ofFn (fun i => pick (a.get i) (b.get i) (x.get i))
  { t with
    v := each was.v now.v t.v
    g := each was.g now.g t.g
    k := each was.k now.k t.k
    ts := pick was.ts now.ts t.ts
    wg := pick was.wg now.wg t.wg
    trp := pick was.trp now.trp t.trp
    lc := each was.lc now.lc t.lc
    ls := each was.ls now.ls t.ls
    le := each was.le now.le t.le
    holds := pick was.holds now.holds t.holds }
/-- A stopped thread with what the host has changed in its block of the newest live dump since its stop (R375). -/
def State.takeBlock (s : State) (t : Thread) : Thread :=
  match t.run, s.blocks.find? (fun b => b.2.ref == t.ref) with
  | .stopped _, some b => edited b.2 (s.readBlock b.1 b.2) t
  | _, _ => t
/-- A state without the blocks of a context core's threads. -/
def State.dropBlocks (s : State) (ctx cc : Nat) : State :=
  { s with blocks := s.blocks.filter (fun b => !(b.2.ref.ctx == ctx && TRef.cc b.2.ref == cc)) }
/-- State code and poison word of a Pod or accumulator. -/
def podCode (st : PodSt) : Nat × Nat :=
  match st with
  | .free => (0, 0)
  | .empty => (1, 0)
  | .pend => (2, 0)
  | .full => (3, 0)
  | .pois p => (4, p.toNat)
/-- The state of a code and poison word; PEND is what queued commands make of the state `was` (R179). -/
def podRead (was : PodSt) (st w : Nat) : PodSt :=
  match st with
  | 1 => .empty
  | 2 => was
  | 3 => .full
  | 4 => .pois (BitVec.ofNat 64 w)
  | _ => .free

/-- The operand values of a command (R293); of a `cpy2` the spans' strides, a fourth value for which an entry has no room, stay
with the saved command (DESIGN CHOICE, log entry 32). -/
def cmdOperands : CmdOp → List Nat
  | .pld _ _ _ a s => [a.toNat, s.toNat]
  | .pldt _ _ a s => [a.toNat, s.toNat]
  | .drn _ _ _ _ _ _ _ _ a b => [a.toNat, b.toNat]
  | .drnm _ _ _ _ _ a b => [a.toNat, b.toNat]
  | .atbl a => [a.toNat]
  | .cpy a b len rows _ _ cnt two =>
    [a.toNat, b.toNat, len + ((cnt.map (·.1)).getD 0) * 2 ^ 32 + (if two then rows * 2 ^ 48 else 0)]
  | .hput h b e => [h.toNat, b.toNat, e]
  | _ => []
/-- A command queue (R293): up to 16 entries of 32 bytes, the word and three operands, in queue order; one that has started and
faulted stands before the others where they leave it room (R183). -/
def queueArea (at_ : Nat) (q : CmdQueue) : List Area :=
  ((q.started.map (·.cmd)).drop (q.started.length + q.waiting.length - 16) ++ q.waiting).zipIdx.flatMap (fun x =>
    (x.1.word.toNat :: cmdOperands x.1.op).zipIdx.map (fun y => (at_ + 32 * x.2 + 8 * y.2, 8, y.1)))

/-- The bytes of a drain profile (R194). -/
def profileBytes (p : Profile) : Nat :=
  p.lo.toNat + p.exp.toNat * 2 ^ 32 + p.stride.toNat * 2 ^ 64
    + p.seg.zipIdx.foldl (fun v x => v + (x.1.1.toNat + x.1.2.toNat * 2 ^ 32) * 2 ^ (128 + 64 * x.2)) 0
/-- The profile of such bytes. -/
def profileRead (n : Nat) : Profile where
  lo := BitVec.ofNat 32 n
  exp := BitVec.ofNat 32 (n / 2 ^ 32)
  stride := BitVec.ofNat 64 (n / 2 ^ 64)
  seg := (List.range 256).map (fun i => (BitVec.ofNat 32 (n / 2 ^ (128 + 64 * i)), BitVec.ofNat 32 (n / 2 ^ (160 + 64 * i))))

/-- Claim mask of a list of objects. -/
def ownMask {α : Type} (l : List α) (own : α → Bool) : Nat := l.zipIdx.foldl (fun m x => if own x.1 then m + 2 ^ x.2 else m) 0
/-- The header (R293): context core, thread mask, share size, the masks of Pods, accumulators, counters and queue slots, and
the counts of the two command queues. -/
def headerArea (p : Core) (ctx cc : Nat) : List Area :=
  let own (o : Option Nat) : Bool := o == some ctx
  let r := p.resident? ctx
  let n (l : List CmdQueue) : Nat := (l.map (fun q => q.started.length + q.waiting.length)).foldl (· + ·) 0
  [(0x00, 8, cc), (0x08, 8, (r.map (·.mask)).getD 0), (0x10, 8, (r.map (·.size)).getD 0),
    (0x18, 4, ownMask p.pods.toList (fun x => own x.owner)), (0x1C, 4, ownMask p.accs.toList (fun x => own x.owner)),
    (0x20, 8, ownMask p.counters.toList (fun x => own x.owner)), (0x28, 8, p.queues.foldl (fun m q => m + 2 ^ q.qid) 0),
    (0x30, 8, n p.mq), (0x38, 8, n p.tq)]

/-- The areas of a core image (R293) but the share and the landing table: of the part `p` that a context has on a core, its
threads, and the lines of its share. -/
def imageAreas (s : State) (p : Core) (ts : List Thread) (ctx cc share n : Nat) : List Area :=
  let q := queueOf false p ctx
  let shown (o : MObj) (st : PodSt) : Nat × Nat := podCode (if st ≠ .free ∧ fillQueued q o then .pend else st)
  headerArea p ctx cc
    ++ (p.mq.flatMap (queueArea 0x100) ++ p.tq.flatMap (queueArea 0x300))
    ++ (0x500, 2064, profileBytes (p.profile ctx))
    :: p.counters.toList.zipIdx.flatMap (fun (x : Counter × Nat) =>
        [(0x1000 + 16 * x.2, 4, x.1.val.toNat), (0x1004 + 16 * x.2, 4, ((x.1.arm.map (fun (a : Arm) => a.target.toNat)).getD 0)),
          (0x1008 + 16 * x.2, 8, (x.1.arm.map (fun (a : Arm) => a.entry.toNat + 1)).getD 0)])
    ++ p.latch.toList.zipIdx.flatMap (fun x => [(0x1400 + 16 * x.2, 8, x.1.isSome.toNat), (0x1408 + 16 * x.2, 8, (x.1.getD 0).toNat)])
    ++ p.depLatch.zipIdx.flatMap (fun x =>
        [(0x1440 + 16 * x.2, 8, 2 ^ 63 + Opd.code x.1.reg * 2 ^ 32 + x.1.agent), (0x1448 + 16 * x.2, 8, x.1.val.toNat)])
    ++ ts.flatMap (fun t => (threadBlock t).map (fun a => (0x2000 + 4608 * TRef.tid t.ref + a.1, a.2)))
    ++ p.pods.toList.zipIdx.flatMap (fun x =>
        x.1.rows.zipIdx.map (fun r => (0x14000 + 0x4000 * x.2 + 512 * r.2, 512, r.1.toNat))
          ++ x.1.side.zipIdx.map (fun r => (0x54000 + 0x400 * x.2 + 32 * r.2, 32, r.1.toNat))
          ++ [(0x5C000 + 16 * x.2, 1, (shown (.pod x.2) x.1.st).1),
            (0x5C001 + 16 * x.2, 1, (x.1.fmt.map (fun f => 0x80 + f.1 + f.2.toNat * 0x40)).getD 0), (0x5C008 + 16 * x.2, 8, (shown (.pod x.2) x.1.st).2)])
    ++ p.accs.toList.zipIdx.flatMap (fun x =>
        x.1.el.zipIdx.map (fun e => (0x58000 + 0x1000 * x.2 + 4 * e.2, 4, e.1.toNat))
          ++ [(0x5C100 + 16 * x.2, 1, (shown (.acc x.2) x.1.st).1), (0x5C101 + 16 * x.2, 1, x.1.mode.toNat), (0x5C108 + 16 * x.2, 8, (shown (.acc x.2) x.1.st).2)])
    ++ (s.lines.filter (fun l => decide (share / 128 ≤ l.1) && decide (l.1 < (share + n) / 128))).map (fun l =>
        (0x5D000 + 8 * (l.1 - share / 128), 8, l.2.toNat))

/-- What a context had on a core, with what the bytes of its image say of it (R293, R296): counters, latches, Pods,
accumulators and drain profile. The commands of the queues are the saved ones (log entry 32). -/
def partRead (rd : Nat → Nat → Nat) (p : Core) (ctx : Nat) : Core :=
  let own (o : Option Nat) : Bool := o == some ctx
  let at_ {α : Type} {n : Nat} (l : Vector α n) (f : Nat → α → α) : Vector α n := Vector.ofFn (fun i => f i.val (l.get i))
  let counter (i : Nat) (x : Counter) : Counter :=
    let w := rd (0x1008 + 16 * i) 8
    { x with
      val := BitVec.ofNat 32 (rd (0x1000 + 16 * i) 4)
      arm := if bit w 0 then x.arm.map (fun a => { a with entry := BitVec.ofNat 64 (w / 8 * 8), target := BitVec.ofNat 32 (rd (0x1004 + 16 * i) 4) })
        else none }
  let pod (i : Nat) (x : Pod) : Pod :=
    let f := rd (0x5C001 + 16 * i) 1
    { x with
      st := podRead x.st (rd (0x5C000 + 16 * i) 1) (rd (0x5C008 + 16 * i) 8)
      fmt := if bit f 7 then some (bits f 5 0, bit f 6) else none
      rows := x.rows.zipIdx.map (fun r => BitVec.ofNat 4096 (rd (0x14000 + 0x4000 * i + 512 * r.2) 512))
      side := x.side.zipIdx.map (fun r => BitVec.ofNat 256 (rd (0x54000 + 0x400 * i + 32 * r.2) 32)) }
  let acc (i : Nat) (x : Acc) : Acc :=
    { x with
      st := podRead x.st (rd (0x5C100 + 16 * i) 1) (rd (0x5C108 + 16 * i) 8)
      mode := BitVec.ofNat 2 (rd (0x5C101 + 16 * i) 1)
      el := x.el.zipIdx.map (fun e => BitVec.ofNat 32 (rd (0x58000 + 0x1000 * i + 4 * e.2) 4)) }
  { p with
    counters := at_ p.counters (fun i x => if own x.owner then counter i x else x)
    pods := at_ p.pods (fun i x => if own x.owner then pod i x else x)
    accs := at_ p.accs (fun i x => if own x.owner then acc i x else x)
    latch := at_ p.latch (fun i _ => if rd (0x1400 + 16 * i) 8 = 0 then none else some (BitVec.ofNat 64 (rd (0x1408 + 16 * i) 8)))
    depLatch := p.depLatch.zipIdx.map (fun x => { x.1 with val := BitVec.ofNat 64 (rd (0x1448 + 16 * x.2) 8) })
    profiles := p.profiles.map (fun x => if x.1 = ctx then (ctx, profileRead (rd 0x500 2064)) else x) }

end Sys2Proof.Machine
end

