-- ==== Sys2Proof/Machine/Evict.lean ====
section
/-! DEFINITION. Eviction, core images, live dump and resumption (spec 12 R292-R296, 13 R313-R315, 08 R183, 21 R372). -/
namespace Sys2Proof.Machine
open Sys2Proof

/-- A table with the entries of n keys from `src` moved to `dst`. -/
def moveTab {α : Type} [DecidableEq α] (d : α) (l : List (Nat × α)) (src n dst : Nat) : List (Nat × α) :=
  let inside (lo k : Nat) : Bool := decide (lo ≤ k) && decide (k < lo + n)
  (l.filter (fun p => inside src p.1)).foldl (fun l p => tabSet d l (p.1 - src + dst) p.2)
    (l.filter (fun p => !inside src p.1 && !inside dst p.1))
/-- A table with the entries of n keys from `src` copied to `dst`. -/
def copyTab {α : Type} [DecidableEq α] (d : α) (l : List (Nat × α)) (src n dst : Nat) : List (Nat × α) :=
  let inside (lo k : Nat) : Bool := decide (lo ≤ k) && decide (k < lo + n)
  (l.filter (fun p => inside src p.1)).foldl (fun l p => tabSet d l (p.1 - src + dst) p.2)
    (l.filter (fun p => !inside dst p.1))

/-- A scratchpad share moved between a core and an image (R293, R295, R296): bytes, tags, poison marks, held updates and
shadows. What it leaves behind reads as unwritten, with FREE lines (log entry 32). -/
def State.moveShare (s : State) (src n dst : Nat) : State :=
  let moveKey (k : Nat) : Nat := if src ≤ k ∧ k < src + n then k - src + dst else k
  let moveLine (l : Nat) : Nat := moveKey (128 * l) / 128
  let touched (l : Nat) : Bool := let k := 128 * l
    (decide (src ≤ k) && decide (k < src + n)) || (decide (dst ≤ k) && decide (k < dst + n))
  { s with
    mem := moveTab Config.blank s.mem src n dst
    lines := moveTab 0 s.lines (src / 128) (n / 128) (dst / 128)
    poison := moveTab 0 s.poison (src / 128) (n / 128) (dst / 128)
    owners := moveTab 0 s.owners (src / 128) (n / 128) (dst / 128)
    lineKeys := moveTab 0 s.lineKeys (src / 128) (n / 128) (dst / 128)
    held := s.held.map (fun h => { h with key := moveKey h.key })
    shadows := s.shadows.map (fun x => { x with line := moveLine x.line })
    copies := s.copies.filter (fun c => !touched c.line) }

/-- What a context has on a core (R293). -/
def takePart (c : Core) (ctx : Nat) : Core :=
  let own (o : Option Nat) : Bool := o == some ctx
  { c with
    pods := c.pods.map (fun p => if own p.owner then p else Pod.reset)
    accs := c.accs.map (fun a => if own a.owner then a else Acc.reset)
    counters := c.counters.map (fun x => if own x.owner then x else Counter.reset)
    queues := c.queues.filter (fun q => q.ctx == ctx)
    latch := if own c.portOwner then c.latch else Vector.replicate 4 none
    portOwner := if own c.portOwner then c.portOwner else none
    depLatch := c.depLatch.filter (fun d => d.ctx == ctx)
    inbox := []
    outbox := []
    slotTable := []
    residents := c.residents.filter (fun r => r.ctx == ctx)
    mq := c.mq.filter (fun q => q.ctx == ctx)
    tq := c.tq.filter (fun q => q.ctx == ctx)
    profiles := c.profiles.filter (fun p => p.1 == ctx) }

/-- A core without what a context has on it (R292, R273). The ports stay the context's own, with empty latches. -/
def dropPart (c : Core) (ctx : Nat) : Core :=
  let own (o : Option Nat) : Bool := o == some ctx
  { c with
    pods := c.pods.map (fun p => if own p.owner then Pod.reset else p)
    accs := c.accs.map (fun a => if own a.owner then Acc.reset else a)
    counters := c.counters.map (fun x => if own x.owner then { Counter.reset with owner := some ctx } else x)
    queues := c.queues.filter (fun q => q.ctx != ctx)
    latch := if own c.portOwner then Vector.replicate 4 none else c.latch
    depLatch := c.depLatch.filter (fun d => d.ctx != ctx)
    inbox := c.inbox.filter (fun m => m.ctx != ctx)
    residents := c.residents.filter (fun r => r.ctx != ctx)
    mq := c.mq.filter (fun q => q.ctx != ctx)
    tq := c.tq.filter (fun q => q.ctx != ctx)
    profiles := c.profiles.filter (fun p => p.1 != ctx) }

/-- A core with a context's part put back (R296); its queues take the lowest free descriptor slots. -/
def putPart (c p : Core) (ctx : Nat) : Core :=
  let own (o : Option Nat) : Bool := o == some ctx
  let free := (List.range 32).filter (fun i => !c.queues.any (fun q => q.qid == i))
  { c with
    pods := Vector.zipWith (fun x y => if own y.owner then y else x) c.pods p.pods
    accs := Vector.zipWith (fun x y => if own y.owner then y else x) c.accs p.accs
    counters := Vector.zipWith (fun x y => if own y.owner then y else x) c.counters p.counters
    queues := c.queues ++ p.queues.zipIdx.map (fun q => { q.1 with qid := free.getD q.2 q.1.qid })
    latch := if own p.portOwner && own c.portOwner then p.latch else c.latch
    depLatch := c.depLatch ++ p.depLatch
    mq := c.mq.filter (fun q => q.ctx != ctx) ++ p.mq.map (fun q => { q with core := c.id })
    tq := c.tq.filter (fun q => q.ctx != ctx) ++ p.tq.map (fun q => { q with core := c.id })
    profiles := c.profiles.filter (fun x => x.1 != ctx) ++ p.profiles }

/-- n bytes of memory that read as zero, their lines FREE. -/
def State.clearBytes (s : State) (at_ n : Nat) : State :=
  let clear (a : Nat) : Bool := decide (at_ ≤ a) && decide (a < at_ + n)
  { s with
    mem := s.mem.filter (fun c => !clear c.1)
    lines := s.lines.filter (fun l => !clear (128 * l.1))
    poison := s.poison.filter (fun l => !clear (128 * l.1))
    owners := s.owners.filter (fun l => !clear (128 * l.1))
    lineKeys := s.lineKeys.filter (fun l => !clear (128 * l.1))
    copies := s.copies.filter (fun c => !clear (128 * c.line)) }
/-- An image's areas written at its place; what they do not hold reads as zero (R293). -/
def State.writeImage (s : State) (at_ n : Nat) (areas : List Area) : State :=
  let s := s.clearBytes at_ n
  { s with mem := (areas.filter (fun a => a.2.2 != 0)).foldl (fun m a => Memory.writeN m a.2.1 (at_ + a.1) a.2.2) s.mem }

/-- Whether a command's fault waits in the fabric for room in the landing table (R313). -/
def faultWaits (s : State) (x : Started) : Bool :=
  s.flight.any (fun i => match i with
    | .commandFault id _ _ => id == x.cmd.id
    | _ => false) && !landRoom s x.cmd.t (List.replicate 9 0)
/-- Whether a context's started commands on a core have completed: none is left but those that wait for their thread's
return from a fault, or whose fault waits in the fabric (R180, R183, R292, R313). -/
def commandsRest (s : State) (mc ctx : Nat) : Bool :=
  let rest (q : CmdQueue) : Bool := q.ctx != ctx || q.started.all (fun x => q.faulted.contains x.cmd.id
    && (!cmdOutstanding s x.cmd.id || faultWaits s x))
  (s.core mc).mq.all rest && (s.core mc).tq.all rest

/-- Threads of a context on a context core. -/
def threadsOf (s : State) (ctx cc : Nat) : List Thread := s.threads.filter (fun t => t.ref.ctx == ctx && TRef.cc t.ref == cc)

/-- The context of a message in an outbound buffer. -/
def outCtx : Instr → Nat
  | .messageArrival m => m.ctx
  | .untaggedDeposit d => d.ctx
  | .pipArrival p => p.ctx
  | .wakeForward ctx _ _ _ => ctx
  | _ => 0

/-- Whether an access that a core makes in its own scratchpad is on its way. -/
def ownAccess (ctx cc : Nat) (i : Instr) : Bool :=
  match i with
  | .accessAtHome a => a.ctx == ctx && a.core == cc && (match windowOf cc a.va with
    | .scratch c _ => c == cc
    | _ => false)
  | _ => false
/-- Whether a core that stops for its image can write it now (R292, R372): its started commands are complete, and what its
threads have issued to its own scratchpad is performed there, not on the image; for an eviction, its outbound messages have left,
and its guard operations with a predicate have been answered. A started `drnm` whose rows find no room holds the image off
without end: R183 has it complete and R197 has it hold (DESIGN CHOICE, log entry 62). -/
def imageReady (s : State) (ctx cc : Nat) : Bool :=
  let mc := s.mcOf ctx cc
  commandsRest s mc ctx && !s.flight.any (ownAccess ctx cc) && ((s.imageAny? ctx cc).any (fun im => im.dump.isSome)
    || ((s.core mc).outbox.all (fun i => outCtx i != ctx)
      && (threadsOf s ctx cc).all (fun t => t.pend.all (fun p => p.fault.isSome || (match p.req with
        | some (.guardRequestAtHome _) => false
        | _ => true)))))

/-- A thread stopped for eviction at its instruction boundary (R292): one in a reply wait has its instruction not yet
issued. -/
def stopForImage (t : Thread) : Thread :=
  { withdraw t with
    run := if t.pend.any asks && t.run == .waiting .reply then .ready else t.run
    reserved := none }
/-- A request of a stopped thread that has not reached the guard's or the Husk's home: its instruction has not issued. -/
def unissued (t : Thread) (i : Instr) : Bool :=
  match i with
  | .guardRequestAtHome r => t.pend.any (fun p => asks p && p.id == r.acc) && r.agent == t.ref.agent && r.ctx == t.ref.ctx
  | .huskOpen r => r.t == t.ref
  | _ => false

/-- `EVICTION_REQUEST` (R292, R294, R313, R315): the core stops the context's threads; their tickets, parked entries and
reserved buffer entries go; its router refuses until the image is complete; the landing table is empty. -/
def execEvictionRequest (ctx core region : Nat) (s : State) : Out :=
  if (s.imageAny? ctx core).isSome ∨ !(s.ctxD ctx).has core then ev s
  else
    let ts := threadsOf s ctx core
    let s : State := { s with flight := s.flight.filter (fun i => !ts.any (fun t => unissued t i)) }
    let s := ts.foldl (fun s t => ((s.dropEntries t.ref).unreserve t.ref).updThread t.ref stopForImage) s
    let im : Image := ⟨ctx, core, region, false, [], Core.reset (s.mcOf ctx core), [], [], none⟩
    ev (({ s with images := s.images ++ [im] }.dropBlocks ctx core).clearBytes (im.base + 0xE5000) 0x1B000)

/-- First key and size of a context's share on a core (R273). -/
def shareOf (c : Core) (ctx : Nat) : Nat × Nat :=
  match c.resident? ctx with
  | some r => (Config.scratchKey + c.id * Config.scratchSize + r.base, r.size)
  | none => (Config.scratchKey + c.id * Config.scratchSize, 0)
/-- Place of the share in an image (R293). -/
def imageShare (region cc : Nat) : Nat := region + cc * 0x100000 + 0x65000

/-- A share's bytes copied to an image, whose lines are FREE (R372). -/
def State.copyShare (s : State) (src n dst : Nat) : State := { s with mem := copyTab Config.blank s.mem src n dst }

/-- Every object of a core whose units may have become available offered (R290), and those who wait for a queue slot or the
router made ready. -/
def offerCore (s : State) (mc : Nat) : State :=
  let s := (List.range 16).foldl (fun s n => s.offer 0 (.pod mc n)) s
  let s := (List.range 4).foldl (fun s n => s.offer 0 (.accum mc n)) s
  s.wakeAll (fun o => o == .router mc || o == .qslots mc)

/-- A core evicted (R293, R294, R295): the context's state is in its image, its thread contexts, share and resident slot are
free, and requests are served on the image or logged. -/
def evicted (s : State) (im : Image) : State :=
  let ctx := im.ctx
  let core := im.core
  let mc := s.mcOf ctx core
  let c := s.core mc
  let part := takePart c ctx
  let (src, n) := shareOf c ctx
  let ts := threadsOf s ctx core
  let msgs := (c.inbox.filter (fun m => m.ctx == ctx)).map asLogged
  let s := s.writeImage im.base 0xE5000 (imageAreas s part ts ctx core src n ++ logArea msgs)
  let s := (s.moveShare src n (im.base + 0x65000)).setCore (dropPart c ctx)
  let s := s.updImage ctx core (fun im => { im with complete := true, threads := ts, state := part, log := msgs })
  offerCore { s with threads := s.threads.filter (fun t => !(t.ref.ctx == ctx && TRef.cc t.ref == core)) } mc

/-- What an event answers, as a state. -/
def outState (s : State) : Out → State
  | .next t => t
  | _ => s

/-- An entry of a pending log applied (R296). -/
def applyLogged (s : State) (i : Instr) : State :=
  match i with
  | .messageArrival m => msgArrive s m
  | .counterIncrement ctx core n => outState s (execCounterIncrement ctx core n s)
  | .barrierArrivalAtAgent ctx l lv p x => outState s (execBarrierArrivalAtAgent ctx l lv p x s)
  | .untaggedDeposit d => outState s (execUntaggedDeposit d s)
  | .pipArrival p => outState s (execPipArrival p s)
  | _ => s
/-- An entry of a landing table replayed (R314). -/
def applyLanding (s : State) (x : Landing) : State :=
  match x with
  | .value d => taggedHere s d
  | .fault r acc unit f => s.updThread r (fun t => holdFault t acc unit f)
  | .command r f => s.updThread r (fun t => { t with cmdFaults := t.cmdFaults ++ [f] })

/-- A window of R289 or a reservation's end put off by the cycles of a live dump (R372). -/
def putOff (k : Nat) (w : Waiter) : Waiter :=
  { w with last := w.last + k, reserved := w.reserved.map (fun f => if f = 0 then 0 else f + k) }
/-- The blocks of a core's stopped threads in an image just written (R375). -/
def State.keepBlocks (s : State) (ctx cc base : Nat) : State :=
  let s := s.dropBlocks ctx cc
  let stopped := (threadsOf s ctx cc).filter (fun t => match t.run with
    | .stopped _ => true
    | _ => false)
  { s with blocks := s.blocks ++ stopped.map (fun t => (blockPlace base t.ref, s.readBlock (blockPlace base t.ref) t)) }

/-- A core dumped (R372, R293): its image written, with the landing table's area empty; what was held for its threads is
applied, and they go on. The blocks of stopped threads stand for the host to read and write until it resumes them (R375). -/
def dumped (s : State) (im : Image) (start : Nat) : State :=
  let mc := s.mcOf im.ctx im.core
  let c := s.core mc
  let (src, n) := shareOf c im.ctx
  let s := s.writeImage im.base 0x100000 (imageAreas s (takePart c im.ctx) (threadsOf s im.ctx im.core) im.ctx im.core src n)
  let s := (s.copyShare src n (im.base + 0x65000)).keepBlocks im.ctx im.core im.base
  let s : State := { s with
    images := s.images.filter (fun x => !(x.ctx == im.ctx && x.core == im.core))
    waiters := s.waiters.map (fun w => if w.ctx == im.ctx && w.agent / 16 == im.core then putOff (s.cycle - start) w else w) }
  (im.landing.foldl (fun s x => applyLanding s x.1) s).wakeAll (fun o => o == .router mc)

/-- `IMAGE_COMPLETE` (R293, R372): the core's image is written. -/
def execImageComplete (ctx core : Nat) (s : State) : Out :=
  match s.imageAny? ctx core with
  | none => ev s
  | some im =>
    if im.complete ∨ !imageReady s ctx core then ev s
    else ev (match im.dump with
      | some start => dumped s im start
      | none => evicted s im)

/-- A thread as resumption makes it ready (R80, R296): a parked one issues its instruction again. -/
def resumed (cycle : Nat) (t : Thread) : Thread :=
  { t with
    ras := []
    fetched := false
    yielded := []
    nextIssue := cycle
    run := match t.run with
      | .parked _ _ | .waiting _ => .ready
      | r => r }

/-- Whether a core can take an image back (R296): mapped, resident with a share and mask that hold what was saved, and
nobody else having its objects; where a Pod, an accumulator, a counter, a queue slot or the deposit latch has no room for what was
saved, it waits until it has (DESIGN CHOICE, log entry 59). -/
def resumeReady (s : State) (ctx core : Nat) : Bool :=
  match s.image? ctx core with
  | none => false
  | some im =>
    let c := s.core (s.mcOf ctx core)
    let p := im.state
    (s.ctxD ctx).has core
      && (match c.resident? ctx, p.resident? ctx with
        | some r, some q => decide (q.size ≤ r.size) && im.threads.all (fun t => bit r.mask (TRef.tid t.ref))
        | some _, none => true
        | none, _ => false)
      && (List.range 16).all (fun i => (p.pod i).owner.isNone || (c.pod i).st == .free)
      && (List.range 4).all (fun i => (p.acc i).owner.isNone || (c.acc i).st == .free)
      && (List.range 64).all (fun i => (p.counter i).owner.isNone || (c.counter i).owner.isNone || (c.counter i).owner == some ctx)
      && decide (c.queues.length + p.queues.length ≤ 32) && decide (c.depLatch.length + p.depLatch.length ≤ 8)

/-- An image that the host has copied to another region taken from there (R293): its bytes and its share's tag array stand for
those of the region where the core wrote it. -/
def adoptRegion (s : State) (im : Image) (region : Nat) : State :=
  if region = im.region then s
  else
    let from_ := region + im.core * 0x100000
    let n := ((im.state.resident? im.ctx).map (·.size)).getD 0
    let s : State := { s with mem := copyTab Config.blank s.mem from_ 0xE5000 im.base }
    (List.range (n / 128)).foldl (fun s i =>
      s.setMd ((im.base + 0x65000) / 128 + i) (BitVec.ofNat 64 (Memory.readN s.mem 8 (im.base + 0x5D000 + 8 * i)))) s

/-- `RESUMPTION` (R296, R314): the image restored as its bytes in the region stand, then the pending log, then the landing
table, then the threads. Copies of the core and die that take them, which may be older than what the threads have written or
acquired, go (R237, R242, R263). -/
def execResumption (ctx core region : Nat) (s : State) : Out :=
  match s.image? ctx core with
  | none => ev s
  | some im =>
    if !resumeReady s ctx core then ev s
    else
      let s := adoptRegion s im region
      let mc := s.mcOf ctx core
      let rd (off n : Nat) : Nat := Memory.readN s.mem n (im.base + off)
      let part := partRead rd im.state ctx
      let ts := im.threads.map (fun t => s.readBlock (blockPlace im.base t.ref) t)
      let (dst, _) := shareOf (s.core mc) ctx
      let n := ((im.state.resident? ctx).map (·.size)).getD 0
      let s := (s.moveShare (im.base + 0x65000) n dst).updCore mc (fun c => putPart c part ctx)
      let s : State := { s with
        images := s.images.filter (fun x => !(x.ctx == ctx && x.core == core))
        threads := s.threads ++ ts.map (resumed s.cycle) }
      ev ((im.landing.foldl (fun s x => applyLanding s x.1) (im.log.foldl applyLogged s)).dropStale mc)

/-- A live dump begun (R372): the cores that are not evicted stop; tickets and parked entries are kept. -/
def beginDump (s : State) (ctx region : Nat) (cores : List Nat) : State :=
  { s with images := s.images ++ cores.map (fun cc => ⟨ctx, cc, region, false, [], Core.reset (s.mcOf ctx cc), [], [], some s.cycle⟩) }

end Sys2Proof.Machine
end

