-- ==== Sys2Proof/Machine/Digest.lean ====
section
/-! DEFINITION. The digest SHA-512 that firmware signatures and SPDM measurements use (spec 22 R388). The spec names the
function; its steps are PRESUMED from FIPS 180-4 (log entry 21). Its constants are the first bits of the fractions of square
and cube roots of primes. -/
namespace Sys2Proof.Machine
open Sys2Proof

/-- The greatest r below `r0 + 2^n` whose k-th power is at most x, r0 being one. -/
def rootFrom (k x : Nat) : Nat → Nat → Nat
  | 0, r => r
  | n + 1, r => rootFrom k x n (if (r + 2 ^ n) ^ k ≤ x then r + 2 ^ n else r)
/-- The first 64 bits of the fraction of the k-th root of p. -/
def rootBits (k p : Nat) : BitVec 64 := BitVec.ofNat 64 (rootFrom k (p * 2 ^ (64 * k)) 70 0)
/-- The first n primes. -/
def firstPrimes (n : Nat) : List Nat :=
  ((List.range 410).filter (fun p => 2 ≤ p && (List.range 19).all (fun i => p ≤ i + 2 || p % (i + 2) != 0))).take n

/-- A word turned right. -/
def turn64 (x : BitVec 64) (n : Nat) : BitVec 64 := x.rotateRight n
/-- A message padded to blocks of 128 bytes. -/
def padded (m : List Nat) : List Nat :=
  let n := m.length
  m ++ 0x80 :: List.replicate ((239 - n % 128) % 128) 0 ++ (bytesOf' 16 (8 * n)).reverse
where
  /-- A number's bytes, lowest first. -/
  bytesOf' (n x : Nat) : List Nat := (List.range n).map (fun i => x / 256 ^ i % 256)
/-- A list cut into pieces of n, at most `fuel` of them. -/
def cutList {α : Type} (n : Nat) : Nat → List α → List (List α)
  | 0, _ => []
  | fuel + 1, l => if l.isEmpty then [] else l.take n :: cutList n fuel (l.drop n)
/-- The word of eight bytes, highest first. -/
def wordHigh (l : List Nat) : BitVec 64 := BitVec.ofNat 64 (l.foldl (fun v b => 256 * v + b) 0)

/-- The schedule of a block, newest word first, with one more word. -/
def moreSchedule (w : List (BitVec 64)) : List (BitVec 64) :=
  let g (i : Nat) : BitVec 64 := w.getD (i - 1) 0
  let s0 := turn64 (g 15) 1 ^^^ turn64 (g 15) 8 ^^^ (g 15 >>> 7)
  let s1 := turn64 (g 2) 19 ^^^ turn64 (g 2) 61 ^^^ (g 2 >>> 6)
  (s1 + g 7 + s0 + g 16) :: w
/-- One round on the eight working words. -/
def digestRound (v : List (BitVec 64)) (kw : BitVec 64) : List (BitVec 64) :=
  match v with
  | [a, b, c, d, e, f, g, h] =>
    let t1 := h + (turn64 e 14 ^^^ turn64 e 18 ^^^ turn64 e 41) + ((e &&& f) ^^^ (~~~e &&& g)) + kw
    let t2 := (turn64 a 28 ^^^ turn64 a 34 ^^^ turn64 a 39) + ((a &&& b) ^^^ (a &&& c) ^^^ (b &&& c))
    [t1 + t2, a, b, c, d + t1, e, f, g]
  | v => v
/-- The chaining words after a block. -/
def digestBlock (h : List (BitVec 64)) (block : List Nat) : List (BitVec 64) :=
  let w := ((List.range 64).foldl (fun w _ => moreSchedule w) ((cutList 8 16 block).map wordHigh).reverse).reverse
  let ks := (firstPrimes 80).map (rootBits 3)
  List.zipWith (· + ·) h ((List.zipWith (· + ·) ks w).foldl digestRound h)
/-- SHA-512 of a message, as a number of 512 bits. -/
def sha512 (m : List Nat) : Nat :=
  let p := padded m
  ((cutList 128 (p.length / 128) p).foldl digestBlock ((firstPrimes 8).map (rootBits 2))).foldl (fun v w => 2 ^ 64 * v + w.toNat) 0

end Sys2Proof.Machine
end

