-- ==== Sys2Proof/Machine/Mgmt.lean ====
section
/-! DEFINITION. The management side: lock, reset, boot and step record, firmware, sensors and measurements, links (spec 22
R385-R388). -/
namespace Sys2Proof.Machine
open Sys2Proof

/-- A lease in reference nanoseconds (R386). -/
def leaseTime : Nat := 10000000000
/-- The lock while its lease runs (R386). -/
def State.liveLock (s : State) : Option Lock := s.mgmt.lock.filter (fun l => decide (s.now < l.fin))

/-- Whether two times lie in one reference microsecond. -/
def sameMicro (a b : Nat) : Bool := a / 1000 == b / 1000
/-- A master asks for the lock or renews its lease (R386): whether it has it now. Of two masters that ask in one reference
microsecond the side band gets it. -/
def State.askLock (s : State) (side : Bool) : State × Bool :=
  let give (side : Bool) : State := { s with mgmt := { s.mgmt with lock := some ⟨side, s.now + leaseTime, s.now, none, false⟩ } }
  match s.liveLock with
  | none => (give side, true)
  | some l =>
    if side then
      if l.side || sameMicro l.asked s.now then (give true, true)
      else ({ s with mgmt := { s.mgmt with lock := some { l with tried := some s.now } } }, false)
    else if l.side then (s, false)
    else if l.tried.any (sameMicro s.now) then ((give true).tellSide 1, false)
    else (give false, true)

/-- Whether a master may perform an exclusive operation (R386): it holds the lock; or the other holds it, whose lease has
run out, or the Ethernet side is down. -/
def State.mayExclude (s : State) (side : Bool) : Bool :=
  match s.mgmt.lock with
  | none => false
  | some l => if l.side == side then decide (s.now < l.fin) else decide (l.fin ≤ s.now) || s.mgmt.ports.isEmpty

/-- `LOCK_LEASE_EXPIRY` (R386): the end of the lease is noted; who held the lock still stands. -/
def execLockLeaseExpiry (s : State) : Out :=
  ev { s with mgmt := { s.mgmt with lock := s.mgmt.lock.map (fun l => { l with ended := l.ended || decide (l.fin ≤ s.now) }) } }

/-- `SIDEBAND_LOCK_REQUEST` (R386): 1 granted, 0 refused. -/
def execSidebandLockRequest (s : State) : Out :=
  let (s, ok) := s.askLock true
  ev (s.tellSide ok.toNat)

/-- THE MODULE'S RESET (R386, R387, R96): every context ends, no outstanding message is completed, boot starts at step 1.
Memory's bytes, the non-volatile record and firmware, and what was sent stay (log entry 4); no completion is sent again, the
sequence numbers starting anew. -/
def moduleReset (s : State) : State :=
  { State.reset with
    mem := s.mem
    oracle := s.oracle
    draws := s.draws
    nextId := s.nextId
    mgmt := { State.reset.mgmt with record := s.mgmt.record, slotA := s.mgmt.slotA, slotB := s.mgmt.slotB
                                    rollback := s.mgmt.rollback, side := s.mgmt.side }
    done := s.done
    events := s.events
    rmaOut := s.rmaOut }

/-- `SIDEBAND_RESET` (R386): refused without the right to an exclusive operation. -/
def execSidebandReset (s : State) : Out := ev (if s.mayExclude true then moduleReset s else s.tellSide 2)

/-- An entry of the step record: result, attempts, mask of failed units; zeros when nothing is written (R387). -/
def Mgmt.entry (m : Mgmt) (step : Nat) : Nat × Nat × Nat := m.record.getD (step - 1) (0, 0, 0)
/-- The step record with an entry set. -/
def Mgmt.setEntry (m : Mgmt) (step : Nat) (e : Nat × Nat × Nat) : Mgmt :=
  { m with record := ((List.range 7).map (fun i => if i + 1 = step then e else m.record.getD i (0, 0, 0))) }
/-- Boot-step entries cleared: one, or all for 0 (R387). -/
def clearSteps (m : Mgmt) (n : Nat) : Mgmt :=
  if n = 0 then { m with record := List.replicate 7 (0, 0, 0) } else m.setEntry n (0, 0, 0)

/-- `SIDEBAND_STEP_CLEAR` (R386, R387). -/
def execSidebandStepClear (n : Nat) (s : State) : Out :=
  ev (if 7 < n then s.tellSide 1
    else if s.mayExclude true then { s with mgmt := clearSteps s.mgmt n }.tellSide 0 else s.tellSide 2)

/-- Whether an image may be loaded (R388). -/
def imageOk (m : Mgmt) (image : Nat) : Bool := Config.signatureOk image && decide (m.rollback ≤ Config.imageVersion image)

/-- The entry of a step written, with one more attempt unless it is skipped, and where bring-up goes on (R387); a failure is
reported (R384). -/
def stepEnd (s : State) (n result mask : Nat) : State :=
  let (_, att, _) := s.mgmt.entry n
  let m := s.mgmt.setEntry n (result, if result = 2 then att else Nat.min (att + 1) 255, mask)
  if result = 1 then { s with mgmt := { m with step := 0 } }.emitAll 7 (BitVec.ofNat 64 n)
  else { s with mgmt := { m with step := n + 1 } }

/-- How many units the self tests of a step look at (R2, R387): the power rails and the clocks, as one each; HBM stacks; die
links; tiles, by die, row and physical column; ports. -/
def stepUnits (n : Nat) : Nat := [0, 1, 1, 8, 4, 1600, 0, 16].getD n 0
/-- The units that a step's self tests find failing. -/
def failing (n bad : Nat) : List Nat := (List.range (stepUnits n)).filter (bit bad)
/-- The mask of failed units in a step's entry: one bit for each unit; for tiles one for each row of a die (log entry 21). -/
def unitMask (n : Nat) (l : List Nat) : Nat := l.foldl (fun m u => m ||| 2 ^ (if n = 5 then u / 25 else u)) 0
/-- Units of a mask. -/
def maskUnits (m : Nat) : List Nat := (List.range 64).filter (bit m)
/-- Units fenced (R387). -/
def fence (s : State) (n : Nat) (l : List Nat) : State :=
  { s with mgmt := { s.mgmt with fenced := s.mgmt.fenced ++ l.map (fun u => (n, u)) } }

/-- The failing column of a die that its spare column, physical column 24, replaces (R387): the first. -/
def sparedColumns (l : List Nat) : List (Nat × Nat) :=
  (List.range 4).filterMap (fun d => ((List.range 24).find? (fun c => l.any (fun u => u / 400 == d && u % 25 == c))).map (fun c => (d, c)))
/-- The tiles, by their logical numbers (R3), that fail where the columns named are replaced. -/
def deadTiles (spare : List (Nat × Nat)) (l : List Nat) : List Nat :=
  (List.range Config.cores).filter (fun m =>
    let c := m % 24
    l.contains (m / 384 * 400 + m % 384 / 24 * 25 + (if spare.contains (m / 384, c) then 24 else c)))

/-- The alternate path of a step whose entry shows failure (R387): none for the power rails, the clocks being skipped (log
entry 21); failed stacks or ports fenced; the lower link rate, with what still fails fenced; spare columns, with the other
failing tiles fenced. `l` are the units that fail now, `mask` those that failed before. -/
def bootAgain (s : State) (n mask : Nat) (l : List Nat) : State :=
  match n with
  | 1 => stepEnd s 1 1 mask
  | 2 => stepEnd s 2 2 mask
  | 4 => stepEnd (fence { s with mgmt := { s.mgmt with slow := maskUnits mask } } 4 l) 4 3 (unitMask 4 l)
  | 5 =>
    let spare := sparedColumns l
    stepEnd (fence { s with mgmt := { s.mgmt with spare := spare } } 5 (deadTiles spare l)) 5 3 (unitMask 5 l)
  | n => stepEnd (fence s n (maskUnits (mask ||| unitMask n l))) n 3 (mask ||| unitMask n l)

/-- Firmware loaded from a slot when it verifies (R387, R388). -/
def loadFirmware (s : State) (image result : Nat) : State :=
  if imageOk s.mgmt image then stepEnd { s with mgmt := { s.mgmt with running := image } } 6 result 0 else stepEnd s 6 1 0

/-- `BOOT` (R387, R388): the next step of bring-up. `oracle.fail` is the mask of units that fail in it, the results of the
self tests being open (log entry 21). A step whose entry shows failure takes its alternate path; a step that fails ends the
start. After step 7 the ports are up. -/
def execBoot (s : State) : Out :=
  let n := s.mgmt.step
  let (was, _, mask) := s.mgmt.entry n
  if n = 0 ∨ 7 < n then ev s
  else if n = 6 then ev (if was = 1 then loadFirmware s s.mgmt.slotB 3 else loadFirmware s s.mgmt.slotA 0)
  else
    let l := failing n s.oracle.fail
    let s :=
      if was = 1 then bootAgain s n mask l
      else if n = 5 ∧ (deadTiles [] l).isEmpty then stepEnd s n 0 0
      else stepEnd s n (if l.isEmpty then 0 else 1) (unitMask n l)
    ev (if s.mgmt.step = 8 then
        { s with mgmt := { s.mgmt with ports := (List.range 16).filter (fun p => !s.mgmt.fenced.contains (7, p)) } }
      else s)

/-- A firmware image written to a slot (R387). -/
def putFirmware (s : State) (slotB : Bool) (image : Nat) : State :=
  { s with mgmt := if slotB then { s.mgmt with slotB := image } else { s.mgmt with slotA := image } }
/-- `PLDM_FIRMWARE_UPDATE` (R385, R386). -/
def execPldmFirmwareUpdate (slotB : Bool) (image : Nat) (s : State) : Out :=
  ev (if s.mayExclude true then (putFirmware s slotB image).tellSide 0 else s.tellSide 2)
/-- A number's bytes below its highest bit, which marks the length (log entry 21): how images stand in the two slots. -/
def blobBytes (b : Nat) : List Nat := (List.range (Nat.log2 b / 8)).map (fun i => b / 256 ^ i % 256)

/-- What a sensor reads (R385, R387, R390): a free analog reading; a die's energy total in microjoule; an error count; an
energy weight; the units of a boot step that are in service. -/
def State.sensor (s : State) (id : Nat) : Nat :=
  match Config.sensorKind id with
  | .analog => Config.sensor id s.draws
  | .energy die cls =>
    s.ctxs.foldl (fun n c => n + (((c.energy.find? (fun e => e.1 == die)).map (·.2)).getD []).getD cls 0 / 2 ^ 32) 0
  | .errors n => tabGet 0 s.errors n
  | .weight cls kind => Config.energyWeight cls kind
  | .units n =>
    let all := if n = 5 then Config.cores else stepUnits n
    all - ((List.range all).filter (fun u => s.mgmt.fenced.contains (n, u))).length
/-- `PLDM_SENSOR_READ` (R385): a query, never refused. -/
def execPldmSensorRead (id : Nat) (s : State) : Out := ev (s.tellSide (s.sensor id))

/-- The step record as it is stored (R387): 16 bytes for each step. -/
def Mgmt.recordBytes (m : Mgmt) : List Nat :=
  (List.range 7).flatMap (fun i =>
    let (result, att, mask) := m.entry (i + 1)
    let x := result % 256 + att % 256 * 2 ^ 8 + mask % 2 ^ 64 * 2 ^ 64
    (List.range 16).map (fun j => x / 256 ^ j % 256))
/-- `SPDM_GET_MEASUREMENTS` (R388): the digests of the boot firmware, which stands in slot A, the running firmware and the
step record, and their signature. -/
def execSpdmGetMeasurements (nonce : Nat) (s : State) : Out :=
  let boot := sha512 (blobBytes s.mgmt.slotA)
  let running := sha512 (blobBytes s.mgmt.running)
  let record := sha512 s.mgmt.recordBytes
  ev ((((s.tellSide boot).tellSide running).tellSide record).tellSide (Config.signed nonce boot running record))
/-- `PORT_LINK_CHANGE` (R386); a fenced port gets no link (R387). -/
def execPortLinkChange (port : Nat) (up : Bool) (s : State) : Out :=
  let ports := s.mgmt.ports.filter (· != port)
  ev { s with mgmt := { s.mgmt with ports := if up ∧ !s.mgmt.fenced.contains (7, port) then ports ++ [port] else ports } }

end Sys2Proof.Machine
end

