-- ==== Sys2Proof/Machine/HostMsg.lean ====
section
/-! DEFINITION. The messages of host queues and the command endpoint, RMA, and their completions (spec 22 R379-R384, 12
R272, R273, R280, R299, 15 R346, R347, 21 R367-R378). Statuses that the spec does not state stand in log entry 34. -/
namespace Sys2Proof.Machine
open Sys2Proof

/-- Queue number of the command endpoint (R380). -/
def cmdQueueNo : Nat := 0xFFFF
/-- A host queue of a context as nobody has set it (R380: up to 64 for each context; log entry 4). -/
def HQueue.unset (id : Nat) : HQueue := ⟨id, 0, 0, 0, 0, [], none⟩
/-- A host queue of a context. -/
def Ctx.hq (c : Ctx) (id : Nat) : HQueue := (c.queues.find? (fun q => q.id == id)).getD (HQueue.unset id)
/-- A context with a function applied to a host queue. -/
def Ctx.updHq (c : Ctx) (id : Nat) (f : HQueue → HQueue) : Ctx :=
  { c with queues := c.queues.filter (fun q => q.id != id) ++ [f (c.hq id)] }

/-- A message refused (R380). -/
def State.refuse (s : State) (h : Hdr) (status : Nat) : State := s.complete h status 0
/-- The completion of a message that has been acted on sent again, once there is one (R380). -/
def State.again (s : State) (h : Hdr) : State :=
  match s.answers.find? (fun c => c.h == h) with
  | some c => { s with done := s.done ++ [c] }
  | none => s

/-- A message acted on in SEQ order (R380): one acted on before is answered again; one that comes too early, or that
cannot be acted on yet, waits among the inputs. `next` is the endpoint's next SEQ and `bump` advances it. -/
def inOrder (h : Hdr) (next : Nat) (bump : State → State) (body : State → Option State) (s : State) : State :=
  let wait : State := { s with waits := true }
  if h.seq < next then s.again h
  else if next < h.seq then wait
  else match body (bump s) with
    | some s => s
    | none => wait

/-- A message acted on by its endpoint in SEQ order (R380, R383): the command endpoint, or one of the 64 host queues of its
context. A message for an endpoint that there is not is malformed. -/
def inEndpoint (h : Hdr) (body : State → Option State) (s : State) : State :=
  if h.queue = cmdQueueNo then inOrder h s.cmdNext (fun s => { s with cmdNext := s.cmdNext + 1 }) body s
  else match s.ctx? h.ctx with
    | none => s.refuse h 1
    | some c =>
      if 64 ≤ h.queue then s.refuse h 1
      else inOrder h (c.hq h.queue).next
        (fun s => s.updCtx h.ctx (fun c => c.updHq h.queue (fun q => { q with next := q.next + 1 }))) body s

/-- A command of the endpoint (R382, R383); sent to a host queue it is malformed. -/
def onModule (h : Hdr) (body : State → Option State) (s : State) : State :=
  inEndpoint h (fun s => if h.queue = cmdQueueNo then body s else some (s.refuse h 1)) s

/-- A command that acts on a context (R382). -/
def onContext (h : Hdr) (body : Ctx → State → Option State) (s : State) : State :=
  onModule h (fun s => match s.ctx? h.ctx with
    | none => some (s.refuse h 1)
    | some c => body c s) s

/-- A message of a host queue (R380, R382); sent to the command endpoint it is malformed. -/
def onQueue (h : Hdr) (body : Ctx → HQueue → State → Option State) (s : State) : State :=
  inEndpoint h (fun s => match s.ctx? h.ctx with
    | none => some (s.refuse h 1)
    | some c => if h.queue = cmdQueueNo then some (s.refuse h 1) else body c (c.hq h.queue) s) s

/-- A condition for a command, else its refusal. -/
def okOr (h : Hdr) (b : Bool) (status : Nat) (s : State) (f : State → State) : Option State :=
  some (if b then f s else s.refuse h status)

/-- The number of an access of a port agent, past every number of the module's own. -/
def portNo (ctx seq : Nat) : Nat := 2 ^ 64 + seq * 2048 + ctx
/-- The access of a port agent that something on its way belongs to (R381). -/
def portAccessOf : Instr → Option (Nat × Nat)
  | .pageWalk a | .accessAtHome a => (match a.sink with
    | .rma c q _ => some (c, q)
    | _ => none)
  | .acknowledgement (.rma c q _) _ _ => some (c, q)
  | .copyPacketWrite p => p.port.map (fun x => (x.2.1, 2 ^ 50 + p.cmd))
  | _ => none
/-- Accesses of a context, or of every context, that are issued and not acknowledged (R383): those of threads, where they are
or in core images, of started commands, and of port agents. -/
def accessesOf (s : State) (ctx : Option Nat) : List Nat :=
  let mine (c : Nat) : Bool := ctx.all (· == c)
  let threads := s.threads ++ s.images.flatMap (·.threads)
  (threads.filter (fun t => mine t.ref.ctx)).flatMap (fun t => (t.pend.filter (fun p => p.fault.isNone && !asks p)).map (·.id))
    ++ (cmdPlaces s).flatMap (fun p => if mine p.q.ctx then (p.q.started.map (fun x => x.cmd.id)).filter (cmdOutstanding s) else [])
    ++ (s.onWay.filterMap portAccessOf).filterMap (fun p => if mine p.1 then some (portNo p.1 p.2) else none)
/-- A command whose completion waits until the accesses it affects are acknowledged (R258, R383). -/
def State.whenQuiet (s : State) (h : Hdr) (ctx : Option Nat) : State :=
  { s with defers := s.defers ++ [⟨h, accessesOf s ctx, [], []⟩] }

/-- What a waiting completion still waits for. -/
def stillWaits (s : State) (d : Defer) : Defer :=
  let live := accessesOf s none
  { d with
    accs := d.accs.filter live.contains
    out := d.out.filter (fun cc => (s.image? d.h.ctx cc).isNone)
    back := d.back.filter (fun cc => (s.imageAny? d.h.ctx cc).isSome) }
/-- Waiting completions that are due sent (R383). -/
def State.settle (s : State) : State :=
  let ds := s.defers.map (stillWaits s)
  let spent (d : Defer) : Bool := d.accs.isEmpty && d.out.isEmpty && d.back.isEmpty
  (ds.filter spent).foldl (fun s d => s.complete d.h 0 0) { s with defers := ds.filter (fun d => !spent d) }

/-- `LAUNCH` (R280, R380): the launch is posted; its completion is sent at its start or refusal. A record that is not
256-byte aligned is malformed (R274). One in the own-scratchpad window is in that of the root thread's core. -/
def execLaunch (h : Hdr) (record : Nat) (s : State) : Out :=
  ev (onQueue h (fun _ _ s =>
    if record % 256 ≠ 0 then some (s.complete h 1 8)
    else some (s.updCtx h.ctx (fun c => c.updHq h.queue (fun q => { q with posted := q.posted ++ [(canonVa (rootCore c q) record, h.seq)] })))) s)

/-- The port that a link update is taken to have come through: the lowest with a link (log entry 33). -/
def State.somePort (s : State) : Nat := (sortBy (fun (a b : Nat) => decide (a ≤ b)) s.mgmt.ports).headD 0

/-- The store of a patch to a link-table entry, under the link guard (R346). -/
def linkStore (s : State) (c : Ctx) (entry : Nat) (addr : Word) : Access :=
  let agent := portAgent s.somePort c.id
  { portAccess c agent .write (128 * Config.linkTable c.id + 8 * entry) 8 (addr.setWidth 1024) .none with
    st := { portStamps c agent with holds := [⟨c.linkGuard, true, (c.guard c.linkGuard).count⟩], wg := some c.linkGuard } }

/-- A port agent's guard request (R381, R383). -/
def portReq (h : Hdr) (guard agent : Nat) (op : GOp) : GuardReq where
  ctx := h.ctx
  idx := guard
  agent := agent
  who := .port h.queue h.seq
  op := op
  pred := none
  dest := none
  acc := 0
  pc := 0
  parks := true
  tickets := false

/-- Step 2 of a patch performed for a queue (R346): the link guard taken exclusive, the entry stored, the guard released; the
queue's view is the released COUNT. A store that is refused refuses the message. One that REPORT lets pass has its race record
placed before the guard is released at its home, which completes the message (R310, R391). -/
def linkUpdate (h : Hdr) (c : Ctx) (entry : Nat) (addr : Word) (s : State) : State :=
  let g := c.linkGuard
  let gd := c.guard g
  let agent := portAgent s.somePort c.id
  let a := linkStore s c entry addr
  let take (s : State) : State := s.updCtx c.id (fun c => c.setGuard g { gd with excl := true, holder := agent })
  let viewed (s : State) : State := s.updCtx c.id (fun c => c.updHq h.queue (fun q => { q with view := (gd.count + 1) % 2 ^ 32 }))
  match spotOf s c.id Config.cores a.va true true with
  | .ok (.at_ k key) =>
    let (s, r, rec) := lineAccess s a k key
    (match r, rec with
      | .done, some w =>
        (viewed (take s)).collect 0 (dieOfKey k) (unitOfKey k) w (some (.guardRequestAtHome (portReq h g agent .release)))
      | .done, none => (viewed ((take (s.closeHeld c.id true g)).releaseGuard c.id g)).complete h 0 0
      | _, _ => ((take (s.closeHeld c.id true g)).releaseGuard c.id g).refuse h 2)
  | _ => s.refuse h 2

/-- Whether every launch of a queue before a message has run its `wake`, so that it has the view it is to have (R345,
R346). -/
def launchesWoken (c : Ctx) (q : HQueue) : Bool := (c.hq q.id).posted.isEmpty && (c.hq q.id).starting.isNone

/-- Whether a patch may be made now: behind the launches before it, with the link guard free, nobody listed for it, its clock free to
advance (R126, R265, R346), in its line's logged order (R377). -/
def linkReady (s : State) (c : Ctx) (q : HQueue) (entry : Nat) : Bool :=
  let a := linkStore s c entry 0
  launchesWoken c q && (c.guard c.linkGuard).isFree && s.capOk c.id true c.linkGuard
    && !s.waiters.any (fun w => w.on c.id (.guard c.linkGuard))
    && (match spotOf s c.id Config.cores a.va true true with
      | .ok (.at_ k _) => lineTurn s a k
      | _ => true)

/-- `LINKUPD` (R346): in its queue's order, behind the launches before it; it waits while the link guard is held, others wait
for it or its clock may not advance (R126, R265). It has no place in the guard's list: later acquirers may pass it, and it yields to
all that are listed (DESIGN CHOICE, log entry 33). -/
def execLinkupd (h : Hdr) (entry : Nat) (addr : Word) (s : State) : Out :=
  ev (onQueue h (fun c q s =>
    if linkReady s c q entry then some (linkUpdate h c entry addr s) else none) s)

/-- `LINKACQ` (R347). -/
def execLinkacq (h : Hdr) (s : State) : Out :=
  ev (onQueue h (fun c q s =>
    if !launchesWoken c q || linkPending c then none else some ((s.updCtx h.ctx (fun x => x.updHq h.queue (fun q => { q with view := (c.guard c.linkGuard).count }))).complete h 0 0)) s)

/-- `CTXNEW` (R382, R381, R124, R298): every guard free with count 0. -/
def execCtxnew (h : Hdr) (num tfb gbase gsize link evAddr evEp : Nat) (s : State) : Out :=
  ev (onModule h (fun s =>
    okOr h (decide (num < 2048) && (s.ctx? num).isNone && tfb % 128 == 0 && gbase % 16 == 0 && decide (gsize ≤ 2 ^ 22)
      && decide (link < 2 ^ 22)) 1 s
      (fun s => { s with ctxs := s.ctxs ++ [{ s.ctxD num with id := num, mode := 0x100, tfb := tfb, gbase := gbase, gsize := gsize,
                                                               linkGuard := link, evAddr := evAddr, evEp := evEp }] }.complete h 0 0)) s)

/-- The context of what is on its way, where it has one. -/
def flightCtx : Instr → Option Nat
  | .taggedDelivery d => some d.t.ctx
  | .untaggedDeposit d => some d.ctx
  | .acknowledgement (.thread t _ _) _ _ => some t.ctx
  | .acknowledgement (.rma c _ _) _ _ => some c
  | .copyPacketWrite p => p.port.map (fun x => x.2.1)
  | .fetchLineArrival t => some t.ctx
  | .pageWalk a | .accessAtHome a => some a.ctx
  | .fredClose c _ _ => some c
  | .guardRequestAtHome r => some r.ctx
  | .guardReply r => some r.req.ctx
  | .remoteQueueOp q => some q.t.ctx
  | .messageArrival m => some m.ctx
  | .pipArrival p => some p.ctx
  | .barrierArrivalAtAgent c _ _ _ _ => some c
  | .counterIncrement c _ _ => some c
  | .huskOpen r => some r.t.ctx
  | .wakeForward c _ _ _ => some c
  | .threadStart c _ _ => some c
  | .faultReply t _ _ _ => some t.ctx
  | .evictionRequest c _ _ => some c
  | .resumption c _ _ => some c
  | .addressComparatorStop t _ => some t.ctx
  | _ => none

/-- The guard request of a port agent's command, where it is one. -/
def portAsks : Instr → Option GuardReq
  | .guardRequestAtHome r => some r
  | .guardReply r => some r.req
  | _ => none
/-- A context's messages that have been acted on and not completed: launches posted or starting, and guard requests of its
port agents, parked, kept by the rate cap or on their way (R265, R380, R383). -/
def openMessages (s : State) (id : Nat) : List Hdr :=
  let launches := (s.ctxD id).queues.flatMap (fun q => (q.posted.map (·.2) ++ q.starting.toList).map (fun n => (⟨q.id, id, n⟩ : Hdr)))
  let asked := s.waiters.filterMap (·.req) ++ (s.capped ++ s.onWay).filterMap portAsks
  launches ++ (asked.filterMap (fun r => match r.who with
    | .port queue n => if r.ctx = id then some (⟨queue, id, n⟩ : Hdr) else none
    | _ => none)).eraseDups
/-- RMA accesses and packets of a context's port agents that are on their way (R381). -/
def openRma (s : State) (id : Nat) : List Nat :=
  (s.rmaOpen.filter (fun o => o.ctx == id)).map (·.seq)
    ++ s.onWay.filterMap (fun i => match i with
      | .copyPacketWrite p => p.port.bind (fun x => if x.2.1 = id then some p.cmd else none)
      | _ => none)
/-- What a context has open answered before it is destroyed, each message getting its one completion (R380): its RMA accesses
with a protection response, a command that waits for accesses alone with STATUS 0, all else with STATUS 3 (DESIGN CHOICE, log
entry 34). -/
def closeMessages (s : State) (id : Nat) : State :=
  let s : State := { s with rmaOut := s.rmaOut ++ (openRma s id).map (fun n => (id, n, none)) }
  let s := (openMessages s id).foldl (fun s h => s.refuse h 3) s
  (s.defers.filter (fun d => d.h.ctx == id)).foldl (fun s d => s.refuse d.h (if d.out.isEmpty && d.back.isEmpty then 0 else 3)) s

/-- Whether a thread of another context that is parked on this has what it waits for when a context goes (R31): a core's
queue slots, or entries of its outbound buffer. -/
def freedBy (s : State) (id : Nat) : WObj → Bool
  | .qslots mc => (s.core mc).queues.any (fun q => q.ctx == id)
  | .outbound mc => (s.core mc).outbox.any (fun i => outCtx i == id)
    || s.threads.any (fun t => t.ref.ctx == id && t.reserved == some 0 && s.homeOf t.ref == mc)
  | _ => false

/-- A context destroyed (R273, R186): what it has open is answered (R380), everything it holds is freed, its open Husk slots
aborted as by `hclose`, what is on its way for it gone; what became free is offered to others (R31). -/
def dropContext (s : State) (id : Nat) : State :=
  let freed := freedBy s id
  let s := closeMessages s id
  let keep (i : Instr) : Bool := flightCtx i != some id
  let clean (c : Core) : Core :=
    let c := dropPart c id
    { c with
      counters := c.counters.map (fun x => if x.owner == some id then Counter.reset else x)
      portOwner := if c.portOwner == some id then none else c.portOwner
      outbox := c.outbox.filter (fun i => outCtx i != id) }
  let closeSlot (x : HSlot) : HSlot :=
    if x.ctx == id && x.st != .free then { x with st := .free, aborted := true, futures := [], hold := none } else x
  let s : State := { s with
    ctxs := s.ctxs.filter (fun c => c.id != id)
    cores := s.cores.map clean
    threads := s.threads.filter (fun t => t.ref.ctx != id)
    images := s.images.filter (fun im => im.ctx != id)
    blocks := s.blocks.filter (fun b => b.2.ref.ctx != id)
    launches := s.launches.filter (fun l => l.ctx != id)
    waiters := s.waiters.filter (fun w => w.ctx != id)
    advances := s.advances.filter (fun a => a.1 != id)
    flight := s.flight.filter keep
    capped := s.capped.filter keep
    rings := s.rings.map (fun r => { r with coll := r.coll.map (fun e => (e.1, e.2.1, e.2.2.1, e.2.2.2.filter keep)) })
    held := s.held.filter (fun h => h.ctx != id)
    copies := s.copies.filter (fun c => c.ctx != id)
    tlbs := s.tlbs.filter (fun e => e.ctx != id)
    shared := s.shared.filter (fun e => e.ctx != id)
    defers := s.defers.filter (fun d => d.h.ctx != id)
    answers := s.answers.filter (fun a => a.h.ctx != id || a.h.queue == cmdQueueNo)
    rmaOpen := s.rmaOpen.filter (fun o => o.ctx != id)
    husks := s.husks.map (fun h => { h with slots := h.slots.map closeSlot }) }
  s.waiters.foldl (fun s w => s.reoffer w.ctx w.obj) (s.wakeAll freed)
/-- `CTXDEL` (R273). -/
def execCtxdel (h : Hdr) (s : State) : Out :=
  ev (onContext h (fun _ s => some ((dropContext s h.ctx).complete h 0 0)) s)

/-- `PTROOT` (R256, R383): a 128 KiB aligned level-1 table. -/
def execPtroot (h : Hdr) (addr : Nat) (s : State) : Out :=
  ev (onContext h (fun _ s =>
    okOr h (addr % 0x20000 == 0) 1 s (fun s => (s.updCtx h.ctx (fun c => { c with root := some addr })).whenQuiet h (some h.ctx))) s)

/-- `INVAL` (R258): stored translations of the range are dropped module-wide. -/
def execInval (h : Hdr) (va len : Nat) (s : State) : Out :=
  let out (e : Tlb) : Bool := !(e.ctx == h.ctx && decide (va < e.va + e.size) && decide (e.va < va + len))
  ev (onContext h (fun _ s =>
    some ({ s with tlbs := s.tlbs.filter out, shared := s.shared.filter out }.whenQuiet h (some h.ctx))) s)

/-- `COREMAP` (R272, R383): a core that is mapped changes only while it is evicted; a fenced tile is in no map (R387). -/
def execCoremap (h : Hdr) (cc mc : Nat) (s : State) : Out :=
  ev (onContext h (fun c s =>
    let rest := c.coreMap.filter (fun p => p.1 != cc)
    if Config.cores ≤ cc ∨ (mc ≠ 0xFFFF ∧ (Config.cores ≤ mc ∨ rest.any (fun p => p.2 == mc) ∨ s.mgmt.fenced.contains (5, mc)))
    then some (s.refuse h 1)
    else if c.has cc ∧ (s.image? h.ctx cc).isNone then some (s.refuse h 2)
    else some ((s.updCtx h.ctx (fun c => { c with coreMap := if mc = 0xFFFF then rest else rest ++ [(cc, mc)] })).whenQuiet h (some h.ctx))) s)

/-- Whether two ranges share a number. -/
def rangesMeet (a n b m : Nat) : Bool := decide (a < b + m) && decide (b < a + n)
/-- `RESIDE` (R273): shares and masks of one core do not overlap. -/
def execReside (h : Hdr) (mc slot mask base units : Nat) (s : State) : Out :=
  ev (onContext h (fun _ s =>
    let c := s.core mc
    if Config.cores ≤ mc ∨ 4 ≤ slot ∨ 2 ^ 16 ≤ mask ∨ 8 < base + units ∨ (c.resident? h.ctx).isSome then some (s.refuse h 1)
    else if c.residents.any (fun r => r.slot == slot || r.mask &&& mask != 0 || rangesMeet r.base r.size (base * 0x10000) (units * 0x10000))
    then some (s.refuse h 3)
    else some ((s.setCore { c with residents := c.residents ++ [⟨slot, h.ctx, mask, base * 0x10000, units * 0x10000, 0⟩] }).complete h 0 0)) s)

/-- `SLOTTBL` (R285). -/
def execSlottbl (h : Hdr) (mc : Nat) (entries : List (BitVec 4)) (s : State) : Out :=
  ev (onModule h (fun s =>
    okOr h (decide (mc < Config.cores) && entries.length == 64) 1 s
      (fun s => (s.updCore mc (fun c => { c with slotTable := entries })).complete h 0 0)) s)

/-- `GSCOPE` (R240, R124, R383). -/
def execGscope (h : Hdr) (first last scope c0 c1 : Nat) (s : State) : Out :=
  ev (onContext h (fun c s =>
    okOr h (decide (first ≤ last) && decide (last < c.gsize) && decide (scope ≤ 5) && decide (c0 ≤ c1) && decide (c1 < Config.cores)) 1 s
      (fun s => (s.updCtx h.ctx (fun c => { c with scopes := c.scopes ++ [⟨first, last, scope, c0, c1⟩] })).whenQuiet h (some h.ctx))) s)

/-- `QSTUB` (R280). -/
def execQstub (h : Hdr) (queue : Nat) (entry : Word) (die : Nat) (s : State) : Out :=
  ev (onContext h (fun _ s =>
    okOr h (decide (queue < 64) && decide (die < 4) && fld entry 2 0 == 0 && fld entry 63 48 == 0) 1 s
      (fun s => (s.updCtx h.ctx (fun c => c.updHq queue (fun q => { q with stub := entry, die := die }))).complete h 0 0)) s)

/-- `RING` (R391): TAIL is the die's own and stays. -/
def execRing (h : Hdr) (kind die base k head : Nat) (s : State) : Out :=
  ev (onModule h (fun s =>
    okOr h (decide (kind < 4) && decide (die < 4) && decide (6 ≤ k) && decide (k ≤ if kind = 2 then 20 else 16)
      && base % ringSize kind == 0) 1 s
      (fun s =>
        let new : Ring := match s.ring? kind die with
          | some r => { r with base := base, k := k, head := head % 2 ^ 32, raised := false }
          | none => ⟨kind, die, base, k, head % 2 ^ 32, 0, 0, false, []⟩
        { s with rings := s.rings.filter (fun (r : Ring) => !(r.kind == kind && r.die == die)) ++ [new] }.complete h 0 0)) s)

/-- `SPILL` (R268). -/
def execSpill (h : Hdr) (page : Nat) (s : State) : Out :=
  ev (onContext h (fun _ s =>
    some ((s.updCtx h.ctx (fun c => { c with spillPages := c.spillPages ++ [page] })).complete h 0 0)) s)

/-- `REMOTE` (R382). -/
def execRemote (h : Hdr) (idx peer ep key : Nat) (s : State) : Out :=
  ev (onContext h (fun _ s =>
    some ((s.updCtx h.ctx (fun c =>
      { c with remotes := c.remotes.filter (fun r => r.1 != idx) ++ [(idx, peer, ep, key)] })).complete h 0 0)) s)

/-- `KEY` (R259, R383): keys are the module's, so that every access is waited for. -/
def execKey (h : Hdr) (slot wrapped : Nat) (s : State) : Out :=
  ev (onModule h (fun s =>
    okOr h (decide (1 ≤ slot) && decide (slot ≤ 255)) 1 s
      (fun s => { s with keys := s.keys.filter (fun (k : Nat × Nat) => k.1 != slot) ++ [(slot, Config.unwrap wrapped)] }.whenQuiet h none)) s)

/-- `CNTR` (R382, R29): the counters of the mask are the context's; others it had there are nobody's, and threads parked on those
look again (R31). A counter newly given or taken away is 0 and not armed (DESIGN CHOICE, log entry 62). -/
def execCntr (h : Hdr) (mc : Nat) (mask : BitVec 64) (s : State) : Out :=
  ev (onContext h (fun _ s =>
    let c := s.core mc
    if Config.cores ≤ mc then some (s.refuse h 1)
    else if (List.range 64).any (fun i => bit mask.toNat i && (c.counter i).owner.isSome && (c.counter i).owner != some h.ctx)
    then some (s.refuse h 3)
    else
      let new (i : Nat) : Counter :=
        let x := c.counter i
        if bit mask.toNat i then (if x.owner == some h.ctx then x else { Counter.reset with owner := some h.ctx })
        else if x.owner == some h.ctx then Counter.reset else x
      let taken (o : WObj) : Bool := match o with
        | .counter m i => m == mc && (c.counter i).owner == some h.ctx && !bit mask.toNat i
        | _ => false
      some (((s.setCore { c with counters := Vector.ofFn (fun i => new i.val) }).wakeOn h.ctx taken).complete h 0 0)) s)

/-- `PORTOWN` (R382, R29): an owner past the contexts' numbers is none. -/
def execPortown (h : Hdr) (mc owner : Nat) (s : State) : Out :=
  ev (onModule h (fun s =>
    okOr h (decide (mc < Config.cores)) 1 s
      (fun s => ((s.updCore mc (fun c => { c with portOwner := if owner < 2048 then some owner else none })).wakePorts).complete h 0 0)) s)

/-- `HCEIL` (R224): a quota above the ceiling falls to it; what a raised ceiling makes available is offered. -/
def execHceil (h : Hdr) (die ceil : Nat) (s : State) : Out :=
  ev (onContext h (fun _ s =>
    okOr h (decide (die < 4) && decide (ceil ≤ huskSlots)) 1 s
      (fun s => ((s.updCtx h.ctx (fun c => { c with
          ceil := c.ceil.filter (fun p => p.1 != die) ++ [(die, ceil)]
          quota := c.quota.map (fun p => if p.1 == die then (die, Nat.min p.2 ceil) else p) })).offer h.ctx (.husk die)).complete h 0 0)) s)

/-- `PREEMPT` (R292, R293, R383): a core that is evicted already counts as done. -/
def execPreempt (h : Hdr) (cores : List Nat) (region : Nat) (s : State) : Out :=
  ev (onContext h (fun c s =>
    okOr h (cores.all (fun cc => c.has cc || (s.imageAny? h.ctx cc).isSome) && region % 4096 == 0) 1 s
      (fun s =>
        let new := cores.filter (fun cc => (s.imageAny? h.ctx cc).all (fun im => im.dump.isSome))
        { s.post (new.map (fun cc => .evictionRequest h.ctx cc region)) with defers := s.defers ++ [⟨h, [], cores, []⟩] })) s)

/-- `RESUME` (R293, R296, R383): from a region that holds the images of the evicted cores. -/
def execResume (h : Hdr) (cores : List Nat) (region : Nat) (s : State) : Out :=
  ev (onContext h (fun _ s =>
    okOr h (cores.all (fun cc => (s.image? h.ctx cc).isSome) && region % 4096 == 0) 1 s
      (fun s => { s.post (cores.map (fun cc => .resumption h.ctx cc region)) with defers := s.defers ++ [⟨h, [], [], cores⟩] })) s)

/-- A halted thread made to run again (R299): out of its handler, its held fault replies discarded, its registers and
loops as they stood. -/
def unhalt (t : Thread) : Thread :=
  { t with ts := setFld t.ts 11 11 0, trp := 0, trapped := .none, pend := t.pend.filter (fun p => p.fault.isNone), cmdFaults := [] }
/-- A thread resumed by the host at an address (R299, R375): its first issue passes the comparators (R374). -/
def resumeAt (addr : Word) (t : Thread) : Thread :=
  let t := if t.run = .halted then unhalt t else t
  { t with pc := addr, bySeq := false, run := .ready, skipCmp := true }
/-- `THRRES` (R299, R375): of a halted or stopped thread; a stopped one takes what the host has changed in its block. -/
def execThrres (h : Hdr) (cc tid : Nat) (addr : Word) (s : State) : Out :=
  ev (onContext h (fun _ s =>
    match s.agent? h.ctx (cc * 16 + tid) with
    | none => some (s.refuse h 1)
    | some t =>
      let can := match t.run with
        | .stopped _ | .halted => true
        | _ => false
      okOr h (can && decide (tid < 16) && fld addr 2 0 == 0 && fld addr 63 48 == 0) 1 s
        (fun s =>
          let s := s.updThread t.ref (fun t => resumeAt addr (s.takeBlock t))
          { s with blocks := s.blocks.filter (fun b => b.2.ref != t.ref) }.complete h 0 0)) s)

/-- `THREND` (R299): a halted thread ends as `exit` with all ones, which waits for its outstanding accesses (R89). -/
def execThrend (h : Hdr) (cc tid : Nat) (s : State) : Out :=
  ev (onContext h (fun _ s =>
    match s.agent? h.ctx (cc * 16 + tid) with
    | none => some (s.refuse h 1)
    | some t =>
      if t.run ≠ .halted ∨ 16 ≤ tid then some (s.refuse h 1)
      else if !(unhalt t).pend.isEmpty || !cmdsQuiet s (unhalt t) then none
      else some ((endThread s t (BitVec.allOnes 64)).complete h 0 0)) s)

/-- `HGACQ` (R381, R383): asked at the guard's home; the completion is sent at the grant. A guard whose scope is finer than
`dev` has no port agent in its instance (R240). -/
def execHgacq (h : Hdr) (guard : Nat) (excl : Bool) (port : Nat) (s : State) : Out :=
  ev (onContext h (fun c s =>
    let agent := portAgent port h.ctx
    if 16 ≤ port then some (s.refuse h 1)
    else okOr h (decide (guard < c.gsize) && (c.scopeOf guard).scope == 0
        && !c.portHolds.any (fun p => p.1 == agent && p.2.guard == guard)) 2 s
      (fun s => s.post [.guardRequestAtHome (portReq h guard agent (.acquire excl false))])) s)

/-- `HGREL` (R381): a hold of the port agent released; the completion is sent when the home has performed it. -/
def execHgrel (h : Hdr) (guard port : Nat) (s : State) : Out :=
  ev (onContext h (fun c s =>
    let agent := portAgent port h.ctx
    let mine (p : Nat × Hold) : Bool := p.1 == agent && p.2.guard == guard
    okOr h (c.portHolds.any mine) 2 s
      (fun s => (s.updCtx h.ctx (fun c => { c with portHolds := c.portHolds.filter (fun p => !mine p) })).post
        [.guardRequestAtHome (portReq h guard agent .release)])) s)

/-- `DEBUG_DBG` (R373). -/
def execDebugDbg (h : Hdr) (on : Bool) (s : State) : Out :=
  ev (onContext h (fun _ s => some ((s.updCtx h.ctx (fun c => { c with dbg := on })).complete h 0 0)) s)
/-- `DEBUG_ADDRM` (R374): a value with reserved bits is malformed; no chapter states that, nor another rejection (R8; DESIGN
CHOICE, log entry 34). -/
def execDebugAddrm (h : Hdr) (n : Nat) (val : Word) (s : State) : Out :=
  ev (onContext h (fun _ s =>
    okOr h (decide (n < 4) && bit val.toNat 2 == false && fld val 63 48 == 0) 1 s
      (fun s => (s.updCtx h.ctx (fun c => { c with addrm := c.addrm.set (Fin.ofNat 4 n) val })).complete h 0 0)) s)
/-- `DEBUG_STOP_ALL` (R375). -/
def execDebugStopAll (h : Hdr) (s : State) : Out :=
  ev (onContext h (fun _ s => some ((stopContext s h.ctx stopAllCause none).complete h 0 0)) s)
/-- `DEBUG_TRACE_MASK` (R376). -/
def execDebugTraceMask (h : Hdr) (mask : BitVec 8) (s : State) : Out :=
  ev (onContext h (fun _ s => some ((s.updCtx h.ctx (fun c => { c with trace := mask })).complete h 0 0)) s)

/-- `SNAP_CONTROL` (R371): ARMED and the enables are written; the read-only fields stay, and reserved bits are ignored, for
which no chapter states a rejection (R8; DESIGN CHOICE, log entry 34). -/
def execSnapControl (h : Hdr) (val : Word) (s : State) : Out :=
  ev (onModule h (fun s =>
    let w := setFld (setFld s.probe.snapctl 7 7 (fld val 7 7)) 3 0 (fld val 3 0)
    some ({ s with probe := { s.probe with snapctl := w } }.complete h 0 0)) s)
/-- `SNAP_HOST_TRIGGER` (R371). -/
def execSnapHostTrigger (h : Hdr) (s : State) : Out :=
  ev (onModule h (fun s => some ((s.snap .host).complete h 0 0)) s)
/-- `SNAP_PULSEP` (R367): pulses fall on the multiples of the period. -/
def execSnapPulsep (h : Hdr) (val : Nat) (s : State) : Out :=
  ev (onModule h (fun s =>
    okOr h (val == 0 || (decide (256 ≤ val) && decide (val < 2 ^ 32))) 1 s
      (fun s => { s with probe := { s.probe with pulsep := val, nextPulse := (s.now / val + 1) * val } }.complete h 0 0)) s)

/-- `REPLAY` (R377): the mode changes only while no launch of the context runs; RECORD begins with an empty log, REPLAY with no
entry used. A page may be granted at any time; threads that wait for one look again. -/
def execReplay (h : Hdr) (mode page : Nat) (s : State) : Out :=
  ev (onContext h (fun c s =>
    if 2 < mode then some (s.refuse h 1)
    else if mode ≠ c.replay ∧ !(running s h.ctx).isEmpty then some (s.refuse h 2)
    else
      let s := s.updCtx h.ctx (fun c => { c with
        replay := mode
        log := if mode = c.replay then c.log else if mode = 1 then [] else c.log.map (fun e => { e with used := false })
        logPages := c.logPages + (if page = 0 then 0 else 1) })
      some ({ s with threads := s.threads.map (fun (t : Thread) => if t.ref.ctx = h.ctx then nudgeT t else t) }.complete h 0 0)) s)

/-- `DROOP` (R389): reserved bits are ignored, for which no chapter states a rejection (R8; DESIGN CHOICE, log entry 34). -/
def execDroop (h : Hdr) (val : Word) (s : State) : Out :=
  ev (onModule h (fun s => some ({ s with droopth := BitVec.ofNat 64 (fld val 11 0) }.complete h 0 0)) s)

/-- `MLOCK` (R386): the completion returns 1 when granted, 0 when refused. -/
def execMlock (h : Hdr) (s : State) : Out :=
  ev (onModule h (fun s =>
    let (s, ok) := s.askLock false
    some (s.complete h 0 (BitVec.ofNat 64 ok.toNat))) s)
/-- `MRESET` (R386): no completion is sent. -/
def execMreset (h : Hdr) (s : State) : Out :=
  ev (onModule h (fun s => some (if s.mayExclude false then moduleReset s else s.refuse h 2)) s)
/-- `FWUPD` (R387, R386): the image is read from device memory at a physical address (DESIGN CHOICE, log entry 60); its length is
marked by a bit above it (log entry 21). -/
def execFwupd (h : Hdr) (addr len : Nat) (slotB : Bool) (s : State) : Out :=
  ev (onModule h (fun s =>
    okOr h (s.mayExclude false) 2 s (fun s => (putFirmware s slotB (2 ^ (8 * len) + Memory.readN s.mem len addr)).complete h 0 0)) s)
/-- `STEPCLR` (R387, R386). -/
def execStepclr (h : Hdr) (n : Nat) (s : State) : Out :=
  ev (onModule h (fun s =>
    if 7 < n then some (s.refuse h 1)
    else okOr h (s.mayExclude false) 2 s (fun s => { s with mgmt := clearSteps s.mgmt n }.complete h 0 0)) s)
/-- `SENSOR` (R385): the completion returns the reading, as far as its 56 bits hold it (R380). -/
def execSensor (h : Hdr) (id : Nat) (s : State) : Out :=
  ev (onModule h (fun s => some (s.complete h 0 (BitVec.ofNat 64 (s.sensor id)))) s)

/-- `LIVE_DUMP` (R372): the cores that are not evicted are stopped and dumped; the completion is sent when all go on. -/
def execLiveDump (h : Hdr) (region : Nat) (s : State) : Out :=
  ev (onContext h (fun c s =>
    let cores := c.coreSet.filter (fun cc => (s.imageAny? h.ctx cc).isNone)
    okOr h (region % 4096 == 0) 1 s
      (fun s => { beginDump s h.ctx region cores with defers := s.defers ++ [⟨h, [], [], cores⟩] })) s)

/-- The operation codes of the table of R382. -/
def opCodes : List Nat := [0x01, 0x02, 0x03] ++ (List.range 31).map (· + 0x20)
/-- `UNKNOWN_OPERATION` (R382): STATUS 4, in the order of its endpoint; a code of the table comes as its own message, and
operands that make none are malformed. -/
def execUnknownOperation (h : Hdr) (op : Nat) (s : State) : Out :=
  ev (inEndpoint h (fun s => some (s.refuse h (if opCodes.contains op then 1 else 4))) s)
/-- The number under which a request that has no endpoint's header is answered; no endpoint has it. -/
def noQueue : Nat := 0x10000
/-- `UNSUPPORTED_OPERATION` (R379): an atomic, a deferrable send, or what comes in delivery mode UUD; it is in no endpoint's
order. -/
def execUnsupportedOperation (ctx seq : Nat) (s : State) : Out := ev (s.refuse ⟨noQueue, ctx, seq⟩ 4)

/-- The pieces of a range of bytes, one for each line it touches: offset and bytes (R100). -/
def linePieces (va len : Nat) : List (Nat × Nat) :=
  (List.range (len / 128 + 2)).filterMap (fun i =>
    let a := Nat.max va (128 * (va / 128 + i))
    let b := Nat.min (va + len) (128 * (va / 128 + i + 1))
    if a < b then some (a - va, b - a) else none)
/-- An RMA access sent to its walks and homes as its port's agent (R381); one delivered before is not delivered again. -/
def rmaSend (ctx port va len seq : Nat) (kind : AKind) (data : Nat) (s : State) : State :=
  match s.ctx? ctx with
  | none => { s with rmaOut := s.rmaOut ++ [(ctx, seq, none)] }
  | some c =>
    if s.rmaOpen.any (fun o => o.ctx == ctx && o.seq == seq) then s
    else if len = 0 ∨ 16 ≤ port then { s with rmaOut := s.rmaOut ++ [(ctx, seq, none)] }
    else
      let ps := linePieces va len
      let s : State := { s with rmaOpen := s.rmaOpen ++ [⟨ctx, seq, ps.length, 0, true⟩] }
      ps.foldl (fun s p => sendAccess s (portAccess c (portAgent port ctx) kind (va + p.1) p.2
        (BitVec.ofNat 1024 (data / 2 ^ (8 * p.1) % 2 ^ (8 * p.2))) (.rma ctx seq p.1))) s
/-- `RMA_WRITE` (R381). -/
def execRmaWrite (ctx port va len : Nat) (data : Nat) (seq : Nat) (s : State) : Out :=
  ev (rmaSend ctx port va len seq .write data s)
/-- `RMA_READ` (R381). -/
def execRmaRead (ctx port va len : Nat) (seq : Nat) (s : State) : Out := ev (rmaSend ctx port va len seq .read 0 s)

end Sys2Proof.Machine
end

