-- ==== Sys2Proof/Machine/Scalar.lean ====
section
/-! DEFINITION. Scalar integer, compare, register-state and immediate instructions (spec 03 R53-R64, R66-R71). -/
namespace Sys2Proof.Machine
open Sys2Proof

/-- Operating width of a scalar word (R54). -/
def RForm.w (f : RForm) : Nat := widthOf (RForm.top f)

/-- Signed and unsigned clamping at width n (R57). -/
def clampS (n : Nat) (x : Int) : Nat := wrapN n (min (max x (-(2 ^ (n - 1)))) (2 ^ (n - 1) - 1))
/-- Unsigned clamping (R57). -/
def clampU (n : Nat) (x : Int) : Nat := (min (max x 0) (2 ^ n - 1)).toNat

/-- An exact sum or difference under SAT (R57), as an n-bit number; `neg` subtracts. -/
def addSat (n sat : Nat) (neg : Bool) (a b : Nat) : Nat :=
  let sg (x : Int) (y : Int) : Int := if neg then x - y else x + y
  match sat with
  | 1 => clampS n (sg (toSigned n a) (toSigned n b))
  | 2 => clampU n (sg (a % 2 ^ n : Nat) (b % 2 ^ n : Nat))
  | _ => wrapN n (sg (toSigned n a) (toSigned n b))

/-- Division of R58, as W-bit numbers. -/
def divOp (n a b : Nat) : Nat :=
  let x := toSigned n a
  let y := toSigned n b
  if y = 0 then 2 ^ n - 1 else if x = -(2 ^ (n - 1)) ∧ y = -1 then wrapN n x else wrapN n (x.tdiv y)
/-- Signed remainder (R58). -/
def remOp (n a b : Nat) : Nat :=
  let x := toSigned n a
  let y := toSigned n b
  if y = 0 then wrapN n x else if x = -(2 ^ (n - 1)) ∧ y = -1 then 0 else wrapN n (x.tmod y)
/-- Unsigned division (R58). -/
def divuOp (n a b : Nat) : Nat := if b % 2 ^ n = 0 then 2 ^ n - 1 else a % 2 ^ n / (b % 2 ^ n)
/-- Unsigned remainder (R58). -/
def remuOp (n a b : Nat) : Nat := if b % 2 ^ n = 0 then a % 2 ^ n else a % 2 ^ n % (b % 2 ^ n)

/-- Left shift by a count of any size (R59). -/
def shlOp (n a c : Nat) : Nat := if n ≤ c then 0 else a % 2 ^ n * 2 ^ c % 2 ^ n
/-- Logical right shift (R59). -/
def shrOp (n a c : Nat) : Nat := if n ≤ c then 0 else a % 2 ^ n / 2 ^ c
/-- Arithmetic right shift (R59). -/
def sarOp (n a c : Nat) : Nat := wrapN n (toSigned n a / 2 ^ Nat.min c n)
/-- Rotation right (R59). -/
def rotOp (n a c : Nat) : Nat :=
  let k := c % n
  let x := a % 2 ^ n
  x / 2 ^ k + x % 2 ^ k * 2 ^ (n - k) % 2 ^ n

/-- Zero bits above the highest one bit of an n-bit number (R56, R60). -/
def clzOp (n a : Nat) : Nat := if a % 2 ^ n = 0 then n else n - 1 - (a % 2 ^ n).log2
/-- Zero bits below the lowest one bit. -/
def ctzOp (n a : Nat) : Nat := ((List.range n).find? (fun i => bit a i)).getD n
/-- One bits. -/
def popcOp (n a : Nat) : Nat := ((List.range n).filter (fun i => bit a i)).length

/-- Effective length of a bit field (R61). -/
def fieldLen (n b : Nat) : Nat :=
  let pos := bits b 5 0
  if n ≤ pos then 0 else Nat.min (bits b 14 8) (n - pos)
/-- The field of `bfx` and `bfxu` (R61). -/
def bfxOp (sg : Bool) (n : Nat) (a b : Word) : Word :=
  let l := fieldLen n b.toNat
  let x := a.toNat % 2 ^ n / 2 ^ bits b.toNat 5 0 % 2 ^ l
  if l = 0 then 0 else if sg then sext64 l x else zext64 l x
/-- The result of `bfi` over the old value of D (R61). -/
def bfiOp (n : Nat) (a b d : Word) : Word :=
  let l := fieldLen n b.toNat
  let pos := bits b.toNat 5 0
  let old := d.toNat % 2 ^ n
  zext64 n (if l = 0 then old
    else old - old / 2 ^ pos % 2 ^ l * 2 ^ pos + a.toNat % 2 ^ l * 2 ^ pos)

/-- The body of a scalar instruction of two sources (R55). -/
def scalar2 (f : RForm) (op : Word → Word → Word) (s : State) (t : Thread) : Ev Done := do
  let a ← srcW s t f.A
  let b ← srcW s t f.B
  destReady s t f.D
  pure (.next (writeW (consumeAB s t.ref f false) t.ref f.D (op a b)))

/-- The body of a scalar instruction of one source (R55). -/
def scalar1 (f : RForm) (op : Word → Word) (s : State) (t : Thread) : Ev Done := do
  let a ← srcW s t f.A
  destReady s t f.D
  pure (.next (writeW (consumeAB s t.ref f true) t.ref f.D (op a)))

/-- A scalar instruction of two sources at its width, its result extended by sign or by zeros (R54-R56). -/
def aluS (f : RForm) (op : Nat → Nat → Nat → Nat) : State → Out :=
  issue true f.toHead f.nro (scalar2 f (fun a b => sext64 (RForm.w f) (op (RForm.w f) a.toNat b.toNat)))
/-- The same with its result extended by zeros. -/
def aluZ (f : RForm) (op : Nat → Nat → Nat → Nat) : State → Out :=
  issue true f.toHead f.nro (scalar2 f (fun a b => zext64 (RForm.w f) (op (RForm.w f) a.toNat b.toNat)))
/-- A scalar instruction of one source (R56). -/
def alu1 (f : RForm) (op : Nat → Nat → Nat) : State → Out :=
  issue true f.toHead f.nro (scalar1 f (fun a => zext64 (RForm.w f) (op (RForm.w f) a.toNat)))

/-- `add` and `sub` under SAT: `.us` is extended by zeros (R57). -/
def addSubVal (f : RForm) (neg : Bool) (a b : Word) : Word :=
  let r := addSat (RForm.w f) f.mid neg a.toNat b.toNat
  if f.mid = 2 then zext64 (RForm.w f) r else sext64 (RForm.w f) r

/-- `add` (R56, R57). -/
def execAdd (f : RForm) (s : State) : Out := issue true f.toHead f.nro (scalar2 f (addSubVal f false)) s
/-- `sub` (R56, R57). -/
def execSub (f : RForm) (s : State) : Out := issue true f.toHead f.nro (scalar2 f (addSubVal f true)) s
/-- `mul` (R56). -/
def execMul (f : RForm) (s : State) : Out := aluS f (fun n a b => wrapN n (toSigned n a * toSigned n b)) s
/-- `mulh` (R56). -/
def execMulh (f : RForm) (s : State) : Out := aluS f (fun n a b => wrapN n (toSigned n a * toSigned n b / 2 ^ n)) s
/-- `mulhu` (R56). -/
def execMulhu (f : RForm) (s : State) : Out := aluZ f (fun n a b => a % 2 ^ n * (b % 2 ^ n) / 2 ^ n) s
/-- `div` (R58). -/
def execDiv (f : RForm) (s : State) : Out := aluS f divOp s
/-- `divu` (R58). -/
def execDivu (f : RForm) (s : State) : Out := aluZ f divuOp s
/-- `rem` (R58). -/
def execRem (f : RForm) (s : State) : Out := aluS f remOp s
/-- `remu` (R58). -/
def execRemu (f : RForm) (s : State) : Out := aluZ f remuOp s
/-- `and` (R56). -/
def execAnd (f : RForm) (s : State) : Out := aluZ f (fun n a b => (a &&& b) % 2 ^ n) s
/-- `or` (R56). -/
def execOr (f : RForm) (s : State) : Out := aluZ f (fun n a b => (a ||| b) % 2 ^ n) s
/-- `xor` (R56). -/
def execXor (f : RForm) (s : State) : Out := aluZ f (fun n a b => (a ^^^ b) % 2 ^ n) s
/-- `andn` (R56). -/
def execAndn (f : RForm) (s : State) : Out :=
  aluZ f (fun n a b => (a % 2 ^ n) &&& (2 ^ n - 1 - b % 2 ^ n)) s
/-- `shl` (R59). -/
def execShl (f : RForm) (s : State) : Out := aluS f shlOp s
/-- `shr` (R59). -/
def execShr (f : RForm) (s : State) : Out := aluZ f shrOp s
/-- `sar` (R59). -/
def execSar (f : RForm) (s : State) : Out := aluS f sarOp s
/-- `rot` (R59). -/
def execRot (f : RForm) (s : State) : Out := aluZ f rotOp s
/-- `min` (R56). -/
def execMin (f : RForm) (s : State) : Out := aluS f (fun n a b => if toSigned n a ≤ toSigned n b then a else b) s
/-- `max` (R56). -/
def execMax (f : RForm) (s : State) : Out := aluS f (fun n a b => if toSigned n a ≤ toSigned n b then b else a) s
/-- `minu` (R56). -/
def execMinu (f : RForm) (s : State) : Out := aluZ f (fun n a b => Nat.min (a % 2 ^ n) (b % 2 ^ n)) s
/-- `maxu` (R56). -/
def execMaxu (f : RForm) (s : State) : Out := aluZ f (fun n a b => Nat.max (a % 2 ^ n) (b % 2 ^ n)) s
/-- `clz` (R56, R60). -/
def execClz (f : RForm) (s : State) : Out := alu1 f clzOp s
/-- `ctz` (R56, R60). -/
def execCtz (f : RForm) (s : State) : Out := alu1 f ctzOp s
/-- `popc` (R56, R60). -/
def execPopc (f : RForm) (s : State) : Out := alu1 f popcOp s
/-- `bfx` (R61). -/
def execBfx (f : RForm) (s : State) : Out := issue true f.toHead f.nro (scalar2 f (bfxOp true (RForm.w f))) s
/-- `bfxu` (R61). -/
def execBfxu (f : RForm) (s : State) : Out := issue true f.toHead f.nro (scalar2 f (bfxOp false (RForm.w f))) s

/-- The body of `bfi`: D is its third source (R61). -/
def bfiBody (f : RForm) (s : State) (t : Thread) : Ev Done := do
  let a ← srcW s t f.A
  let b ← srcW s t f.B
  let d ← srcW s t f.D
  pure (.next (writeW (consumeAB s t.ref f false) t.ref f.D (bfiOp (RForm.w f) a b d)))
/-- `bfi` (R61). -/
def execBfi (f : RForm) (s : State) : Out := issue true f.toHead f.nro (bfiBody f) s

/-- The body of `sel`: the predicate is read after source b (R62). -/
def selBody (f : RForm) (s : State) (t : Thread) : Ev Done := do
  let a ← srcW s t f.A
  let b ← srcW s t f.B
  let k ← srcK t f.msk
  destReady s t f.D
  pure (.next (writeW (consumeAB s t.ref f false) t.ref f.D (if bit k.toNat 0 then a else b)))
/-- `sel` (R62). -/
def execSel (f : RForm) (s : State) : Out := issue true f.toHead f.nro (selBody f) s

/-- What a truth value is to its destination: all ones or zero for a K register, else 1 or 0 (R63, R65). -/
def truth (o : Opd) (b : Bool) : Word :=
  match o with
  | .k _ => if b then 0xFFFFFFFF else 0
  | _ => if b then 1 else 0

/-- `cmp` (R63). -/
def execCmp (f : RForm) (s : State) : Out :=
  issue true f.toHead f.nro (scalar2 f (fun a b => truth f.D (condInt (RForm.w f) f.cond a.toNat b.toNat))) s

/-- The body of an I-format instruction with a source (R71). -/
def immBody (f : IForm) (op : Word → Word) (s : State) (t : Thread) : Ev Done := do
  let a ← srcW s t f.A
  destReady s t f.D
  pure (.next (writeW (consumeOne s t.ref f.A .plain) t.ref f.D (op a)))
/-- The body of an I-format instruction without a source (R71). -/
def immBody0 (f : IForm) (v : Thread → Word) (s : State) (t : Thread) : Ev Done := do
  destReady s t f.D
  pure (.next (writeW s t.ref f.D (v t)))

/-- `cmpi` (R64). -/
def execCmpi (f : IForm) (s : State) : Out :=
  issue true f.toHead 0 (immBody f (fun a =>
    truth f.D (condInt 64 (bits f.b.toNat 3 0) a.toNat (sext64 32 f.imm.toNat).toNat))) s
/-- `addi` (R71). -/
def execAddi (f : IForm) (s : State) : Out := issue true f.toHead 0 (immBody f (fun a => a + f.imm.signExtend 64)) s
/-- `andi` (R71). -/
def execAndi (f : IForm) (s : State) : Out := issue true f.toHead 0 (immBody f (fun a => a &&& f.imm.signExtend 64)) s
/-- `ori` (R71). -/
def execOri (f : IForm) (s : State) : Out := issue true f.toHead 0 (immBody f (fun a => a ||| f.imm.setWidth 64)) s
/-- `xori` (R71). -/
def execXori (f : IForm) (s : State) : Out := issue true f.toHead 0 (immBody f (fun a => a ^^^ f.imm.setWidth 64)) s
/-- `shli` (R71). -/
def execShli (f : IForm) (s : State) : Out :=
  issue true f.toHead 0 (immBody f (fun a => a <<< (f.imm.toNat % 64))) s
/-- `shri` (R71). -/
def execShri (f : IForm) (s : State) : Out :=
  issue true f.toHead 0 (immBody f (fun a => a >>> (f.imm.toNat % 64))) s
/-- `sari` (R71). -/
def execSari (f : IForm) (s : State) : Out :=
  issue true f.toHead 0 (immBody f (fun a => a.sshiftRight (f.imm.toNat % 64))) s
/-- `movi` (R71). -/
def execMovi (f : IForm) (s : State) : Out := issue true f.toHead 0 (immBody0 f (fun _ => f.imm.signExtend 64)) s
/-- `movh` (R71). -/
def execMovh (f : IForm) (s : State) : Out :=
  issue true f.toHead 0 (immBody f (fun a => f.imm.setWidth 64 <<< 32 ||| (a &&& 0xFFFFFFFF))) s
/-- `adr` (R71). -/
def execAdr (f : IForm) (s : State) : Out :=
  issue true f.toHead 0 (immBody0 f (fun t => t.pc + f.imm.signExtend 64)) s

/-- The contents of a register moved whole into another of its class, the source left EMPTY (R13, R67); a `k0`
source stays, a register moved to itself stays as it was. -/
def moveReg (t : Thread) (d a : Opd) : Thread :=
  if d = a then t
  else match d, a with
    | .g i, .g j => (t.setG i (t.getG j)).setG j .empty
    | .v i, .v j => (t.setV i (t.getV j)).setV j .empty
    | .k i, .k j => (t.setK i (t.getK j)).setK j .empty
    | _, _ => t

/-- The body of `mov` (R66): with `.m` the move column of R13; else a copy, whole for `v`. -/
def movBody (f : RForm) (s : State) (t : Thread) : Ev Done :=
  match SrcMod.ofCode f.ma, f.A with
  | .move, a =>
    if isEmpty t a then .error (.notReady .empty (.reg a))
    else pure (.next (s.updThread t.ref (fun t => moveReg t f.D a)))
  | m, .v i => do
    let v ← readSlot f.A (t.getV i)
    pure (.next ((consumeOne s t.ref f.A m).updThread t.ref (fun t => t.setFull f.D v)))
  | m, a => do
    let v ← srcW s t a
    destReady s t f.D
    pure (.next (writeW (consumeOne s t.ref a m) t.ref f.D v))
/-- `mov` (R66). -/
def execMov (f : RForm) (s : State) : Out := issue true f.toHead f.nro (movBody f) s
/-- `movf` (R67). -/
def execMovf (f : RForm) (s : State) : Out :=
  issue false f.toHead f.nro (fun s t => pure (.next (s.updThread t.ref (fun t => moveReg t f.D f.A)))) s

/-- The word that `rst` writes of a register or port (R68). -/
def rstWord (s : State) (t : Thread) (o : Opd) : Word :=
  let of {w : Nat} (x : Slot w) : Word :=
    match x with
    | .full _ => 0
    | .empty => 1
    | .pend g => BitVec.ofNat 64 (g.toNat * 2 ^ 16 + 2)
    | .pois p => BitVec.ofNat 64 (fld p 63 48 * 2 ^ 48 + 3)
  match o with
  | .g i => of (t.getG i)
  | .v i => of (t.getV i)
  | .k i => of (t.getK i)
  | .port d => if (s.portWord t d).isSome then 0 else 1
  | _ => 0
/-- The body of `rst` (R68): a port of another owner takes the protection fault (R29). -/
def rstBody (f : RForm) (s : State) (t : Thread) : Ev Done :=
  match f.A with
  | .port _ =>
    if !s.ownsPorts t then failWith .protection
    else do
      let (v, s) ← s.timing t (rstWord s t f.A)
      pure (.next (writeW s t.ref f.D v))
  | _ => do
    let (v, s) ← s.timing t (rstWord s t f.A)
    pure (.next (writeW s t.ref f.D v))
/-- `rst` (R68). -/
def execRst (f : RForm) (s : State) : Out := issue false f.toHead f.nro (rstBody f) s
/-- `rclr` (R69). -/
def execRclr (f : RForm) (s : State) : Out :=
  issue false f.toHead f.nro (fun s t => pure (.next (s.updThread t.ref (fun t => t.setEmpty f.D)))) s

/-- The body of a predicate instruction of two K sources (R65). -/
def kBody (f : RForm) (op : KWord → KWord → Word) (s : State) (t : Thread) : Ev Done := do
  let a ← srcW s t f.A
  let b ← srcW s t f.B
  pure (.next (writeW (consumeAB s t.ref f false) t.ref f.D (op (a.setWidth 32) (b.setWidth 32))))
/-- `kand` (R65). -/
def execKand (f : RForm) (s : State) : Out := issue true f.toHead f.nro (kBody f (fun a b => (a &&& b).setWidth 64)) s
/-- `kor` (R65). -/
def execKor (f : RForm) (s : State) : Out := issue true f.toHead f.nro (kBody f (fun a b => (a ||| b).setWidth 64)) s
/-- `kxor` (R65). -/
def execKxor (f : RForm) (s : State) : Out := issue true f.toHead f.nro (kBody f (fun a b => (a ^^^ b).setWidth 64)) s
/-- `knot` (R65). -/
def execKnot (f : RForm) (s : State) : Out :=
  issue true f.toHead f.nro (scalar1 f (fun a => (~~~(a.setWidth 32) : KWord).setWidth 64)) s
/-- `kmov` (R65). -/
def execKmov (f : RForm) (s : State) : Out :=
  issue true f.toHead f.nro (scalar1 f (fun a => (a.setWidth 32 : KWord).setWidth 64)) s
/-- `kany` (R65). -/
def execKany (f : RForm) (s : State) : Out :=
  issue true f.toHead f.nro (kBody f (fun a b => truth f.D ((a &&& b) != 0))) s
/-- `kall` (R65). -/
def execKall (f : RForm) (s : State) : Out :=
  issue true f.toHead f.nro (kBody f (fun a b => truth f.D ((a &&& b) == b))) s
/-- The mask of `kset`: bits i with a <= i < b (R65). -/
def ksetVal (a b : Word) : Word :=
  (List.range 32).foldl (fun w i => if a.toNat ≤ i ∧ i < b.toNat then w ||| (1 <<< i) else w) 0
/-- `kset` (R65). -/
def execKset (f : RForm) (s : State) : Out := issue true f.toHead f.nro (scalar2 f ksetVal) s
/-- `kget` (R65). -/
def execKget (f : RForm) (s : State) : Out :=
  issue true f.toHead f.nro (scalar2 f (fun a b => if bit a.toNat (b.toNat % 32) then 1 else 0)) s

end Sys2Proof.Machine
end

