-- ==== Sys2Proof/Machine/VectorInt.lean ====
section
/-! DEFINITION. Lane moves and vector integer arithmetic (spec 07 R155-R157, R165-R168). -/
namespace Sys2Proof.Machine
open Sys2Proof

/-- Whether a word works on register pairs (R38, R46). -/
def RForm.pair (f : RForm) : Bool := f.top == 1
/-- Lane width w (R166). -/
def RForm.lw (f : RForm) : Nat := if RForm.pair f then 64 else 32

/-- Lane i of a vector operand, 64 bits wide on a pair (R155). -/
def laneNat (pair : Bool) (v : VWord × VWord) (i : Nat) : Nat :=
  (lane v.1 i).toNat + (if pair then (lane v.2 i).toNat * 2 ^ 32 else 0)
/-- A vector value of lanes; a pair's upper register takes the upper halves; an unselected lane is 0 (R155,
R156). -/
def lanesOf (k : KWord) (g : Nat → Nat) : VWord × VWord :=
  let of (sh : Nat) : VWord := ofLanes (fun i => if bit k.toNat i then BitVec.ofNat 32 (g i >>> sh) else 0)
  (of 0, of 32)

/-- How a vector entry reads its operands: which are pairs when L = 0b01, which are read (R155, R157). -/
structure VecShape where
  pairA : Bool := true
  pairB : Bool := true
  readB : Bool := true
  readD : Bool := false
  masked : Bool := true
  deriving DecidableEq, Repr

/-- The mask of an entry: its predicate, or every lane (R156). -/
def maskOf (t : Thread) (f : RForm) (masked : Bool) : Ev KWord := if masked then srcK t f.msk else pure 0xFFFFFFFF

/-- What the sources of a vector entry give: a, b, D as a source, the mask (R157). -/
structure VecIn where
  a : VWord × VWord
  b : VWord × VWord
  d : VWord × VWord
  k : KWord
  deriving DecidableEq, Repr

/-- The sources read in order (R157). -/
def vecRead (f : RForm) (sh : VecShape) (t : Thread) : Ev VecIn := do
  let p := RForm.pair f
  let a ← srcL t (p && sh.pairA) f.A
  let b ← if sh.readB then srcL t (p && sh.pairB) f.B else pure (0, 0)
  let d ← if sh.readD then srcL t p f.D else pure (0, 0)
  let k ← maskOf t f sh.masked
  pure ⟨a, b, d, k⟩

/-- The sources consumed (R13, R38). -/
def vecEat (f : RForm) (sh : VecShape) (s : State) (r : TRef) : State :=
  let p := RForm.pair f
  let s := consumeL s r (p && sh.pairA) f.A (SrcMod.ofCode f.ma)
  if sh.readB then consumeL s r (p && sh.pairB) f.B (SrcMod.ofCode f.mb) else s

/-- The body of a vector entry whose destination is a vector: lane i of the result from lane i of a, b and D, and
the number of the lane. -/
def vecBody (f : RForm) (sh : VecShape) (op : VecIn → Nat → Nat) (s : State) (t : Thread) : Ev Done := do
  let x ← vecRead f sh t
  let r := lanesOf x.k (op x)
  pure (.next (writeL (vecEat f sh s t.ref) t.ref (RForm.pair f) f.D r.1 r.2))

/-- A vector integer entry of lanes a, b and D at width w (R166). -/
def vecInt (f : RForm) (sh : VecShape) (op : Nat → Nat → Nat → Nat → Nat) : State → Out :=
  let p := RForm.pair f
  issue true f.toHead f.nro (vecBody f sh (fun x i =>
    op (RForm.lw f) (laneNat (p && sh.pairA) x.a i) (laneNat (p && sh.pairB) x.b i) (laneNat p x.d i)))

/-- The body of an entry whose source a is a word (R165). -/
def vecOfWord (f : RForm) (op : Word → Nat → Nat) (s : State) (t : Thread) : Ev Done := do
  let a ← srcW s t f.A
  let k ← srcK t f.msk
  let r := lanesOf k (op a)
  let s := consumeOne s t.ref f.A (SrcMod.ofCode f.ma)
  pure (.next (writeL s t.ref (RForm.pair f) f.D r.1 r.2))

/-- `vbc` (R165). -/
def execVbc (f : RForm) (s : State) : Out := issue true f.toHead f.nro (vecOfWord f (fun a _ => a.toNat)) s
/-- `viota` (R165). -/
def execViota (f : RForm) (s : State) : Out :=
  issue true f.toHead f.nro (vecOfWord f (fun a i => (a.toNat + i) % 2 ^ RForm.lw f)) s

/-- The body of `vext` (R165). -/
def vextBody (f : RForm) (s : State) (t : Thread) : Ev Done := do
  let a ← srcL t (RForm.pair f) f.A
  let b ← srcW s t f.B
  let x := laneNat (RForm.pair f) a (b.toNat % 32)
  let s := consumeL s t.ref (RForm.pair f) f.A (SrcMod.ofCode f.ma)
  let s := consumeOne s t.ref f.B (SrcMod.ofCode f.mb)
  pure (.next (writeW s t.ref f.D (if f.b19 then sext64 (RForm.lw f) x else zext64 (RForm.lw f) x)))
/-- `vext` (R165). -/
def execVext (f : RForm) (s : State) : Out := issue true f.toHead f.nro (vextBody f) s

/-- The body of `vins`: D is its third source (R165). -/
def vinsBody (f : RForm) (s : State) (t : Thread) : Ev Done := do
  let a ← srcW s t f.A
  let b ← srcW s t f.B
  let d ← srcL t (RForm.pair f) f.D
  let r := lanesOf 0xFFFFFFFF (fun i => if i = b.toNat % 32 then a.toNat else laneNat (RForm.pair f) d i)
  pure (.next (writeL (consumeAB s t.ref f false) t.ref (RForm.pair f) f.D r.1 r.2))
/-- `vins` (R165). -/
def execVins (f : RForm) (s : State) : Out := issue true f.toHead f.nro (vinsBody f) s

/-- `vadd` (R166, R57). -/
def execVadd (f : RForm) (s : State) : Out := vecInt f {} (fun n a b _ => addSat n f.mid false a b) s
/-- `vsub` (R166, R57). -/
def execVsub (f : RForm) (s : State) : Out := vecInt f {} (fun n a b _ => addSat n f.mid true a b) s
/-- `vmul` (R166). -/
def execVmul (f : RForm) (s : State) : Out := vecInt f {} (fun n a b _ => a * b % 2 ^ n) s
/-- `vmulh` (R166). -/
def execVmulh (f : RForm) (s : State) : Out :=
  vecInt f {} (fun n a b _ => if f.b19 then a * b / 2 ^ n else wrapN n (toSigned n a * toSigned n b / 2 ^ n)) s
/-- `vmad` (R166, R167). -/
def execVmad (f : RForm) (s : State) : Out := vecInt f { readD := true } (fun n a b d => (a * b + d) % 2 ^ n) s
/-- `vwad` (R166, R167). -/
def execVwad (f : RForm) (s : State) : Out :=
  vecInt f { pairB := false } (fun n a b _ => if f.b19 then (a + b) % 2 ^ n else wrapN n (a + toSigned 32 b)) s
/-- `vand` (R166). -/
def execVand (f : RForm) (s : State) : Out := vecInt f {} (fun _ a b _ => a &&& b) s
/-- `vor` (R166). -/
def execVor (f : RForm) (s : State) : Out := vecInt f {} (fun _ a b _ => a ||| b) s
/-- `vxor` (R166). -/
def execVxor (f : RForm) (s : State) : Out := vecInt f {} (fun _ a b _ => a ^^^ b) s
/-- `vshl` (R166, R59). -/
def execVshl (f : RForm) (s : State) : Out := vecInt f {} (fun n a b _ => shlOp n a b) s
/-- `vshr` (R166, R59). -/
def execVshr (f : RForm) (s : State) : Out := vecInt f {} (fun n a b _ => shrOp n a b) s
/-- `vsar` (R166, R59). -/
def execVsar (f : RForm) (s : State) : Out := vecInt f {} (fun n a b _ => sarOp n a b) s

/-- The combining operations of R168 on n-bit lanes. -/
def combInt (opr n a b : Nat) : Nat :=
  match opr with
  | 0 => (a + b) % 2 ^ n
  | 1 => if toSigned n a ≤ toSigned n b then a else b
  | 2 => if toSigned n a ≤ toSigned n b then b else a
  | 3 => Nat.min a b
  | 4 => Nat.max a b
  | 5 => a &&& b
  | 6 => a ||| b
  | _ => a ^^^ b
/-- Their identities (R149). -/
def identInt (opr n : Nat) : Nat :=
  match opr with
  | 1 => 2 ^ (n - 1) - 1
  | 2 => 2 ^ (n - 1)
  | 3 | 5 => 2 ^ n - 1
  | _ => 0

/-- `vmin` (R166). -/
def execVmin (f : RForm) (s : State) : Out := vecInt f {} (fun n a b _ => combInt 1 n a b) s
/-- `vmax` (R166). -/
def execVmax (f : RForm) (s : State) : Out := vecInt f {} (fun n a b _ => combInt 2 n a b) s
/-- `vminu` (R166). -/
def execVminu (f : RForm) (s : State) : Out := vecInt f {} (fun n a b _ => combInt 3 n a b) s
/-- `vmaxu` (R166). -/
def execVmaxu (f : RForm) (s : State) : Out := vecInt f {} (fun n a b _ => combInt 4 n a b) s
/-- `vabs` (R166). -/
def execVabs (f : RForm) (s : State) : Out :=
  vecInt f { readB := false } (fun n a _ _ =>
    if f.mid = 1 then clampS n (toSigned n a).natAbs else (toSigned n a).natAbs % 2 ^ n) s

/-- The body of an entry that writes a predicate of lane conditions (R166, R169): bit i for selected lane i. -/
def vecCond (f : RForm) (c : VecIn → Nat → Bool) (s : State) (t : Thread) : Ev Done := do
  let x ← vecRead f {} t
  let w := (List.range 32).foldl (fun w i => if bit x.k.toNat i && c x i then w + 2 ^ i else w) 0
  pure (.next (writeW (vecEat f {} s t.ref) t.ref f.D (BitVec.ofNat 64 w)))
/-- `vcmp` (R166). -/
def execVcmp (f : RForm) (s : State) : Out :=
  issue true f.toHead f.nro (vecCond f (fun x i =>
    condInt (RForm.lw f) f.cond (laneNat (RForm.pair f) x.a i) (laneNat (RForm.pair f) x.b i))) s

/-- The body of `vsel`: the selection predicate is no mask (R166). -/
def vselBody (f : RForm) (s : State) (t : Thread) : Ev Done := do
  let x ← vecRead f {} t
  let p := RForm.pair f
  let r := lanesOf 0xFFFFFFFF (fun i => if bit x.k.toNat i then laneNat p x.a i else laneNat p x.b i)
  pure (.next (writeL (vecEat f {} s t.ref) t.ref p f.D r.1 r.2))
/-- `vsel` (R166). -/
def execVsel (f : RForm) (s : State) : Out := issue true f.toHead f.nro (vselBody f) s

/-- The levels of the tree over the selected lanes of a (R147, R149). -/
def laneLevels (opr n : Nat) (pair : Bool) (a : VWord × VWord) (k : KWord) : List (List (Option Nat)) :=
  treeLevels (combInt opr n) 5 ((List.range 32).map (fun i => if bit k.toNat i then some (laneNat pair a i) else none))

/-- `vscan` (R168). -/
def execVscan (f : RForm) (s : State) : Out :=
  issue true f.toHead f.nro (vecBody f { readB := false } (fun x i =>
    (scanAt (combInt f.opr (RForm.lw f)) (laneLevels f.opr (RForm.lw f) (RForm.pair f) x.a x.k) 5 i).getD 0)) s

/-- The body of `vred` (R168). -/
def vredBody (f : RForm) (s : State) (t : Thread) : Ev Done := do
  let x ← vecRead f { readB := false } t
  let n := RForm.lw f
  let r := (reduceTree (laneLevels f.opr n (RForm.pair f) x.a x.k) 5).getD (identInt f.opr n)
  let s := vecEat f { readB := false } s t.ref
  pure (.next (writeW s t.ref f.D (if f.opr < 3 then sext64 n r else zext64 n r)))
/-- `vred` (R168). -/
def execVred (f : RForm) (s : State) : Out := issue true f.toHead f.nro (vredBody f) s

/-- `vperm` (R166). -/
def execVperm (f : RForm) (s : State) : Out :=
  issue true f.toHead f.nro (vecBody f { pairB := false } (fun x i =>
    laneNat (RForm.pair f) x.a ((lane x.b.1 i).toNat % 32))) s

end Sys2Proof.Machine
end

