-- ==== Sys2Proof/Machine/VectorFp.lean ====
section
/-! DEFINITION. Vector floating point, conversions and MX blocks (spec 06 R141-R150, 07 R169-R174). -/
namespace Sys2Proof.Machine
open Sys2Proof

/-- Elements of a register in a type T: 32 of FP32, 64 packed (R138). -/
def elemCount (ty : Nat) : Nat := if ty = 0 then 32 else 64
/-- Element e of a register in a format, at the position R138 gives it. -/
def elemAt (fmt : Nat) (v : VWord) (e : Nat) : Nat := bits v.toNat (fmtBits fmt * e + fmtBits fmt - 1) (fmtBits fmt * e)
/-- Its value (R135). -/
def elemVal (fmt : Nat) (v : VWord) (e : Nat) : XR := decodeF fmt (elemAt fmt v e)
/-- A register made of elements (R138). -/
def ofElems (fmt n : Nat) (g : Nat → Nat) : VWord := BitVec.ofNat 1024 (packBits (fmtBits fmt) ((List.range n).map g))
/-- The lane that an element of a type lies in, whose mask bit selects it (R156). -/
def elemLane (ty e : Nat) : Nat := if ty = 0 then e else e / 2
/-- Whether the mask selects an element of a type. -/
def elemOn (k : KWord) (ty e : Nat) : Bool := bit k.toNat (elemLane ty e)

/-- The body of a floating-point entry of elements a, b and D, each element rounded once (R143, R169). -/
def vecFp (f : RForm) (sh : VecShape) (op : XR → XR → XR → XR) (s : State) (t : Thread) : Ev Done := do
  let x ← vecRead { f with fn := f.fn &&& 0x3FF } sh t
  let ty := f.top
  let r := ofElems ty (elemCount ty) (fun e =>
    if elemOn x.k ty e then roundF ty f.mid (op (elemVal ty x.a.1 e) (elemVal ty x.b.1 e) (elemVal ty x.d.1 e)) else 0)
  let s := vecEat { f with fn := f.fn &&& 0x3FF } sh s t.ref
  pure (.next (writeL s t.ref false f.D r 0))
/-- A floating-point entry of two sources. -/
def fp2 (f : RForm) (op : XR → XR → XR) : State → Out :=
  issue true f.toHead f.nro (vecFp f {} (fun a b _ => op a b))
/-- A floating-point entry of one source. -/
def fp1 (f : RForm) (op : XR → XR) : State → Out :=
  issue true f.toHead f.nro (vecFp f { readB := false } (fun a _ _ => op a))

/-- Whether sums round toward minus infinity (R143). -/
def RForm.down (f : RForm) : Bool := f.mid == 3

/-- `vfadd` (R143, R169). -/
def execVfadd (f : RForm) (s : State) : Out := fp2 f (XR.add (RForm.down f)) s
/-- `vfsub` (R143, R169). -/
def execVfsub (f : RForm) (s : State) : Out := fp2 f (fun a b => XR.add (RForm.down f) a b.neg) s
/-- `vfmul` (R143, R169). -/
def execVfmul (f : RForm) (s : State) : Out := fp2 f XR.mul s
/-- `vfma` (R143, R169): one rounding. -/
def execVfma (f : RForm) (s : State) : Out :=
  issue true f.toHead f.nro (vecFp f { readD := true } (fun a b d => XR.add (RForm.down f) (XR.mul a b) d)) s
/-- `vfmin` (R144, R169). -/
def execVfmin (f : RForm) (s : State) : Out := fp2 f XR.min s
/-- `vfmax` (R144, R169). -/
def execVfmax (f : RForm) (s : State) : Out := fp2 f XR.max s
/-- `vfdiv` (R143, R169). -/
def execVfdiv (f : RForm) (s : State) : Out := fp2 f XR.div s
/-- `vfsqrt` (R143, R169). -/
def execVfsqrt (f : RForm) (s : State) : Out := fp1 f XR.sqrt s
/-- `vfrcp` (R170). -/
def execVfrcp (f : RForm) (s : State) : Out := fp1 f (XR.div (.fin false 1 0)) s
/-- `vfrsq` (R170). -/
def execVfrsq (f : RForm) (s : State) : Out := fp1 f XR.rsqrt s
/-- `vfexp2` (R171, the choice of the Phodun PX9). -/
def execVfexp2 (f : RForm) (s : State) : Out := fp1 f XR.exp2 s
/-- `vflog2` (R171). -/
def execVflog2 (f : RForm) (s : State) : Out := fp1 f XR.log2 s
/-- `vftanh` (R171). -/
def execVftanh (f : RForm) (s : State) : Out := fp1 f XR.tanh s

/-- `vfcmp` (R47, R169). -/
def execVfcmp (f : RForm) (s : State) : Out :=
  issue true f.toHead f.nro (vecCond f (fun x i => condFp f.cond (elemVal 0 x.a.1 i) (elemVal 0 x.b.1 i))) s

/-- The operations of R172 on values; sums round into FP32 (R147). -/
def combFp (opf : Nat) (a b : XR) : XR :=
  match opf with
  | 0 => rne32 (XR.add false a b)
  | 1 => XR.min a b
  | _ => XR.max a b
/-- Their identities (R149). -/
def identFp (opf : Nat) : XR :=
  match opf with
  | 0 => .fin false 0 0
  | 1 => .inf false
  | _ => .inf true
/-- The levels of the tree (R147, R149); over packed elements the first is exact (R150). -/
def fpLevels (opf ty : Nat) (a : VWord) (k : KWord) : List (List (Option XR)) :=
  let l0 := (List.range (elemCount ty)).map (fun e => if elemOn k ty e then some (elemVal ty a e) else none)
  if ty = 0 then treeLevels (combFp opf) 5 l0
  else l0 :: treeLevels (combFp opf) 5 (treeUp (if opf = 0 then XR.add false else combFp opf) l0)
/-- Depth of the tree of a type. -/
def fpDepth (ty : Nat) : Nat := if ty = 0 then 5 else 6

/-- The body of `vfscan` (R172). -/
def vfscanBody (f : RForm) (s : State) (t : Thread) : Ev Done := do
  let x ← vecRead { f with fn := f.fn &&& 0x3FF } { readB := false } t
  let ty := f.top
  let lv := fpLevels f.cond ty x.a.1 x.k
  let r := ofElems ty (elemCount ty) (fun e =>
    if elemOn x.k ty e then roundF ty 0 ((scanAt (combFp f.cond) lv (fpDepth ty) e).getD .nan) else 0)
  let s := vecEat { f with fn := f.fn &&& 0x3FF } { readB := false } s t.ref
  pure (.next (writeL s t.ref false f.D r 0))
/-- `vfscan` (R172). -/
def execVfscan (f : RForm) (s : State) : Out := issue true f.toHead f.nro (vfscanBody f) s

/-- The body of `vfred` (R172). -/
def vfredBody (f : RForm) (s : State) (t : Thread) : Ev Done := do
  let x ← vecRead { f with fn := f.fn &&& 0x3FF } { readB := false } t
  let ty := f.top
  let r := (reduceTree (fpLevels f.cond ty x.a.1 x.k) (fpDepth ty)).getD (identFp f.cond)
  let s := vecEat { f with fn := f.fn &&& 0x3FF } { readB := false } s t.ref
  pure (.next (writeW s t.ref f.D (BitVec.ofNat 64 (roundF ty 0 r))))
/-- `vfred` (R172). -/
def execVfred (f : RForm) (s : State) : Out := issue true f.toHead f.nro (vfredBody f) s

/-- The body of an entry on elements 0 to 31 of one register (R173, R174). -/
def elem32 (f : RForm) (out : VWord → KWord → VWord) (s : State) (t : Thread) : Ev Done := do
  let a ← srcV t f.A
  let k ← srcK t f.msk
  let s := consumeL s t.ref false f.A (SrcMod.ofCode f.ma)
  pure (.next (writeL s t.ref false f.D (out a k) 0))

/-- `vfcvt` (R142, R173). -/
def execVfcvt (f : RForm) (s : State) : Out :=
  let src := if f.b19 then f.cond else f.top
  let dst := if f.b19 then f.top else f.cond
  issue true f.toHead f.nro (elem32 f (fun a k =>
    ofElems dst 32 (fun e => if bit k.toNat e then roundF dst f.mid (elemVal src a e) else 0))) s

/-- `vmxq` (R139, R145, R174). -/
def execVmxq (f : RForm) (s : State) : Out :=
  issue true f.toHead f.nro (elem32 f (fun a k =>
    BitVec.ofNat 1024 (blockImage f.cond (quantise f.cond
      ((List.range 32).map (fun e => if bit k.toNat e then elemVal 0 a e else .fin false 0 0)))))) s

/-- `vmxd` (R140, R146, R174). -/
def execVmxd (f : RForm) (s : State) : Out :=
  issue true f.toHead f.nro (elem32 f (fun a k =>
    let n := fieldBytes f.cond
    let field := a.toNat % 2 ^ (8 * n)
    let scale := bits a.toNat (8 * n + 7) (8 * n)
    ofElems f.top 32 (fun e => if bit k.toNat e then roundF f.top f.mid (blockVal f.cond field e scale) else 0))) s

end Sys2Proof.Machine
end

