-- ==== Sys2Proof/Machine/Dispatch.lean ====
section
/-! DEFINITION. The one dispatch from a row of the opcode table to its meaning. -/
namespace Sys2Proof.Machine
open Sys2Proof

/-- The meaning of every row. -/
def exec (i : Instr) (s : State) : Host.Outcome State Fault Refusal :=
  match i with
  | .add f => Sys2Proof.Machine.execAdd f s
  | .sub f => Sys2Proof.Machine.execSub f s
  | .mul f => Sys2Proof.Machine.execMul f s
  | .mulh f => Sys2Proof.Machine.execMulh f s
  | .mulhu f => Sys2Proof.Machine.execMulhu f s
  | .div f => Sys2Proof.Machine.execDiv f s
  | .divu f => Sys2Proof.Machine.execDivu f s
  | .rem f => Sys2Proof.Machine.execRem f s
  | .remu f => Sys2Proof.Machine.execRemu f s
  | .and f => Sys2Proof.Machine.execAnd f s
  | .or f => Sys2Proof.Machine.execOr f s
  | .xor f => Sys2Proof.Machine.execXor f s
  | .andn f => Sys2Proof.Machine.execAndn f s
  | .shl f => Sys2Proof.Machine.execShl f s
  | .shr f => Sys2Proof.Machine.execShr f s
  | .sar f => Sys2Proof.Machine.execSar f s
  | .rot f => Sys2Proof.Machine.execRot f s
  | .min f => Sys2Proof.Machine.execMin f s
  | .max f => Sys2Proof.Machine.execMax f s
  | .minu f => Sys2Proof.Machine.execMinu f s
  | .maxu f => Sys2Proof.Machine.execMaxu f s
  | .clz f => Sys2Proof.Machine.execClz f s
  | .ctz f => Sys2Proof.Machine.execCtz f s
  | .popc f => Sys2Proof.Machine.execPopc f s
  | .bfx f => Sys2Proof.Machine.execBfx f s
  | .bfxu f => Sys2Proof.Machine.execBfxu f s
  | .bfi f => Sys2Proof.Machine.execBfi f s
  | .sel f => Sys2Proof.Machine.execSel f s
  | .cmp f => Sys2Proof.Machine.execCmp f s
  | .cmpi f => Sys2Proof.Machine.execCmpi f s
  | .kand f => Sys2Proof.Machine.execKand f s
  | .kor f => Sys2Proof.Machine.execKor f s
  | .kxor f => Sys2Proof.Machine.execKxor f s
  | .knot f => Sys2Proof.Machine.execKnot f s
  | .kmov f => Sys2Proof.Machine.execKmov f s
  | .kany f => Sys2Proof.Machine.execKany f s
  | .kall f => Sys2Proof.Machine.execKall f s
  | .kset f => Sys2Proof.Machine.execKset f s
  | .kget f => Sys2Proof.Machine.execKget f s
  | .mov f => Sys2Proof.Machine.execMov f s
  | .movf f => Sys2Proof.Machine.execMovf f s
  | .rst f => Sys2Proof.Machine.execRst f s
  | .rclr f => Sys2Proof.Machine.execRclr f s
  | .addi f => Sys2Proof.Machine.execAddi f s
  | .andi f => Sys2Proof.Machine.execAndi f s
  | .ori f => Sys2Proof.Machine.execOri f s
  | .xori f => Sys2Proof.Machine.execXori f s
  | .shli f => Sys2Proof.Machine.execShli f s
  | .shri f => Sys2Proof.Machine.execShri f s
  | .sari f => Sys2Proof.Machine.execSari f s
  | .movi f => Sys2Proof.Machine.execMovi f s
  | .movh f => Sys2Proof.Machine.execMovh f s
  | .adr f => Sys2Proof.Machine.execAdr f s
  | .br f => Sys2Proof.Machine.execBr f s
  | .bri f => Sys2Proof.Machine.execBri f s
  | .call f => Sys2Proof.Machine.execCall f s
  | .calli f => Sys2Proof.Machine.execCalli f s
  | .ret f => Sys2Proof.Machine.execRet f s
  | .rasclr f => Sys2Proof.Machine.execRasclr f s
  | .loop f => Sys2Proof.Machine.execLoop f s
  | .loopi f => Sys2Proof.Machine.execLoopi f s
  | .exit f => Sys2Proof.Machine.execExit f s
  | .yield f => Sys2Proof.Machine.execYield f s
  | .park f => Sys2Proof.Machine.execPark f s
  | .nop f => Sys2Proof.Machine.execNop f s
  | .trap f => Sys2Proof.Machine.execTrap f s
  | .eret f => Sys2Proof.Machine.execEret f s
  | .rply f => Sys2Proof.Machine.execRply f s
  | .mfs f => Sys2Proof.Machine.execMfs f s
  | .mts f => Sys2Proof.Machine.execMts f s
  | .tstamp f => Sys2Proof.Machine.execTstamp f s
  | .brk f => Sys2Proof.Machine.execBrk f s
  | .ld f => Sys2Proof.Machine.execLd f s
  | .ldx f => Sys2Proof.Machine.execLdx f s
  | .st f => Sys2Proof.Machine.execSt f s
  | .stx f => Sys2Proof.Machine.execStx f s
  | .pfh f => Sys2Proof.Machine.execPfh f s
  | .fence f => Sys2Proof.Machine.execFence f s
  | .amo f => Sys2Proof.Machine.execAmo f s
  | .cas f => Sys2Proof.Machine.execCas f s
  | .red f => Sys2Proof.Machine.execRed f s
  | .fred f => Sys2Proof.Machine.execFred f s
  | .gacq f => Sys2Proof.Machine.execGacq f s
  | .grel f => Sys2Proof.Machine.execGrel f s
  | .ghand f => Sys2Proof.Machine.execGhand f s
  | .gpub f => Sys2Proof.Machine.execGpub f s
  | .gbind f => Sys2Proof.Machine.execGbind f s
  | .gstat f => Sys2Proof.Machine.execGstat f s
  | .vld f => Sys2Proof.Machine.execVld f s
  | .vst f => Sys2Proof.Machine.execVst f s
  | .vlds f => Sys2Proof.Machine.execVlds f s
  | .vsts f => Sys2Proof.Machine.execVsts f s
  | .vgth f => Sys2Proof.Machine.execVgth f s
  | .vsct f => Sys2Proof.Machine.execVsct f s
  | .vldt f => Sys2Proof.Machine.execVldt f s
  | .vbc f => Sys2Proof.Machine.execVbc f s
  | .vext f => Sys2Proof.Machine.execVext f s
  | .vins f => Sys2Proof.Machine.execVins f s
  | .viota f => Sys2Proof.Machine.execViota f s
  | .vadd f => Sys2Proof.Machine.execVadd f s
  | .vsub f => Sys2Proof.Machine.execVsub f s
  | .vmul f => Sys2Proof.Machine.execVmul f s
  | .vmulh f => Sys2Proof.Machine.execVmulh f s
  | .vmad f => Sys2Proof.Machine.execVmad f s
  | .vwad f => Sys2Proof.Machine.execVwad f s
  | .vand f => Sys2Proof.Machine.execVand f s
  | .vor f => Sys2Proof.Machine.execVor f s
  | .vxor f => Sys2Proof.Machine.execVxor f s
  | .vshl f => Sys2Proof.Machine.execVshl f s
  | .vshr f => Sys2Proof.Machine.execVshr f s
  | .vsar f => Sys2Proof.Machine.execVsar f s
  | .vmin f => Sys2Proof.Machine.execVmin f s
  | .vmax f => Sys2Proof.Machine.execVmax f s
  | .vminu f => Sys2Proof.Machine.execVminu f s
  | .vmaxu f => Sys2Proof.Machine.execVmaxu f s
  | .vabs f => Sys2Proof.Machine.execVabs f s
  | .vcmp f => Sys2Proof.Machine.execVcmp f s
  | .vsel f => Sys2Proof.Machine.execVsel f s
  | .vscan f => Sys2Proof.Machine.execVscan f s
  | .vred f => Sys2Proof.Machine.execVred f s
  | .vperm f => Sys2Proof.Machine.execVperm f s
  | .vfadd f => Sys2Proof.Machine.execVfadd f s
  | .vfsub f => Sys2Proof.Machine.execVfsub f s
  | .vfmul f => Sys2Proof.Machine.execVfmul f s
  | .vfma f => Sys2Proof.Machine.execVfma f s
  | .vfmin f => Sys2Proof.Machine.execVfmin f s
  | .vfmax f => Sys2Proof.Machine.execVfmax f s
  | .vfdiv f => Sys2Proof.Machine.execVfdiv f s
  | .vfsqrt f => Sys2Proof.Machine.execVfsqrt f s
  | .vfrcp f => Sys2Proof.Machine.execVfrcp f s
  | .vfrsq f => Sys2Proof.Machine.execVfrsq f s
  | .vfexp2 f => Sys2Proof.Machine.execVfexp2 f s
  | .vflog2 f => Sys2Proof.Machine.execVflog2 f s
  | .vftanh f => Sys2Proof.Machine.execVftanh f s
  | .vfcmp f => Sys2Proof.Machine.execVfcmp f s
  | .vfscan f => Sys2Proof.Machine.execVfscan f s
  | .vfred f => Sys2Proof.Machine.execVfred f s
  | .vfcvt f => Sys2Proof.Machine.execVfcvt f s
  | .vmxq f => Sys2Proof.Machine.execVmxq f s
  | .vmxd f => Sys2Proof.Machine.execVmxd f s
  | .pclm f => Sys2Proof.Machine.execPclm f s
  | .prel f => Sys2Proof.Machine.execPrel f s
  | .pld f => Sys2Proof.Machine.execPld f s
  | .pldt f => Sys2Proof.Machine.execPldt f s
  | .aclm f => Sys2Proof.Machine.execAclm f s
  | .arel f => Sys2Proof.Machine.execArel f s
  | .azero f => Sys2Proof.Machine.execAzero f s
  | .mma f => Sys2Proof.Machine.execMma f s
  | .drn f => Sys2Proof.Machine.execDrn f s
  | .drnm f => Sys2Proof.Machine.execDrnm f s
  | .atbl f => Sys2Proof.Machine.execAtbl f s
  | .mstat f => Sys2Proof.Machine.execMstat f s
  | .send f => Sys2Proof.Machine.execSend f s
  | .rput f => Sys2Proof.Machine.execRput f s
  | .qinit f => Sys2Proof.Machine.execQinit f s
  | .qpush f => Sys2Proof.Machine.execQpush f s
  | .qpop f => Sys2Proof.Machine.execQpop f s
  | .qlen f => Sys2Proof.Machine.execQlen f s
  | .barv f => Sys2Proof.Machine.execBarv f s
  | .bart f => Sys2Proof.Machine.execBart f s
  | .cpy f => Sys2Proof.Machine.execCpy f s
  | .cpy2 f => Sys2Proof.Machine.execCpy2 f s
  | .waitc f => Sys2Proof.Machine.execWaitc f s
  | .carm f => Sys2Proof.Machine.execCarm f s
  | .cset f => Sys2Proof.Machine.execCset f s
  | .trig f => Sys2Proof.Machine.execTrig f s
  | .wdep f => Sys2Proof.Machine.execWdep f s
  | .lnch f => Sys2Proof.Machine.execLnch f s
  | .wake f => Sys2Proof.Machine.execWake f s
  | .migr f => Sys2Proof.Machine.execMigr f s
  | .hopen f => Sys2Proof.Machine.execHopen f s
  | .hput f => Sys2Proof.Machine.execHput f s
  | .hclose f => Sys2Proof.Machine.execHclose f s
  | .hstat f => Sys2Proof.Machine.execHstat f s
  | .hcfg f => Sys2Proof.Machine.execHcfg f s
  | .kend => Sys2Proof.Machine.execKend s
  | .illegalInstruction r => Sys2Proof.Machine.execIllegalInstruction r s
  | .taggedDelivery d => Sys2Proof.Machine.execTaggedDelivery d s
  | .untaggedDeposit d => Sys2Proof.Machine.execUntaggedDeposit d s
  | .depositLatchLand core => Sys2Proof.Machine.execDepositLatchLand core s
  | .messageLeftCore core => Sys2Proof.Machine.execMessageLeftCore core s
  | .acknowledgement k data pois => Sys2Proof.Machine.execAcknowledgement k data pois s
  | .fetchLineArrival t => Sys2Proof.Machine.execFetchLineArrival t s
  | .pageWalk a => Sys2Proof.Machine.execPageWalk a s
  | .accessAtHome a => Sys2Proof.Machine.execAccessAtHome a s
  | .fredClose ctx guarded bd => Sys2Proof.Machine.execFredClose ctx guarded bd s
  | .guardRequestAtHome r => Sys2Proof.Machine.execGuardRequestAtHome r s
  | .guardReply r => Sys2Proof.Machine.execGuardReply r s
  | .reservationExpiry id => Sys2Proof.Machine.execReservationExpiry id s
  | .ticketExpiry id => Sys2Proof.Machine.execTicketExpiry id s
  | .routerAccept core => Sys2Proof.Machine.execRouterAccept core s
  | .remoteQueueOp q => Sys2Proof.Machine.execRemoteQueueOp q s
  | .messageArrival m => Sys2Proof.Machine.execMessageArrival m s
  | .messageStartFromBuffer core idx => Sys2Proof.Machine.execMessageStartFromBuffer core idx s
  | .pipArrival p => Sys2Proof.Machine.execPipArrival p s
  | .barrierArrivalAtAgent ctx launch level path exited => Sys2Proof.Machine.execBarrierArrivalAtAgent ctx launch level path exited s
  | .clockCapRelease idx => Sys2Proof.Machine.execClockCapRelease idx s
  | .agerVisit line => Sys2Proof.Machine.execAgerVisit line s
  | .counterIncrement ctx core n => Sys2Proof.Machine.execCounterIncrement ctx core n s
  | .counterFire core n => Sys2Proof.Machine.execCounterFire core n s
  | .matrixCommandStart core ctx => Sys2Proof.Machine.execMatrixCommandStart core ctx s
  | .transferCommandStart core ctx => Sys2Proof.Machine.execTransferCommandStart core ctx s
  | .podLoadComplete id => Sys2Proof.Machine.execPodLoadComplete id s
  | .mmaComplete id => Sys2Proof.Machine.execMmaComplete id s
  | .atblComplete id => Sys2Proof.Machine.execAtblComplete id s
  | .drainComplete id => Sys2Proof.Machine.execDrainComplete id s
  | .drnmRow id => Sys2Proof.Machine.execDrnmRow id s
  | .commandFault id unit f => Sys2Proof.Machine.execCommandFault id unit f s
  | .copyPieceAtStreamer id => Sys2Proof.Machine.execCopyPieceAtStreamer id s
  | .copyPacketWrite p => Sys2Proof.Machine.execCopyPacketWrite p s
  | .huskOpen r => Sys2Proof.Machine.execHuskOpen r s
  | .huskArrival l => Sys2Proof.Machine.execHuskArrival l s
  | .huskDeadline die slot => Sys2Proof.Machine.execHuskDeadline die slot s
  | .huskRelease die slot => Sys2Proof.Machine.execHuskRelease die slot s
  | .huskNotify die slot => Sys2Proof.Machine.execHuskNotify die slot s
  | .wakeForward ctx launch core pos => Sys2Proof.Machine.execWakeForward ctx launch core pos s
  | .threadStart ctx launch linear => Sys2Proof.Machine.execThreadStart ctx launch linear s
  | .launchRootStart ctx queue => Sys2Proof.Machine.execLaunchRootStart ctx queue s
  | .faultReply t acc unit f => Sys2Proof.Machine.execFaultReply t acc unit f s
  | .takeTrap t => Sys2Proof.Machine.execTakeTrap t s
  | .evictionRequest ctx core region => Sys2Proof.Machine.execEvictionRequest ctx core region s
  | .imageComplete ctx core => Sys2Proof.Machine.execImageComplete ctx core s
  | .resumption ctx core region => Sys2Proof.Machine.execResumption ctx core region s
  | .addressComparatorStop t n => Sys2Proof.Machine.execAddressComparatorStop t n s
  | .acornPulse => Sys2Proof.Machine.execAcornPulse s
  | .snapshotTrigger src => Sys2Proof.Machine.execSnapshotTrigger src s
  | .externalTrigger => Sys2Proof.Machine.execExternalTrigger s
  | .snapshotLatch => Sys2Proof.Machine.execSnapshotLatch s
  | .ringTickPlacement die => Sys2Proof.Machine.execRingTickPlacement die s
  | .replayMismatch t entry => Sys2Proof.Machine.execReplayMismatch t entry s
  | .softError s0 correctable => Sys2Proof.Machine.execSoftError s0 correctable s
  | .droopAlarm => Sys2Proof.Machine.execDroopAlarm s
  | .droopWindowEnd => Sys2Proof.Machine.execDroopWindowEnd s
  | .energyStaticTick => Sys2Proof.Machine.execEnergyStaticTick s
  | .lockLeaseExpiry => Sys2Proof.Machine.execLockLeaseExpiry s
  | .boot => Sys2Proof.Machine.execBoot s
  | .pldmSensorRead id => Sys2Proof.Machine.execPldmSensorRead id s
  | .pldmFirmwareUpdate slotB image => Sys2Proof.Machine.execPldmFirmwareUpdate slotB image s
  | .spdmGetMeasurements nonce => Sys2Proof.Machine.execSpdmGetMeasurements nonce s
  | .sidebandLockRequest => Sys2Proof.Machine.execSidebandLockRequest s
  | .rmaWrite ctx port va len data seq => Sys2Proof.Machine.execRmaWrite ctx port va len data seq s
  | .rmaRead ctx port va len seq => Sys2Proof.Machine.execRmaRead ctx port va len seq s
  | .unsupportedOperation ctx seq => Sys2Proof.Machine.execUnsupportedOperation ctx seq s
  | .launch h record => Sys2Proof.Machine.execLaunch h record s
  | .linkupd h entry addr => Sys2Proof.Machine.execLinkupd h entry addr s
  | .linkacq h => Sys2Proof.Machine.execLinkacq h s
  | .ctxnew h num tfb gbase gsize link evAddr evEp => Sys2Proof.Machine.execCtxnew h num tfb gbase gsize link evAddr evEp s
  | .ctxdel h => Sys2Proof.Machine.execCtxdel h s
  | .ptroot h addr => Sys2Proof.Machine.execPtroot h addr s
  | .inval h va len => Sys2Proof.Machine.execInval h va len s
  | .coremap h cc mc => Sys2Proof.Machine.execCoremap h cc mc s
  | .reside h mc slot mask base units => Sys2Proof.Machine.execReside h mc slot mask base units s
  | .slottbl h mc entries => Sys2Proof.Machine.execSlottbl h mc entries s
  | .gscope h first last scope c0 c1 => Sys2Proof.Machine.execGscope h first last scope c0 c1 s
  | .qstub h queue entry die => Sys2Proof.Machine.execQstub h queue entry die s
  | .ring h kind die base k head => Sys2Proof.Machine.execRing h kind die base k head s
  | .spill h page => Sys2Proof.Machine.execSpill h page s
  | .remote h idx peer ep key => Sys2Proof.Machine.execRemote h idx peer ep key s
  | .key h slot wrapped => Sys2Proof.Machine.execKey h slot wrapped s
  | .cntr h mc mask => Sys2Proof.Machine.execCntr h mc mask s
  | .portown h mc owner => Sys2Proof.Machine.execPortown h mc owner s
  | .hceil h die ceil => Sys2Proof.Machine.execHceil h die ceil s
  | .preempt h cores region => Sys2Proof.Machine.execPreempt h cores region s
  | .resume h cores region => Sys2Proof.Machine.execResume h cores region s
  | .thrres h cc tid addr => Sys2Proof.Machine.execThrres h cc tid addr s
  | .thrend h cc tid => Sys2Proof.Machine.execThrend h cc tid s
  | .hgacq h guard excl port => Sys2Proof.Machine.execHgacq h guard excl port s
  | .hgrel h guard port => Sys2Proof.Machine.execHgrel h guard port s
  | .debugDbg h on => Sys2Proof.Machine.execDebugDbg h on s
  | .debugAddrm h n val => Sys2Proof.Machine.execDebugAddrm h n val s
  | .debugStopAll h => Sys2Proof.Machine.execDebugStopAll h s
  | .debugTraceMask h mask => Sys2Proof.Machine.execDebugTraceMask h mask s
  | .snapControl h val => Sys2Proof.Machine.execSnapControl h val s
  | .snapHostTrigger h => Sys2Proof.Machine.execSnapHostTrigger h s
  | .snapPulsep h val => Sys2Proof.Machine.execSnapPulsep h val s
  | .replay h mode page => Sys2Proof.Machine.execReplay h mode page s
  | .droop h val => Sys2Proof.Machine.execDroop h val s
  | .mlock h => Sys2Proof.Machine.execMlock h s
  | .mreset h => Sys2Proof.Machine.execMreset h s
  | .fwupd h addr len slotB => Sys2Proof.Machine.execFwupd h addr len slotB s
  | .stepclr h n => Sys2Proof.Machine.execStepclr h n s
  | .sensor h id => Sys2Proof.Machine.execSensor h id s
  | .liveDump h region => Sys2Proof.Machine.execLiveDump h region s
  | .unknownOperation h op => Sys2Proof.Machine.execUnknownOperation h op s
  | .sidebandReset => Sys2Proof.Machine.execSidebandReset s
  | .sidebandStepClear n => Sys2Proof.Machine.execSidebandStepClear n s
  | .portLinkChange port up => Sys2Proof.Machine.execPortLinkChange port up s
  | .hostFreesMemory base len => Sys2Proof.Machine.execHostFreesMemory base len s

end Sys2Proof.Machine
end

