-- ==== Sys2Proof/Machine/Sched.lean ====
section
/-! DEFINITION. What a step runs: the events that are due, the orders kept among what is on its way, the issue of
instructions by the slot table and the barrel, and what a step does around `exec` (spec 04 R73, R74, R90, 05 R107, R108, 12
R282, R285-R287, 21 R370, R374, R377, 22 R389, R390). -/
namespace Sys2Proof.Machine
open Sys2Proof

/-- The next core cycle begins (log entry 2): the ports' latches are seen anew (R15), and a router may begin to refuse
(R20). -/
def tick (s : State) : State :=
  let s : State := { s with cycle := s.cycle + 1, thirds := s.thirds + 1, stage := 0 }
  let s := s.turnLatches
  match s.oracle.busy with
  | some c => if c < Config.cores then s.updCore c (fun x => { x with refusing := true }) else s
  | none => s

/-- What a step may run, with what taking it changes. -/
structure Mover where
  i : Instr
  take : State → State
/-- An event that is taken from no list. -/
def Mover.plain (i : Instr) : Mover := ⟨i, id⟩
/-- The entry at a place of what is on its way. -/
def Mover.flight (n : Nat) (i : Instr) : Mover := ⟨i, fun s => { s with flight := s.flight.eraseIdx n }⟩

/-- The part of a core cycle that an event belongs to in the order of R18: 0 for what comes before the issues, 1 for what has no
place in it, then the deposit
latch, and deliveries of the load/store unit, copy streamers, matrix unit, Husk and network, by the class of the tag
(R16); a guard home's reply comes by the network, an opened slot's handle from the Husk. -/
def partOf (i : Instr) : Nat :=
  match i with
  | .acornPulse | .ticketExpiry _ | .reservationExpiry _ => 0
  | .depositLatchLand _ => 2
  | .taggedDelivery d => if d.tag.toNat / 4096 ≤ 4 then d.tag.toNat / 4096 + 2 else 7
  | .untaggedDeposit _ | .guardReply _ => 7
  | .huskOpen _ => 6
  | _ => 1
/-- Whether an event's part of this core cycle is not over. -/
def partOpen (s : State) (i : Instr) : Bool := partOf i == 1 || decide (s.stage ≤ partOf i)

/-- Whether some thread of a launch has started on a context core. -/
def Launch.begun (l : Launch) (cc : Nat) : Bool :=
  l.placed.zipIdx.any (fun p => p.1.2.1 == cc && !l.toStart.contains p.2)
/-- The context core of the thread that a start names, with its launch. -/
def startPlace (s : State) (i : Instr) : Option (Launch × Nat) :=
  match i with
  | .threadStart _ uid n => (s.launch? uid).bind (fun l => (l.placed[n]?).map (fun p => (l, p.2.1)))
  | _ => none
/-- The next start on a core where another thread of the launch has started: all start in one cycle (R281). -/
def dueStart (s : State) : Option Mover :=
  (s.flight.zipIdx.find? (fun x => (startPlace s x.1).any (fun p => p.1.begun p.2))).map (fun x => .flight x.2 x.1)

/-- Whether a Husk slot's deadline event is due (R229): its tick has come; under REPLAY its timeout is logged and every
position outside SUB has arrived (R377). -/
def deadlineDue (s : State) (die : Nat) (x : HSlot) : Bool :=
  x.st == .open_ && huskTurn s die x.ctx .read (deadlineLines x) && (pastDeadline s x || (match replaySub s x.ctx die x.idx with
    | some sub => sub != 0 && (List.range (dscNexp x.desc)).all (fun p => bit sub p || bit x.arr.toNat p)
    | none => false))

/-- Half of the time in which every line is visited: a round that takes no longer lets none wait past it (R265). -/
def agerRound : Nat := 8000000
/-- The lines with metadata that their die's ager has not visited in its round (R265). -/
def unvisited (s : State) : List Nat := (s.lines.map (·.1)).filter (fun l => !(s.ager (dieOfKey (128 * l))).seen.contains l)

/-- Whether a context core is stopped for a live dump (R372). -/
def dumping (s : State) (ctx cc : Nat) : Bool := (s.imageAny? ctx cc).any (fun im => im.dump.isSome)
/-- A log entry that a replayed thread has passed without using it (R378): its place in the log. -/
def passedEntry (s : State) (t : Thread) : Option Nat :=
  let c := s.ctxD t.ref.ctx
  if c.replay != 2 || (match t.run with
    | .stopped _ | .halted => true
    | _ => false) then none
  else c.log.findIdx? (fun e => !e.used && (match e.key with
    | .thread a n | .timing a n => a == t.ref.agent && decide (n < t.icount)
    | _ => false))
/-- The objects in whose logged order an operation on its way is to be served now, with the thread that made it and its
agent (R377). -/
def waitsOn (s : State) (i : Instr) : List (RevKey × TRef × Nat) :=
  match i with
  | .accessAtHome a =>
    (match a.sink, placeOf s a with
      | .thread t _ _, some (k, _) =>
        (if revealing a then [(.word k, t, a.agent)] else [])
          ++ (if a.st.report && !s.shut a k then [(.line (lineOf k), t, a.agent)] else [])
      | _, _ => [])
  | .guardRequestAtHome r =>
    (match r.who, r.op with
      | .thread t, .acquire excl _ =>
        if grantable s r excl && !s.mustRefuse r.ctx r.agent r.n then [(.guard r.idx, t, r.agent)] else []
      | _, _ => [])
  | .remoteQueueOp q =>
    if s.mustRefuse q.t.ctx q.t.agent q.n then [] else [(.queue q.core q.off, q.t, q.t.agent)]
  | .untaggedDeposit d => (s.agent? d.ctx d.src).toList.map (fun t => (.reg d.agent (Opd.code d.reg), t.ref, d.src))
  | _ => []
/-- An EARLY notification that waits behind one that the log has next, of a slot that is not open any longer (R378). -/
def slotStray (s : State) (h : Husk) : Option Instr :=
  h.slots.findSome? (fun x => if !x.ready || dscOrd x.desc then none else
    match s.replayNext x.ctx (.slot h.die huskSlots) with
    | some e =>
      if e.val != BitVec.ofNat 64 x.idx && (h.slots.find? (fun y => y.idx == e.val.toNat)).all (fun y => y.st == .free)
      then ((s.ctxD x.ctx).log.findIdx? (· == e)).map (Instr.replayMismatch ⟨x.ctx, 16 * x.core, 0⟩) else none
    | none => none)
/-- The replay mismatch that is found now (R378). -/
def dueMismatch (s : State) : Option Instr :=
  if s.ctxs.any (fun c => c.replay == 2) then
    (s.threads.findSome? (fun t => (passedEntry s t).map (Instr.replayMismatch t.ref))).or
      (((s.flight.flatMap (waitsOn s)).findSome? (strayEntry s)).or (s.husks.findSome? (slotStray s)))
  else none

/-- What is due before the issues of a cycle: a pulse, which sees the threads as the last cycle that began before it has left
them (R367), also when its tick falls within a stretched cycle; a ticket that has died at the end of its 512th cycle (R289), and a reservation that has ended (R290). -/
def dueFirst (s : State) : Option Instr :=
  let held (w : Waiter) : Bool := dumping s w.ctx (w.agent / 16)
  if s.probe.pulsep ≠ 0 ∧ s.probe.nextPulse ≤ s.now ∧ s.stage = 0 then some .acornPulse
  else match s.waiters.find? (fun w => !w.parked && !held w && decide (w.last + 512 < s.cycle)) with
  | some w => some (.ticketExpiry w.id)
  | none => (s.waiters.find? (fun w => !w.parked && !held w && w.reserved.any (fun f => decide (f < s.cycle)))).map
      (fun w => .reservationExpiry w.id)

/-- The first event that is due at this time by itself. -/
def dueAlone (s : State) : Option Instr :=
  let p := s.probe
  if 1 ≤ s.mgmt.step ∧ s.mgmt.step ≤ 7 then some .boot
  else if p.latchAt.any (fun x => decide (x ≤ s.now)) then some .snapshotLatch
  else if s.nextStatic ≤ s.thirds then some .energyStaticTick
  else if s.droopEnd.any (fun x => decide (x ≤ s.cycle)) then some .droopWindowEnd
  else if (dueMismatch s).isSome then dueMismatch s
  else if s.mgmt.lock.any (fun l => !l.ended && decide (l.fin ≤ s.now)) then some .lockLeaseExpiry
  else
      match (s.husks.map (fun h => (h.slots.filter (deadlineDue s h.die)).map (fun x => (h.die, x.idx)))).flatten.head? with
      | some (d, i) => some (.huskDeadline d i)
      | none =>
        match (s.cores.map (fun c => ((List.range 64).filter (fun n =>
            (c.counter n).arm.any (fun a => decide (a.target.toNat ≤ (c.counter n).val.toNat) && decide (a.since ≤ s.cycle)))).map (fun n => (c.id, n)))).flatten.head? with
        | some (c, n) => some (.counterFire c n)
        | none =>
          match (if s.stage ≤ 2 then s.cores.find? (fun c => (latchReady s c).isSome) else none) with
          | some c => some (.depositLatchLand c.id)
          | none => (s.rings.find? (fun r => r.coll.any (fun e => decide (e.1 < s.now)))).map (fun r => .ringTickPlacement r.die)
/-- The visit of a line that its ager's round may put off no longer, or with which a round ends that has nothing more to visit
(R265). -/
def dueVisit (s : State) : Option Instr :=
  (((List.range 4).find? (fun d => !(s.ager d).seen.isEmpty && (stampedOn s d).all (s.ager d).seen.contains)).map
    (fun d => .agerVisit ((s.ager d).seen.headD 0))).or <|
  ((unvisited s).find? (fun l => decide ((s.ager (dieOfKey (128 * l))).start + agerRound ≤ s.now))).map .agerVisit
/-- The event that goes before anything but the issues of its cycle: a replay mismatch, and the stop of a thread whose wait for a
reply is over, which comes at this instruction boundary (R375). -/
def dueEvent (s : State) : Option Mover :=
  let mismatch := s.flight.zipIdx.find? (fun x => match x.1 with
    | .replayMismatch _ _ => true
    | .addressComparatorStop r _ => (s.thread? r).all (fun t => t.run != .waiting .reply)
    | _ => false)
  match mismatch with
  | some x => some (.flight x.2 x.1)
  | none => match dueStart s with
    | some m => some m
    | none => ((dueAlone s).or (dueVisit s)).map .plain

/-- Where an access is to be performed: at its place, or where its walk would find it. -/
def targetOf (s : State) (a : Access) : Option Nat :=
  match placeOf s a with
  | some (k, _) => some k
  | none => match spotOf s a.ctx a.core a.va false false with
    | .ok (.at_ k _) => some k
    | _ => none
/-- Whether two accesses of a context share a byte, by their addresses, aliases of scratchpad bytes being equal (R251), or by
their places, two pages being mapped to one frame. -/
def accessesMeet (s : State) (a b : Access) : Bool :=
  let meet (x y : Nat) : Bool := decide (x < y + b.size) && decide (y < x + a.size)
  meet (canonVa a.core a.va) (canonVa b.core b.va) || (match targetOf s a, targetOf s b with
    | some x, some y => meet x y
    | _, _ => false)
/-- The place of an access in its agent's issue order: its number, then its unit. -/
def issueNo (a : Access) : Nat × Nat :=
  (a.id, match a.sink with
    | .thread _ _ u => u
    | .cmd _ u p => u * 2 ^ 16 + p
    | .rma _ q off => q * 2 ^ 32 + off
    | .none => 0)
/-- Whether an access must be performed before another (R107, R108, R266): of one agent, issued before it, sharing bytes,
one of them writing; a walk on the way changes nothing. -/
def mustPrecede (s : State) (b a : Access) : Bool :=
  a.ctx == b.ctx && a.agent == b.agent && (AKind.isWrite a.kind || AKind.isWrite b.kind)
    && (decide ((issueNo b).1 < (issueNo a).1) || ((issueNo b).1 == (issueNo a).1 && decide ((issueNo b).2 < (issueNo a).2)))
    && accessesMeet s a b
/-- The access that an entry carries. -/
def accessOf : Instr → Option Access
  | .accessAtHome a | .pageWalk a => some a
  | _ => none

/-- Whether a replayed or recorded operation on an object may be served now (R377). -/
def serveTurn (s : State) (ctx : Nat) (k : RevKey) (agent : Nat) : Bool :=
  s.replayTurn ctx k agent && !(s.ctxD ctx).logFull

/-- Whether an access waits for the image of the core it goes to (R294): the core's own accesses are performed before that is
written. -/
def waitsImage (s : State) (a : Access) : Bool :=
  match windowOf a.core a.va with
  | .scratch c _ => evicting s a.ctx c && decide (c ≠ a.core)
  | _ => false

/-- Whether an access may be performed at its home now. -/
def accessReady (s : State) (a : Access) : Bool :=
  !(s.flight.any (fun i => (accessOf i).any (fun b => mustPrecede s b a))) && !waitsImage s a
    && (match placeOf s a with
      | none => true
      | some (k, _) =>
        (match a.kind with
          | .fred _ => !s.fredWaits k
          | _ => true)
        && (!revealing a || serveTurn s a.ctx (.word k) a.agent)
        && lineTurn s a k)

/-- Whether a guard request may be served now: in its agent's order, which for a thread is that of the requests' numbers; an
exiting thread's releases one after the other (R125), after the closing it has asked for, a handover at a target that is not
evicted, in its replayed turn (R377). -/
def guardReady (s : State) (earlier : List Instr) (r : GuardReq) : Bool :=
  let before (i : Instr) : Bool := match i with
    | .guardRequestAtHome x => x.ctx == r.ctx && x.idx == r.idx && x.agent == r.agent && (!ofThread r || decide (x.acc < r.acc))
    | _ => false
  let closing (i : Instr) : Bool := match i with
    | .fredClose c g b => c == r.ctx && g && b == r.idx
    | _ => false
  let releasing (i : Instr) : Bool := match i with
    | .guardRequestAtHome x => x.ctx == r.ctx && x.agent == r.agent && x.op == .release && decide (x.acc < r.acc)
    | _ => false
  !(if ofThread r then s.flight else earlier).any before && (match r.op with
    | .acquire excl _ =>
      if grantable s r excl then s.mustRefuse r.ctx r.agent r.n || serveTurn s r.ctx (.guard r.idx) r.agent
      else r.parks || !ofThread r || s.answerTurn r.ctx r.agent r.n false
    | .handTo a =>
      !s.flight.any closing && (decide (0x80000 ≤ a) || ((s.imageAny? r.ctx (a / 16)).isNone
        && s.answerTurn r.ctx r.agent r.n ((s.agent? r.ctx a).all (handRoom s r))))
    | .release => !s.flight.any closing && !s.flight.any releasing && !s.capped.any releasing
    | .stat => !(s.ctxD r.ctx).logFull)

/-- Whether a command's fault may be told now: the command stands on its core, and a fault that found no room in the landing
table before finds it (R313). -/
def faultReady (s : State) (id : Nat) : Bool :=
  let has (q : CmdQueue) : Bool := q.started.any (fun x => x.cmd.id == id)
  !s.images.any (fun im => im.state.mq.any has || im.state.tq.any has)
    && (s.started? id).all (fun p => !p.1.q.faulted.contains id || landRoom s p.2.cmd.t (List.replicate 9 0))
/-- Whether a context core's pending log, where it has an image, has room (R295). -/
def logRoomFor (s : State) (ctx cc : Nat) (i : Instr) : Bool :=
  match s.image? ctx cc with
  | some im => im.logs i
  | none => true

/-- Whether a message may arrive now: in its sender's order for its target and channel (R203), at a core that is not
stopping for eviction, with room (R204). -/
def messageReady (s : State) (earlier : List Instr) (m : Msg) : Bool :=
  let before (i : Instr) : Bool := match i with
    | .messageArrival x => x.ctx == m.ctx && x.core == m.core && x.reply == m.reply && x.origin == m.origin && x.origin != .subLaunch
    | _ => false
  let c := s.core (s.mcOf m.ctx m.core)
  !earlier.any before && !evicting s m.ctx m.core
    && logRoomFor s m.ctx m.core (asLogged m)
    && ((s.image? m.ctx m.core).isSome || (!behindOthers c m && (msgTid s m).isSome) || inboxRoom c m.reply)

/-- Whether a deposit may arrive now: after earlier ones to its register; a router whose core's deposit latch is full
refuses it (R17, R18). -/
def depositReady (s : State) (earlier : List Instr) (d : Deposit) : Bool :=
  let before (i : Instr) : Bool := match i with
    | .untaggedDeposit x => x.ctx == d.ctx && x.agent == d.agent && x.reg == d.reg
    | _ => false
  !earlier.any before && !evicting s d.ctx (d.agent / 16) && logRoomFor s d.ctx (d.agent / 16) (.untaggedDeposit d)
    && ((s.image? d.ctx (d.agent / 16)).isSome || (match s.agent? d.ctx d.agent with
      | none => true
      | some t => decide ((s.core (s.homeOf t.ref)).depLatch.length < 8)))
    && serveTurn s d.ctx (.reg d.agent (Opd.code d.reg)) d.src

/-- Whether a launch's thread may start now (R281, R282): the thread contexts of all that start with it on its core are
free, and what comes before it there has started: where one must wait, all do (R281 starts them in one cycle; DESIGN CHOICE, log
entry 59). -/
def startReady (s : State) (earlier : List Instr) (ctx launch linear : Nat) : Bool :=
  match s.launch? launch with
  | none => true
  | some l =>
    match l.placed[linear]? with
    | none => true
    | some (_, cc, _) =>
      let before (i : Instr) : Bool := match i with
        | .threadStart c x n => c == ctx && x == launch && (match l.placed[n]? with
            | some (_, c', _) => c' == cc
            | none => false)
        | _ => false
      let older := s.launches.any (fun x => x.ctx == ctx && x.queue == l.queue && !x.root && decide (x.seq < l.seq)
        && x.toStart.any (fun n => match x.placed[n]? with
          | some (_, c', _) => c' == cc
          | none => false))
      let free (n : Nat) : Bool := match l.placed[n]? with
        | some (_, c', tid) => c' != cc || ((s.agent? ctx (cc * 16 + tid)).isNone
          && startTurn s ctx (launchKey l n cc) (cc * 16 + tid))
        | none => true
      !(s.ctxD ctx).logFull && !earlier.any before && !older && (s.imageAny? ctx cc).isNone && l.toStart.all free

/-- Whether a remote operation is not behind one that its queue has taken in this cycle: senders in ascending identity, those
of a sender in issue order (R210). -/
def queueTurn (s : State) (q : QReq) : Bool :=
  match (s.queue? q.t.ctx q.core q.off).bind (·.turn) with
  | some (cycle, agent, n) => decide (cycle < s.cycle) || decide (agent < q.t.agent) || (agent == q.t.agent && decide (n < q.acc))
  | none => true

/-- Whether a remote queue operation may be answered now: in its logged turn, or with the failure that is logged (R377). -/
def queueReady (s : State) (q : QReq) : Bool :=
  match s.queue? q.t.ctx q.core q.off with
  | none => true
  | some x =>
    if (queueApply s q.t.ctx q.t.agent q.core q.off x q.kind).2.1
    then s.mustRefuse q.t.ctx q.t.agent q.n || serveTurn s q.t.ctx (.queue q.core q.off) q.t.agent
    else s.answerTurn q.t.ctx q.t.agent q.n false

/-- The scratchpad words, by module core and number, that bytes of a place need: those of `on` from it on (R254). -/
def padWords (k : Nat) (on : List Nat) : List (Nat × Nat) :=
  match scratchCore k with
  | some mc => on.map (fun i => (mc, (k - Config.scratchKey + i) % Config.scratchSize / 4))
  | none => []
/-- The scratchpad words of an access: those of the bytes that it enables. -/
def accessPad (s : State) (a : Access) : List (Nat × Nat) :=
  match placeOf s a with
  | some (k, _) => padWords k ((List.range a.size).filter (fun i => a.be == 0 || bit a.be.toNat i))
  | none => []
/-- The scratchpad words of pieces of memory at some addresses of a context. -/
def runsPad (s : State) (ctx cc : Nat) (write : Bool) (l : List (Nat × Nat)) : List (Nat × Nat) :=
  l.flatMap (fun r => match spotOf s ctx cc r.1 write false with
    | .ok (.at_ k _) => padWords k (List.range r.2)
    | _ => [])
/-- The scratchpad words of bytes of a context core's share. -/
def sharePad (s : State) (ctx cc off n : Nat) : List (Nat × Nat) :=
  match s.scratchSpot ctx cc off with
  | some k => padWords k (List.range n)
  | none => []
/-- The scratchpad words of a queue operation (R206, R208): the descriptor's, and those of the entry that it takes or fills. -/
def queuePad (s : State) (ctx cc off : Nat) (k : QKind) : List (Nat × Nat) :=
  match s.queue? ctx cc off with
  | none => []
  | some q =>
    let entry (i : Nat) : List (Nat × Nat) := sharePad s ctx cc (off + 16 + 8 * (i % q.cap)) 8
    sharePad s ctx cc off 16 ++ (match k with
      | .push _ => if q.items.length < q.cap then entry (q.head + q.items.length) else []
      | .pop => if q.items.isEmpty then [] else entry q.head
      | .len => [])
/-- Whether every bank that some words need is free in this cycle (R254). -/
def State.banksFree (s : State) (l : List (Nat × Nat)) : Bool :=
  l.all (fun w => decide ((s.core w.1).banks.getD (w.2 % 32) 0 ≤ s.cycle))
/-- The banks of some words of a core claimed for as many cycles as the most distinct words of one bank (R254), behind a claim that
still holds. -/
def Core.claim (c : Core) (cycle : Nat) (ws : List Nat) : Core :=
  let used (b : Nat) : Nat := (ws.filter (fun w => w % 32 == b)).length
  let k := ((List.range 32).map used).foldl Nat.max 0
  { c with banks := (List.range 32).map (fun b => let at_ := c.banks.getD b 0; if used b = 0 then at_ else Nat.max cycle at_ + k) }
/-- The banks of some words claimed (R254): those of each core apart, a word that several lanes ask for once. -/
def State.claimBanks (s : State) (l : List (Nat × Nat)) : State :=
  (l.map (·.1)).eraseDups.foldl (fun s mc =>
    s.updCore mc (fun c => c.claim s.cycle ((l.filter (·.1 == mc)).map (·.2)).eraseDups)) s

/-- Runs of memory that an event of a copy moves, as (context, context core, whether it writes, runs): the source of the next packet,
or where a packet goes (R217, R381). -/
def copyMoves (s : State) (i : Instr) : Option (Nat × Nat × Bool × List (Nat × Nat)) :=
  match i with
  | .copyPieceAtStreamer id => (s.started? id).bind (fun p =>
      (nextByte p.2.cmd.op p.2.doneUnits (copyFuel p.2.cmd.op) p.2.pos).map (fun j =>
        (p.1.q.ctx, TRef.cc p.2.cmd.t, false,
          (windowRuns p.2.cmd.op j ((copyByte p.2.cmd.op j).2 / 256)).map (fun r => ((copyByte p.2.cmd.op r.1).1, r.2)))))
  | .copyPacketWrite p =>
    let runs := p.runs.map (fun r => (r.dst, r.n))
    if p.written then none
    else match p.port with
      | some (_, ctx, _) => some (ctx, Config.cores, true, runs)
      | none => (s.started? p.cmd).map (fun q => (q.1.q.ctx, TRef.cc q.2.cmd.t, true, runs))
  | _ => none
/-- The scratchpad words of an event's request: of an engine, of a copy, of another core's queue operation or access; those that a
thread reads or writes on its own core were claimed at its issue (R254). -/
def eventPad (s : State) (i : Instr) : List (Nat × Nat) :=
  match i with
  | .accessAtHome a =>
    let home := s.mcOf a.ctx a.core
    (match a.sink with
      | .thread _ _ _ => (accessPad s a).filter (·.1 != home)
      | _ => accessPad s a)
  | .remoteQueueOp q => queuePad s q.t.ctx q.core q.off q.kind
  | i => match copyMoves s i with
    | some (ctx, cc, write, runs) => runsPad s ctx cc write runs
    | none => []
/-- Whether the banks that an event's request needs are free (R254). -/
def banksFor (s : State) (i : Instr) : Bool := s.banksFree (eventPad s i)

/-- Whether the entry of what is on its way at a place of the list may act now; `earlier` was put on its way before it. -/
def flightReady (s : State) (earlier : List Instr) (i : Instr) : Bool :=
  partOpen s i && banksFor s i && match i with
  | .accessAtHome a => accessReady s a
  | .guardRequestAtHome r => guardReady s earlier r
  | .messageArrival m => messageReady s earlier m
  | .untaggedDeposit d => depositReady s earlier d
  | .pipArrival p => messageReady s [] (pipMsg p)
  | .remoteQueueOp q => !evicting s q.t.ctx q.core && queueTurn s q && queueReady s q
  | .barrierArrivalAtAgent ctx l lv path _ =>
    (match (s.launch? l).bind (fun x => barrierAgent x (path.take (lv + 1))) with
      | some cc => !evicting s ctx cc && logRoomFor s ctx cc i
      | none => true)
  | .counterIncrement ctx core _ => !evicting s ctx core && logRoomFor s ctx core i
  | .taggedDelivery d => landRoom s d.t (valueEntry s d)
  | .faultReply t acc unit f => landRoom s t (faultEntry s t acc unit f)
  | .commandFault id _ _ => faultReady s id
  | .copyPacketWrite p => (match p.port with
    | some (port, ctx, _) => p.written || p.runs.all (fun r => match spotOf s ctx Config.cores r.dst true false with
        | .ok (.at_ k _) => lineTurn s (portAccess (s.ctxD ctx) (portAgent port ctx) .write r.dst r.n 0 .none) k
        | _ => true)
    | none => (s.started? p.cmd).all (fun x => writeTurn s x.2 p))
  | .huskRelease die slot => ((s.husk die).slot? slot).all (fun x => huskTurn s die x.ctx .write
      ((List.range (outLines x.desc)).map (fun i => (dscAt x.desc 0x40).toNat + 128 * i)))
  | .guardReply rep => (match rep.req.who with
    | .thread t => !dumping s t.ctx (TRef.cc t)
    | _ => true)
  | .evictionRequest ctx core _ => !dumping s ctx core
  | .huskOpen r => !dumping s r.t.ctx (TRef.cc r.t) && (match r.ask with
    | .opening => !(s.ctxD r.t.ctx).logFull && (s.thread? r.t).all (fun t => loggedSlotFree s r t.icount
        && (r.parks || s.answerTurn r.t.ctx r.t.agent t.icount (canTake s r.t.ctx r.t.agent (.husk r.die))))
    | .closing h => (handleSlot s r.die h).all (fun x => x.st != .open_ || (replaySub s x.ctx r.die x.idx).isNone)
    | .status _ => !(s.ctxD r.t.ctx).logFull)
  | .threadStart ctx l n => startReady s earlier ctx l n
  | .resumption ctx core _ => resumeReady s ctx core
  | .addressComparatorStop r _ =>
    (match s.thread? r with
      | some t => t.run != .waiting .reply
      | none => true)
  | _ => true

/-- Entries of a list with what stands before them. -/
def withEarlier {α : Type} : List α → List α → List (List α × Nat × α)
  | _, [] => []
  | pre, x :: l => (pre, pre.length, x) :: withEarlier (pre ++ [x]) l

/-- Whether a message from outside can be looked at: what comes by Ethernet only once the module is up and a port has a
link (R386, R387). -/
def inputReady (s : State) (i : Instr) : Bool :=
  match i with
  | .pldmSensorRead _ | .pldmFirmwareUpdate _ _ | .spdmGetMeasurements _ | .sidebandLockRequest | .sidebandReset
  | .sidebandStepClear _ | .portLinkChange _ _ | .externalTrigger | .softError _ _ | .droopAlarm => true
  | _ => s.mgmt.step == 8 && !s.mgmt.ports.isEmpty

/-- Whether an operation that the rate cap keeps may go on now (R265). -/
def capOver (s : State) (i : Instr) : Bool :=
  match i with
  | .guardRequestAtHome r => s.capOk r.ctx true r.idx
  | .barrierArrivalAtAgent _ uid level path _ => (s.launch? uid).all (fun l => s.phaseCapOk l (path.take (level + 1)))
  | _ => true
/-- Whether a thread waits for the cap of a guard that it holds, and the cap now lets it go on. -/
def capWaiter (s : State) (t : Thread) : Bool :=
  t.run == .waiting .fence && t.pend.isEmpty && cmdsQuiet s t && t.holds.any (fun h => h.excl && s.capOk t.ref.ctx true h.guard)

/-- Resident contexts of a core in slot-table order (R177, R285). -/
def slotOrder (c : Core) : List Nat :=
  let named := (c.slotTable.filter (fun e => bit e.toNat 3)).filterMap (fun e =>
    (c.residents.find? (fun r => r.slot == bits e.toNat 1 0)).map (·.ctx))
  (named ++ c.residents.map (·.ctx)).eraseDups

/-- What a core's units may do now: leave messages, start commands, accept again, start a buffered message. -/
def coreMovers (s : State) (c : Core) : List Instr :=
  (if c.outbox.isEmpty || c.refusing then [] else [.messageLeftCore c.id])
    ++ (if c.refusing || s.threads.any (fun t => t.parkedOn (.router c.id)) then [.routerAccept c.id] else [])
    ++ ((slotOrder c).find? (fun x => (matrixHead s c.id x).isSome)).toList.map (Instr.matrixCommandStart c.id)
    ++ (c.tq.filter (fun q => (transferHead s c.id q.ctx).isSome)).map (fun q => .transferCommandStart c.id q.ctx)
    ++ ((withEarlier [] c.inbox).filter (fun x => !x.1.any (fun y => y.ctx == x.2.2.ctx && y.reply == x.2.2.reply)
        && !evicting s x.2.2.ctx x.2.2.core && (msgTid s x.2.2).isSome)).map (fun x => .messageStartFromBuffer c.id x.2.1)

/-- What a started command may do now by itself. -/
def startedMover (s : State) (p : CmdPlace) (x : Started) : Option Instr :=
  if p.q.faulted.contains x.cmd.id then none
  else match x.cmd.op with
    | .cpy _ _ _ _ _ _ _ _ => 
      if cmdOutstanding s x.cmd.id || !readTurn s x || !banksFor s (.copyPieceAtStreamer x.cmd.id) then none
      else some (.copyPieceAtStreamer x.cmd.id)
    | .mma _ _ _ _ => if x.pos ≤ s.cycle then some (.mmaComplete x.cmd.id) else none
    | .drnm _ _ _ _ _ a _ =>
      if x.stage = 1 ∧ rowRoom s (rowMsg x a) then some (.drnmRow x.cmd.id) else none
    | _ => none

/-- A line of each die whose lines with metadata have all been visited, where there are any: its ager's round has nothing more
to visit. -/
def idleAgers (s : State) : List Nat :=
  ((List.range 4).filter (fun d => (stampedOn s d).all (s.ager d).seen.contains)).map (fun d => (s.ager d).seen.headD (1024 * d))

/-- The events that may happen now beside what is on its way. -/
def otherMovers (s : State) : List Instr :=
  (s.cores.map (coreMovers s)).flatten
    ++ (cmdPlaces s).flatMap (fun p => p.q.started.filterMap (startedMover s p))
    ++ s.husks.flatMap (fun h => (h.slots.filter (mayNotify s h.die)).map (fun x => .huskNotify h.die x.idx))
    ++ s.ctxs.flatMap (fun c => (c.queues.filter (rootReady s c)).map (fun q => .launchRootStart c.id q.id))
    ++ ((withEarlier [] s.capped).filter (fun x => capOver s x.2.2)).map (fun x => .clockCapRelease x.2.1)
    ++ (if s.threads.any (capWaiter s) then [.clockCapRelease s.capped.length] else [])
    ++ (unvisited s).map .agerVisit
    ++ (if s.ctxs.any (fun c => !c.retired.isEmpty) then (idleAgers s).map .agerVisit else [])
    ++ (s.images.filter (fun im => !im.complete && imageReady s im.ctx im.core)).map (fun im => .imageComplete im.ctx im.core)

/-- Whether a thread has a trap to take in place of its next instruction, wherever it waits (R300). -/
def trapDue (s : State) (t : Thread) : Bool := takesTraps t && dueFault s t != .none

/-- Whether a thread may issue in this cycle (R286, R90, R358): ready or with a trap to take (R300), eight cycles after its last
issue, on a core that is not stopping for eviction, and not letting another go first. -/
def mayIssue (s : State) (t : Thread) : Bool :=
  (t.isReady || trapDue s t) && decide (t.nextIssue ≤ s.cycle) && !landsIn s t.ref
    && !t.yielded.any (fun r => (s.thread? r).any (fun x => x.isReady && !landsIn s r))

/-- What a thread's turn is (R73, R74, R374). -/
inductive Turn where
  | run (i : Instr)
  | fetching
  deriving DecidableEq, Repr

/-- The decoded instruction of a word, or the row of a word that is none (R50, R51). -/
def decoded (w : Word) : Instr :=
  match decodeWord w with
  | .ok i => i
  | .error r => .illegalInstruction r

/-- What stands at a thread's PC: the segment bound's trap, a fetch, the instruction. -/
def fetchTurn (s : State) (t : Thread) : Turn :=
  if t.bySeq ∧ t.pc = t.fam.bound then .run .kend
  else match fetchAt s t with
    | .miss => .fetching
    | .fault => .run (.takeTrap t.ref)
    | .word w => .run (decoded w)
/-- What a thread whose turn it is does: the trap that is due, a comparator's stop, what stands at its PC. -/
def turnOf (s : State) (t : Thread) : Turn :=
  if trapDue s t then .run (.takeTrap t.ref)
  else match comparatorHit s t with
    | some n => .run (.addressComparatorStop t.ref n)
    | none => fetchTurn s t

/-- Whether a row is an instruction of a thread, which counts as issued: the codes of R49 and a word that is none. -/
def isIssued (i : Instr) : Bool :=
  match i with
  | .illegalInstruction _ => true
  | i => (encode i).isSome

/-- The energy of bytes read or written where they stand (R390): of a scratchpad by the word, else of HBM, where they hit or miss
in L2 as the draw says (R370; log entry 23); that the fabric brings them is counted apart. -/
def chargeAt (ctx k n : Nat) (s : State) : State :=
  if (scratchCore k).isSome then s.charge ctx (dieOfKey k) 3 (Config.energyWeight 3 0 * ((n + 3) / 4))
  else (s.count (2000 + sliceOf k) (s.oracle.fail % 2)).charge ctx (dieOfKey k) 4 (Config.energyWeight 4 s.draws)
/-- The energy of pieces of memory at some addresses of a context (R390). -/
def chargeRuns (ctx cc : Nat) (write : Bool) (l : List (Nat × Nat)) (s : State) : State :=
  l.foldl (fun s r => match spotOf s ctx cc r.1 write false with
    | .ok (.at_ k _) => chargeAt ctx k r.2 s
    | _ => s) s
/-- Lanes that the mask of a vector word selects (R157, R158, R390). -/
def lanesSelected (t : Thread) (w : Word) (op : Nat) : Nat :=
  let m := if op < 0x67 then fld w 27 25 else fld w 18 16
  match t.getK (Fin.ofNat 8 m) with
  | .full k => ((List.range 32).filter (bit k.toNat)).length
  | _ => 0

/-- An issued instruction counted for its resident slot (R370), with its energy (R390): scalar and control, or vector by
lanes selected. -/
def chargeIssue (s : State) (t : Thread) (i : Instr) : State :=
  let mc := s.homeOf t.ref
  let s := s.updCore mc (fun c =>
    let n := Fin.ofNat 4 (((c.resident? t.ref.ctx).map (·.slot)).getD 0)
    { c with issued := c.issued.set n (c.issued.get n + 1) })
  let w := (encode i).getD 0
  let op := fld w 63 56
  if 0x60 ≤ op ∧ op < 0xA0 then s.charge t.ref.ctx (dieOf mc) 1 (Config.energyWeight 1 (lanesSelected t w op))
  else s.charge t.ref.ctx (dieOf mc) 0 (Config.energyWeight 0 op)

/-- The loads that an instruction waits for in place: addresses and bytes (R81, R82, R94, R226). -/
def waitedLoads (s : State) (t : Thread) (i : Instr) : List (Nat × Nat) :=
  let val (o : Opd) : Word := match srcW s t o with
    | .ok a => a
    | .error _ => 0
  match i with
  | .calli f => [((val f.A + ((val f.B + f.fn.setWidth 64) <<< 3)).toNat, 8)]
  | .ret _ => if t.ras.isEmpty then [((val (.g 15)).toNat, 8)] else []
  | .hopen f => [((val f.A).toNat, 128)]
  | .eret _ | .rply _ => if t.h then [(t.trp.toNat, 56)] else []
  | _ => []

/-- A thread takes its turn on its core (R286, R287, R90): the issue slot is its own, the pointer passes it, and those
that let it go first need not wait for it any longer. -/
def takeTurn (s : State) (c : Core) (t : Thread) : State :=
  let s := s.setCore { c with
    lastIssue := some s.cycle
    residents := c.residents.map (fun r => if r.ctx == t.ref.ctx then { r with ptr := (TRef.tid t.ref + 1) % 16 } else r) }
  { s with
    cur := t.ref
    threads := s.threads.map (fun x =>
      if x.ref == t.ref then { x with nextIssue := s.cycle + 8, yielded := [] }
      else { x with yielded := x.yielded.filter (· != t.ref) }) }

/-- What a step does before a row of a thread's turn: its energy, and that of the loads it waits for (R390). -/
def beforeIssue (s : State) (c : Core) (t : Thread) (i : Instr) : State :=
  let s := takeTurn s c t
  if isIssued i then chargeIssue (chargeRuns t.ref.ctx (TRef.cc t.ref) false (waitedLoads s t i) s) t i else s

/-- The accesses that an instruction has put on their way: what stands behind those of the state before it. -/
def newAccesses (s0 s : State) : List Access := (s.flight.drop s0.flight.length).filterMap accessOf
/-- The queue operation on its own core that an instruction makes: offset and kind; one that creates or destroys a queue counts as
one of its descriptor. -/
def ownQueueOp (s : State) (t : Thread) (i : Instr) : Option (Nat × QKind) :=
  let at_ (o : Opd) (k : QKind) : Option (Nat × QKind) := match srcW s t o with
    | .error _ => none
    | .ok a => match queueAt t a with
      | .ok (cc, off) => if cc = TRef.cc t.ref then some (off, k) else none
      | .error _ => none
  match i with
  | .qpush f => at_ f.A (.push 0)
  | .qpop f => at_ f.A .pop
  | .qlen f | .qinit f => at_ f.A .len
  | _ => none
/-- Whether a thread waits after a step. -/
def waitsIn (s : State) (r : TRef) : Bool :=
  (s.thread? r).any (fun u => match u.run with
    | .waiting _ => true
    | _ => false)
/-- The scratchpad words that an instruction needs (R254), from the state before it and the one after it: those of the accesses it
makes, and once it has done with waiting those of the loads that it waits for in place and of a queue of its core. -/
def issuedPad (s0 : State) (r : TRef) (s : State) : List (Nat × Nat) :=
  ((newAccesses s0 s).flatMap (accessPad s0)).filter (·.1 == s0.homeOf r) ++ (match s0.thread? r with
    | none => []
    | some t =>
      if waitsIn s r then []
      else match turnOf s0 t with
        | .fetching => []
        | .run i =>
          runsPad s0 r.ctx (TRef.cc r) false (waitedLoads s0 t i) ++ (match ownQueueOp s0 t i with
            | some (off, k) => queuePad s0 r.ctx (TRef.cc r) off k ++ queuePad s r.ctx (TRef.cc r) off .len
            | none => []))
/-- The scratchpad words of its core that a thread's turn presents (R254). -/
def presented (s : State) (c : Core) (t : Thread) : List (Nat × Nat) :=
  match turnOf s t with
  | .fetching => []
  | .run i => match exec i (beforeIssue s c t i) with
    | .next s' => (issuedPad s t.ref s').filter (·.1 == c.id)
    | _ => []
/-- Whether a thread's turn wins every bank it needs (R254, R287). -/
def winsBanks (s : State) (c : Core) (t : Thread) : Bool :=
  c.banks.all (fun b => decide (b ≤ s.cycle)) || s.banksFree (presented s c t)

/-- The thread of a context on a core that issues next, in rotation order: a thread that loses a bank is passed over
(R287). -/
def nextOf (s : State) (c : Core) (r : Resident) : Option Thread :=
  let ok := s.threads.filter (fun t => t.ref.ctx == r.ctx && s.homeOf t.ref == c.id && mayIssue s t)
  if ok.isEmpty then none
  else ((List.range 16).filterMap (fun i => ok.find? (fun t => TRef.tid t.ref == (r.ptr + i) % 16))).find? (winsBanks s c)

/-- The search of R287 from slot-table entry f on. -/
def slotSearch (s : State) (c : Core) (e : Nat) : Nat → Nat → Option Thread
  | 0, _ => none
  | n + 1, i =>
    let x := (c.slotTable.getD ((e + i) % 64) 0).toNat
    let t := if bit x 3 then (c.residents.find? (fun r => r.slot == bits x 1 0)).bind (nextOf s c) else none
    match t with
    | some t => some t
    | none =>
      if i = 0 ∧ bit x 3 ∧ bit x 2 ∧ (c.residents.any (fun r => r.slot == bits x 1 0)) then none else slotSearch s c e n (i + 1)

/-- The thread that a core issues in this cycle (R287): one at most; in a droop window only in even cycles (R389). -/
def issues (s : State) (c : Core) : Option Thread :=
  if c.residents.isEmpty || c.lastIssue == some s.cycle
    || (s.droopEnd.any (fun e => decide (s.cycle < e)) && s.cycle % 2 == 1) then none
  else slotSearch s c (s.cycle % 64) 64 0

/-- A thread whose fetch has missed leaves the rotation until the line arrives (R73). -/
def startFetch (s : State) (t : Thread) : State :=
  (s.updThread t.ref (fun t => { t with run := .waiting .fetch })).post [.fetchLineArrival t.ref]

/-- The movers among messages from outside. -/
def inputMovers (s : State) : List Mover :=
  ((withEarlier [] s.inputs).filter (fun x => inputReady s x.2.2)).map (fun x =>
    ⟨x.2.2, fun s => { s with inputs := s.inputs.eraseIdx x.2.1 }⟩)
/-- The movers among what is on its way. -/
def flightMovers (s : State) : List Mover :=
  ((withEarlier [] s.flight).filter (fun x => flightReady s x.1 x.2.2)).map (fun x => .flight x.2.1 x.2.2)

/-- A thread whose fence wait has ended with no trap to take: its instruction goes on (R101). -/
def resuming (s : State) : Option Thread :=
  s.threads.find? (fun t => t.run == .waiting .over && !landsIn s t.ref && dueFault s t == .none)

/-- The threads that issue in this cycle: issues come before every event of a cycle (R18, R287). -/
def issuing (s : State) : List (Core × Thread) :=
  if s.stage = 0 then s.cores.filterMap (fun c => (issues s c).map (fun t => (c, t))) else []
/-- The events that may happen now. -/
def events (s : State) : List Mover := inputMovers s ++ flightMovers s ++ (otherMovers s).map .plain
/-- The one of a list that the draw picks; agents are otherwise unordered (log entry 1). -/
def pickOf {α : Type} (s : State) (l : List α) : Option α := l[s.oracle.pick % l.length]?

/-- The energy of the packets that bring something to a die (R390). -/
def chargePacket (ctx die : Nat) (s : State) : State := s.charge ctx die 5 (Config.energyWeight 5 s.draws)
/-- The context and the die of what the fabric has brought: messages, deposits, requests to guards, queues, barriers and
counters, wakes, and what goes to a Husk (R390). -/
def fabricTo (s : State) (i : Instr) : Option (Nat × Nat) :=
  let core (ctx cc : Nat) : Option (Nat × Nat) := some (ctx, dieOf (s.mcOf ctx cc))
  match i with
  | .messageArrival m => core m.ctx m.core
  | .pipArrival p => core p.ctx (pipMsg p).core
  | .untaggedDeposit d => core d.ctx (d.agent / 16)
  | .guardRequestAtHome r => some (r.ctx, dieOfKey ((s.ctxD r.ctx).gbase + 16 * r.idx))
  | .remoteQueueOp q => core q.t.ctx q.core
  | .barrierArrivalAtAgent ctx l lv path _ => core ctx (((s.launch? l).bind (fun x => barrierAgent x (path.take (lv + 1)))).getD 0)
  | .counterIncrement ctx cc _ | .wakeForward ctx _ cc _ => core ctx cc
  | .huskOpen r => some (r.t.ctx, r.die)
  | .huskArrival l => ((s.husk l.die).slot? l.slot).map (fun x => (x.ctx, l.die))
  | _ => none

/-- Bytes of Pod rows and scales that a load fills (R188). -/
def podBytes : CmdOp → Nat
  | .pld _ f mx _ _ => 32 * fmtRow f mx
  | .pldt _ f _ _ => 32 * fmtRow f false
  | _ => 0
/-- The energy of a copy's bytes that an Ethernet port carries from or to a remote page (R255, R390). -/
def chargeRemote (m : Nat × Nat × Bool × List (Nat × Nat)) (s : State) : State :=
  m.2.2.2.foldl (fun s r => match spotOf s m.1 m.2.1 r.1 m.2.2.1 false with
    | .ok (.remote _) => s.charge m.1 0 5 (r.2 * Config.energyWeight 5 (2 ^ 64))
    | _ => s) s

/-- The energy of an event of the device (R390). How many packets and hops cross the fabric, and which lines come from HBM,
is free (log entry 22). -/
def chargeEvent (s : State) (i : Instr) : State :=
  let cmd (id : Nat) (f : CmdPlace → Started → State) : State := match s.started? id with
    | some (p, x) => f p x
    | none => s
  let husk (die slot : Nat) : State := match (s.husk die).slot? slot with
    | some x => (chargePacket x.ctx die s).charge x.ctx die 4 (Config.energyWeight 4 s.draws)
    | none => s
  match i with
  | .accessAtHome a => (match placeOf s a with
      | none => s
      | some (k, _) => chargeAt a.ctx k a.size (chargePacket a.ctx (dieOfKey k) s))
  | .mmaComplete id => cmd id (fun p x => match x.cmd.op with
      | .mma _ pa _ _ => s.charge p.q.ctx (dieOf p.mc) 2 (Config.energyWeight 2 ((((s.core p.mc).pod pa).fmt.map (·.1)).getD 0))
      | _ => s)
  | .podLoadComplete id => cmd id (fun p x => s.charge p.q.ctx (dieOf p.mc) 3 (Config.energyWeight 3 1 * podBytes x.cmd.op))
  | .drnmRow id => cmd id (fun p _ => s.charge p.q.ctx (dieOf p.mc) 2 (Config.energyWeight 2 16))
  | .drainComplete id => cmd id (fun p _ => s.charge p.q.ctx (dieOf p.mc) 2 (32 * Config.energyWeight 2 16))
  | .copyPieceAtStreamer _ => (copyMoves s i).elim s (fun m => chargeRuns m.1 m.2.1 m.2.2.1 m.2.2.2 (chargeRemote m s))
  | .copyPacketWrite p => (copyMoves s i).elim s (fun m =>
      chargePacket m.1 (if p.port.isSome then 0 else dieOf (s.mcOf m.1 m.2.1)) (chargeRuns m.1 m.2.1 m.2.2.1 m.2.2.2 (chargeRemote m s)))
  | .huskRelease die slot => husk die slot
  | .huskDeadline die slot => ((s.husk die).slot? slot).elim s (fun x =>
      chargeRuns x.ctx Config.cores false ((deadlineLines x).map (fun va => (va, 128))) s)
  | .huskNotify die slot => ((s.husk die).slot? slot).elim s (fun x =>
      if dscNk x.desc then s else s.charge x.ctx die 3 (4 * Config.energyWeight 3 0))
  | .pageWalk a => s.charge a.ctx (dieOf (s.mcOf a.ctx a.core)) 4 (3 * Config.energyWeight 4 s.draws)
  | .fetchLineArrival r => (s.thread? r).elim s (fun t => chargeRuns r.ctx (TRef.cc r) false [(t.pc.toNat / 128 * 128, 128)] s)
  | .launchRootStart ctx queue => (s.ctx? ctx).elim s (fun c => match (c.hq queue).posted with
      | (rec, _) :: _ => chargeRuns ctx (rootCore c (c.hq queue)) false [(rec, 128)] s
      | [] => s)
  | .linkupd h entry _ => (s.ctx? h.ctx).elim s (fun c =>
      if linkReady s c (c.hq h.queue) entry then chargeRuns c.id Config.cores true [((linkStore s c entry 0).va, 8)] s else s)
  | i => match fabricTo s i with
    | some (ctx, die) =>
      let s := chargePacket ctx die s
      (match i with
        | .remoteQueueOp q => s.charge q.t.ctx die 3 (4 * Config.energyWeight 3 0)
        | _ => s)
    | none => s

/-- The place of bytes at an address of a context that the device itself writes, as (context, place, bytes). -/
def ownPlace (s : State) (ctx cc va n : Nat) : Option (Nat × Nat × Nat) :=
  match spotOf s ctx cc va true false with
  | .ok (.at_ k _) => some (ctx, k, n)
  | _ => none
/-- Records that a step has written of its threads' traps (R298, R299). -/
def trapWrites (s0 s : State) : List (Nat × Nat × Nat) :=
  s.threads.filterMap (fun t => (s0.thread? t.ref).bind (fun u =>
    if (t.h && !u.h) || (t.run == .halted && u.run != .halted) then ownPlace s t.ref.ctx (TRef.cc t.ref) (frameOf s t.ref) 64 else none))
/-- Fields of launch records and exit words that a step has written (R274, R283). -/
def launchWrites (s0 s : State) : List (Nat × Nat × Nat) :=
  if s.launches = s0.launches then []
  else s.launches.flatMap (fun l =>
    let was := s0.launch? l.uid
    let field := if !l.root && was.all (fun w => w.exits.length != l.exits.length) then (ownPlace s l.ctx 0 (l.record + 0xD0) 24).toList else []
    let words := if l.done && l.exw != 0 && was.any (!·.done) then (ownPlace s l.ctx 0 l.exw (8 * l.exits.length)).toList else []
    field ++ words)
/-- Spill records that a step has written (R268). -/
def spillWrites (s0 s : State) : List (Nat × Nat × Nat) :=
  s.held.filterMap (fun h => if s0.held.any (fun x => x.key == h.key && x.spilled == h.spilled) then none
    else h.spilled.map (fun p => (h.ctx, p, 256)))
/-- Race and trace records that a step has placed in a die's rings (R312, R376, R391); other records name no context. -/
def ringWrites (s0 s : State) : List (Nat × Nat × Nat) :=
  s0.rings.flatMap (fun r =>
    let n := ((s.ring? r.kind r.die).elim r.tail (·.tail) + 2 ^ 32 - r.tail) % 2 ^ 32
    let who (ws : List Word) : Option Nat :=
      if r.kind = 0 then some (fld (ws.getD 0 0) 47 32) else if r.kind = 2 then some (fld (ws.getD 1 0) 63 48) else none
    ((ringOrder r.coll).take n).filterMap (fun e =>
      (who e.2.2.1).map (fun c => (c, r.base + r.tail % 2 ^ r.k * ringSize r.kind, ringSize r.kind))))
/-- The lines of launch records that an instruction reads, and those that it writes beside a launch's own (R219, R220, R221, R274,
R275), once it has done with waiting: `trig` its word, a refused `lnch` or `wake` the record's STAT. -/
def recordLines (s0 : State) (r : TRef) (s : State) : List (Nat × Nat × Nat) :=
  let line (va n : Nat) : List (Nat × Nat × Nat) := match spotOf s0 r.ctx (TRef.cc r) va false false with
    | .ok (.at_ k _) => [(r.ctx, k, n)]
    | _ => []
  match s0.thread? r with
  | none => []
  | some t =>
    let val (o : Opd) : Nat := match srcW s0 t o with
      | .ok a => a.toNat
      | .error _ => 1
    let trapped := (s.thread? r).all (fun u => (u.h && !t.h) || u.run == .halted)
    let launching (a : Nat) (refused : Bool) : List (Nat × Nat × Nat) :=
      if a % 256 != 0 then [] else line a 256 ++ (if refused then line (a + 0xD8) 8 else [])
    match turnOf s0 t with
    | .fetching => []
    | .run i =>
      if waitsIn s r && s.launches.length = s0.launches.length then []
      else match i with
        | .trig f =>
          let base := t.fam.lrp.toNat
          line (base + 0xD0) 8 ++ (if bit (s0.devWord r.ctx (base + 0xD0)).toNat f.lv then [] else line (base + 0xD0) 8)
        | .wdep f =>
          let w := s0.devWord r.ctx (t.fam.lrp.toNat + 0x50 + 8 * f.lv)
          line (t.fam.lrp.toNat + 0x50 + 8 * f.lv) 8
            ++ (if bit w.toNat 7 then line (canonVa (TRef.cc r) (fld w 47 8 * 256) + 0xD0) 16 else [])
        | .lnch f =>
          let a := val f.A
          let asked := trapped && (!f.flag 0 || ownsCounter s0 r.ctx (s0.homeOf r) f.cn)
          if trapped && !asked then [] else launching a (asked && (s.ctxD r.ctx).refused.contains (canonVa (TRef.cc r) a))
        | .wake f =>
          if t.wakeRight.isNone || (s.thread? r).any (·.wakeRight.isSome) then []
          else launching (val f.A) (s.launches.length == s0.launches.length)
        | _ => []
/-- The lines of a core image that an event writes or restores (R293, R296). -/
def imageLines (s0 s : State) : Instr → List (Nat × Nat × Nat)
  | .imageComplete ctx core =>
    if (s0.imageAny? ctx core).any (!·.complete) && (s.imageAny? ctx core).all (·.complete) then
      (s0.imageAny? ctx core).toList.map (fun im => (ctx, im.base, 0x100000)) else []
  | .resumption ctx core _ =>
    if (s.image? ctx core).isNone then (s0.image? ctx core).toList.map (fun im => (ctx, im.base, 0x100000)) else []
  | _ => []
/-- The energy of lines that the device itself writes (R390): those of its records and images, brought by the fabric. -/
def chargeWrites (l : List (Nat × Nat × Nat)) (s : State) : State :=
  l.foldl (fun s w =>
    let (ctx, k, n) := w
    let s := chargePacket ctx (dieOfKey k) s
    if (scratchCore k).isSome then s.charge ctx (dieOfKey k) 3 (Config.energyWeight 3 0 * ((n + 3) / 4))
    else s.charge ctx (dieOfKey k) 4 ((n + 127) / 128 * Config.energyWeight 4 s.draws)) s
/-- The records that a step has written charged (R390). -/
def chargeRecords (s0 s : State) : State :=
  chargeWrites (trapWrites s0 s ++ launchWrites s0 s ++ spillWrites s0 s ++ ringWrites s0 s) s

/-- Bytes of the operands that follow the header of a host message (R380, R382): 8 for each operand past the two that the header
holds, 32 for the entries of SLOTTBL, and a bit for each core of a core set (DESIGN CHOICE, log entry 22). -/
def operandBytes : Instr → Nat
  | .ctxnew _ _ _ _ _ _ _ _ => 32
  | .slottbl _ _ _ => 32
  | .gscope _ _ _ _ _ _ | .ring _ _ _ _ _ _ | .reside _ _ _ _ _ _ => 24
  | .remote _ _ _ _ _ => 16
  | .qstub _ _ _ _ | .thrres _ _ _ _ | .hgacq _ _ _ _ | .fwupd _ _ _ _ => 8
  | .preempt _ _ _ | .resume _ _ _ => 192
  | _ => 0
/-- The header of a host message, as it says whose it is (R380). -/
def hostHeader : Instr → Option Hdr
  | .launch h _ | .linkupd h _ _ | .linkacq h | .ctxnew h _ _ _ _ _ _ _ | .ctxdel h | .ptroot h _ | .inval h _ _
  | .coremap h _ _ | .reside h _ _ _ _ _ | .slottbl h _ _ | .gscope h _ _ _ _ _ | .qstub h _ _ _ | .ring h _ _ _ _ _
  | .spill h _ | .remote h _ _ _ _ | .key h _ _ | .cntr h _ _ | .portown h _ _ | .hceil h _ _ | .preempt h _ _
  | .resume h _ _ | .thrres h _ _ _ | .thrend h _ _ | .hgacq h _ _ _ | .hgrel h _ _ | .debugDbg h _ | .debugAddrm h _ _
  | .debugStopAll h | .debugTraceMask h _ | .snapControl h _ | .snapHostTrigger h | .snapPulsep h _ | .replay h _ _
  | .droop h _ | .mlock h | .mreset h | .fwupd h _ _ _ | .stepclr h _ | .sensor h _ | .liveDump h _
  | .unknownOperation h _ => some h
  | _ => none
/-- Bytes of a message that comes by an Ethernet port, with the context that they are charged to: a host message's header of 32
with its operands; what a read brings back is counted with it (R380, R381, R390; log entry 22). -/
def etherBytes (s : State) (i : Instr) : Option (Nat × Nat) :=
  match i with
  | .rmaWrite ctx _ _ len _ _ | .rmaRead ctx _ _ len _ => some (ctx, len)
  | .huskArrival l => if l.gen.isNone then ((s.husk l.die).slot? l.slot).map (fun x => (x.ctx, 128)) else none
  | .copyPacketWrite p => p.port.map (fun x => (x.2.1, (p.runs.map (·.n)).sum))
  | i => (hostHeader i).map (fun h => (h.ctx, 32 + operandBytes i))

/-- The energy of Ethernet bytes (R390): of the message that a step took, if it did, and of the completions and events that it
sent. -/
def chargeEther (s0 : State) (i : Option Instr) (s : State) : State :=
  let bytes := (if s.waits then [] else (i.bind (etherBytes s0)).toList)
    ++ (s.done.drop s0.done.length).map (fun c => (c.h.ctx, 16))
    ++ (s.events.drop s0.events.length).filterMap (fun e => e.ctx.map (fun c => (c, 32)))
  bytes.foldl (fun s b => s.charge b.1 0 5 (b.2 * Config.energyWeight 5 (2 ^ 64))) s

/-- What a step does before an event: its energy, its banks, and the part of the cycle that it belongs to. -/
def beforeEvent (s : State) (i : Instr) : State :=
  let s := (chargeEvent s i).claimBanks (eventPad s i)
  { s with stage := Nat.max s.stage (partOf i) }

/-- A thread that a step has parked is counted on its core (R370). -/
def countPark (s0 s : State) (t : Thread) : State :=
  let was := match (s0.thread? t.ref).map (·.run) with
    | some (.parked _ _) => true
    | _ => false
  match t.run with
  | .parked _ _ =>
    if was then s
    else
      let mc := s.homeOf t.ref
      s.updCore mc (fun c =>
        let i := Fin.ofNat 4 (((c.resident? t.ref.ctx).map (·.slot)).getD 0)
        { c with parks := c.parks.set i (c.parks.get i + 1) })
  | _ => s

/-- The words of a queue of its own core that an instruction has changed, charged (R390). -/
def chargeQueue (s0 s : State) (r : TRef) : State :=
  let mc := s0.homeOf r
  if (s0.core mc).queues = (s.core mc).queues then s else s.charge r.ctx (dieOf mc) 3 (4 * Config.energyWeight 3 0)

/-- What may come from outside (R380, R381, R385, R227, R270, R371, R389): the messages of the host, of other modules and
of the side band, and what befalls the module. -/
def fromOutside : Instr → Bool
  | .huskArrival l => l.gen.isNone
  | .externalTrigger | .softError _ _ | .droopAlarm => true
  | .pldmSensorRead _ | .pldmFirmwareUpdate _ _ | .spdmGetMeasurements _ | .sidebandLockRequest => true
  | .rmaWrite _ _ _ _ _ _ | .rmaRead _ _ _ _ _ | .unsupportedOperation _ _ => true
  | .launch _ _ | .linkupd _ _ _ | .linkacq _ | .ctxnew _ _ _ _ _ _ _ _ | .ctxdel _ | .ptroot _ _ | .inval _ _ _
  | .coremap _ _ _ | .reside _ _ _ _ _ _ | .slottbl _ _ _ | .gscope _ _ _ _ _ _ | .qstub _ _ _ _ | .ring _ _ _ _ _ _
  | .spill _ _ | .remote _ _ _ _ _ | .key _ _ _ | .cntr _ _ _ | .portown _ _ _ | .hceil _ _ _ | .preempt _ _ _
  | .resume _ _ _ | .thrres _ _ _ _ | .thrend _ _ _ | .hgacq _ _ _ _ | .hgrel _ _ _ | .debugDbg _ _ | .debugAddrm _ _ _
  | .debugStopAll _ | .debugTraceMask _ _ | .snapControl _ _ | .snapHostTrigger _ | .snapPulsep _ _ | .replay _ _ _
  | .droop _ _ | .mlock _ | .mreset _ | .fwupd _ _ _ _ | .stepclr _ _ | .sensor _ _ | .liveDump _ _ => true
  | .unknownOperation _ op => !opCodes.contains op
  | .copyPacketWrite p => p.port.isSome && !p.written
  | .sidebandReset | .sidebandStepClear _ | .portLinkChange _ _ | .hostFreesMemory _ _ | .snapshotTrigger .ext => true
  | _ => false

/-- Waiting completions that are due sent (R383); the next draw of the open choices, and what comes from outside with it
(log entry 1). -/
def redraw (s : State) : State :=
  let s := if s.defers.isEmpty then s else s.settle
  let o := Config.oracle s.draws
  { s with
    oracle := o
    draws := s.draws + 1
    inputs := s.inputs ++ (o.input.toList.filter fromOutside) }

/-- The message just looked at put back among the inputs when it has to wait (R380). -/
def putBack (i : Instr) (s : State) : State := if s.waits then { s with inputs := s.inputs ++ [i], waits := false } else s

/-- What a step has sent, from a place of the list on, held until the race records that it made have their places (R310). -/
def holdPosted (s0 : State) (n : Nat) (s : State) : State :=
  let fresh (r : Ring) : Bool := r.kind == 0 && (s0.ring? 0 r.die).any (fun x => decide (x.coll.length < r.coll.length))
  match s.rings.find? fresh, s.flight.drop n with
  | none, _ | _, [] => s
  | some r, posted =>
    { s with
      flight := s.flight.take n
      rings := s.rings.map (fun x => if x.kind == 0 && x.die == r.die then
        { x with coll := x.coll.modify (x.coll.length - 1) (fun e => (e.1, e.2.1, e.2.2.1, e.2.2.2 ++ posted)) } else x) }

/-- Whether a message comes by an Ethernet port, and by which; one that names none by the lowest with a link (R370; log entry
23). -/
def portOf (s : State) (i : Instr) : Option Nat :=
  match i with
  | .rmaWrite _ port _ _ _ _ | .rmaRead _ port _ _ _ => some (port % 16)
  | .copyPacketWrite p => if p.written then none else p.port.map (·.1 % 16)
  | .huskArrival l => if l.gen.isNone then some s.somePort else none
  | .pldmSensorRead _ | .pldmFirmwareUpdate _ _ | .spdmGetMeasurements _ | .sidebandLockRequest | .sidebandReset
  | .sidebandStepClear _ | .portLinkChange _ _ | .externalTrigger | .softError _ _ | .droopAlarm | .hostFreesMemory _ _
  | .snapshotTrigger _ => none
  | i => if fromOutside i then some s.somePort else none
/-- The frames of a step counted (R370): of the message that it took, if it did, and of the completions, events and responses
that it sent. -/
def countFrames (s0 : State) (i : Option Instr) (s : State) : State :=
  let out := (s.done.length - s0.done.length) + (s.events.length - s0.events.length) + (s.rmaOut.length - s0.rmaOut.length)
  let s := if out = 0 then s else s.countBy (5000 + s.somePort) 1 out
  match i.bind (portOf s0) with
  | some p => if s.waits then s else s.count (5000 + p) 0
  | none => s

/-- What a step does after an event: counts and energy, then the next draw. -/
def afterEvent (s0 : State) (i : Instr) (s : State) : State :=
  let s := match i with
    | .huskRelease _ _ => holdPosted s0 (s0.flight.length - 1) s
    | .huskDeadline _ _ => holdPosted s0 s0.flight.length s
    | _ => s
  let s := chargeWrites (imageLines s0 s i) (chargeEther s0 (some i) (chargeRecords s0 s))
  redraw (putBack i (s.threads.foldl (countPark s0) (countFrames s0 (some i) s)))
/-- A thread after its turn: it fetches anew, and no longer passes the comparators, unless the instruction still waits
(R374). -/
def turnOver (t : Thread) : Thread :=
  let waits := match t.run with
    | .waiting _ => true
    | _ => false
  { t with fetched := false, skipCmp := t.skipCmp && waits }
/-- What a step does after an instruction's issue. -/
def afterIssue (s0 : State) (r : TRef) (s : State) : State :=
  let s := chargeQueue s0 ((s.updThread r turnOver).claimBanks (issuedPad s0 r s)) r
  let s := countFrames s0 none (holdPosted s0 s0.flight.length s)
  let s := chargeEther s0 none (chargeWrites (recordLines s0 r s) (chargeRecords s0 s))
  redraw (s.threads.foldl (countPark s0) s)

end Sys2Proof.Machine
end

