-- ==== Sys2Proof/Machine/Place.lean ====
section
/-! DEFINITION. A state in which the next step issues a given word: it stands for what the host does before a program runs
(log entry 5). -/
namespace Sys2Proof.Machine
open Sys2Proof

/-- The context that the word is placed in. -/
def placedCtx (s : State) : Ctx := { s.ctxD 0 with id := 0, mode := 0x100, coreMap := [(0, 0)], dbg := false, replay := 0 }
/-- The core that the word is placed on: the context resident with the whole scratchpad and every thread context. -/
def placedCore : Core :=
  { Core.reset 0 with slotTable := List.replicate 64 8#4, residents := [⟨0, 0, 0xFFFF, 0, Config.scratchSize, 0⟩] }
/-- The thread that issues it: of no launch, its PC at the first byte of its core's scratchpad. -/
def placedThread (s : State) : Thread :=
  newThread s ⟨0, 0, 0⟩ ⟨none, [], 0, 0, 0, [], [], 0, false, 0, 0, 0, 0⟩ (BitVec.ofNat 64 ownBase) []
/-- The draw that picks the issue of a thread among those of the cycle. -/
def pickIssue (s : State) (r : TRef) : Oracle :=
  { Oracle.reset with pick := (issuing s).findIdx (fun a => a.2.ref == r) }
/-- The word in a PUBLISHED line at the first byte of core 0's scratchpad, and the thread that issues it next. -/
def placeWord (s : State) (w : Nat) : State :=
  let s : State := { s with
    stage := 0
    mgmt := { s.mgmt with step := 8 }
    droopEnd := none
    images := s.images.filter (fun i => i.ctx != 0)
    ctxs := placedCtx s :: s.ctxs.filter (fun c => c.id != 0)
    threads := placedThread s :: s.threads.filter (fun t => t.ref.ctx != 0)
    cores := placedCore :: s.cores.filter (fun c => c.id != 0) }
  let line := lineOf Config.scratchKey
  let s := ((s.store Config.scratchKey 8 0 w).setMd line (mkMd 3 false 0 0 0 0)).setPois line 0
  { s with oracle := pickIssue s ⟨0, 0, 0⟩ }

end Sys2Proof.Machine
end

