-- ==== Sys2Proof/Machine/Step.lean ====
section
/-! DEFINITION. One step of the module (log entry 1). -/
namespace Sys2Proof.Machine
open Sys2Proof

/-- Steps with a next state go on as `f` says; the others are passed on. -/
def Out.andThen (o : Host.Outcome State Fault Refusal) (f : State → State) : Host.Outcome State Fault Refusal :=
  match o with
  | .next s => .next (f s)
  | .fault r => .fault r
  | .refused r => .refused r

/-- An event runs. -/
def runEvent (m : Mover) (s : State) : Host.Outcome State Fault Refusal :=
  Out.andThen (exec m.i (beforeEvent (m.take s) m.i)) (afterEvent s m.i)

/-- A thread's turn runs: its instruction by `exec`, or its fetch goes out. -/
def runTurn (c : Core) (t : Thread) (s : State) : Host.Outcome State Fault Refusal :=
  match turnOf s t with
  | .fetching => .next (redraw (startFetch (takeTurn s c t) t))
  | .run i => Out.andThen (exec i (beforeIssue s c t i)) (afterIssue s t.ref)

/-- An instruction whose fence wait has ended runs: it has had its turn. -/
def runWaited (t : Thread) (s : State) : Host.Outcome State Fault Refusal :=
  let t := { t with run := .ready, fetched := true }
  let s : State := { s.setThread t with cur := t.ref }
  match fetchTurn s t with
  | .fetching => .next (redraw (startFetch s t))
  | .run i => Out.andThen (exec i s) (afterIssue s t.ref)

/-- What happens after the issues of a cycle: the first event that is due; then what the draw picks among all that may go, or
the end of the cycle. -/
def stepEvents (s : State) : Host.Outcome State Fault Refusal :=
  match dueEvent s with
  | some m => runEvent m s
  | none =>
    match (if s.oracle.elapse then none else pickOf s (events s)) with
    | some m => runEvent m s
    | none => .next (redraw (tick s))

/-- One step: what is due before the issues of this cycle; an issue; an instruction whose wait is over; then the events. -/
def step (s : State) : Host.Outcome State Fault Refusal :=
  match dueFirst s with
  | some i => runEvent (.plain i) s
  | none =>
    match pickOf s (issuing s) with
    | some (c, t) => runTurn c t s
    | none =>
      match resuming s with
      | some t => runWaited t s
      | none => stepEvents s

/-- A state with an instruction placed where `step` fetches next (log entry 5). Every instruction is one word. -/
def State.withFetchWord (s : State) (nbits w : Nat) : State := placeWord s (w % 2 ^ nbits)

end Sys2Proof.Machine
end

