-- ==== Sys2Proof/Safety.lean ====
section
/-! DEFINITION. What counts as a safe run, the invariant of the state, and the terms that claims about one instruction use: when
a thread goes on with it, and how it ends. -/
namespace Sys2Proof.Machine
open Sys2Proof

/-- The canonical form of every sparse table of the state: memory bytes, line metadata, poison marks, line keys and line
owners stand in rising order, without an entry that equals what an unlisted key reads as. -/
structure State.Canonical (s : State) : Prop where
  mem : Memory.wf s.mem = true
  lines : tabWf 0 0 s.lines = true
  poison : tabWf 0 0 s.poison = true
  lineKeys : tabWf 0 0 s.lineKeys = true
  owners : tabWf 0 0 s.owners = true

/-- No module core is listed twice, and none lists a queue of a context twice; a core image holds at most its own context's
queue of each kind (R28, R176, R202, R293). -/
structure State.Distinct (s : State) : Prop where
  cores : (s.cores.map (·.id)).Nodup
  matrix : ∀ c ∈ s.cores, (c.mq.map (·.ctx)).Nodup
  transfer : ∀ c ∈ s.cores, (c.tq.map (·.ctx)).Nodup
  images : ∀ im ∈ s.images, (∀ q ∈ im.state.mq ++ im.state.tq, q.ctx = im.ctx) ∧ im.state.mq.length ≤ 1 ∧ im.state.tq.length ≤ 1

/-- A step, instruction or event that the model does not stop at. -/
def Answers (o : Host.Outcome State Fault Refusal) : Prop := ∃ s, o = .next s

/-- A run of n steps is safe when no step of it ends in a fault or a refusal. -/
def SafeRun (n : Nat) (s : State) : Prop := Answers (Sys2Proof.core.run n s)

/-- The thread t issues an instruction with head h whose guard lets it go on: t is the current thread, the guard predicate is
FULL and its bit 0 differs from GN (R12), and t's context neither records nor replays (R377). -/
structure Goes (s : State) (t : Thread) (h : Head) : Prop where
  cur : s.curThread = some t
  guard : ∃ k, t.getK (Fin.ofNat 8 h.gk.toNat) = .full k ∧ k.getLsbD 0 = (h.gn == 0#1)
  plain : ∀ c ∈ s.ctxs, c.id = t.ref.ctx → c.replay = 0

/-- A state in which a thread has ended an instruction by OK and sequential advance; `outs` says that the instruction can
produce an outcome, so that NR and OC are cleared (R22, R76). -/
def ended (s : State) (r : TRef) (outs : Bool) : State := s.updThread r (fun t => counted (t.okNext outs))

/-- A state in which a thread has ended an instruction by OK and a taken transfer (R22, R76). -/
def jumped (s : State) (r : TRef) (outs : Bool) (target : Word) : State :=
  s.updThread r (fun t => counted (t.okJump outs target))

end Sys2Proof.Machine
end

