-- ==== Sys2Proof/Certificates/Slice0/Obligations.lean ====
section
/-! DEFINITION. The statements for the provers, with the tables and predicates that they are said in. -/
namespace Sys2Proof.Slice0
end Sys2Proof.Slice0
section
open Sys2Proof Sys2Proof.Machine Sys2Proof.Slice0

namespace Sys2Proof.Slice0

/-- R46: the operating width of a scalar word. -/
def width (f : RForm) : Nat := [64, 32, 16, 8].getD (f.fn.extractLsb' 10 2).toNat 64

/-- `add` and `sub` of R57 at width w, under SAT; `op` acts on integers. -/
def saturating (w sat : Nat) (op : Int → Int → Int) (a b : Word) : Word :=
  let sa := (a.setWidth w).toInt
  let sb := (b.setWidth w).toInt
  if sat = 1 then (BitVec.ofInt w (min (max (op sa sb) (-(2 ^ (w - 1)))) (2 ^ (w - 1) - 1))).signExtend 64
  else if sat = 2 then
    (BitVec.ofInt w (min (max (op (a.setWidth w).toNat (b.setWidth w).toNat) 0) (2 ^ w - 1))).setWidth 64
  else (BitVec.ofInt w (op sa sb)).signExtend 64

/-- R58 on w-bit numbers. -/
def quotient (w : Nat) (a b : BitVec w) : BitVec w :=
  if b = 0 then BitVec.allOnes w
  else if a = BitVec.intMin w ∧ b = BitVec.allOnes w then a else BitVec.ofInt w (a.toInt.tdiv b.toInt)

/-- R58 on w-bit numbers. -/
def remainder (w : Nat) (a b : BitVec w) : BitVec w :=
  if b = 0 then a
  else if a = BitVec.intMin w ∧ b = BitVec.allOnes w then 0
  else BitVec.ofInt w (a.toInt - b.toInt * a.toInt.tdiv b.toInt)

/-- R61: position and effective length of the field that source b names. -/
def fieldPos (b : Word) : Nat := (b.extractLsb' 0 6).toNat

/-- R61: L := min(len, W - pos), and 0 when pos is at or above W. -/
def fieldLength (w : Nat) (b : Word) : Nat := if w ≤ fieldPos b then 0 else min (b.extractLsb' 8 7).toNat (w - fieldPos b)

/-- R47: condition C on two values of w bits. -/
def condition (w c : Nat) (a b : BitVec w) : Bool :=
  match c with
  | 0 => a == b
  | 1 => a != b
  | 2 => a.slt b
  | 3 => b.sle a
  | 4 => a.ult b
  | 5 => b.ule a
  | 6 => a.sle b
  | 7 => b.slt a
  | 8 => a.ule b
  | 9 => b.ult a
  | _ => false

/-- R63: what a truth value is to a destination. -/
def truthWord (d : Opd) (b : Bool) : Word :=
  match d with
  | .k _ => if b then 0xFFFFFFFF else 0
  | _ => if b then 1 else 0

/-- The instructions of two word sources, with the 64 bits that each writes (R54, R56-R59, R61, R63, R65). -/
def twoSource : Instr → Option (RForm × (Word → Word → Word))
  | .add f => some (f, saturating (width f) (f.fn.extractLsb' 4 2).toNat (· + ·))
  | .sub f => some (f, saturating (width f) (f.fn.extractLsb' 4 2).toNat (· - ·))
  | .mul f => some (f, fun a b => (a.setWidth (width f) * b.setWidth (width f)).signExtend 64)
  | .mulh f => some (f, fun a b =>
      (BitVec.ofInt (width f) ((a.setWidth (width f)).toInt * (b.setWidth (width f)).toInt / 2 ^ width f)).signExtend 64)
  | .mulhu f => some (f, fun a b =>
      (BitVec.ofNat (width f) ((a.setWidth (width f)).toNat * (b.setWidth (width f)).toNat / 2 ^ width f)).setWidth 64)
  | .div f => some (f, fun a b => (quotient (width f) (a.setWidth _) (b.setWidth _)).signExtend 64)
  | .divu f => some (f, fun a b => (let a := a.setWidth (width f); let b := b.setWidth (width f)
      if b = 0 then BitVec.allOnes _ else a.udiv b).setWidth 64)
  | .rem f => some (f, fun a b => (remainder (width f) (a.setWidth _) (b.setWidth _)).signExtend 64)
  | .remu f => some (f, fun a b => (let a := a.setWidth (width f); let b := b.setWidth (width f)
      if b = 0 then a else a - b * a.udiv b).setWidth 64)
  | .and f => some (f, fun a b => (a.setWidth (width f) &&& b.setWidth (width f)).setWidth 64)
  | .or f => some (f, fun a b => (a.setWidth (width f) ||| b.setWidth (width f)).setWidth 64)
  | .xor f => some (f, fun a b => (a.setWidth (width f) ^^^ b.setWidth (width f)).setWidth 64)
  | .andn f => some (f, fun a b => (a.setWidth (width f) &&& ~~~(b.setWidth (width f))).setWidth 64)
  | .shl f => some (f, fun a b => (if width f ≤ b.toNat then 0 else a.setWidth (width f) <<< b.toNat).signExtend 64)
  | .shr f => some (f, fun a b => (if width f ≤ b.toNat then 0 else a.setWidth (width f) >>> b.toNat).setWidth 64)
  | .sar f => some (f, fun a b =>
      (if width f ≤ b.toNat then (if (a.setWidth (width f)).msb then BitVec.allOnes (width f) else 0)
       else (a.setWidth (width f)).sshiftRight b.toNat).signExtend 64)
  | .rot f => some (f, fun a b => ((a.setWidth (width f)).rotateRight (b.toNat % width f)).setWidth 64)
  | .min f => some (f, fun a b =>
      (if (a.setWidth (width f)).slt (b.setWidth (width f)) then a.setWidth (width f) else b.setWidth (width f)).signExtend 64)
  | .max f => some (f, fun a b =>
      (if (a.setWidth (width f)).slt (b.setWidth (width f)) then b.setWidth (width f) else a.setWidth (width f)).signExtend 64)
  | .minu f => some (f, fun a b =>
      (if (a.setWidth (width f)).ult (b.setWidth (width f)) then a.setWidth (width f) else b.setWidth (width f)).setWidth 64)
  | .maxu f => some (f, fun a b =>
      (if (a.setWidth (width f)).ult (b.setWidth (width f)) then b.setWidth (width f) else a.setWidth (width f)).setWidth 64)
  | .bfx f => some (f, fun a b => (a.extractLsb' (fieldPos b) (fieldLength (width f) b)).signExtend 64)
  | .bfxu f => some (f, fun a b => (a.extractLsb' (fieldPos b) (fieldLength (width f) b)).setWidth 64)
  | .cmp f => some (f, fun a b =>
      truthWord f.D (condition (width f) (f.fn.extractLsb' 6 4).toNat (a.setWidth _) (b.setWidth _)))
  | .kset f => some (f, fun a b => (BitVec.ofBoolListLE ((List.range 32).map (fun i => decide (a.toNat ≤ i ∧ i < b.toNat)))).setWidth 64)
  | .kget f => some (f, fun a b => if a.getLsbD (b.extractLsb' 0 5).toNat then 1 else 0)
  | .kand f => some (f, fun a b => (a.setWidth 32 &&& b.setWidth 32).setWidth 64)
  | .kor f => some (f, fun a b => (a.setWidth 32 ||| b.setWidth 32).setWidth 64)
  | .kxor f => some (f, fun a b => (a.setWidth 32 ^^^ b.setWidth 32).setWidth 64)
  | .kany f => some (f, fun a b => truthWord f.D (a.setWidth 32 &&& b.setWidth 32 != 0))
  | .kall f => some (f, fun a b => truthWord f.D (a.setWidth 32 &&& b.setWidth 32 == b.setWidth 32))
  | _ => none

end Sys2Proof.Slice0

/-- O1. R54-R59, R61, R63, R65: an instruction of two word sources whose sources are readable and whose destination can take a
word consumes its `.c` sources, writes its result to D, clears NR and OC and advances. -/
def Obligations.ScalarTwoSourceResult : Prop :=
  ∀ i f op s t a b, twoSource i = some (f, op) → Goes s t f.toHead →
    srcW s t f.A = .ok a → srcW s t f.B = .ok b → destReady s t f.D = .ok () →
    exec i s = .next (ended (writeW (consumeAB s t.ref f false) t.ref f.D (op a b)) t.ref true)

namespace Sys2Proof.Slice0

/-- The instructions of one word source with the 64 bits that each writes (R56, R60, R65). -/
def oneSource : Instr → Option (RForm × (Word → Word))
  | .clz f => some (f, fun a => BitVec.ofNat 64
      (((List.range (width f)).reverse.takeWhile (fun i => !a.getLsbD i)).length))
  | .ctz f => some (f, fun a => BitVec.ofNat 64 (((List.range (width f)).takeWhile (fun i => !a.getLsbD i)).length))
  | .popc f => some (f, fun a => BitVec.ofNat 64 ((List.range (width f)).countP (fun i => a.getLsbD i)))
  | .knot f => some (f, fun a => (~~~(a.setWidth 32)).setWidth 64)
  | .kmov f => some (f, fun a => (a.setWidth 32).setWidth 64)
  | _ => none

/-- R61: `bfi` puts the L low bits of a into the old value at pos, and keeps its other bits below W. -/
def inserted (w : Nat) (a b d : Word) : Word :=
  BitVec.ofBoolListLE ((List.range w).map (fun i =>
    if fieldPos b ≤ i ∧ i < fieldPos b + fieldLength w b then a.getLsbD (i - fieldPos b) else d.getLsbD i)) |>.setWidth 64

end Sys2Proof.Slice0

/-- O2. Scalar instructions of one word source (R56, R60, R65), `bfi` and `sel` (R61, R62): `clz`, `ctz` and `popc` count
within the width only; `bfi` reads D as a third source; `sel` chooses by bit 0 of its predicate and consumes both sources; each
writes its result to D and advances. -/
def Obligations.ScalarOneAndThreeSourceResult : Prop :=
  (∀ i f op s t a, oneSource i = some (f, op) → Goes s t f.toHead → srcW s t f.A = .ok a → destReady s t f.D = .ok () →
    exec i s = .next (ended (writeW (consumeAB s t.ref f true) t.ref f.D (op a)) t.ref true))
  ∧ ((∀ f s t a b d, Goes s t f.toHead → srcW s t f.A = .ok a → srcW s t f.B = .ok b → srcW s t f.D = .ok d →
    exec (.bfi f) s = .next (ended (writeW (consumeAB s t.ref f false) t.ref f.D (inserted (width f) a b d)) t.ref true))
  ∧ ∀ f s t a b k, Goes s t f.toHead → srcW s t f.A = .ok a → srcW s t f.B = .ok b → t.getK f.msk = .full k →
    destReady s t f.D = .ok () →
    exec (.sel f) s = .next (ended (writeW (consumeAB s t.ref f false) t.ref f.D (if k.getLsbD 0 then a else b)) t.ref true))

namespace Sys2Proof.Slice0

/-- The immediate instructions with a source, with the 64 bits that each writes (R64, R71). -/
def immediate : Instr → Option (IForm × (Word → Word))
  | .cmpi f => some (f, fun a => truthWord f.D (condition 64 (f.b.extractLsb' 0 4).toNat a (f.imm.signExtend 64)))
  | .addi f => some (f, fun a => a + f.imm.signExtend 64)
  | .andi f => some (f, fun a => a &&& f.imm.signExtend 64)
  | .ori f => some (f, fun a => a ||| f.imm.setWidth 64)
  | .xori f => some (f, fun a => a ^^^ f.imm.setWidth 64)
  | .shli f => some (f, fun a => a <<< (f.imm.extractLsb' 0 6).toNat)
  | .shri f => some (f, fun a => a >>> (f.imm.extractLsb' 0 6).toNat)
  | .sari f => some (f, fun a => a.sshiftRight (f.imm.extractLsb' 0 6).toNat)
  | .movh f => some (f, fun a => f.imm ++ a.extractLsb' 0 32)
  | _ => none

end Sys2Proof.Slice0

/-- O3. R64, R71: an immediate instruction writes its result to D; `movi` and `adr` read no source. -/
def Obligations.ImmediateResult : Prop :=
  (∀ i f op s t a, immediate i = some (f, op) → Goes s t f.toHead → srcW s t f.A = .ok a → destReady s t f.D = .ok () →
    exec i s = .next (ended (writeW (consumeOne s t.ref f.A .plain) t.ref f.D (op a)) t.ref true))
  ∧ (∀ f s t, Goes s t f.toHead → destReady s t f.D = .ok () →
    exec (.movi f) s = .next (ended (writeW s t.ref f.D (f.imm.signExtend 64)) t.ref true))
  ∧ ∀ f s t, Goes s t f.toHead → destReady s t f.D = .ok () →
    exec (.adr f) s = .next (ended (writeW s t.ref f.D (t.pc + f.imm.signExtend 64)) t.ref true)

namespace Sys2Proof.Slice0

/-- A thread with the contents of register a moved whole into register d of its class, a left EMPTY; `k0` as source gives
FULL all ones and stays (R13, R66, R67). -/
def movedReg (t : Thread) (d a : Opd) : Thread :=
  match d, a with
  | .g i, .g j => (t.setG i (t.getG j)).setG j .empty
  | .v i, .v j => (t.setV i (t.getV j)).setV j .empty
  | .k i, .k j => (t.setK i (t.getK j)).setK j .empty
  | _, _ => t

/-- The state code of a register (R11), FULL for what is no register. -/
def codeOf (t : Thread) : Opd → Nat
  | .g i => slotState (t.getG i)
  | .v i => slotState (t.getV i)
  | .k i => slotState (t.getK i)
  | _ => 0

/-- The word of `rst` for a register's contents (R68). -/
def statusWord {w : Nat} : Slot w → Word
  | .full _ => 0
  | .empty => 1
  | .pend g => g.setWidth 64 <<< 16 ||| 2
  | .pois p => (p >>> 48) <<< 48 ||| 3

end Sys2Proof.Slice0

/-- O4. R13, R29, R66-R69: plain and `.c` `mov` copy a word or a whole vector register, `.m` moves a register that is not
EMPTY, whatever else its state; `movf` transfers a register whatever its state and `rclr` empties one, and both leave `ts` as
it is; `rst` writes the state of a register, of a latch or of a constant to D, and a port of another owner takes the protection
fault. -/
def Obligations.RegisterMovesResult : Prop :=
  ((∀ f s t a, Goes s t f.toHead → SrcMod.ofCode f.ma ≠ .move → (∀ i, f.A ≠ .v i) → srcW s t f.A = .ok a →
    destReady s t f.D = .ok () →
    exec (.mov f) s = .next (ended (writeW (consumeOne s t.ref f.A (SrcMod.ofCode f.ma)) t.ref f.D a) t.ref true))
  ∧ (∀ f s t i v, Goes s t f.toHead → SrcMod.ofCode f.ma ≠ .move → f.A = .v i → t.getV i = .full v →
    exec (.mov f) s = .next (ended ((consumeOne s t.ref f.A (SrcMod.ofCode f.ma)).updThread t.ref (fun t => t.setFull f.D v))
      t.ref true))
  ∧ (∀ f s t, Goes s t f.toHead → SrcMod.ofCode f.ma = .move → f.D ≠ f.A → codeOf t f.A ≠ 1 → Instr.WellFormed (.mov f) →
    exec (.mov f) s = .next (ended (s.updThread t.ref (fun t => movedReg t f.D f.A)) t.ref true))
  ∧ ∀ f s t, Goes s t f.toHead → SrcMod.ofCode f.ma = .move → f.D = f.A → codeOf t f.A ≠ 1 →
    exec (.mov f) s = .next (ended s t.ref true))
  ∧ ((∀ f s t, Goes s t f.toHead → f.D ≠ f.A →
    exec (.movf f) s = .next (ended (s.updThread t.ref (fun t => movedReg t f.D f.A)) t.ref false))
  ∧ (∀ f s t, Goes s t f.toHead → f.D = f.A →
    exec (.movf f) s = .next (ended s t.ref false))
  ∧ ∀ f s t, Goes s t f.toHead →
    exec (.rclr f) s = .next (ended (s.updThread t.ref (fun t => t.setEmpty f.D)) t.ref false))
  ∧ ((∀ f s t x, Goes s t f.toHead →
    (match f.A with
      | .g i => x = statusWord (t.getG i)
      | .v i => x = statusWord (t.getV i)
      | .k i => x = statusWord (t.getK i)
      | .port d => s.ownsPorts t = true ∧ x = (if (s.portWord t d).isSome then 0 else 1)
      | _ => x = 0) →
    exec (.rst f) s = .next (ended (writeW s t.ref f.D x) t.ref false))
  ∧ ∀ f s t d, Goes s t f.toHead → f.A = .port d → s.ownsPorts t = false →
    exec (.rst f) s = .next (s.takeTrap t .protection {} t.pc t.pc .none))

namespace Sys2Proof.Slice0

/-- R75: a target that comes from a register or from memory is aligned and canonical. -/
def Target (w : Word) : Prop := w.extractLsb' 0 3 = 0 ∧ w.extractLsb' 48 16 = 0

end Sys2Proof.Slice0

/-- O5. R75, R78, R79: `br` goes to pcv + 8 x; `bri` goes to its source, which it then consumes under `.c`; a bad target takes
the target fault and nothing else happens. -/
def Obligations.BranchResult : Prop :=
  (∀ f s t, Goes s t f.toHead →
    exec (.br f) s = .next (jumped s t.ref true (t.pc + (f.off.signExtend 64 <<< 3))))
  ∧ (∀ f s t a, Goes s t f.toHead → srcW s t f.A = .ok a → Target a →
    exec (.bri f) s = .next (jumped (consumeOne s t.ref f.A (SrcMod.ofCode f.ma)) t.ref true a))
  ∧ ∀ f s t a, Goes s t f.toHead → srcW s t f.A = .ok a → ¬Target a →
    exec (.bri f) s = .next (s.takeTrap t .target { addr := a } t.pc t.pc .none)

namespace Sys2Proof.Slice0

/-- A store of a thread may go out: no acquire load waits, and its address passes the checks at issue (R99, R102, R106). -/
structure StoreGoes (s : State) (t : Thread) (a : Word) (n : Nat) : Prop where
  free : t.acq = none
  addr : addrGate s t a n true {} = .ok ()

/-- A thread that has called (R80, R81): `g15` lowered, the return address pushed, the oldest of more than 8 dropped. -/
def called (sp ra : Word) (t : Thread) : Thread := { t.setG 15 (.full (sp - 8)) with ras := (ra :: t.ras).take 8 }

end Sys2Proof.Slice0

/-- O6. R80, R81, R82: `call` and `calli` store the return address below `g15` and push it; `calli` takes its target from the
table entry, and its store must be one that the router takes (R20), where `call` has no such outcome (R77); `ret` takes it from
the store, or from memory when the store is empty, and raises `g15`. -/
def Obligations.CallReturnResult : Prop :=
  (∀ f s t sp, Goes s t f.toHead → t.getG 15 = .full sp → StoreGoes s t (sp - 8) 8 →
    exec (.call f) s = .next (jumped ((storeNow s t (sp - 8) 8 (t.pc + 8) {}).updThread t.ref (called sp (t.pc + 8)))
      t.ref true (t.pc + (f.off.signExtend 64 <<< 3))))
  ∧ (∀ f s s1 t a b sp target, Goes s t f.toHead → srcW s t f.A = .ok a → srcW s t f.B = .ok b → t.getG 15 = .full sp →
    loadWait s t (a + 8 * (b + f.fn.setWidth 64)) true = .ok (target, s1) → Target target → StoreGoes s1 t (sp - 8) 8 →
    routerGate s1 t (sp - 8).toNat = .ok () →
    exec (.calli f) s = .next (jumped ((storeNow s1 t (sp - 8) 8 (t.pc + 8) {}).updThread t.ref (called sp (t.pc + 8)))
      t.ref true target))
  ∧ (∀ f s t sp target l, Goes s t f.toHead → t.getG 15 = .full sp → t.ras = target :: l → Target target →
    exec (.ret f) s = .next (jumped (s.updThread t.ref (fun u => { u.setG 15 (.full (sp + 8)) with ras := l })) t.ref true target))
  ∧ ∀ f s s1 t sp target, Goes s t f.toHead → t.getG 15 = .full sp → t.ras = [] →
    loadWait s t sp false = .ok (target, s1) → Target target →
    exec (.ret f) s = .next (jumped (s1.updThread t.ref (fun u => u.setG 15 (.full (sp + 8)))) t.ref true target)

namespace Sys2Proof.Slice0

/-- R85: the loop registers of loop j set for a body that ends at `last`, with count n. -/
def looping (j : Fin 2) (last : Word) (n : BitVec 32) (pc : Word) (t : Thread) : Thread :=
  { t with ls := t.ls.set j ((pc + 8) &&& 0xFFFFFFFFFFF8), le := t.le.set j last, lc := t.lc.set j n }.setLa j (n != 0)

/-- R85: what a loop instruction with count n makes of the state. -/
def loopEffect (f : BForm) (n : BitVec 32) (s : State) (t : Thread) : State :=
  let last := (t.pc + (f.off.signExtend 64 <<< 3)) &&& 0xFFFFFFFFFFF8
  let s := s.updThread t.ref (looping (Fin.ofNat 2 f.d.toNat) last n t.pc)
  if n = 0 then jumped s t.ref true (last + 8) else ended s t.ref true

end Sys2Proof.Slice0

/-- O7. R84, R85: `loop` takes its count from bits [31:0] of its source, `loopi` from its 12-bit field; a count of 0 skips the
body. -/
def Obligations.LoopResult : Prop :=
  (∀ f s t a, Goes s t f.toHead → srcW s t f.A = .ok a →
    exec (.loop f) s = .next (loopEffect f (a.extractLsb' 0 32) s t))
  ∧ ∀ f s t, Goes s t f.toHead → exec (.loopi f) s = .next (loopEffect f ((f.a ++ f.b).setWidth 32) s t)

/-- O8. R83, R90, R91, R92, R110, R111: the instructions that only let time pass. `nop` changes nothing, and `pfh` at most the
copies of lines, and those only where the draw lets a read leave copies (log entry 60); `park` on a register that is FULL or
POIS, and `fence` when every access and command before it is acknowledged, change nothing; `rasclr` empties the return-address
store; `yield` lets the ready threads of its context on its core go first. The `yield` clause is the model's choice: that the
threads that go first are those ready at the `yield` itself (log entry 7, DEDUCED and unsafe), and that `yield` clears NR and
OC (log entry 8, DEDUCED). -/
def Obligations.PauseResult : Prop :=
  (∀ f s t, Goes s t f.toHead → exec (.nop f) s = .next (ended s t.ref false))
  ∧ (∀ f s t a, Goes s t f.toHead → srcW s t f.A = .ok a →
    ∃ l, exec (.pfh f) s = .next (ended { s with copies := l } t.ref false) ∧ (s.oracle.fill = false → l = s.copies))
  ∧ (∀ f s t, Goes s t f.toHead → codeOf t f.A = 0 ∨ codeOf t f.A = 3 → exec (.park f) s = .next (ended s t.ref false))
  ∧ (∀ f s t, Goes s t f.toHead → t.pend = [] → cmdsQuiet s t = true → exec (.fence f) s = .next (ended s t.ref false))
  ∧ (∀ f s t, Goes s t f.toHead →
    exec (.rasclr f) s = .next (ended (s.updThread t.ref (fun u => { u with ras := [] })) t.ref false))
  ∧ ∀ f s t, Goes s t f.toHead →
    let mates := s.threads.filter (fun x => x.ref.ctx == t.ref.ctx && x.ref.agent / 16 == t.ref.agent / 16
      && x.ref != t.ref && x.run == .ready)
    exec (.yield f) s = .next (ended (s.updThread t.ref (fun u => { u with yielded := mates.map (fun x => x.ref) })) t.ref true)

namespace Sys2Proof.Slice0

/-- R24: a special register as `mfs` reads it. -/
def special (s : State) (t : Thread) (n : Nat) : Word :=
  match n with
  | 0x000 => t.ts
  | 0x001 => t.wg
  | 0x002 => t.fam.lrp
  | 0x003 => t.trp
  | 0x004 => (s.ctxD t.ref.ctx).mode
  | 0x005 => BitVec.ofNat 64 t.ras.length
  | 0x008 => (t.lc.get 0).setWidth 64
  | 0x009 => t.ls.get 0
  | 0x00A => t.le.get 0
  | 0x00C => (t.lc.get 1).setWidth 64
  | 0x00D => t.ls.get 1
  | 0x00E => t.le.get 1
  | 0x010 => BitVec.ofNat 64 t.fam.lpd
  | n =>
    if 0x020 ≤ n ∧ n ≤ 0x027 then BitVec.ofNat 64 (t.fam.lpi.getD (n - 0x020) 0)
    else if 0x030 ≤ n ∧ n ≤ 0x037 then BitVec.ofNat 64 (t.fam.lpx.getD (n - 0x030) 0)
    else if 0x040 ≤ n ∧ n ≤ 0x047 then enSum (s.ctxD t.ref.ctx) (n - 0x040)
    else 0

/-- R25, R87: what a write of a loop register makes of a thread; bits outside [47:3] of `ls` and `le` are ignored. -/
def loopWritten (n : Nat) (a : Word) (t : Thread) : Option Thread :=
  match n with
  | 0x008 => some { t with lc := t.lc.set 0 (a.setWidth 32) }
  | 0x009 => some { t with ls := t.ls.set 0 (a &&& 0xFFFFFFFFFFF8) }
  | 0x00A => some { t with le := t.le.set 0 (a &&& 0xFFFFFFFFFFF8) }
  | 0x00C => some { t with lc := t.lc.set 1 (a.setWidth 32) }
  | 0x00D => some { t with ls := t.ls.set 1 (a &&& 0xFFFFFFFFFFF8) }
  | 0x00E => some { t with le := t.le.set 1 (a &&& 0xFFFFFFFFFFF8) }
  | _ => none

end Sys2Proof.Slice0

/-- O9. R24, R25, R27, R87, R95, R96: `mfs` writes a special register to D, `tstamp` the reference nanoseconds; `mts` writes
`ts` (OC and NR), `mode` (RCM, in a handler) or a loop register, whose write comes before the back-edge test of the
instruction's own advance. That a write of `ts` stands after the instruction's own clearing of NR and OC is the model's choice
(log entry 30). -/
def Obligations.SpecialRegisterResult : Prop :=
  ((∀ f s t, Goes s t f.toHead →
    exec (.mfs f) s = .next (ended (writeW s t.ref f.D (special s t f.fn.toNat)) t.ref true))
  ∧ ∀ f s t, Goes s t f.toHead →
    exec (.tstamp f) s = .next (ended (writeW s t.ref f.D (BitVec.ofNat 64 (s.thirds / 3))) t.ref true))
  ∧ ((∀ f s t a, Goes s t f.toHead → srcW s t f.A = .ok a → (loopWritten f.fn.toNat a t).isSome →
    exec (.mts f) s = .next (ended ((consumeOne s t.ref f.A (SrcMod.ofCode f.ma)).updThread t.ref
      (fun u => (loopWritten f.fn.toNat a u).getD u)) t.ref true))
  ∧ (∀ f s t a, Goes s t f.toHead → srcW s t f.A = .ok a → f.fn = 0 → ∃ s' u, exec (.mts f) s = .next s' ∧
      s'.thread? t.ref = some u ∧ u.ts &&& 0x1FE = t.ts &&& 0x1FE ∧ u.ts.extractLsb' 12 4 = a.extractLsb' 12 4 ∧
      u.ts.getLsbD 0 = a.getLsbD 0 ∧ u.ts.getLsbD 11 = t.ts.getLsbD 11)
  ∧ ∀ f s t a, Goes s t f.toHead → srcW s t f.A = .ok a → f.fn = 4 → t.ts.getLsbD 11 = true →
    a.getLsbD 1 = false → a.extractLsb' 8 4 = (s.ctxD t.ref.ctx).mode.extractLsb' 8 4 →
    a.extractLsb' 4 2 = (s.ctxD t.ref.ctx).mode.extractLsb' 4 2 →
    exec (.mts f) s = .next (ended (consumeOne (s.updCtx t.ref.ctx (fun c =>
      { c with mode := (c.mode &&& ~~~3) ||| (a &&& 3) })) t.ref f.A (SrcMod.ofCode f.ma)) t.ref true))

/-- O10. R50, R74, R93, R97: `trap` and `brk` end first and then take their trap, whose RESUME is where they advanced to; a
debugger stops a thread at `brk`; `kend` and a word that is no instruction trap at their own address. -/
def Obligations.SoftTrapResult : Prop :=
  (∀ f s t a, Goes s t f.toHead → srcW s t f.A = .ok a →
    let u := counted (t.okNext true)
    exec (.trap f) s = .next ((s.setThread u).takeTrap u .software { c := { n := f.fn.toNat }, data := a } t.pc u.pc .none))
  ∧ (∀ f s t, Goes s t f.toHead → (s.ctxD t.ref.ctx).dbg = false →
    let u := counted (t.okNext true)
    exec (.brk f) s = .next ((s.setThread u).takeTrap u .breakpoint { c := { n := f.fn.toNat } } t.pc u.pc .none))
  ∧ (∀ f s t, Goes s t f.toHead → (s.ctxD t.ref.ctx).dbg = true →
    let u := counted (t.okNext true)
    exec (.brk f) s = .next ((s.setThread u).stopThread u 4 t.pc u.pc))
  ∧ (∀ s t, s.curThread = some t → exec .kend s = .next (s.takeTrap t .endOfKernel {} t.pc t.pc .none))
  ∧ ∀ r s t, s.curThread = some t →
    exec (.illegalInstruction r) s = .next (s.takeTrap t (match r with
      | .illegalInstruction => .illegalInstruction
      | .reservedEncoding => .reservedEncoding
      | .illegalOperand => .illegalOperand) {} t.pc t.pc .none)

namespace Sys2Proof.Slice0

/-- R94: a thread out of its handler. -/
def returned (status resume : Word) (t : Thread) : Thread :=
  { counted t with
    ts := (t.ts &&& ~~~0xFE01) ||| (status &&& 0xF601)
    trp := 0
    pc := resume
    bySeq := true
    trapped := .none }

end Sys2Proof.Slice0

/-- O11. R89, R94, R305, R306: `eret`, and `rply` on a record that carries no access, restore the status and go to RESUME, and
an access or command that the record carried is given up; `rply` on a record that carries one performs it again; outside a
handler both take the protection fault. `exit`, once every access and command of the thread is acknowledged, ends the thread.
What a replay takes from its record and what from the access it is tied to, and which checks it passes, are the model's
readings (log entries 15, 31). -/
def Obligations.HandlerAndThreadEnds : Prop :=
  ((∀ f s s1 t r, Goes s t f.toHead → t.ts.getLsbD 11 = true → readRecordAt s t = .ok (r, s1) → Target r.resume →
    let s2 := s1.updThread t.ref (returned r.status r.resume)
    exec (.eret f) s = .next (match t.trapped with
      | .access p => s2.abandonTags t.ref p.tags
      | .command id => abandonCmd s2 id
      | .none => s2))
  ∧ (∀ f s s1 t r, Goes s t f.toHead → t.ts.getLsbD 11 = true → readRecordAt s t = .ok (r, s1) → Target r.resume →
    r.cause.acc = false →
    let s2 := s1.updThread t.ref (returned r.status r.resume)
    exec (.rply f) s = .next (match t.trapped with
      | .access p => s2.abandonTags t.ref p.tags
      | .command id => abandonCmd s2 id
      | .none => s2))
  ∧ (∀ f s s1 t r p q, Goes s t f.toHead → t.ts.getLsbD 11 = true → readRecordAt s t = .ok (r, s1) → Target r.resume →
    r.cause.acc = true → t.trapped = .access p →
    replayGate s1 t r.cause = .ok () → replayed s1.fresh.2 t r p s1.fresh.1 = .ok q →
    exec (.rply f) s = .next (issueReplay (s1.fresh.2.updThread t.ref (returned r.status r.resume)) t.ref q))
  ∧ (∀ f s s1 t r id, Goes s t f.toHead → t.ts.getLsbD 11 = true → readRecordAt s t = .ok (r, s1) → Target r.resume →
    r.cause.acc = true → t.trapped = .command id → replayGate s1 t r.cause = .ok () → cmdKind s1 id = some r.cause.kind →
    exec (.rply f) s = .next (resumeCmd (s1.updThread t.ref (returned r.status r.resume)) id r.prog (t.stamps s1).report))
  ∧ ∀ f s t, Goes s t f.toHead → t.ts.getLsbD 11 = false →
    exec (.eret f) s = .next (s.takeTrap t .protection {} t.pc t.pc .none)
    ∧ exec (.rply f) s = .next (s.takeTrap t .protection {} t.pc t.pc .none))
  ∧ (∀ f s t w, Goes s t f.toHead → srcW s t f.A = .ok w → t.pend = [] → cmdsQuiet s t = true →
    ∃ s', exec (.exit f) s = .next s' ∧ s'.thread? t.ref = none)

namespace Sys2Proof.Slice0

/-- Whether a message on its way carries out an access: it goes to its walk or to its home, a copy has answered it, or its
address names nothing and its fault is on its way (R99, R100, R258, R262). -/
def carries (x : Access) : Instr → Bool
  | .pageWalk y => y == x
  | .accessAtHome y => { y with pa := none, key := 0, bypass := false } == x
  | .acknowledgement k d none => k == x.sink && d.isSome
  | .faultReply r acc unit _ => x.sink == .thread r acc unit
  | _ => false

/-- A thread has asked for an access p of its own (R101): it is the newest of those in flight, and its units that are to go
are on their way, each by one message, in order. -/
def Asked (s s' : State) (t : Thread) (p : Pending) (xs : List Access) : Prop :=
  (∃ u, s'.thread? t.ref = some u ∧ u.pend = t.pend ++ [p]) ∧
  ∃ l, s'.flight = s.flight ++ l ∧ l.length = xs.length ∧ ∀ p ∈ xs.zip l, carries p.1 p.2 = true

/-- R42, R105: base, index times size, displacement times size. -/
def scaledAddress (f : MForm) (a idx : Word) : Word :=
  a + idx * BitVec.ofNat 64 (2 ^ f.sz.toNat) + f.dsp.signExtend 64 * BitVec.ofNat 64 (2 ^ f.sz.toNat)

/-- The conditions under which a scalar access of a thread goes out (R20, R99, R102, R106, R115): no acquire load waits, an
ordered one has nothing before it, its address passes the checks at issue, the router takes it. -/
structure AccessGoes (s : State) (t : Thread) (va : Word) (align : Nat) (write fenced : Bool) : Prop where
  free : t.acq = none
  order : fenced = true → t.pend = [] ∧ cmdsQuiet s t = true
  addr : addrGate s t va align write {} = .ok ()
  router : routerGate s t va.toNat = .ok ()

/-- A load of size bytes at va into D with sign extension sx and acquire acq goes out under tag number n (R16, R31, R106): D
is PEND with a tag of class 1. -/
def Loads (s s' : State) (t : Thread) (f : MForm) (va : Word) (n : Nat) : Prop :=
  let tag := mkTag 1 n
  let x := mkAccess s t .read va.toNat (2 ^ f.sz.toNat) 0 0 0 s.nextId 0
  Asked s s' t (mkPending s.nextId t.pc
    { tag := tag.toNat, ar := f.ext.getLsbD 1, sx := f.ext.getLsbD 0, reg := f.d.toNat, sz := f.sz.toNat, kind := 1 }
    va 0 0 [x] [tag] (.scalar (f.ext.getLsbD 0) (2 ^ f.sz.toNat)) none) [x]
  ∧ ∃ u, s'.thread? t.ref = some u ∧ u.g = (t.setPend f.D tag).g ∧ u.v = (t.setPend f.D tag).v ∧ u.k = (t.setPend f.D tag).k
    ∧ u.seqs = t.seqs ++ [n] ∧ u.acq = (if f.ext.getLsbD 1 then some tag else none)

end Sys2Proof.Slice0

/-- O12. R99, R105, R106: `ld` and `ldx` send one read of their effective address, and D is PEND with its tag. -/
def Obligations.LoadGoesOut : Prop :=
  (∀ f s t a n, Goes s t f.toHead → srcW s t f.A = .ok a → freeSeq s t 1 = some n →
    AccessGoes s t (scaledAddress f a 0) (2 ^ f.sz.toNat) false (f.ext.getLsbD 1) →
    ∃ s', exec (.ld f) s = .next s' ∧ Loads s s' t f (scaledAddress f a 0) n)
  ∧ ∀ f s t a b n, Goes s t f.toHead → srcW s t f.A = .ok a → srcW s t f.B = .ok b → freeSeq s t 1 = some n →
    AccessGoes s t (scaledAddress f a b) (2 ^ f.sz.toNat) false (f.ext.getLsbD 1) →
    ∃ s', exec (.ldx f) s = .next s' ∧ Loads s s' t f (scaledAddress f a b) n

namespace Sys2Proof.Slice0

/-- A store of a word goes out (R107): one write of its low bytes; the registers are as they were. -/
def Stores (s s' : State) (t : Thread) (f : MForm) (va w : Word) : Prop :=
  let x := mkAccess s t .write va.toNat (2 ^ f.sz.toNat) (w.setWidth 1024) 0 0 s.nextId 0
  Asked s s' t (mkPending s.nextId t.pc { ar := f.ext.getLsbD 1, reg := f.b.toNat, sz := f.sz.toNat, kind := 2 }
    va (zext64 (8 * 2 ^ f.sz.toNat) w.toNat) 0 [x] [] .none none) [x]
  ∧ ∃ u, s'.thread? t.ref = some u ∧ u.g = t.g ∧ u.v = t.v ∧ u.k = t.k

end Sys2Proof.Slice0

/-- O13. R99, R105, R107: `st` and `stx` send one write of the low bytes of source b; a release store waits while an access or
a command before it is not acknowledged (R101). -/
def Obligations.StoreGoesOut : Prop :=
  (∀ f s t a b, Goes s t f.toHead → srcW s t f.A = .ok a → srcW s t f.B = .ok b →
    AccessGoes s t (scaledAddress f a 0) (2 ^ f.sz.toNat) true (f.ext.getLsbD 1) →
    ∃ s', exec (.st f) s = .next s' ∧ Stores s s' t f (scaledAddress f a 0) b)
  ∧ (∀ f s t a b, Goes s t f.toHead → srcW s t f.A = .ok a → srcW s t f.B = .ok b →
    addrGate s t (scaledAddress f a 0) (2 ^ f.sz.toNat) true {} = .ok () → t.acq = none → f.ext.getLsbD 1 = true →
    t.pend ≠ [] ∨ cmdsQuiet s t = false → exec (.st f) s = .next (s.updThread t.ref (fun u => { u with run := .waiting .fence })))
  ∧ ∀ f s t a b d, Goes s t f.toHead → srcW s t f.A = .ok a → srcW s t f.B = .ok b →
    srcW s t f.D = .ok d → AccessGoes s t (scaledAddress f a d) (2 ^ f.sz.toNat) true (f.ext.getLsbD 1) →
    ∃ s', exec (.stx f) s = .next s' ∧ Stores s s' t f (scaledAddress f a d) b

namespace Sys2Proof.Slice0

/-- R113, R116: the operation that a code names. -/
def atomicOp (n : Nat) : AOp := [AOp.add, .and, .or, .xor, .min, .max, .minu, .maxu, .swap].getD n .swap

/-- R116: the operation that a code names. -/
def fredOp (n : Nat) : FOp := [FOp.add, .min, .max].getD n .add

/-- An atomic with a value (KIND 3) goes out under tag number n. -/
def AtomicGoes (s s' : State) (t : Thread) (f : MForm) (k : AKind) (func : Nat) (va b e : Word) (n : Nat) : Prop :=
  let w := 8 * 2 ^ f.sz.toNat
  let tag := mkTag 1 n
  let x := mkAccess s t k va.toNat (2 ^ f.sz.toNat) ((zext64 w b.toNat).setWidth 1024) (zext64 w e.toNat) 0 s.nextId 0
  Asked s s' t (mkPending s.nextId t.pc
    { tag := tag.toNat, func := func, ord := f.ext.getLsbD 4, reg := f.d.toNat, sz := f.sz.toNat, kind := 3 }
    va (zext64 w b.toNat) (zext64 w e.toNat) [x] [tag] (.scalar false (2 ^ f.sz.toNat)) none) [x]
  ∧ ∃ u, s'.thread? t.ref = some u ∧ u.g = (t.setPend f.D tag).g ∧ u.k = (t.setPend f.D tag).k

/-- A reduction (KIND 4) goes out; no register waits for it. -/
def ReductionGoes (s s' : State) (t : Thread) (f : MForm) (k : AKind) (func : Nat) (ord : Bool) (va b : Word) : Prop :=
  let w := 8 * 2 ^ f.sz.toNat
  let x := mkAccess s t k va.toNat (2 ^ f.sz.toNat) ((zext64 w b.toNat).setWidth 1024) 0 0 s.nextId 0
  Asked s s' t (mkPending s.nextId t.pc { func := func, ord := ord, reg := f.b.toNat, sz := f.sz.toNat, kind := 4 }
    va (zext64 w b.toNat) 0 [x] [] .none none) [x]
  ∧ ∃ u, s'.thread? t.ref = some u ∧ u.g = t.g ∧ u.k = t.k

end Sys2Proof.Slice0

/-- O14. R112-R116: `amo` and `cas` send one atomic and leave D PEND; `red` and `fred` send one reduction and return nothing.
-/
def Obligations.AtomicGoesOut : Prop :=
  (∀ f s t a b n, Goes s t f.toHead → srcW s t f.A = .ok a → srcW s t f.B = .ok b → freeSeq s t 1 = some n →
    (f.ext.extractLsb' 0 4).toNat < 9 →
    AccessGoes s t (scaledAddress f a 0) (2 ^ f.sz.toNat) true (f.ext.getLsbD 4) →
    ∃ s', exec (.amo f) s = .next s' ∧ AtomicGoes s s' t f (.amo (atomicOp (f.ext.extractLsb' 0 4).toNat))
      (f.ext.extractLsb' 0 4).toNat (scaledAddress f a 0) b 0 n)
  ∧ (∀ f s t a b d n, Goes s t f.toHead → srcW s t f.A = .ok a → srcW s t f.B = .ok b → srcW s t f.D = .ok d →
    freeSeq s t 1 = some n → AccessGoes s t (scaledAddress f a 0) (2 ^ f.sz.toNat) true (f.ext.getLsbD 4) →
    ∃ s', exec (.cas f) s = .next s' ∧ AtomicGoes s s' t f .cas 0 (scaledAddress f a 0) b d n)
  ∧ (∀ f s t a b, Goes s t f.toHead → srcW s t f.A = .ok a → srcW s t f.B = .ok b → (f.ext.extractLsb' 0 4).toNat < 8 →
    AccessGoes s t (scaledAddress f a 0) (2 ^ f.sz.toNat) true (f.ext.getLsbD 4) →
    ∃ s', exec (.red f) s = .next s' ∧ ReductionGoes s s' t f (.red (atomicOp (f.ext.extractLsb' 0 4).toNat))
      (f.ext.extractLsb' 0 4).toNat (f.ext.getLsbD 4) (scaledAddress f a 0) b)
  ∧ ∀ f s t a b, Goes s t f.toHead → srcW s t f.A = .ok a → srcW s t f.B = .ok b → (f.ext.extractLsb' 0 2).toNat < 3 →
    AccessGoes s t (scaledAddress f a 0) (2 ^ f.sz.toNat) true false →
    ∃ s', exec (.fred f) s = .next s' ∧ ReductionGoes s s' t f (.fred (fredOp (f.ext.extractLsb' 0 2).toNat))
      (f.ext.extractLsb' 0 2).toNat false (scaledAddress f a 0) b

namespace Sys2Proof.Slice0

/-- R158: the base of a vector access: a plus 128 times the displacement. -/
def vectorAddress (f : MForm) (a : Word) : Word := a + f.dsp.signExtend 64 * 128

/-- R159: the byte enables of the selected lanes, four to a lane. -/
def enabled (k : KWord) : BitVec 128 := BitVec.ofBoolListLE ((List.range 128).map (fun j => k.getLsbD (j / 4))) |>.setWidth 128

end Sys2Proof.Slice0

/-- O15. R156, R158, R159: `vld` with a mask that selects a lane reads its line and leaves D PEND; `vst` writes the enabled
bytes of its line; an empty mask makes no access, and `vld` then writes zeros. -/
def Obligations.LineAccessGoesOut : Prop :=
  (∀ f s t a k n i, Goes s t f.toHead → f.D = .v i → srcW s t f.A = .ok a → t.getK f.msk = .full k → k ≠ 0 →
    freeSeq s t 1 = some n → AccessGoes s t (vectorAddress f a) 128 false false →
    let x := mkAccess s t .read (vectorAddress f a).toNat 128 0 0 0 s.nextId 0
    ∃ s' u, exec (.vld f) s = .next s' ∧ Asked s s' t (mkPending s.nextId t.pc
        { tag := (mkTag 1 n).toNat, reg := f.d.toNat, sz := 2, kind := 8 } (vectorAddress f a) 0 0 [x] [mkTag 1 n] (.line k) none) [x]
      ∧ s'.thread? t.ref = some u ∧ u.getV i = .pend (mkTag 1 n) ∧ ∀ j, j ≠ i → u.getV j = t.getV j)
  ∧ (∀ f s t a b k, Goes s t f.toHead → srcW s t f.A = .ok a → srcV t f.B = .ok b → t.getK f.msk = .full k → k ≠ 0 →
    AccessGoes s t (vectorAddress f a) 128 true false →
    let x := mkAccess s t .write (vectorAddress f a).toNat 128 b 0 (enabled k) s.nextId 0
    ∃ s' p u, exec (.vst f) s = .next s' ∧ Asked s s' t p [x] ∧ p.units = [(x, false)] ∧ p.tags = [] ∧
      s'.thread? t.ref = some u ∧ u.v = t.v)
  ∧ (∀ f s t a, Goes s t f.toHead → srcW s t f.A = .ok a → t.getK f.msk = .full 0 → (vectorAddress f a).toNat % 128 = 0 →
    exec (.vld f) s = .next (ended (writeL s t.ref false f.D 0 0) t.ref true))
  ∧ ∀ f s t a b, Goes s t f.toHead → srcW s t f.A = .ok a → srcV t f.B = .ok b → t.getK f.msk = .full 0 →
    (vectorAddress f a).toNat % 128 = 0 → exec (.vst f) s = .next (ended s t.ref true)

namespace Sys2Proof.Slice0

/-- A compound access goes out (R163): one unit for each selected lane, at the address and with the word given, the
destinations PEND each with its tag. -/
def Compound (s s' : State) (t : Thread) (k : AKind) (size : Nat) (ds : List Opd) (n : Nat) (us : List (Nat × Word × BitVec 32)) : Prop :=
  let xs := us.map (fun u => mkAccess s t k u.2.1.toNat size (u.2.2.setWidth 1024) 0 0 s.nextId u.1)
  ∃ p u, Asked s s' t p xs ∧ p.units = xs.map (fun x => (x, false)) ∧ p.tags = (List.range ds.length).map (fun i => mkTag 1 (n + i))
    ∧ s'.thread? t.ref = some u
    ∧ u.v = ((ds.zip p.tags).foldl (fun t p => t.setPend p.1 p.2) t).v

/-- The numbers of the lanes that a mask selects, lowest first. -/
def lanesIn (k : KWord) : List Nat := (List.range 32).filter (fun i => k.getLsbD i)

/-- R160, R162: where several units name one address, the highest lane's remains. -/
def highestOnly (us : List (Nat × Word × BitVec 32)) : List (Nat × Word × BitVec 32) :=
  us.filter (fun u => !us.any (fun v => decide (u.1 < v.1) && v.2.1 == u.2.1))

/-- The conditions of a compound access: no acquire load waits, and the router takes every unit. -/
def CompoundGoes (s : State) (t : Thread) (us : List (Nat × Word × BitVec 32)) : Prop :=
  t.acq = none ∧ ∀ u ∈ us, routerGate s t u.2.1.toNat = .ok ()

end Sys2Proof.Slice0

/-- O16. R160-R164: the strided, indexed and turning accesses send one unit for each selected lane, and their vector
destinations are PEND. -/
def Obligations.CompoundGoesOut : Prop :=
  (∀ f s t a b k n i, Goes s t f.toHead → f.D = .v i → srcW s t f.A = .ok a → srcW s t f.B = .ok b → t.getK f.msk = .full k →
    k ≠ 0 → (vectorAddress f a).toNat % 4 = 0 → b.toNat % 4 = 0 → freeSeq s t 1 = some n →
    let us := (lanesIn k).map (fun i => (i, vectorAddress f a + BitVec.ofNat 64 i * b, 0))
    CompoundGoes s t us → ∃ s', exec (.vlds f) s = .next s' ∧ Compound s s' t .read 4 [.v i] n us)
  ∧ (∀ f s t a b d k, Goes s t f.toHead → srcW s t f.A = .ok a → srcV t f.B = .ok b → srcW s t f.D = .ok d →
    t.getK f.msk = .full k → k ≠ 0 → (vectorAddress f a).toNat % 4 = 0 → d.toNat % 4 = 0 →
    let us := highestOnly ((lanesIn k).map (fun i => (i, vectorAddress f a + BitVec.ofNat 64 i * d, lane b i)))
    CompoundGoes s t us → ∃ s', exec (.vsts f) s = .next s' ∧ Compound s s' t .write 4 [] 0 us)
  ∧ (∀ f s t a b m n i, Goes s t f.toHead → f.D = .v i → srcW s t f.A = .ok a → srcV t f.B = .ok b →
    t.getG (Fin.ofNat 16 (f.ext.extractLsb' 0 4).toNat) = .full m → (vectorAddress f a).toNat % 4 = 0 → freeSeq s t 1 = some n →
    let us := ((List.range 32).filter (fun i => decide ((lane b i).toNat < m.toNat))).map
      (fun i => (i, vectorAddress f a + 4 * (lane b i).setWidth 64, 0))
    us ≠ [] → CompoundGoes s t us → ∃ s', exec (.vgth f) s = .next s' ∧ Compound s s' t .read 4 [.v i] n us)
  ∧ (∀ f s t a b d m, Goes s t f.toHead → srcW s t f.A = .ok a → srcV t f.B = .ok b → srcV t f.D = .ok d →
    t.getG (Fin.ofNat 16 (f.ext.extractLsb' 0 4).toNat) = .full m → (vectorAddress f a).toNat % 4 = 0 →
    let us := highestOnly (((List.range 32).filter (fun i => decide ((lane d i).toNat < m.toNat))).map
      (fun i => (i, vectorAddress f a + 4 * (lane d i).setWidth 64, lane b i)))
    us ≠ [] → CompoundGoes s t us → ∃ s', exec (.vsct f) s = .next s' ∧ Compound s s' t .write 4 [] 0 us)
  ∧ ∀ f s t a b n i, Goes s t f.toHead → f.D = .v i → srcW s t f.A = .ok a → srcW s t f.B = .ok b →
    (vectorAddress f a).toNat % 32 = 0 → b.toNat % 32 = 0 → freeSeq s t 8 = some n →
    let us := (List.range 32).map (fun j => (j, vectorAddress f a + BitVec.ofNat 64 j * b, 0))
    CompoundGoes s t us → ∃ s', exec (.vldt f) s = .next s' ∧
      Compound s s' t .read 32 ((List.range 8).map (fun c => .v (Fin.ofNat 32 (i.val + c)))) n us

namespace Sys2Proof.Slice0

/-- R124: the guard that bits [21:0] of a word name. -/
def guardOfWord (a : Word) : Nat := (a.extractLsb' 0 22).toNat

/-- The conditions under which `gacq` asks for a guard (R124, R126, R240): bits [63:22] zero, below the table's size, the
core in the guard's scope, not held and not asked for, fewer than 8 holds taken or kept, the router taking it. -/
structure MayAcquire (s : State) (t : Thread) (a : Word) : Prop where
  high : a.extractLsb' 22 42 = 0
  size : guardOfWord a < (s.ctxD t.ref.ctx).gsize
  scope : (s.ctxD t.ref.ctx).inScope (guardOfWord a) (t.ref.agent / 16) = true
  own : holdOn t.holds (guardOfWord a) = none ∧ guardOfWord a ∉ t.acquiring
  room : holdsTaken s t < 8
  router : guardRouter s t = .ok ()

end Sys2Proof.Slice0

/-- O17. R126, R131: `gacq` sends its request to the guard's home: without a predicate the thread waits for the reply; with
one, the predicate and D are PEND and the thread goes on. `gstat` asks for the guard's word, and D is PEND. That the two tags
of the form with a predicate have consecutive numbers is the model's choice (log entry 59). -/
def Obligations.GuardAcquireGoesOut : Prop :=
  (∀ f s t a, Goes s t f.toHead → srcW s t f.A = .ok a → MayAcquire s t a → f.opv = 0 →
    ∃ s' u, exec (.gacq f) s = .next s' ∧
      s'.flight = s.flight ++ [.guardRequestAtHome (guardReq t (guardOfWord a) s.nextId
        (.acquire (f.fl.getLsbD 0) (f.fl.getLsbD 1)) none none (f.wd == 0) (f.wd == 1 || f.wd == 2))] ∧
      s'.thread? t.ref = some u ∧ u.run = .waiting .reply ∧ u.pc = t.pc ∧ u.g = t.g ∧ u.holds = t.holds)
  ∧ (∀ f s t a n i, Goes s t f.toHead → srcW s t f.A = .ok a → MayAcquire s t a → f.opv = 1 → f.D = .g i →
    freeSeq s t 2 = some n → Fin.ofNat 8 f.opk.toNat ≠ 0 →
    ∃ s' u, exec (.gacq f) s = .next s' ∧
      s'.flight = s.flight ++ [.guardRequestAtHome (guardReq t (guardOfWord a) s.nextId
        (.acquire (f.fl.getLsbD 0) (f.fl.getLsbD 1)) (some (mkTag 6 n)) (some (mkTag 6 (n + 1))) false true)] ∧
      s'.thread? t.ref = some u ∧ u.getK (Fin.ofNat 8 f.opk.toNat) = .pend (mkTag 6 n) ∧ u.getG i = .pend (mkTag 6 (n + 1)) ∧
      u.run = t.run ∧ u.holds = t.holds)
  ∧ ∀ f s t a n, Goes s t f.toHead → srcW s t f.A = .ok a → guardOfWord a < (s.ctxD t.ref.ctx).gsize →
    guardRouter s t = .ok () → freeSeq s t 1 = some n →
    ∃ s' u, exec (.gstat f) s = .next s' ∧
      s'.flight = s.flight ++ [.guardRequestAtHome (guardReq t (guardOfWord a) s.nextId .stat none (some (mkTag 6 n)) false false)] ∧
      s'.thread? t.ref = some u ∧ u.g = (t.setPend f.D (mkTag 6 n)).g ∧ u.holds = t.holds

/-- O18. R127, R128, R129, R130: `grel` gives up a hold, and `wg` where it named it, and tells the guard's home; `ghand` asks
the home to hand the guard over, and keeps the hold until the home answers; `gbind` names the write guard, or none; `gpub`
sends the first of its lines. That `ghand` always goes to the home, that `gpub` is one access of many units, when the cap of
R265 is met and whom holds given to an engine serve are the model's readings (log entries 10, 39, 40, 41). -/
def Obligations.GuardUseGoesOut : Prop :=
  (∀ f s t a h, Goes s t f.toHead → srcW s t f.A = .ok a → t.pend = [] → cmdsQuiet s t = true →
    holdOn t.holds (guardOfWord a) = some h → (h.excl = true → s.capOk t.ref.ctx true (guardOfWord a) = true) →
    guardRouter s t = .ok () →
    ∃ s' u, exec (.grel f) s = .next s' ∧
      .guardRequestAtHome (guardReq t (guardOfWord a) s.nextId .release none none false false) ∈ s'.flight ∧
      s'.thread? t.ref = some u ∧ u.holds = t.holds.filter (fun x => x.guard != guardOfWord a) ∧
      u.wg = (if t.wg.getLsbD 63 ∧ guardOfWord t.wg = guardOfWord a then 0 else t.wg))
  ∧ (∀ f s t a b h, Goes s t f.toHead → srcW s t f.A = .ok a → srcW s t f.B = .ok b → t.pend = [] → cmdsQuiet s t = true →
    holdOn t.holds (guardOfWord a) = some h → h.excl = true → f.opv = 0 →
    (b.extractLsb' 0 20).toNat ≠ t.ref.agent → (engineOf (t.ref.agent / 16) (b.extractLsb' 0 20).toNat).isSome →
    guardRouter s t = .ok () →
    ∃ s' u, exec (.ghand f) s = .next s' ∧
      s'.flight = s.flight ++ [.guardRequestAtHome (guardReq t (guardOfWord a) s.nextId (.handTo (b.extractLsb' 0 20).toNat)
        none none false false)] ∧
      s'.thread? t.ref = some u ∧ u.holds = t.holds)
  ∧ (∀ f s t a b h x, Goes s t f.toHead → srcW s t f.A = .ok a → srcW s t f.B = .ok b → t.pend = [] → cmdsQuiet s t = true →
    holdOn t.holds (guardOfWord a) = some h → h.excl = true → f.opv = 0 → (b.extractLsb' 0 20).toNat < 0x80000 →
    (b.extractLsb' 0 20).toNat ≠ t.ref.agent → (b.extractLsb' 0 20).toNat / 16 = t.ref.agent / 16 →
    (s.ctxD t.ref.ctx).has (t.ref.agent / 16) = true →
    (s.ctxD t.ref.ctx).inScope (guardOfWord a) (t.ref.agent / 16) = true →
    s.agent? t.ref.ctx (b.extractLsb' 0 20).toNat = some x →
    canTake s t.ref.ctx t.ref.agent (.handSlot (guardOfWord a) (b.extractLsb' 0 20).toNat) = true → guardRouter s t = .ok () →
    ∃ s', exec (.ghand f) s = .next s' ∧
      .guardRequestAtHome (guardReq t (guardOfWord a) s.nextId (.handTo (b.extractLsb' 0 20).toNat) none none false false)
        ∈ s'.flight)
  ∧ (∀ f s t, Goes s t f.toHead → f.A = .zr →
    exec (.gbind f) s = .next (ended (s.updThread t.ref (fun u => { u with wg := 0 })) t.ref true))
  ∧ (∀ f s t a h, Goes s t f.toHead → f.A ≠ .zr → srcW s t f.A = .ok a → holdOn t.holds (guardOfWord a) = some h →
    exec (.gbind f) s = .next (ended (s.updThread t.ref (fun u =>
      { u with wg := 1 <<< 63 ||| (a.extractLsb' 0 22).setWidth 64 })) t.ref true))
  ∧ ∀ f s t a b, Goes s t f.toHead → srcW s t f.A = .ok a → srcW s t f.B = .ok b → a.toNat % 128 = 0 → b.toNat % 128 = 0 →
    b ≠ 0 → t.pend = [] → cmdsQuiet s t = true → routerGate s t a.toNat = .ok () →
    let line (i : Nat) : Access :=
      mkAccess s t (.gpub (f.fl.extractLsb' 0 3).toNat) (a + BitVec.ofNat 64 (128 * i)).toNat 128 0 0 0 s.nextId i
    ∃ s' p, exec (.gpub f) s = .next s' ∧ Asked s s' t p [line 0] ∧
      p.units = (List.range (b.toNat / 128)).map (fun i => (line i, false))

namespace Sys2Proof.Slice0

/-- The guard of a context as the state holds it. -/
def guardIn (s : State) (ctx g : Nat) : Guard := (s.ctxD ctx).guard g

end Sys2Proof.Slice0

/-- O19. R126, R127, R130, R131, R230, R381: at the guard's home, a free guard is granted exclusively to an acquirer nobody
stands before, its count with it, and one that is not held exclusively is shared with one more; a guard held exclusively
refuses a thread that takes no ticket; a release of an exclusive hold raises the count and frees the guard, and of a shared one
counts a sharer less, the last of which applies the held updates; a handover makes its target the holder with the count raised,
and gives the hold to a thread that has room, or for the next command of an engine; `gstat` answers. A granted `gacq` that
waits enters the hold, takes the count to D, names the guard in `wg` under BIND and goes on; a Husk slot keeps its hold and
releases; a port agent's command completes; a released engine tells nobody. What a request that may not be served yet waits for
is the model's reading (log entries 31, 39, 40). -/
def Obligations.GuardHomeAndReply : Prop :=
  ((∀ s c r b, s.ctx? r.ctx = some c → r.op = .acquire true b → (guardIn s r.ctx r.idx).isFree = true →
    (∀ w ∈ s.waiters, w.on r.ctx (.guard r.idx) = false) → s.mustRefuse r.ctx r.agent r.n = false →
    ∃ s', exec (.guardRequestAtHome r) s = .next s' ∧
      guardIn s' r.ctx r.idx = { guardIn s r.ctx r.idx with excl := true, holder := r.agent } ∧
      .guardReply ⟨r, true, (guardIn s r.ctx r.idx).count, 0⟩ ∈ s'.flight)
  ∧ (∀ s r b t, r.op = .acquire true b → r.who = .thread t → (guardIn s r.ctx r.idx).isFree = false → r.parks = false →
    r.tickets = false →
    exec (.guardRequestAtHome r) s = .next (s.post [.guardReply ⟨r, false, 0, 0⟩]))
  ∧ (∀ s c r, s.ctx? r.ctx = some c → r.op = .release → (guardIn s r.ctx r.idx).excl = true →
    s.heldOf r.ctx true r.idx = false → s.capOk r.ctx true r.idx = true →
    ∃ s', exec (.guardRequestAtHome r) s = .next s' ∧
      guardIn s' r.ctx r.idx = ⟨false, 0, ((guardIn s r.ctx r.idx).count + 1) % 2 ^ 32, 0⟩ ∧
      .guardReply ⟨r, true, 0, 0⟩ ∈ s'.flight)
  ∧ (∀ s c r b, s.ctx? r.ctx = some c → r.op = .acquire false b → (guardIn s r.ctx r.idx).excl = false →
    (∀ w ∈ s.waiters, w.on r.ctx (.guard r.idx) = false) → s.mustRefuse r.ctx r.agent r.n = false →
    ∃ s', exec (.guardRequestAtHome r) s = .next s' ∧
      guardIn s' r.ctx r.idx = { guardIn s r.ctx r.idx with sharers := (guardIn s r.ctx r.idx).sharers + 1 } ∧
      .guardReply ⟨r, true, (guardIn s r.ctx r.idx).count, 0⟩ ∈ s'.flight)
  ∧ (∀ s c r, s.ctx? r.ctx = some c → r.op = .release → (guardIn s r.ctx r.idx).excl = false →
    ∃ s', exec (.guardRequestAtHome r) s = .next s' ∧
      guardIn s' r.ctx r.idx = { guardIn s r.ctx r.idx with sharers := (guardIn s r.ctx r.idx).sharers - 1 } ∧
      ((guardIn s r.ctx r.idx).sharers ≤ 1 → s'.heldOf r.ctx true r.idx = false) ∧ .guardReply ⟨r, true, 0, 0⟩ ∈ s'.flight)
  ∧ (∀ s c r t target x, s.ctx? r.ctx = some c → r.op = .handTo target → r.who = .thread t → s.capOk r.ctx true r.idx = true →
    engineOf (t.agent / 16) target = none → c.inScope r.idx (target / 16) = true → s.agent? r.ctx target = some x →
    handRoom s r x = true → s.mustRefuse r.ctx r.agent r.n = false →
    let count := ((guardIn s r.ctx r.idx).count + 1) % 2 ^ 32
    ∃ s' u, exec (.guardRequestAtHome r) s = .next s' ∧
      guardIn s' r.ctx r.idx = { guardIn s r.ctx r.idx with holder := target, count := count } ∧
      s'.thread? x.ref = some u ∧ ⟨r.idx, true, count⟩ ∈ u.holds ∧ .guardReply ⟨r, true, 0, 0⟩ ∈ s'.flight)
  ∧ (∀ s c r t target e x, s.ctx? r.ctx = some c → r.op = .handTo target → r.who = .thread t → s.capOk r.ctx true r.idx = true →
    engineOf (t.agent / 16) target = some e → s.thread? t = some x →
    let count := ((guardIn s r.ctx r.idx).count + 1) % 2 ^ 32
    ∃ s' u, exec (.guardRequestAtHome r) s = .next s' ∧
      guardIn s' r.ctx r.idx = { guardIn s r.ctx r.idx with holder := target, count := count } ∧
      s'.thread? t = some u ∧ (e, ⟨r.idx, true, count⟩) ∈ u.handed ∧ .guardReply ⟨r, true, 0, 0⟩ ∈ s'.flight)
  ∧ ∀ s r, r.op = .stat → ∃ s' w, exec (.guardRequestAtHome r) s = .next s' ∧
      s' = s.post [.guardReply ⟨r, true, 0, w⟩] ∧ (w.extractLsb' 52 6).toNat = min (guardIn s r.ctx r.idx).sharers 63)
  ∧ ((∀ s t rep f p x b, rep.req.who = .thread t.ref → s.thread? t.ref = some t → rep.req.op = .acquire x b →
    t.pend.find? (fun p => p.id == rep.req.acc) = some p → p.req = some (.gacq f) → rep.granted = true → (∀ d, f.D ≠ .port d) →
    ∃ s' u, exec (.guardReply rep) s = .next s' ∧ s'.thread? t.ref = some u ∧
      u.holds = t.holds ++ [⟨rep.req.idx, x, rep.count⟩] ∧ u.run = .ready ∧ u.ts.getLsbD 0 = false ∧
      u.wg = (if b then BitVec.ofNat 64 (2 ^ 63 + rep.req.idx % 2 ^ 22) else t.wg) ∧
      u.g = (t.setFull f.D (((BitVec.ofNat 64 rep.count : Word)).setWidth 1024)).g)
  ∧ (∀ s rep die slot x b, rep.req.who = .husk die slot → rep.req.op = .acquire x b →
    exec (.guardReply rep) s = .next ((s.updSlot die slot (fun y => { y with hold := some ⟨rep.req.idx, x, rep.count⟩ })).post
      [.huskRelease die slot]))
  ∧ (∀ s rep q n, rep.req.who = .port q n →
    ∃ s', exec (.guardReply rep) s = .next s' ∧ s'.done = s.done ++ [⟨⟨q, rep.req.ctx, n⟩, 0, 0⟩])
  ∧ ∀ s rep t n, rep.req.who = .engine t n → exec (.guardReply rep) s = .next s)

/-- O20. R116, R121, R265, R289, R290: a close leaves no held update of its binding; a ticket's end removes its entry; the end
of an unused reservation leaves no reservation with the entry; what the cap kept goes on. How a close and the cap have an
operation wait is the model's reading (log entries 39, 40). -/
def Obligations.WaitingListEvents : Prop :=
  (∀ s ctx g bd, ∃ s', exec (.fredClose ctx g bd) s = .next s' ∧ s'.heldOf ctx g bd = false)
  ∧ (∀ s id w, s.waiters.find? (fun w => w.id == id) = some w →
    ∃ s', exec (.ticketExpiry id) s = .next s' ∧ ∀ x ∈ s'.waiters, x.id ≠ id)
  ∧ (∀ s id w, s.waiters.find? (fun w => w.id == id) = some w →
    ∃ s', exec (.reservationExpiry id) s = .next s' ∧ ∀ x ∈ s'.waiters, x.id = id → x.reserved = none)
  ∧ ∀ s idx i, s.capped[idx]? = some i →
    ∃ s', exec (.clockCapRelease idx) s = .next s' ∧ s'.capped = s.capped.eraseIdx idx ∧ s'.flight = s.flight ++ [i]

namespace Sys2Proof.Slice0

/-- R46, R166: whether lanes are pairs (L = 0b01), and the lane width. -/
def paired (f : RForm) : Bool := f.fn.extractLsb' 10 2 == 1

/-- R166: w. -/
def laneWidth (f : RForm) : Nat := if paired f then 64 else 32

/-- Lane i of an operand of one register or a pair, as w bits (R155). -/
def laneOf (w : Nat) (v : VWord × VWord) (i : Nat) : BitVec w := (lane v.2 i ++ lane v.1 i).setWidth w

/-- The registers of w-bit lanes: the low halves, and on a pair the high halves (R38, R155). -/
def lowHalves {w : Nat} (r : Nat → BitVec w) : VWord := ofLanes (fun i => (r i).setWidth 32)

/-- The upper register of a pair. -/
def highHalves {w : Nat} (r : Nat → BitVec w) : VWord := ofLanes (fun i => (r i).extractLsb' 32 32)

/-- R156: the lanes that the mask leaves out are 0. -/
def maskedLanes {w : Nat} (k : KWord) (r : Nat → BitVec w) (i : Nat) : BitVec w := if k.getLsbD i then r i else 0

/-- R57 on lanes of w bits. -/
def saturatingLane (w sat : Nat) (op : Int → Int → Int) (a b : BitVec w) : BitVec w :=
  if sat = 1 then BitVec.ofInt w (min (max (op a.toInt b.toInt) (-(2 ^ (w - 1)))) (2 ^ (w - 1) - 1))
  else if sat = 2 then BitVec.ofInt w (min (max (op a.toNat b.toNat) 0) (2 ^ w - 1))
  else BitVec.ofInt w (op a.toInt b.toInt)

/-- FN[21:20] and FN[19] (R45). -/
def satOf (f : RForm) : Nat := (f.fn.extractLsb' 4 2).toNat

/-- FN[19] (R45). -/
def fn19 (f : RForm) : Bool := f.fn.getLsbD 3

/-- The vector integer instructions whose lane i comes from lane i of a, b and D, with what each makes of them (R166, R167). -/
def laneTable : Instr → Option (RForm × VecShape × ((w : Nat) → BitVec w → BitVec w → BitVec w → BitVec w))
  | .vadd f => some (f, {}, fun w a b _ => saturatingLane w (satOf f) (· + ·) a b)
  | .vsub f => some (f, {}, fun w a b _ => saturatingLane w (satOf f) (· - ·) a b)
  | .vmul f => some (f, {}, fun _ a b _ => a * b)
  | .vmulh f => some (f, {}, fun w a b _ =>
      if fn19 f then BitVec.ofNat w (a.toNat * b.toNat / 2 ^ w) else BitVec.ofInt w (a.toInt * b.toInt / 2 ^ w))
  | .vmad f => some (f, { readD := true }, fun _ a b d => a * b + d)
  | .vwad f => some (f, { pairB := false }, fun w a b _ => a + (if fn19 f then b else (b.setWidth 32).signExtend w))
  | .vand f => some (f, {}, fun _ a b _ => a &&& b)
  | .vor f => some (f, {}, fun _ a b _ => a ||| b)
  | .vxor f => some (f, {}, fun _ a b _ => a ^^^ b)
  | .vshl f => some (f, {}, fun w a b _ => if w ≤ b.toNat then 0 else a <<< b.toNat)
  | .vshr f => some (f, {}, fun w a b _ => if w ≤ b.toNat then 0 else a >>> b.toNat)
  | .vsar f => some (f, {}, fun w a b _ =>
      if w ≤ b.toNat then (if a.msb then BitVec.allOnes w else 0) else a.sshiftRight b.toNat)
  | .vmin f => some (f, {}, fun _ a b _ => if a.slt b then a else b)
  | .vmax f => some (f, {}, fun _ a b _ => if a.slt b then b else a)
  | .vminu f => some (f, {}, fun _ a b _ => if a.ult b then a else b)
  | .vmaxu f => some (f, {}, fun _ a b _ => if a.ult b then b else a)
  | .vabs f => some (f, { readB := false }, fun w a _ _ =>
      if a = BitVec.intMin w ∧ satOf f = 1 then BitVec.intMax w else if a.msb then -a else a)
  | _ => none

/-- The sources of a vector entry are readable, with these values (R155, R157): D counts where the entry reads it. -/
structure VecReads (f : RForm) (sh : VecShape) (t : Thread) (a b d : VWord × VWord) (k : KWord) : Prop where
  a : srcL t (paired f && sh.pairA) f.A = .ok a
  b : if sh.readB then srcL t (paired f && sh.pairB) f.B = .ok b else b = (0, 0)
  d : if sh.readD then srcL t (paired f) f.D = .ok d else d = (0, 0)
  k : t.getK f.msk = .full k

end Sys2Proof.Slice0

/-- O21. R155-R157, R166, R167: a vector integer instruction writes to each selected lane of D what its entry gives, and 0 to
the others. -/
def Obligations.VectorIntegerResult : Prop :=
  ∀ i f sh op s t a b d k, laneTable i = some (f, sh, op) → Goes s t f.toHead → VecReads f sh t a b d k →
    let r := maskedLanes k (fun i => op (laneWidth f) (laneOf _ a i) (laneOf _ b i) (laneOf _ d i))
    exec i s = .next (ended (writeL (vecEat f sh s t.ref) t.ref (paired f) f.D (lowHalves r) (highHalves r)) t.ref true)

/-- O22. R165: `vbc` spreads a word, `viota` counts from it, `vext` takes a lane out, `vins` puts one in. -/
def Obligations.LaneMoveResult : Prop :=
  (∀ f s t a k, Goes s t f.toHead → srcW s t f.A = .ok a → t.getK f.msk = .full k →
    let r := maskedLanes k (fun _ => a.setWidth (laneWidth f))
    exec (.vbc f) s = .next (ended (writeL (consumeOne s t.ref f.A (SrcMod.ofCode f.ma)) t.ref (paired f) f.D
      (lowHalves r) (highHalves r)) t.ref true))
  ∧ (∀ f s t a k, Goes s t f.toHead → srcW s t f.A = .ok a → t.getK f.msk = .full k →
    let r := maskedLanes k (fun i => a.setWidth (laneWidth f) + BitVec.ofNat _ i)
    exec (.viota f) s = .next (ended (writeL (consumeOne s t.ref f.A (SrcMod.ofCode f.ma)) t.ref (paired f) f.D
      (lowHalves r) (highHalves r)) t.ref true))
  ∧ (∀ f s t a b, Goes s t f.toHead → srcL t (paired f) f.A = .ok a → srcW s t f.B = .ok b →
    let x := laneOf (laneWidth f) a (b.extractLsb' 0 5).toNat
    exec (.vext f) s = .next (ended (writeW (consumeOne (consumeL s t.ref (paired f) f.A (SrcMod.ofCode f.ma)) t.ref f.B
      (SrcMod.ofCode f.mb)) t.ref f.D (if fn19 f then x.signExtend 64 else x.setWidth 64)) t.ref true))
  ∧ ∀ f s t a b d, Goes s t f.toHead → srcW s t f.A = .ok a → srcW s t f.B = .ok b → srcL t (paired f) f.D = .ok d →
    let r (i : Nat) : BitVec (laneWidth f) := if i = (b.extractLsb' 0 5).toNat then a.setWidth _ else laneOf _ d i
    exec (.vins f) s = .next (ended (writeL (consumeAB s t.ref f false) t.ref (paired f) f.D (lowHalves r) (highHalves r))
      t.ref true)

namespace Sys2Proof.Slice0

/-- R147, R149: node N(l, i) of the tree over leaves some of which are absent. -/
def node {α : Type} (comb : α → α → α) (leaf : Nat → Option α) : Nat → Nat → Option α
  | 0, i => leaf i
  | l + 1, i => combOpt comb (node comb leaf l (2 * i)) (node comb leaf l (2 * i + 1))

/-- R148: the blocks that make the scan at lane i, from level l down: those whose power of two i + 1 holds. -/
def scanned {α : Type} (comb : α → α → α) (tree : Nat → Nat → Option α) (i : Nat) : Nat → Nat → Option α → Option α
  | 0, start, acc => if (i + 1).testBit 0 then combOpt comb acc (tree 0 start) else acc
  | l + 1, start, acc =>
    if (i + 1).testBit (l + 1) then scanned comb tree i l (start + 2 ^ (l + 1)) (combOpt comb acc (tree (l + 1) (start / 2 ^ (l + 1))))
    else scanned comb tree i l start acc

/-- R168: the operation that OPR names, on lanes of w bits. -/
def combining (opr w : Nat) (a b : BitVec w) : BitVec w :=
  match opr with
  | 0 => a + b
  | 1 => if a.slt b then a else b
  | 2 => if a.slt b then b else a
  | 3 => if a.ult b then a else b
  | 4 => if a.ult b then b else a
  | 5 => a &&& b
  | 6 => a ||| b
  | _ => a ^^^ b

/-- R149: what an entirely absent reduction gives. -/
def absentAll (opr w : Nat) : BitVec w :=
  match opr with
  | 1 => BitVec.intMax w
  | 2 => BitVec.intMin w
  | 3 | 5 => BitVec.allOnes w
  | _ => 0

end Sys2Proof.Slice0

/-- O23. R147-R149, R168: `vscan` writes to each selected lane the combination of the selected lanes up to it; `vred` writes
the combination of all, extended by sign for add, min and max. -/
def Obligations.IntegerScanResult : Prop :=
  (∀ f s t a k, Goes s t f.toHead → srcL t (paired f) f.A = .ok a → t.getK f.msk = .full k →
    let op := combining (f.fn.extractLsb' 3 3).toNat (laneWidth f)
    let leaf (i : Nat) := if k.getLsbD i then some (laneOf (laneWidth f) a i) else none
    let r := maskedLanes k (fun i => (scanned op (node op leaf) i 5 0 none).getD 0)
    exec (.vscan f) s = .next (ended (writeL (consumeL s t.ref (paired f) f.A (SrcMod.ofCode f.ma)) t.ref (paired f) f.D
      (lowHalves r) (highHalves r)) t.ref true))
  ∧ ∀ f s t a k, Goes s t f.toHead → srcL t (paired f) f.A = .ok a → t.getK f.msk = .full k →
    let op := combining (f.fn.extractLsb' 3 3).toNat (laneWidth f)
    let leaf (i : Nat) := if k.getLsbD i then some (laneOf (laneWidth f) a i) else none
    let x := (node op leaf 5 0).getD (absentAll (f.fn.extractLsb' 3 3).toNat _)
    exec (.vred f) s = .next (ended (writeW (consumeL s t.ref (paired f) f.A (SrcMod.ofCode f.ma)) t.ref f.D
      (if (f.fn.extractLsb' 3 3).toNat < 3 then x.signExtend 64 else x.setWidth 64)) t.ref true)

namespace Sys2Proof.Slice0

/-- A predicate made of one bit for each lane. -/
def laneBits (p : Nat → Bool) : Word := (BitVec.ofBoolListLE ((List.range 32).map p)).setWidth 64

end Sys2Proof.Slice0

/-- O24. R47, R166, R167, R169: `vcmp` and `vfcmp` write one bit for each selected lane; `vsel` chooses lanes by its predicate
and writes every lane; `vperm` moves lanes. -/
def Obligations.LaneChoiceResult : Prop :=
  (∀ f s t a b k, Goes s t f.toHead → VecReads f {} t a b (0, 0) k →
    exec (.vcmp f) s = .next (ended (writeW (vecEat f {} s t.ref) t.ref f.D (laneBits (fun i => k.getLsbD i &&
      condition (laneWidth f) (f.fn.extractLsb' 6 4).toNat (laneOf _ a i) (laneOf _ b i)))) t.ref true))
  ∧ (∀ f s t a b k, Goes s t f.toHead → VecReads f {} t a b (0, 0) k →
    exec (.vfcmp f) s = .next (ended (writeW (vecEat f {} s t.ref) t.ref f.D (laneBits (fun i => k.getLsbD i &&
      condFp (f.fn.extractLsb' 6 4).toNat (decodeF 0 (lane a.1 i).toNat) (decodeF 0 (lane b.1 i).toNat)))) t.ref true))
  ∧ (∀ f s t a b k, Goes s t f.toHead → VecReads f {} t a b (0, 0) k →
    let r (i : Nat) : BitVec (laneWidth f) := if k.getLsbD i then laneOf _ a i else laneOf _ b i
    exec (.vsel f) s = .next (ended (writeL (vecEat f {} s t.ref) t.ref (paired f) f.D (lowHalves r) (highHalves r)) t.ref true))
  ∧ ∀ f s t a b k, Goes s t f.toHead → VecReads f { pairB := false } t a b (0, 0) k →
    let r := maskedLanes k (fun i => laneOf (laneWidth f) a ((lane b.1 i).extractLsb' 0 5).toNat)
    exec (.vperm f) s = .next (ended (writeL (vecEat f { pairB := false } s t.ref) t.ref (paired f) f.D
      (lowHalves r) (highHalves r)) t.ref true)

namespace Sys2Proof.Slice0

/-- R46: T of a floating-point word: 0 FP32, 1 packed BF16, 2 packed FP16. -/
def typeOf (f : RForm) : Nat := (f.fn.extractLsb' 10 2).toNat

/-- R138: the elements of a register in a type. -/
def elems (ty : Nat) : Nat := if ty = 0 then 32 else 64

/-- R138: the encoding of element e. -/
def elemOf (ty : Nat) (v : VWord) (e : Nat) : Nat :=
  if ty = 0 then (v.extractLsb' (32 * e) 32).toNat else (v.extractLsb' (16 * e) 16).toNat

/-- R138: a register whose elements have these encodings. -/
def register (ty : Nat) (x : Nat → Nat) : VWord :=
  if ty = 0 then ofLanes (fun i => BitVec.ofNat 32 (x i))
  else ofLanes (fun i => BitVec.ofNat 16 (x (2 * i + 1)) ++ BitVec.ofNat 16 (x (2 * i)))

/-- R156: whether the mask selects the lane that holds element e. -/
def selects (k : KWord) (ty e : Nat) : Bool := k.getLsbD (if ty = 0 then e else e / 2)

/-- A word as the reads of a floating-point entry see it: T makes no pairs (R169). -/
def unpaired (f : RForm) : RForm := { f with fn := f.fn &&& 0x3FF }

/-- The floating-point instructions whose element e comes from element e of a, b and D, with the exact value that is then
rounded once (R143, R144, R169-R171); `down` is rounding toward minus infinity. -/
def floatTable : Instr → Option (RForm × VecShape × (XR → XR → XR → XR))
  | .vfadd f => some (f, {}, fun a b _ => XR.add (satOf f == 3) a b)
  | .vfsub f => some (f, {}, fun a b _ => XR.add (satOf f == 3) a (XR.neg b))
  | .vfmul f => some (f, {}, fun a b _ => XR.mul a b)
  | .vfma f => some (f, { readD := true }, fun a b d => XR.add (satOf f == 3) (XR.mul a b) d)
  | .vfmin f => some (f, {}, fun a b _ => XR.min a b)
  | .vfmax f => some (f, {}, fun a b _ => XR.max a b)
  | .vfdiv f => some (f, {}, fun a b _ => XR.div a b)
  | .vfsqrt f => some (f, { readB := false }, fun a _ _ => XR.sqrt a)
  | .vfrcp f => some (f, { readB := false }, fun a _ _ => XR.div (.fin false 1 0) a)
  | .vfrsq f => some (f, { readB := false }, fun a _ _ => XR.rsqrt a)
  | .vfexp2 f => some (f, { readB := false }, fun a _ _ => XR.exp2 a)
  | .vflog2 f => some (f, { readB := false }, fun a _ _ => XR.log2 a)
  | .vftanh f => some (f, { readB := false }, fun a _ _ => XR.tanh a)
  | _ => none

end Sys2Proof.Slice0

/-- O25. R138, R142, R143, R156, R169-R171: a floating-point instruction rounds its exact value once into each selected element
of D, and writes 0 to the others. -/
def Obligations.FloatResult : Prop :=
  ∀ i f sh op s t a b d k, floatTable i = some (f, sh, op) → typeOf f < 3 → Goes s t f.toHead →
    VecReads (unpaired f) sh t a b d k →
    let ty := typeOf f
    let x (v : VWord × VWord) (e : Nat) : XR := decodeF ty (elemOf ty v.1 e)
    let r (e : Nat) : Nat := if selects k ty e then roundF ty (satOf f) (op (x a e) (x b e) (x d e)) else 0
    exec i s = .next (ended (writeL (vecEat (unpaired f) sh s t.ref) t.ref false f.D (register ty r) 0) t.ref true)

namespace Sys2Proof.Slice0

/-- R147, R150: node (l, i) of the tree of a floating-point reduction; over packed elements the first level is exact. -/
def floatNode (opf ty : Nat) (leaf : Nat → Option XR) : Nat → Nat → Option XR
  | 0, i => leaf i
  | l + 1, i => combOpt (if ty ≠ 0 ∧ l = 0 ∧ opf = 0 then XR.add false else combFp opf)
      (floatNode opf ty leaf l (2 * i)) (floatNode opf ty leaf l (2 * i + 1))

end Sys2Proof.Slice0

/-- O26. R139-R142, R145-R150, R172-R174: `vfscan` and `vfred` form the nodes of the fixed tree and round what they deliver;
`vfcvt` rounds elements 0 to 31 into another format; `vmxd` widens a block; `vmxq` makes one, of the elements that the mask
selects. That elements of a wider count read as zero past element 31, and that a first-level node over packed elements is
exact, are the model's readings (log entry 35). -/
def Obligations.FloatScanAndConversionResult : Prop :=
  ((∀ f s t a k, Goes s t f.toHead → typeOf f < 3 → srcV t f.A = .ok a → t.getK f.msk = .full k →
    let ty := typeOf f
    let opf := (f.fn.extractLsb' 6 4).toNat
    let leaf (e : Nat) : Option XR := if selects k ty e then some (decodeF ty (elemOf ty a e)) else none
    let r (e : Nat) : Nat := if selects k ty e then
      roundF ty 0 ((scanned (combFp opf) (floatNode opf ty leaf) e (if ty = 0 then 5 else 6) 0 none).getD .nan) else 0
    exec (.vfscan f) s = .next (ended (writeL (consumeL s t.ref false f.A (SrcMod.ofCode f.ma)) t.ref false f.D
      (register ty r) 0) t.ref true))
  ∧ ∀ f s t a k, Goes s t f.toHead → typeOf f < 3 → srcV t f.A = .ok a → t.getK f.msk = .full k →
    let ty := typeOf f
    let opf := (f.fn.extractLsb' 6 4).toNat
    let leaf (e : Nat) : Option XR := if selects k ty e then some (decodeF ty (elemOf ty a e)) else none
    exec (.vfred f) s = .next (ended (writeW (consumeL s t.ref false f.A (SrcMod.ofCode f.ma)) t.ref f.D
      (BitVec.ofNat 64 (roundF ty 0 ((floatNode opf ty leaf (if ty = 0 then 5 else 6) 0).getD
        (match opf with | 0 => .fin false 0 0 | 1 => .inf false | _ => .inf true))))) t.ref true))
  ∧ ((∀ f s t a k, Goes s t f.toHead → srcV t f.A = .ok a → t.getK f.msk = .full k →
    let src := if fn19 f then (f.fn.extractLsb' 6 4).toNat else typeOf f
    let dst := if fn19 f then typeOf f else (f.fn.extractLsb' 6 4).toNat
    exec (.vfcvt f) s = .next (ended (writeL (consumeL s t.ref false f.A (SrcMod.ofCode f.ma)) t.ref false f.D
      (ofElems dst 32 (fun e => if k.getLsbD e then roundF dst (satOf f) (decodeF src (elemAt src a e)) else 0)) 0) t.ref true))
  ∧ (∀ f s t a k, Goes s t f.toHead → srcV t f.A = .ok a → t.getK f.msk = .full k →
    let F := (f.fn.extractLsb' 6 4).toNat
    let n := fieldBytes F
    exec (.vmxd f) s = .next (ended (writeL (consumeL s t.ref false f.A (SrcMod.ofCode f.ma)) t.ref false f.D
      (ofElems (typeOf f) 32 (fun e => if k.getLsbD e then roundF (typeOf f) (satOf f)
        (blockVal F (a.toNat % 2 ^ (8 * n)) e (vbyte a n).toNat) else 0)) 0) t.ref true))
  ∧ ∀ f s t a k, Goes s t f.toHead → srcV t f.A = .ok a → t.getK f.msk = .full k →
    let F := (f.fn.extractLsb' 6 4).toNat
    let xs := (List.range 32).map (fun e => if k.getLsbD e then decodeF 0 (lane a e).toNat else .fin false 0 0)
    exec (.vmxq f) s = .next (ended (writeL (consumeL s t.ref false f.A (SrcMod.ofCode f.ma)) t.ref false f.D
      (BitVec.ofNat 1024 (blockImage F (quantise F xs))) 0) t.ref true))

/-- O27. R16, R17, R18, R101, R205: a tagged delivery lands in the register that holds its tag, or nowhere, and its sequence
number is free again; an untagged deposit lands in an EMPTY register that no earlier one waits for, waits in the deposit latch
for one that is not EMPTY, and in the network while the latch is full, and is discarded when its thread context is not running.
-/
def Obligations.DeliveriesLand : Prop :=
  (∀ s d t o w, landsIn s d.t = false → s.thread? d.t = some t → t.holderOf d.tag = some o → d.val = .val w →
    ∃ s' u, exec (.taggedDelivery d) s = .next s' ∧ s'.thread? d.t = some u ∧
      u.g = (t.setFull o w).g ∧ u.v = (t.setFull o w).v ∧ u.k = (t.setFull o w).k ∧ seqOf d.tag ∉ u.seqs)
  ∧ (∀ s d t, landsIn s d.t = false → s.thread? d.t = some t → t.holderOf d.tag = none →
    ∃ s' u, exec (.taggedDelivery d) s = .next s' ∧ s'.thread? d.t = some u ∧
      u.g = t.g ∧ u.v = t.v ∧ u.k = t.k ∧ seqOf d.tag ∉ u.seqs)
  ∧ (∀ s d t, (s.image? d.ctx (d.agent / 16)).isNone → s.agent? d.ctx d.agent = some t → isEmpty t d.reg = true →
    (∀ x ∈ (s.core (s.homeOf t.ref)).depLatch, ¬(x.ctx = d.ctx ∧ x.agent = d.agent ∧ x.reg = d.reg)) →
    ∃ s' u, exec (.untaggedDeposit d) s = .next s' ∧ s'.thread? t.ref = some u ∧
      u.g = (t.setFull d.reg (d.val.setWidth 1024)).g ∧ u.k = (t.setFull d.reg (d.val.setWidth 1024)).k ∧
      ∀ r tag, d.pred = some (r, tag) → .taggedDelivery ⟨r, tag, .val (predWord true 5), none⟩ ∈ s'.flight)
  ∧ (∀ s d t, (s.image? d.ctx (d.agent / 16)).isNone → s.agent? d.ctx d.agent = some t → isEmpty t d.reg = false →
    (s.core (s.homeOf t.ref)).depLatch.length < 8 →
    ∃ s', exec (.untaggedDeposit d) s = .next s' ∧ s'.threads = s.threads ∧
      (s'.core (s.homeOf t.ref)).depLatch = (s.core (s.homeOf t.ref)).depLatch ++ [d])
  ∧ (∀ s d t, (s.image? d.ctx (d.agent / 16)).isNone → s.agent? d.ctx d.agent = some t → isEmpty t d.reg = false →
    8 ≤ (s.core (s.homeOf t.ref)).depLatch.length → exec (.untaggedDeposit d) s = .next (s.post [.untaggedDeposit d]))
  ∧ (∀ s d r tag, (s.image? d.ctx (d.agent / 16)).isNone → s.agent? d.ctx d.agent = none → d.pred = some (r, tag) →
    exec (.untaggedDeposit d) s = .next (s.post [.taggedDelivery ⟨r, tag, .val (predWord false 5), none⟩]))
  ∧ ∀ s c i d t, latchReady s (s.core c) = some (i, d, t) →
    ∃ s' u, exec (.depositLatchLand c) s = .next s' ∧ s'.thread? t.ref = some u ∧
      u.g = (t.setFull d.reg (d.val.setWidth 1024)).g ∧ u.k = (t.setFull d.reg (d.val.setWidth 1024)).k ∧
      (s'.core c).depLatch = (s.core c).depLatch.eraseIdx i

namespace Sys2Proof.Slice0

/-- R106: the register value that a scalar load of size bytes makes of what was read. -/
def loaded (sx : Bool) (size : Nat) (d : BitVec 1024) : Word :=
  let low := d.setWidth (8 * size)
  if sx then low.signExtend 64 else low.setWidth 64

end Sys2Proof.Slice0

/-- O28. R101, R106, R73, R20: the last acknowledgement of an access without a destination ends it; that of a scalar load sends
the register its value, extended as the instruction says; a fetched line puts its thread back in the rotation; the router's
acceptance makes the threads parked on it ready; an outbound message leaves, oldest first. When the answers of an access make
it over, what a waited load is, and how a router refuses are the model's readings (log entries 14, 16, 53). -/
def Obligations.AcknowledgementsArrive : Prop :=
  (∀ s r acc unit d w t p, landsIn s r = false → s.thread? r = some t → t.pend.find? (fun p => p.id == acc) = some p →
    p.tags = [] → (settleUnit p unit d w).allDone = true →
    ∃ s' u, exec (.acknowledgement (.thread r acc unit) d w) s = .next s' ∧ s'.thread? r = some u ∧
      u.pend = t.pend.filter (fun x => x.id != acc) ∧ u.g = t.g ∧ u.v = t.v ∧ u.k = t.k)
  ∧ (∀ s r acc d t p tag sx size, landsIn s r = false → s.thread? r = some t → t.pend.find? (fun p => p.id == acc) = some p →
    p.tags = [tag] → p.asm = .scalar sx size → 1 ≤ size → p.got = [] → p.pois = [] → (settleUnit p 0 (some d) none).allDone = true →
    ∃ s', exec (.acknowledgement (.thread r acc 0) (some d) none) s = .next s' ∧
      .taggedDelivery ⟨r, tag, .val ((loaded sx size d).setWidth 1024), some p.id⟩ ∈ s'.flight)
  ∧ (∀ s r t, s.thread? r = some t → t.run = .waiting .fetch →
    ∃ s' u, exec (.fetchLineArrival r) s = .next s' ∧ s'.thread? r = some u ∧ u.run = .ready ∧ u.pc = t.pc)
  ∧ (∀ s c t oc, t ∈ s.threads → t.run = .parked (.router c) oc →
    ∃ s', exec (.routerAccept c) s = .next s' ∧ (s'.core c).refusing = false ∧ { t with run := .ready } ∈ s'.threads)
  ∧ ∀ s c i l, (s.core c).outbox = i :: l → ∃ s', exec (.messageLeftCore c) s = .next s' ∧ (s'.core c).outbox = l ∧
      s'.flight = s.flight ++ [i]

namespace Sys2Proof.Slice0

/-- A place of which no byte that an access touches is protected by a queue, a guard table or a launch record (R124, R159, R206,
R274). -/
def Unprotected (s : State) (a : Access) (k : Nat) : Prop :=
  ∀ p ∈ touchedBytes a, inQueue s (k + p.1) p.2 = false ∧ inGuardTable s (k + p.1) p.2 = false ∧
    inRecord s { a with va := a.va + p.1, size := p.2 } = false

/-- A byte of the word of a core image's tag array that holds a line's metadata: the line lies in the image's share, before which
the tag array stands (R293, R295). -/
def TagByte (s : State) (l b : Nat) : Prop :=
  ∃ im ∈ s.images, im.complete = true ∧
    let share := im.region + im.core * 0x100000 + 0x65000
    share / 128 ≤ l ∧ l < share / 128 + 4096 ∧ share - 0x8000 + 8 * (l - share / 128) ≤ b ∧
      b < share - 0x8000 + 8 * (l - share / 128) + 8

end Sys2Proof.Slice0

/-- O29. R103, R113, R119, R120, R122, R261: at its home, a read that passes the check returns the bytes and changes nothing of
memory; a store that passes writes exactly its bytes and stamps the line for its writer, GUARDED under its write guard, else
PHASED for the innermost level instance of a launch's member in its phase, and FREE outside a launch, which a core image's tag
array shows too; an atomic leaves the operation's result and returns what was there; an access that fails the check in TRAP
mode has no effect at the home, and its race fault carries the line's metadata; refused or not, a store removes the line from
its core's near cache and its die's remote-data cache (R261). -/
def Obligations.HomeServesAccess : Prop :=
  (∀ s a k key r acc u t, placeOf s a = some (k, key) → Unprotected s a k → a.kind = .read →
    checkHome s a (s.md (lineOf k)) ≠ .fail → s.pois (lineOf k) = 0 → a.sink = .thread r acc u → s.threadAny? r = some t →
    ∃ s', exec (.accessAtHome a) s = .next s' ∧ s'.mem = s.mem ∧ s'.lines = s.lines ∧
      .acknowledgement a.sink (some (BitVec.ofNat 1024
        (forwardOwn t acc a.core a.va a.size (BitVec.ofNat 1024 (s.load k a.size key)).toNat))) none ∈ s'.flight)
  ∧ (∀ s a k key, s.Canonical → placeOf s a = some (k, key) → Unprotected s a k → a.kind = .write → 1 ≤ a.size → a.size < 128 →
    k % 128 + a.size ≤ 128 → s.lineKey (lineOf k) = key → checkHome s a (s.md (lineOf k)) = .pass →
    ∃ s', exec (.accessAtHome a) s = .next s' ∧ s'.load k a.size key = a.data.toNat % 2 ^ (8 * a.size) ∧
      (∀ b, b < k ∨ k + a.size ≤ b → ¬TagByte s (lineOf k) b → Memory.read s'.mem b = Memory.read s.mem b) ∧
      (∀ l, l ≠ lineOf k → s'.md l = s.md l) ∧ s'.ownerOf (lineOf k) = a.ctx ∧
      .acknowledgement a.sink none none ∈ s'.flight ∧
      (∀ h, writeHold a.st = some h → mdST (s'.md (lineOf k)) = 2 ∧ mdWR (s'.md (lineOf k)) = a.agent % 2 ^ 20 ∧
        mdBD (s'.md (lineOf k)) = h.guard % 2 ^ 22 ∧ mdSP (s'.md (lineOf k)) = h.count % 2 ^ 16) ∧
      (writeHold a.st = none → a.st.launch = none → mdST (s'.md (lineOf k)) = 0) ∧
      ∀ u l, writeHold a.st = none → a.st.launch = some u → s.launch? u = some l →
        mdST (s'.md (lineOf k)) = 1 ∧ mdWR (s'.md (lineOf k)) = a.agent % 2 ^ 20 ∧
        mdBD (s'.md (lineOf k)) = l.bdOf a.st.path % 2 ^ 22 ∧
        mdSP (s'.md (lineOf k)) = ((seenPhase a.st l a.st.path).getD 0) % 2 ^ 16 ∧ mdSC (s'.md (lineOf k)) = l.dom.getLastD 5 % 8)
  ∧ (∀ s a k key op, s.Canonical → placeOf s a = some (k, key) → Unprotected s a k → a.kind = .amo op →
    k % 128 + a.size ≤ 128 → 1 ≤ a.size → a.size ≤ 8 → s.lineKey (lineOf k) = key → s.pois (lineOf k) = 0 → checkHome s a (s.md (lineOf k)) = .pass →
    ∃ s', exec (.accessAtHome a) s = .next s' ∧
      s'.load k a.size key = AOp.apply op (8 * a.size) (s.load k a.size key) a.data.toNat % 2 ^ (8 * a.size) ∧
      (∀ b, b < k ∨ k + a.size ≤ b → ¬TagByte s (lineOf k) b → Memory.read s'.mem b = Memory.read s.mem b) ∧
      .acknowledgement a.sink (some (BitVec.ofNat 1024 (s.load k a.size key))) none ∈ s'.flight)
  ∧ ∀ s a k key r acc u, placeOf s a = some (k, key) → Unprotected s a k → checkHome s a (s.md (lineOf k)) = .fail →
    a.st.report = false → a.sink = .thread r acc u → a.kind = .write →
    exec (.accessAtHome a) s = .next ((s.dropCopy (s.mcOf a.ctx a.core) (lineOf k)).post
      [.faultReply r acc u ⟨.race, BitVec.ofNat 64 a.va, s.md (lineOf k), 0, false⟩])

namespace Sys2Proof.Slice0

/-- R301, R302: the record of a held fault of an access. -/
def accessRecord (t : Thread) (p : Pending) (f : FaultInfo) : List Word :=
  let c : CauseWord := { CauseWord.ofWord p.cw with acc := true, lvl := f.lvl, mal := f.mal }
  [c.word f.cause.num, p.pc, t.pc, t.ts, f.addr, faultData p, progOf p, f.info]

end Sys2Proof.Slice0

/-- O30. R257, R258, R300, R301, R304, R73, R75: an access whose translation a miss finds, in the die's shared TLB or by a
walk, goes on to its home at the address the leaf gives; one whose translation fails sends its fault; a fault reply is held
with its access; the thread takes the fault that is due, whose record in its frame has the access's own PC, address and fields,
and the access leaves its list; a thread whose fetch faults takes the fetch trap, or from a misaligned PC the target trap. That
the fetch from a misaligned PC is a target fault is the model's reading (log entry 31). -/
def Obligations.FaultsAreTaken : Prop :=
  (∀ s a x, s.translate (s.mcOf a.ctx a.core) a.ctx a.va (a.kind != .read) true = .ok x →
    ∃ s', exec (.pageWalk a) s = .next s' ∧
      s'.flight = s.flight ++ [.accessAtHome { a with pa := some x.pa, key := x.key, bypass := x.bypass }] ∧
      s'.threads = s.threads ∧ s'.mem = s.mem)
  ∧ (∀ s a f r acc u, s.translate (s.mcOf a.ctx a.core) a.ctx a.va (a.kind != .read) true = .error f → a.sink = .thread r acc u →
    (s.image? a.ctx a.core).isNone → exec (.pageWalk a) s = .next (s.post [.faultReply r acc u f]))
  ∧ (∀ s r acc u f t p, landsIn s r = false → s.thread? r = some t → p ∈ t.pend → p.id = acc → p.fault = none →
    ∃ s' x, exec (.faultReply r acc u f) s = .next s' ∧ s'.thread? r = some x ∧ { p with fault := some (u, f) } ∈ x.pend)
  ∧ (∀ s r t p f k key, s.Canonical → s.thread? r = some t → dueOf s t = .access p f → t.h = false → t.fam.handler ≠ 0 →
    k % 128 = 0 → spotOf s r.ctx (r.agent / 16) ((s.ctxD r.ctx).tfb + r.agent * 128) true true = .ok (.at_ k key) →
    s.lineKey (k / 128) = key →
    ∃ s' u, exec (.takeTrap r) s = .next s' ∧ s'.thread? r = some u ∧ u.h = true ∧ u.pc = t.fam.handler ∧
      u.trapped = .access p ∧ (∀ x ∈ u.pend, x.id ≠ p.id) ∧
      ∀ j < 8, Memory.readN s'.mem 8 (k + 8 * j) = ((accessRecord t p f).getD j 0).toNat)
  ∧ (∀ s r t, s.thread? r = some t → dueOf s t = .fetch →
    exec (.takeTrap r) s = .next (s.takeTrap t .fetch { addr := t.pc } t.pc t.pc .none))
  ∧ ∀ s r t, s.thread? r = some t → dueOf s t = .target →
    exec (.takeTrap r) s = .next (s.takeTrap t .target { addr := t.pc } t.pc t.pc .none)

namespace Sys2Proof.Slice0

/-- A Pod or accumulator that a thread may name in an engine command (R29, R184, R186): claimed, by its context, and no release
of it is queued. -/
structure Usable (s : State) (t : Thread) (o : MObj) (st : PodSt) (owner : Option Nat) : Prop where
  claimed : st ≠ .free
  own : owner = some t.ref.ctx
  kept : relQueued (queueOf false (s.core (s.homeOf t.ref)) t.ref.ctx) o = false

/-- A Pod of the thread's core that it may name. -/
def PodUsable (s : State) (t : Thread) (n : Nat) : Prop :=
  Usable s t (.pod n) ((s.core (s.homeOf t.ref)).pod n).st ((s.core (s.homeOf t.ref)).pod n).owner

/-- An accumulator of the thread's core that it may name. -/
def AccUsable (s : State) (t : Thread) (n : Nat) : Prop :=
  Usable s t (.acc n) ((s.core (s.homeOf t.ref)).acc n).st ((s.core (s.homeOf t.ref)).acc n).owner

/-- The conditions under which an engine command is appended (R176, R201): its queue has an entry for the thread, and the
thread's earlier accesses are acknowledged. A command that has waited for that keeps the condition of its issue, here none (R178). -/
def Appends (s : State) (t : Thread) (transfer : Bool) : Prop :=
  queueRoom s t transfer = true ∧ t.pend = [] ∧ ∀ g, t.cguard = some g → g = .open_

/-- A command stands at the end of the thread's queue (R176), open to start; with a destination of class G, D is PEND with the
tag of class 3 and number n that the command delivers to (R179). -/
def Appended (s : State) (t : Thread) (transfer : Bool) (op : CmdOp) (d : Opd) (o : Out) : Prop :=
  let queue (s : State) : CmdQueue := queueOf transfer (s.core (s.homeOf t.ref)) t.ref.ctx
  ∃ s' u c, o = .next s' ∧ s'.thread? t.ref = some u ∧ (queue s').waiting = (queue s).waiting ++ [c] ∧
    (queue s').started = (queue s).started ∧ c.op = op ∧ c.t = t.ref ∧ c.pc = t.pc ∧ c.guard = .open_ ∧
    (match d with
      | .g i => ∃ n, freeSeq s t 1 = some n ∧ c.dest = some (mkTag 3 n) ∧ u.getG i = .pend (mkTag 3 n)
      | _ => c.dest = none ∧ u.g = t.g)

end Sys2Proof.Slice0

/-- O31. R176, R179, R186-R196: each queued instruction of the matrix unit appends its command, with its operands as they are
at issue; the thread goes on. -/
def Obligations.MatrixCommandsAreQueued : Prop :=
  (∀ f s t, Goes s t f.toHead → Appends s t false → PodUsable s t f.hi →
    Appended s t false (.prel f.hi) .zr (exec (.prel f) s))
  ∧ (∀ f s t, Goes s t f.toHead → Appends s t false → AccUsable s t f.an →
    Appended s t false (.arel f.an) .zr (exec (.arel f) s) ∧ Appended s t false (.azero f.an) .zr (exec (.azero f) s))
  ∧ (∀ f s t a b, Goes s t f.toHead → Appends s t false → PodUsable s t f.hi → srcW s t f.A = .ok a → srcW s t f.B = .ok b →
    (f.lo = 1 ∨ f.lo = 2 → a.toNat % 2 = 0 ∧ b.toNat % 2 = 0) →
    Appended s t false (.pld f.hi f.lo (f.flag 0) a b) .zr (exec (.pld f) s) ∧
    Appended s t false (.pldt f.hi f.lo a b) .zr (exec (.pldt f) s))
  ∧ (∀ f s t, Goes s t f.toHead → Appends s t false → AccUsable s t f.an → PodUsable s t f.hi → PodUsable s t f.lo →
    mmaPair (fmtAt s (s.homeOf t.ref) t.ref.ctx f.hi) (fmtAt s (s.homeOf t.ref) t.ref.ctx f.lo) = true →
    (f.flag 1 = true → ((s.core (s.homeOf t.ref)).acc f.an).mode ≠ 0) →
    Appended s t false (.mma f.an f.hi f.lo (f.flag 1)) .zr (exec (.mma f) s))
  ∧ (∀ f s t a b, Goes s t f.toHead → Appends s t false → AccUsable s t f.an → srcW s t f.A = .ok a → srcW s t f.B = .ok b →
    ((∃ i, f.D = .g i) → (freeSeq s t 1).isSome) →
    Appended s t false (.drn f.an (f.flag 1) (f.fn.getLsbD 7) (f.fn.getLsbD 6) (f.fn.getLsbD 5) (f.fn.getLsbD 4) (f.flag 0)
      f.lo a b) f.D (exec (.drn f) s))
  ∧ (∀ f s t a b, Goes s t f.toHead → Appends s t false → AccUsable s t f.an → srcW s t f.A = .ok a → srcW s t f.B = .ok b →
    ((∃ i, f.D = .g i) → (freeSeq s t 1).isSome) → Target a →
    Appended s t false (.drnm f.an (f.flag 1) (f.fn.getLsbD 7) (f.fn.getLsbD 6) (f.flag 0) a b) f.D (exec (.drnm f) s))
  ∧ ∀ f s t a, Goes s t f.toHead → Appends s t false → srcW s t f.A = .ok a → a.toNat % 16 = 0 →
    Appended s t false (.atbl a) .zr (exec (.atbl f) s)

namespace Sys2Proof.Slice0

/-- Whether a queued command is a release of an object (R186). -/
def isRelease : MObj → CmdOp → Bool
  | .pod n, .prel m => n == m
  | .acc n, .arel m => n == m
  | _, _ => false

/-- Whether a queued command makes an object PEND (R179): a load of a Pod, an `mma` into an accumulator, its `azero`. -/
def isFill : MObj → CmdOp → Bool
  | .pod n, .pld m _ _ _ _ => n == m
  | .pod n, .pldt m _ _ _ => n == m
  | .acc n, .mma m _ _ _ => n == m
  | .acc n, .azero m => n == m
  | _, _ => false

/-- The state code of an object of the matrix unit in `mstat` (R28, R198), to a context whose queue is `q`. -/
def shownCode (ctx : Nat) (q : CmdQueue) (o : MObj) (st : PodSt) (owner : Option Nat) : BitVec 3 :=
  match st with
  | .free => 0b000
  | _ =>
    if owner ≠ some ctx then 0b110
    else if q.waiting.any (fun c => isRelease o c.op) then 0b101
    else if q.waiting.any (fun c => isFill o c.op) ∨ q.started.any (fun x => isFill o x.cmd.op) then 0b010
    else match st with
      | .free => 0b000
      | .empty => 0b001
      | .pend => 0b010
      | .full => 0b011
      | .pois _ => 0b100

end Sys2Proof.Slice0

/-- O32. R185, R198: `pclm` takes a free Pod for its context, EMPTY; `aclm` a free accumulator, FULL with zeros and its MODE;
`mstat` writes the states of the Pods, three bits each, or of the accumulators with their modes and the number of commands that
wait. A state is coded as R28 and R198 code it: FREE 0b000, EMPTY 0b001, PEND 0b010, FULL 0b011, POIS 0b100, the context's own
with its release pending 0b101, another context's 0b110. That another context's object shows 0b110 where its release is pending
is the model's choice (log entry 57). -/
def Obligations.MatrixObjectsClaimed : Prop :=
  (∀ f s t, Goes s t f.toHead → canTake s t.ref.ctx t.ref.agent (.pod (s.homeOf t.ref) f.hi) = true →
    ∃ s', exec (.pclm f) s = .next s' ∧ (s'.core (s.homeOf t.ref)).pod f.hi = ⟨.empty, some t.ref.ctx, none, [], []⟩)
  ∧ (∀ f s t, Goes s t f.toHead → canTake s t.ref.ctx t.ref.agent (.accum (s.homeOf t.ref) f.an) = true →
    (f.fl.extractLsb' 0 2 = 0 ∨ (s.ctxD t.ref.ctx).mode.extractLsb' 4 2 ≠ 0) →
    ∃ s', exec (.aclm f) s = .next s' ∧ (s'.core (s.homeOf t.ref)).acc f.an =
      ⟨.full, some t.ref.ctx, f.fl.extractLsb' 0 2, List.replicate 1024 0⟩)
  ∧ (∀ f s t, Goes s t f.toHead → f.fl.getLsbD 0 = false → ∃ w, exec (.mstat f) s = .next (ended (writeW s t.ref f.D w) t.ref false) ∧
    let c := s.core (s.homeOf t.ref)
    ∀ n < 16, w.extractLsb' (3 * n) 3 = shownCode t.ref.ctx (queueOf false c t.ref.ctx) (.pod n) (c.pod n).st (c.pod n).owner)
  ∧ ∀ f s t, Goes s t f.toHead → f.fl.getLsbD 0 = true → ∃ w, exec (.mstat f) s = .next (ended (writeW s t.ref f.D w) t.ref false) ∧
    let c := s.core (s.homeOf t.ref)
    (∀ n < 4, w.extractLsb' (3 * n) 3 = shownCode t.ref.ctx (queueOf false c t.ref.ctx) (.acc n) (c.acc n).st (c.acc n).owner
      ∧ w.extractLsb' (12 + 2 * n) 2 = (c.acc n).mode)
    ∧ ((queueOf false c t.ref.ctx).waiting.length ≤ 16 →
      (w.extractLsb' 20 5).toNat = (queueOf false c t.ref.ctx).waiting.length)

namespace Sys2Proof.Slice0

/-- R195: what the stages of a drain, up to RQ, make of an element: the bias added and rounded, then under ACT the profile's segment
for it, of 256 from LO in steps of 2^EXP, its ends taking what lies outside, one rounding; a NaN becomes the canonical one. -/
def Staged (p : Profile) (act : Bool) (bias : Option (BitVec 32)) (y z : BitVec 32) : Prop :=
  let v (w : BitVec 32) : XR := decodeF 0 w.toNat
  let rne (x : XR) : BitVec 32 := BitVec.ofNat 32 (roundF 0 0 x)
  ∃ y1, (bias = none → y1 = y) ∧ (∀ b, bias = some b → y1 = rne (XR.add false (v y) (v b))) ∧ (act = false → z = y1) ∧
    (act = true → if (v y1).isNan then z = 0x7FC00000 else ∃ t : Nat, (v y1 = .inf true → t = 0) ∧ (v y1 = .inf false → t = 255) ∧
      ((v y1).isFin = true → (t : Int) =
        min (max (XR.floor ((XR.add false (v y1) (XR.neg (v p.lo))).scale (-(toSigned 32 p.exp.toNat)))) 0) 255) ∧
      z = rne (XR.add false (XR.mul (v (p.seg.getD t (0x3F800000, 0)).1) (v y1)) (v (p.seg.getD t (0x3F800000, 0)).2)))

/-- R195: accumulator `a` with every element, or in a pair mode every half H, +0. -/
def Cleared (a b : Acc) (h : Bool) : Prop :=
  b.st = a.st ∧ b.mode = a.mode ∧ b.el.length = a.el.length ∧
    ∀ e, e < a.el.length → accEl b h e = 0 ∧ (a.mode ≠ 0 → accEl b (!h) e = accEl a (!h) e)

/-- R195: a command has drained accumulator `n` of its core, as it was in the state before: its 32 rows hold the staged elements,
and ZC has cleared what was read. -/
def Drained (s s' : State) (mc ctx n : Nat) (h act zc : Bool) (bias : Option Nat) (y : Started) : Prop :=
  y.stage = 1 ∧ y.rows.length = 32 ∧ (∀ i < 32, ∀ j < 32, Staged ((s.core mc).profile ctx) act
      (bias.map (fun b => BitVec.ofNat 32 (b >>> (32 * j)))) (accEl ((s.core mc).acc n) h (32 * i + j)) ((y.rows.getD i []).getD j 0)) ∧
    (zc = false → (s'.core mc).acc n = (s.core mc).acc n) ∧ (zc = true → Cleared ((s.core mc).acc n) ((s'.core mc).acc n) h)

/-- R196: the bytes of a drained row and how many they are: FP32 values; values of the format, each rounded; or one MX block. -/
def RowForm (rq mx : Bool) (f : Nat) (ys : List (BitVec 32)) (n bytes : Nat) : Prop :=
  (rq = false → n = 128 ∧ bytes = packBits 32 (ys.map (·.toNat))) ∧
  (rq = true → mx = false → n = 4 * fmtBits f ∧
    bytes = packBits (fmtBits f) (ys.map (fun y => roundF f 0 (decodeF 0 y.toNat)))) ∧
  (rq = true → mx = true → n = 4 * fmtBits f + 1 ∧ bytes = blockImage f (quantise f (ys.map (fun y => decodeF 0 y.toNat))))

/-- R196: the writes that a `drn` has still to be told of are those of its rows, row i at a + i * STRIDE. -/
def RowsWritten (c : Cmd) (p : Profile) (rq mx : Bool) (f : Nat) (a : Word) (y : Started) : Prop :=
  ∃ img : List (Nat × Nat), img.length = 32 ∧
    (∀ i < 32, RowForm rq mx f (y.rows.getD i []) (img.getD i (0, 0)).1 (img.getD i (0, 0)).2) ∧
    y.need = (List.range 32).flatMap (fun i =>
      rowWrites c i (a + BitVec.ofNat 64 i * p.stride).toNat (img.getD i (0, 0)).1 (img.getD i (0, 0)).2)

/-- R196: the base and STRIDE of a `drn` are multiples of its rows' element size; a row that is an MX block has none. -/
def RowsAligned (p : Profile) (rq mx : Bool) (f : Nat) (a : Word) : Prop :=
  mx = false → let n := if rq then fmtBits f / 8 else 4
    a.toNat % n = 0 ∧ p.stride.toNat % n = 0

end Sys2Proof.Slice0

/-- O33. R177, R178, R186, R187, R189, R190, R192, R194-R196: when the command at the head of a matrix queue may start, a
release frees its object, `azero` makes its accumulator FULL with zeros, a load or `atbl` stands among the started commands
with all its reads to come, and an `mma` stands there and ends 32 cycles later; a drain with BIAS reads the 32 values at b
first, and one without it has its rows staged and ZC done, a `drn` with the writes of its rows to come at a + i * STRIDE in the
form that RQ, MX and F give; a head whose condition has failed goes without effect on Pods and accumulators, and delivers 0.
That a condition whose tag no register holds any longer counts as failed is the model's choice (log entry 7). -/
def Obligations.MatrixCommandStarts : Prop :=
  (∀ s mc ctx c n, matrixHead s mc ctx = some (c, .start) → c.op = .prel n →
    ∃ s', exec (.matrixCommandStart mc ctx) s = .next s' ∧ (s'.core mc).pod n = Pod.reset)
  ∧ (∀ s mc ctx c n, matrixHead s mc ctx = some (c, .start) → c.op = .arel n →
    ∃ s', exec (.matrixCommandStart mc ctx) s = .next s' ∧ (s'.core mc).acc n = Acc.reset)
  ∧ (∀ s mc ctx c n, matrixHead s mc ctx = some (c, .start) → c.op = .azero n →
    ∃ s', exec (.matrixCommandStart mc ctx) s = .next s' ∧
      (s'.core mc).acc n = { (s.core mc).acc n with st := .full, el := List.replicate 1024 0 })
  ∧ (∀ s mc ctx c, matrixHead s mc ctx = some (c, .start) → c.t.ctx = ctx →
    (∃ n f a b, (∃ mx, c.op = .pld n f mx a b) ∨ c.op = .pldt n f a b) →
    ∃ s' x, exec (.matrixCommandStart mc ctx) s = .next s' ∧ x ∈ (queueOf false (s'.core mc) ctx).started ∧ x.cmd = c ∧
      x.need = podReads c ∧ x.got = [])
  ∧ (∀ s mc ctx c a, matrixHead s mc ctx = some (c, .start) → c.t.ctx = ctx → c.op = .atbl a →
    ∃ s' x, exec (.matrixCommandStart mc ctx) s = .next s' ∧ x ∈ (queueOf false (s'.core mc) ctx).started ∧ x.cmd = c ∧
      x.need = profileReads c a ∧ x.got = [])
  ∧ (∀ s mc ctx c n pa pb h, matrixHead s mc ctx = some (c, .start) → c.t.ctx = ctx → c.op = .mma n pa pb h →
    ∃ s' x, exec (.matrixCommandStart mc ctx) s = .next s' ∧ x ∈ (queueOf false (s'.core mc) ctx).started ∧ x.cmd = c ∧
      x.pos = s.cycle + 32)
  ∧ (∀ s mc ctx c n h act rq mx zc f a b, s.Distinct → matrixHead s mc ctx = some (c, .start) → c.t.ctx = ctx →
    s.started? c.id = none → (∀ w, ((s.core mc).acc n).st ≠ .pois w) → c.op = .drn n h false act rq mx zc f a b →
    RowsAligned ((s.core mc).profile ctx) rq mx f a →
    ∃ s' x, exec (.matrixCommandStart mc ctx) s = .next s' ∧ x ∈ (queueOf false (s'.core mc) ctx).started ∧ x.cmd = c ∧ x.got = [] ∧
      Drained s s' mc ctx n h act zc none x ∧ RowsWritten c ((s.core mc).profile ctx) rq mx f a x)
  ∧ (∀ s mc ctx c n h act zc a b, s.Distinct → matrixHead s mc ctx = some (c, .start) → c.t.ctx = ctx →
    s.started? c.id = none → (∀ w, ((s.core mc).acc n).st ≠ .pois w) → c.op = .drnm n h false act zc a b →
    ∃ s' x, exec (.matrixCommandStart mc ctx) s = .next s' ∧ x ∈ (queueOf false (s'.core mc) ctx).started ∧ x.cmd = c ∧
      Drained s s' mc ctx n h act zc none x)
  ∧ (∀ s mc ctx c n b, s.Distinct → matrixHead s mc ctx = some (c, .start) → c.t.ctx = ctx → s.started? c.id = none →
    (∀ w, ((s.core mc).acc n).st ≠ .pois w) → b.toNat % 4 = 0 →
    ((∃ h act rq mx zc f a, c.op = .drn n h true act rq mx zc f a b) ∨ ∃ h act zc a, c.op = .drnm n h true act zc a b) →
    ∃ s' x, exec (.matrixCommandStart mc ctx) s = .next s' ∧ x ∈ (queueOf false (s'.core mc) ctx).started ∧ x.cmd = c ∧ x.stage = 0 ∧
      x.got = [] ∧ x.need.map (fun r => (r.va, r.size)) = linesOf b.toNat 128 ∧ (∀ r ∈ x.need, r.kind = .read) ∧
      (s'.core mc).acc n = (s.core mc).acc n)
  ∧ ∀ s mc ctx c, matrixHead s mc ctx = some (c, .discard) →
    ∃ s', exec (.matrixCommandStart mc ctx) s = .next s' ∧
      (∀ n, (s'.core mc).pod n = (s.core mc).pod n ∧ (s'.core mc).acc n = (s.core mc).acc n) ∧
      ∀ g, c.dest = some g → .taggedDelivery ⟨c.t, g, .val 0, none⟩ ∈ s'.flight

namespace Sys2Proof.Slice0

/-- R192, R193: no operand of an `mma` is poisoned. -/
def cleanPods (c : Core) (n pa pb : Nat) : Prop :=
  (∀ w, (c.acc n).st ≠ .pois w) ∧ (∀ w, (c.pod pa).st ≠ .pois w) ∧ ∀ w, (c.pod pb).st ≠ .pois w

/-- R189: a Pod side array of a format without scales: 32 entries, every byte 0x7F. -/
def Unscaled (side : List (BitVec 256)) : Prop := side.length = 32 ∧ ∀ b ∈ side, ∀ j < 32, b.extractLsb' (8 * j) 8 = 0x7F

/-- R190: the state of a Pod that a load has filled: POIS where a unit met poison. -/
def filled (x : Started) : PodSt :=
  match lowestPoison x.pois with
  | some w => .pois w
  | none => .full

end Sys2Proof.Slice0

/-- O34. R139, R179, R180, R188-R190, R192-R197: a Pod load that has all its bytes fills its Pod with its format tag; where the
format has no scales, each row of `pld` is the unit's bytes and every side byte is 0x7F, and where it has them each block's
element field and scale byte take their places in the row and the side array; `pldt` puts element c of memory row k at element
k of row c; a bias that has come is added to each row as R195 stages it; an `mma` on unpoisoned operands that pair makes each
element the rounded sums of its blocks; a profile that is accepted is the context's; a `drn` whose rows are written delivers 32
and is over; a row of a `drnm` leaves as a message of 16 words, two elements in each; a command fault stops its queue. -/
def Obligations.MatrixCommandsComplete : Prop :=
  (∀ s id p x n f mx a b, s.Distinct → s.started? id = some (p, x) → x.cmd.op = .pld n f mx a b →
    ∃ s', exec (.podLoadComplete id) s = .next s' ∧ ((s'.core p.mc).pod n).st = filled x ∧
      ((s'.core p.mc).pod n).fmt = some (f, mx) ∧ (mx = false → Unscaled ((s'.core p.mc).pod n).side ∧
        ((s'.core p.mc).pod n).rows = (List.range 32).map (fun i => BitVec.ofNat 4096 (x.bytesOf i))) ∧
      (mx = true → f ∈ [3, 4, 5, 6, 7, 8] → ∀ i < 32, let row := ((s'.core p.mc).pod n).rows.getD i 0
        row.toNat < 2 ^ (8 * (fmtK f / 32 * fieldBytes f)) ∧
        ∀ k < fmtK f / 32, row.toNat / 2 ^ (8 * (fieldBytes f * k)) % 2 ^ (8 * fieldBytes f) =
            x.bytesOf i / 2 ^ (8 * (k * (fieldBytes f + 1))) % 2 ^ (8 * fieldBytes f) ∧
          (((s'.core p.mc).pod n).side.getD i 0).toNat / 256 ^ k % 256 =
            x.bytesOf i / 2 ^ (8 * (k * (fieldBytes f + 1) + fieldBytes f)) % 256))
  ∧ (∀ s id p x n f a b, s.Distinct → s.started? id = some (p, x) → x.cmd.op = .pldt n f a b →
    ∃ s', exec (.podLoadComplete id) s = .next s' ∧ ((s'.core p.mc).pod n).st = filled x ∧
      ((s'.core p.mc).pod n).fmt = some (f, false) ∧ Unscaled ((s'.core p.mc).pod n).side ∧
      (f ∈ [1, 2, 3, 4] → ∀ u < 32, ∀ j < fmtK f / 32, ∀ c < 32,
        (((s'.core p.mc).pod n).rows.getD c 0).toNat / 2 ^ (fmtBits f * (u * (fmtK f / 32) + j)) % 2 ^ fmtBits f =
          x.bytesOf u / 2 ^ (32 * fmtBits f * j + fmtBits f * c) % 2 ^ fmtBits f))
  ∧ (∀ s id p x n pa pb h, s.started? id = some (p, x) → x.cmd.op = .mma n pa pb h → cleanPods (s.core p.mc) n pa pb →
    mmaPair ((s.core p.mc).pod pa).fmt ((s.core p.mc).pod pb).fmt = true →
    ∃ s', exec (.mmaComplete id) s = .next s' ∧ ((s'.core p.mc).acc n).st = .full ∧
      ((s'.core p.mc).acc n).el.length = ((s.core p.mc).acc n).el.length ∧
      ∀ i j e, i < 32 → j < 32 → ((s.core p.mc).acc n).el[32 * i + j]? = some e →
        let fx := ((((s.core p.mc).pod pa).fmt).getD (0, false)).1
        let fy := ((((s.core p.mc).pod pb).fmt).getD (0, false)).1
        let blocks := List.range (fmtK fx / 32)
        ((s'.core p.mc).acc n).el[32 * i + j]? = some (mmaEl ((s.core p.mc).acc n) h
          (blocks.map (blockVals ((s.core p.mc).pod pa) fx i)) (blocks.map (blockVals ((s.core p.mc).pod pb) fy j)) e))
  ∧ (∀ s id p x a, s.started? id = some (p, x) → x.cmd.op = .atbl a → x.pois = [] →
    profileOk (profileOf (x.bytesOf soleUnit)) = true →
    ∃ s', exec (.atblComplete id) s = .next s' ∧ (s'.core p.mc).profile p.q.ctx = profileOf (x.bytesOf soleUnit))
  ∧ (∀ s id p x g n h bias act rq mx zc f a b, s.Distinct → s.started? id = some (p, x) →
    x.cmd.op = .drn n h bias act rq mx zc f a b → x.pois = [] → x.cmd.dest = some g →
    ∃ s', exec (.drainComplete id) s = .next s' ∧ .taggedDelivery ⟨x.cmd.t, g, .val 32, none⟩ ∈ s'.flight ∧
      ∀ y ∈ (queueOf p.tr (s'.core p.mc) p.q.ctx).started, y.cmd.id ≠ id)
  ∧ (∀ s id p x n h act rq mx zc f a b part data, s.Distinct → s.started? id = some (p, x) →
    x.cmd.op = .drn n h true act rq mx zc f a b → x.stage = 0 → x.fault = none → x.pois = [] → x.doneUnits = [] →
    RowsAligned ((s.core p.mc).profile p.q.ctx) rq mx f a →
    let x1 := { x with got := x.got ++ [(soleUnit, part, data)] }
    x1.allDone = true → ∃ s' y, exec (.acknowledgement (.cmd id soleUnit part) (some data) none) s = .next s' ∧
      y ∈ (queueOf p.tr (s'.core p.mc) p.q.ctx).started ∧ y.cmd = x.cmd ∧
      Drained s s' p.mc p.q.ctx n h act zc (some (x1.bytesOf soleUnit)) y ∧
      RowsWritten x.cmd ((s.core p.mc).profile p.q.ctx) rq mx f a y)
  ∧ (∀ s id p x n h act zc a b part data, s.Distinct → s.started? id = some (p, x) →
    x.cmd.op = .drnm n h true act zc a b → x.fault = none → x.pois = [] →
    let x1 := { x with got := x.got ++ [(soleUnit, part, data)] }
    x1.allDone = true → ∃ s' y, exec (.acknowledgement (.cmd id soleUnit part) (some data) none) s = .next s' ∧
      y ∈ (queueOf p.tr (s'.core p.mc) p.q.ctx).started ∧ y.cmd = x.cmd ∧
      Drained s s' p.mc p.q.ctx n h act zc (some (x1.bytesOf soleUnit)) y)
  ∧ (∀ s id p x n h b act zc a c, s.started? id = some (p, x) → x.cmd.op = .drnm n h b act zc a c → x.stage = 1 → x.pos < 31 →
    x.pos ∉ x.doneUnits → rowRoom s (rowMsg x a) = true →
    ∃ ws, (∀ m < 16, ws[m]? = some (let e (j : Nat) : BitVec 32 := (x.rows.getD x.pos []).getD j 0
        e (2 * m + 1) ++ e (2 * m))) ∧ ws.length = 16 ∧
      exec (.drnmRow id) s = .next (msgArrive (s.updStarted id (fun x => { x with pos := x.pos + 1 }))
        ⟨x.cmd.t.ctx, TRef.cc x.cmd.t, a + BitVec.ofNat 64 (8 * x.pos), ws, false, heirFamily x.cmd.fam, .row id x.pos⟩))
  ∧ ∀ s id u f p x, s.Distinct → s.started? id = some (p, x) → (s.thread? x.cmd.t).isSome →
    ∃ s', exec (.commandFault id u f) s = .next s' ∧ id ∈ (queueOf p.tr (s'.core p.mc) p.q.ctx).faulted

namespace Sys2Proof.Slice0

/-- The conditions under which an instruction that sends to a context core through the outbound buffer does so (R20, R101, R180,
R201, R294): the buffer has an entry for the thread, the router takes it, the target does not stop for its image, the thread's
earlier accesses and commands are acknowledged. -/
structure SendsNow (s : State) (t : Thread) (dst : Nat) : Prop where
  room : outboxRoom s t = true
  router : (s.core (s.homeOf t.ref)).refusing = false
  target : evicting s t.ref.ctx dst = false
  fence : t.pend = [] ∧ cmdsQuiet s t = true

/-- A thread's message stands at the end of its core's outbound buffer (R203). -/
def Outbound (s s' : State) (t : Thread) (i : Instr) : Prop :=
  (s'.core (s.homeOf t.ref)).outbox = (s.core (s.homeOf t.ref)).outbox ++ [i]

/-- R30, R204: a thread starts in a thread context of a context's core, ready, at an entry, with words in `g0` onward and zero in
every other general register. -/
def StartsThread (s s' : State) (ctx agent : Nat) (entry : Word) (ws : List Word) : Prop :=
  ∃ u, s'.threads = s.threads ++ [u] ∧ u.ref.ctx = ctx ∧ u.ref.agent = agent ∧ u.pc = entry ∧ u.ts = 0 ∧ u.run = .ready ∧
    (∀ i : Fin 16, u.getG i = .full (ws.getD i.val 0)) ∧ (∀ i, u.getV i = .full 0) ∧ ∀ i : Fin 8, i ≠ 0 → u.getK i = .full 0

end Sys2Proof.Slice0

/-- O35. R203, R204, R205, R220: `send` and `rput` put their message into the outbound buffer; a message that finds a free
thread context and nobody of its channel before it starts a thread with its payload, one of a sub-launch a thread with its
launch's argument, link and stack; one that does not is kept in the inbound buffer, and starts when it can; with no room there
the network holds it. Which free thread context a message takes, that the outbound buffer is in order of issue, and which
thread's counts stand in the family of a thread so started are the model's readings (log entries 7, 11); that a message waits
behind an earlier one of its channel whoever sent it is the model's choice (log entry 59). -/
def Obligations.MessagesSent : Prop :=
  (∀ f s t a b ws, Goes s t f.toHead → SendsNow s t a.toNat → srcW s t f.A = .ok a → srcW s t f.B = .ok b →
    ws.length = (f.fn.extractLsb' 0 5).toNat → (∀ i < ws.length, srcW s t (.g (Fin.ofNat 16 (f.d.toNat + i))) = .ok (ws.getD i 0)) →
    a.extractLsb' 11 53 = 0 → (s.ctxD t.ref.ctx).has a.toNat = true → Target b →
    ∃ s', exec (.send f) s = .next s' ∧ Outbound s s' t (.messageArrival ⟨t.ref.ctx, a.toNat, b, ws, f.fl.getLsbD 0,
      { t.fam with inherited := t.fam.lpd, counts := false }, .send t.ref⟩))
  ∧ (∀ f s t a b i, Goes s t f.toHead → SendsNow s t ((a.extractLsb' 0 20).toNat / 16) → srcW s t f.A = .ok a → srcW s t f.B = .ok b → f.opv = 0 →
    a.extractLsb' 26 38 = 0 →
    (((a.extractLsb' 20 6).toNat < 16 ∧ i = .g (Fin.ofNat 16 (a.extractLsb' 20 6).toNat)) ∨
      (49 ≤ (a.extractLsb' 20 6).toNat ∧ (a.extractLsb' 20 6).toNat ≤ 55 ∧ i = .k (Fin.ofNat 8 ((a.extractLsb' 20 6).toNat - 48)))) →
    ∃ s', exec (.rput f) s = .next s' ∧
      Outbound s s' t (.untaggedDeposit ⟨t.ref.ctx, (a.extractLsb' 0 20).toNat, i, b, none, t.ref.agent⟩))
  ∧ (∀ f s t a b n, Goes s t f.toHead → SendsNow s t ((a.extractLsb' 0 20).toNat / 16) → srcW s t f.A = .ok a → srcW s t f.B = .ok b → f.opv = 1 →
    Fin.ofNat 8 f.opk.toNat ≠ 0 → a.extractLsb' 26 38 = 0 → (a.extractLsb' 20 6).toNat < 16 → freeSeq s t 1 = some n →
    ∃ s' u, exec (.rput f) s = .next s' ∧ s'.thread? t.ref = some u ∧ u.getK (Fin.ofNat 8 f.opk.toNat) = .pend (mkTag 5 n) ∧
      Outbound s s' t (.untaggedDeposit ⟨t.ref.ctx, (a.extractLsb' 0 20).toNat, .g (Fin.ofNat 16 (a.extractLsb' 20 6).toNat), b,
        some (t.ref, mkTag 5 n), t.ref.agent⟩))
  ∧ (∀ s m tid, (s.image? m.ctx m.core).isNone → behindOthers (s.core (s.mcOf m.ctx m.core)) m = false →
    msgTid s m = some tid → m.origin ≠ .subLaunch → (∀ p, m.origin ≠ .pip p) → m.payload.length ≤ 16 →
    ∃ s', exec (.messageArrival m) s = .next s' ∧ StartsThread s s' m.ctx (m.core * 16 + tid) m.entry m.payload)
  ∧ (∀ s m tid uid l, (s.image? m.ctx m.core).isNone → behindOthers (s.core (s.mcOf m.ctx m.core)) m = false →
    msgTid s m = some tid → m.origin = .subLaunch → m.fam.launch = some uid → s.launch? uid = some l →
    ∃ s' u, exec (.messageArrival m) s = .next s' ∧ s'.threads = s.threads ++ [u] ∧ u.ref.ctx = m.ctx ∧
      u.ref.agent = m.core * 16 + tid ∧ u.pc = m.entry ∧ u.ts = 0 ∧ u.getG 0 = .full l.arg ∧ u.getG 14 = .full l.link ∧
      u.getG 15 = .full (l.stk + BitVec.ofNat 64 (m.fam.linear + 1) * l.stkSize) ∧
      ∀ i : Fin 16, i ≠ 0 → i ≠ 14 → i ≠ 15 → u.getG i = .full 0)
  ∧ (∀ s m, (s.image? m.ctx m.core).isNone → behindOthers (s.core (s.mcOf m.ctx m.core)) m = true ∨ msgTid s m = none →
    inboxRoom (s.core (s.mcOf m.ctx m.core)) m.reply = true →
    ∃ s', exec (.messageArrival m) s = .next s' ∧ s'.threads = s.threads ∧
      (s'.core (s.mcOf m.ctx m.core)).inbox = (s.core (s.mcOf m.ctx m.core)).inbox ++ [m])
  ∧ (∀ s m, (s.image? m.ctx m.core).isNone → behindOthers (s.core (s.mcOf m.ctx m.core)) m = true ∨ msgTid s m = none →
    inboxRoom (s.core (s.mcOf m.ctx m.core)) m.reply = false → exec (.messageArrival m) s = .next (s.post [.messageArrival m]))
  ∧ ∀ s c i m tid, (s.core c).inbox[i]? = some m → msgTid s m = some tid → m.origin ≠ .subLaunch → (∀ p, m.origin ≠ .pip p) →
    m.payload.length ≤ 16 →
    ∃ s', exec (.messageStartFromBuffer c i) s = .next s' ∧ StartsThread s s' m.ctx (m.core * 16 + tid) m.entry m.payload ∧
      (s'.core c).inbox = (s.core c).inbox.eraseIdx i

namespace Sys2Proof.Slice0

/-- R206: a word names the queue whose descriptor lies at an offset of a context core's scratchpad. -/
def NamesQueue (t : Thread) (a : Word) (cc off : Nat) : Prop :=
  a.toNat % 16 = 0 ∧ a.toNat < 2 ^ 48 ∧ windowOf (t.ref.agent / 16) a.toNat = .scratch cc off

end Sys2Proof.Slice0

/-- O36. R207, R208, R209, R210, R290: `qinit` makes an empty queue in the lowest free slot, or destroys one; a local push
appends, a local pop takes the oldest item to D, and `qlen` counts, each at its issue; a pop of an empty queue has the outcome
EMPTY; an operation on another core's queue goes there, its predicate, and D of a pop or of `qlen`, PEND; it is applied at the
queue's home, which keeps its turn, and answered with 1, the item or the count; one that fails leaves its ticket and is
answered with the outcome's code, and 0 to D; an operation on a queue that does not exist is a protection fault. That the slot
is the lowest free one, and how an operation away carries its predicate, are the model's readings (log entries 7, 39). -/
def Obligations.QueueOperations : Prop :=
  (∀ f s t a b off r i, Goes s t f.toHead → srcW s t f.A = .ok a → srcW s t f.B = .ok b → NamesQueue t a (t.ref.agent / 16) off →
    b ≠ 0 → b.toNat ≤ 256 → (s.core (s.homeOf t.ref)).resident? t.ref.ctx = some r → off + 16 + 8 * b.toNat ≤ r.size →
    (∀ q ∈ (s.core (s.homeOf t.ref)).queues, q.ctx = t.ref.ctx → q.off + 16 + 8 * q.cap ≤ off ∨ off + 16 + 8 * b.toNat ≤ q.off) →
    i < 32 → (∀ q ∈ (s.core (s.homeOf t.ref)).queues, q.qid ≠ i) → (∀ j < i, ∃ q ∈ (s.core (s.homeOf t.ref)).queues, q.qid = j) →
    ∃ s', exec (.qinit f) s = .next s' ∧ (s'.core (s.homeOf t.ref)).queues =
      (s.core (s.homeOf t.ref)).queues ++ [⟨off, i, t.ref.ctx, b.toNat, 0, [], none⟩])
  ∧ (∀ f s t a off q, Goes s t f.toHead → srcW s t f.A = .ok a → srcW s t f.B = .ok 0 → NamesQueue t a (t.ref.agent / 16) off →
    s.image? t.ref.ctx (t.ref.agent / 16) = none → s.queue? t.ref.ctx (t.ref.agent / 16) off = some q →
    ∃ s', exec (.qinit f) s = .next s' ∧ s'.queue? t.ref.ctx (t.ref.agent / 16) off = none)
  ∧ (∀ f s t a b off q, Goes s t f.toHead → srcW s t f.A = .ok a → srcW s t f.B = .ok b → NamesQueue t a (t.ref.agent / 16) off →
    s.queue? t.ref.ctx (t.ref.agent / 16) off = some q →
    canTake s t.ref.ctx t.ref.agent (.queue (t.ref.agent / 16) off true) = true →
    ∃ s', exec (.qpush f) s = .next s' ∧
      s'.queue? t.ref.ctx (t.ref.agent / 16) off = some { q with items := q.items ++ [(b, false)] })
  ∧ (∀ f s t a off q w l i, Goes s t f.toHead → srcW s t f.A = .ok a → NamesQueue t a (t.ref.agent / 16) off → f.D = .g i →
    s.queue? t.ref.ctx (t.ref.agent / 16) off = some q → q.items = w :: l →
    canTake s t.ref.ctx t.ref.agent (.queue (t.ref.agent / 16) off false) = true →
    ∃ s' u, exec (.qpop f) s = .next s' ∧ s'.thread? t.ref = some u ∧ u.getG i = .full w.1 ∧
      s'.queue? t.ref.ctx (t.ref.agent / 16) off = some { q with items := l, head := (q.head + 1) % q.cap })
  ∧ (∀ f s t a off q, Goes s t f.toHead → srcW s t f.A = .ok a → NamesQueue t a (t.ref.agent / 16) off → f.opv = 0 →
    s.queue? t.ref.ctx (t.ref.agent / 16) off = some q →
    canTake s t.ref.ctx t.ref.agent (.queue (t.ref.agent / 16) off false) = false →
    exec (.qpop f) s = .next (s.outcome t f.wd f.nro .empty (.queue (t.ref.agent / 16) off false) 0))
  ∧ (∀ f s t a off q i, Goes s t f.toHead → srcW s t f.A = .ok a → NamesQueue t a (t.ref.agent / 16) off → f.D = .g i →
    s.queue? t.ref.ctx (t.ref.agent / 16) off = some q →
    ∃ s' u, exec (.qlen f) s = .next s' ∧ s'.thread? t.ref = some u ∧ u.getG i = .full (BitVec.ofNat 64 q.items.length))
  ∧ (∀ f s t a b cc off n, Goes s t f.toHead → srcW s t f.A = .ok a → srcW s t f.B = .ok b → NamesQueue t a cc off →
    cc ≠ t.ref.agent / 16 → f.opv = 1 → Fin.ofNat 8 f.opk.toNat ≠ 0 → t.acq = none → t.pend = [] → cmdsQuiet s t = true →
    routerGate s t a.toNat = .ok () → freeSeq s t 1 = some n →
    ∃ s' u, exec (.qpush f) s = .next s' ∧ s'.thread? t.ref = some u ∧ u.getK (Fin.ofNat 8 f.opk.toNat) = .pend (mkTag 5 n) ∧
      s'.flight = s.flight ++ [.remoteQueueOp ⟨t.ref, cc, off, .push b, some (mkTag 5 n), none, s.nextId, t.icount⟩])
  ∧ (∀ s q x v tag, s.queue? q.t.ctx q.core q.off = some x → q.kind = .push v → q.pred = some tag → q.dest = none →
    canTake s q.t.ctx q.t.agent (.queue q.core q.off true) = true → s.mustRefuse q.t.ctx q.t.agent q.n = false →
    ∃ s', exec (.remoteQueueOp q) s = .next s' ∧ s'.queue? q.t.ctx q.core q.off =
        some { x with items := x.items ++ [(v, false)], turn := some (s.cycle, q.t.agent, q.acc) } ∧
      .taggedDelivery ⟨q.t, tag, .val (predWord true 1), some q.acc⟩ ∈ s'.flight)
  ∧ (∀ f s t a cc off n i, Goes s t f.toHead → srcW s t f.A = .ok a → NamesQueue t a cc off → cc ≠ t.ref.agent / 16 → f.D = .g i →
    f.opv = 1 → Fin.ofNat 8 f.opk.toNat ≠ 0 → t.acq = none → t.pend = [] → cmdsQuiet s t = true → routerGate s t a.toNat = .ok () →
    freeSeq s t 2 = some n →
    ∃ s' u x y, exec (.qpop f) s = .next s' ∧ s'.thread? t.ref = some u ∧ u.getK (Fin.ofNat 8 f.opk.toNat) = .pend (mkTag 5 x) ∧
      u.getG i = .pend (mkTag 5 y) ∧
      s'.flight = s.flight ++ [.remoteQueueOp ⟨t.ref, cc, off, .pop, some (mkTag 5 x), some (mkTag 5 y), s.nextId, t.icount⟩])
  ∧ (∀ f s t a cc off n i, Goes s t f.toHead → srcW s t f.A = .ok a → NamesQueue t a cc off → cc ≠ t.ref.agent / 16 → f.D = .g i →
    f.opv = 0 → t.acq = none → routerGate s t a.toNat = .ok () → freeSeq s t 1 = some n →
    ∃ s' u, exec (.qlen f) s = .next s' ∧ s'.thread? t.ref = some u ∧ u.getG i = .pend (mkTag 5 n) ∧
      s'.flight = s.flight ++ [.remoteQueueOp ⟨t.ref, cc, off, .len, none, some (mkTag 5 n), s.nextId, t.icount⟩])
  ∧ (∀ s q x w l, s.queue? q.t.ctx q.core q.off = some x → q.kind = .pop → x.items = w :: l →
    canTake s q.t.ctx q.t.agent (.queue q.core q.off false) = true → s.mustRefuse q.t.ctx q.t.agent q.n = false →
    ∃ s', exec (.remoteQueueOp q) s = .next s' ∧ s'.queue? q.t.ctx q.core q.off =
        some { x with items := l, head := (x.head + 1) % x.cap, turn := some (s.cycle, q.t.agent, q.acc) } ∧
      (∀ g, q.pred = some g → .taggedDelivery ⟨q.t, g, .val 1, some q.acc⟩ ∈ s'.flight) ∧
      ∀ g, q.dest = some g → .taggedDelivery ⟨q.t, g, .val (w.1.setWidth 1024), some q.acc⟩ ∈ s'.flight)
  ∧ (∀ s q x, s.queue? q.t.ctx q.core q.off = some x → q.kind = .len → s.mustRefuse q.t.ctx q.t.agent q.n = false →
    ∃ s', exec (.remoteQueueOp q) s = .next s' ∧
      s'.queue? q.t.ctx q.core q.off = some { x with turn := some (s.cycle, q.t.agent, q.acc) } ∧
      ∀ g, q.dest = some g →
        .taggedDelivery ⟨q.t, g, .val ((BitVec.ofNat 64 x.items.length).setWidth 1024), some q.acc⟩ ∈ s'.flight)
  ∧ (∀ s q x code full, s.queue? q.t.ctx q.core q.off = some x → ((∃ v, q.kind = .push v) ∧ code = 2 ∧ full = true ∨
      q.kind = .pop ∧ code = 3 ∧ full = false) → canTake s q.t.ctx q.t.agent (.queue q.core q.off full) = false →
    ∃ s', exec (.remoteQueueOp q) s = .next s' ∧
      s'.queue? q.t.ctx q.core q.off = some { x with turn := some (s.cycle, q.t.agent, q.acc) } ∧
      ((s.thread? q.t).isSome → ∃ w ∈ s'.waiters, w.t = q.t ∧ w.obj = .queue q.core q.off full ∧ w.parked = false) ∧
      (∀ g, q.pred = some g → .taggedDelivery ⟨q.t, g, .val (BitVec.ofNat 1024 (code * 256)), some q.acc⟩ ∈ s'.flight) ∧
      ∀ g, q.dest = some g → .taggedDelivery ⟨q.t, g, .val 0, some q.acc⟩ ∈ s'.flight)
  ∧ ∀ s q, s.queue? q.t.ctx q.core q.off = none → ∃ f, exec (.remoteQueueOp q) s = .next (s.post [.faultReply q.t q.acc 0 f]) ∧
    f.cause = .protection

namespace Sys2Proof.Slice0

/-- R211, R284: the level of its own launch that a barrier word names to a thread. -/
def OwnLevel (t : Thread) (f : EForm) (uid l : Nat) : Prop :=
  t.fam.launch = some uid ∧ t.fam.counts = true ∧ (f.fn.extractLsb' 0 3).toNat < t.fam.lpd ∧
    (f.fn.extractLsb' 0 3).toNat = t.fam.inherited + l

/-- The phase of a thread's instance of a level (R212, R238). -/
def levelPhase (s : State) (uid l : Nat) (path : List Nat) : Nat := ((s.launch? uid).map (·.phase (path.take (l + 1)))).getD 0

end Sys2Proof.Slice0

/-- O37. R211, R212, R219, R238, R276: `barv` notes the phase of its instance and sends the arrival; `bart` succeeds once that
phase is over, and its mark goes; the arrival of the last member completes the barrier, and one that comes when every member
has exited does nothing; `trig` sets its bit in the launch record and wakes those that wait on the record; `wdep` goes on where
its entry is not valid, its trigger is set, or its launch is complete. What a thread's levels are to it is as log entry 11
reads R211; that a record is read and written unchecked as log entry 27; the cap under which a phase advances as log entry 40.
-/
def Obligations.BarriersAndDependences : Prop :=
  (∀ f s t uid l, Goes s t f.toHead → OwnLevel t f uid l → (∀ a ∈ t.arrived, a.1 ≠ l) → t.pend = [] → cmdsQuiet s t = true →
    ∃ s' u, exec (.barv f) s = .next s' ∧ s'.flight = s.flight ++ [.barrierArrivalAtAgent t.ref.ctx uid l t.fam.path false] ∧
      s'.thread? t.ref = some u ∧ u.arrived = t.arrived ++ [(l, levelPhase s uid l t.fam.path)] ∧
      ∀ i, f.D = .g i → u.getG i = .full (BitVec.ofNat 64 (levelPhase s uid l t.fam.path)))
  ∧ (∀ f s t uid l x, Goes s t f.toHead → OwnLevel t f uid l → s.launch? uid = some x →
    (∀ a ∈ t.arrived, a.1 = l → a.2 ≠ levelPhase s uid l t.fam.path) →
    ∃ s' u, exec (.bart f) s = .next s' ∧ s'.thread? t.ref = some u ∧ u.arrived = t.arrived.filter (fun a => a.1 != l) ∧
      u.g = t.g ∧ ∀ i m, l ≤ i → t.marks[i]? = some m → u.marks[i]? = some x.comps.length)
  ∧ (∀ s uid x path level, s.launch? uid = some x → (∀ cc, s.imageAny? x.ctx cc = none) →
    (x.exits.filter (fun e => (path.take (level + 1)).isPrefixOf (unradix x.ext e.1))).length =
      (x.ext.drop (path.take (level + 1)).length).foldl (· * ·) 1 →
    exec (.barrierArrivalAtAgent x.ctx uid level path false) s = .next s)
  ∧ (∀ s uid x path level, s.launch? uid = some x → (∀ cc, s.imageAny? x.ctx cc = none) →
    (x.exits.filter (fun e => (path.take (level + 1)).isPrefixOf (unradix x.ext e.1))).length ≠
      (x.ext.drop (path.take (level + 1)).length).foldl (· * ·) 1 →
    (level, path.take (level + 1), radix x.ext path) ∉ x.arrivals →
    let y := { x with arrivals := x.arrivals ++ [(level, path.take (level + 1), radix x.ext path)] }
    let s1 := s.updLaunch uid (fun l => { l with arrivals := l.arrivals ++ [(level, path.take (level + 1), radix x.ext path)] })
    (y.full (path.take (level + 1)) = false → exec (.barrierArrivalAtAgent x.ctx uid level path false) s = .next s1)
    ∧ (y.full (path.take (level + 1)) = true →
      s1.phaseCapOk y (path.take (level + 1)) = true →
      ∃ s' z, exec (.barrierArrivalAtAgent x.ctx uid level path false) s = .next s' ∧ s'.launch? uid = some z ∧
        z.comps = x.comps ++ [((path.take (level + 1)).length - 1, path.take (level + 1))]))
  ∧ (∀ f s t, Goes s t f.toHead → t.pend = [] → cmdsQuiet s t = true →
    let m := s.devWord t.ref.ctx (t.fam.lrp.toNat + 0xD0)
    exec (.trig f) s = .next (ended (if m.getLsbD (f.fn.extractLsb' 0 3).toNat then s
      else s.putField t.ref.ctx t.fam.lrp.toNat 0xD0 (m ||| 1 <<< (f.fn.extractLsb' 0 3).toNat)) t.ref false))
  ∧ ∀ f s t, Goes s t f.toHead →
    let w := s.devWord t.ref.ctx (t.fam.lrp.toNat + 0x50 + 8 * (f.fn.extractLsb' 0 3).toNat)
    let base := canonVa (t.ref.agent / 16) ((w.extractLsb' 8 40).toNat * 256)
    let met := w.getLsbD 7 = false ∨ (s.devWord t.ref.ctx (base + 0xD0)).getLsbD (w.extractLsb' 0 3).toNat = true ∨
      (s.devWord t.ref.ctx (base + 0xD8)).extractLsb' 0 4 = 2
    (met → exec (.wdep f) s = .next (ended (s.dropStale (s.homeOf t.ref)) t.ref true))
    ∧ (¬met → exec (.wdep f) s = .next (s.outcome t f.wd f.nro .dep (.dep base) 0))

/-- O38. R213, R214, R215: an increment adds 1 and stops at the greatest value; `waitc` that finds its amount takes it; `carm`
arms its counter with an entry and a target; `cset` sets it and disarms it; an armed counter at its target is reduced by it,
and disarmed. How threads wait on a counter, and in which order of a cycle its increments come, are the model's readings (log
entries 1, 52). -/
def Obligations.CountersCount : Prop :=
  (∀ s ctx cc n, (s.image? ctx cc).isNone → ∃ s', exec (.counterIncrement ctx cc n) s = .next s' ∧
    let x := (s.core (s.mcOf ctx cc)).counter n
    (s'.core (s.mcOf ctx cc)).counter n = { x with val := if x.val = BitVec.allOnes 32 then x.val else x.val + 1 })
  ∧ (∀ f s t a, Goes s t f.toHead → srcW s t f.A = .ok a →
    let n := (f.fn.extractLsb' 0 6).toNat
    let x := (s.core (s.homeOf t.ref)).counter n
    x.owner = some t.ref.ctx →
    ((a.setWidth 32 : BitVec 32).toNat ≤ x.val.toNat → ∃ s', exec (.waitc f) s = .next s' ∧
      (s'.core (s.homeOf t.ref)).counter n = { x with val := x.val - a.setWidth 32 })
    ∧ (∃ s', exec (.cset f) s = .next s' ∧ (s'.core (s.homeOf t.ref)).counter n = { x with val := a.setWidth 32, arm := none }))
  ∧ (∀ f s t a b, Goes s t f.toHead → srcW s t f.A = .ok a → srcW s t f.B = .ok b → Target a →
    let n := (f.fn.extractLsb' 0 6).toNat
    let x := (s.core (s.homeOf t.ref)).counter n
    x.owner = some t.ref.ctx → ∃ s', exec (.carm f) s = .next s' ∧ (s'.core (s.homeOf t.ref)).counter n =
      { x with arm := some ⟨a, b.setWidth 32, { t.fam with inherited := t.fam.lpd, counts := false },
        if (b.setWidth 32 : BitVec 32).toNat ≤ x.val.toNat then s.cycle + 1 else s.cycle⟩ })
  ∧ ∀ s c n a, ((s.core c).counter n).arm = some a → a.target.toNat ≤ ((s.core c).counter n).val.toNat →
    ∃ s', exec (.counterFire c n) s = .next s' ∧ (s'.core c).counter n =
      { (s.core c).counter n with val := ((s.core c).counter n).val - a.target, arm := none }

/-- O39. R220, R221, R274-R284, R342, R344: `lnch` and `wake` of a record that is accepted list its launch in the lowest free
slot and send its wake out; a wake of a host's launch goes on to the cores of the tree below it and starts the threads of its
own core, and one of a sub-launch sends a message for each thread; a launch's thread starts at its entry with its argument, its
link and its own stack; the root thread of a queue's next launch starts at the stub with the record's address and the right to
wake it. Its slot, its thread context, the link view its launch takes and the STATUS of the completion are the model's readings
(log entries 7, 28, 29, 33, 44). -/
def Obligations.LaunchesStart : Prop :=
  (∀ f s t a r placed slot, Goes s t f.toHead → SendsNow s t (t.ref.agent / 16) → srcW s t f.A = .ok a → a.toNat % 256 = 0 → f.fl.getLsbD 0 = false →
    readRecord s t.ref.ctx (t.ref.agent / 16) a.toNat = .ok r →
    checkRecord s t.ref.ctx r ((s.ctxD t.ref.ctx).coreSet.filter (fun cc => unitOf 3 cc == unitOf 3 (t.ref.agent / 16)))
      (some ((s.ctxD t.ref.ctx).mode, t.fam.lpd)) = .ok placed →
    lowSlot s t.ref.ctx = some slot →
    ∃ s' l, exec (.lnch f) s = .next s' ∧ s'.launches = s.launches ++ [l] ∧ l.ctx = t.ref.ctx ∧ l.record = canonVa (t.ref.agent / 16) a.toNat ∧
      l.slot = slot ∧ l.placed = placed ∧ l.queue = none ∧ l.join = none ∧
      Outbound s s' t (.wakeForward t.ref.ctx l.uid (t.ref.agent / 16) 0))
  ∧ (∀ f s t a r placed slot q seq, Goes s t f.toHead → SendsNow s t (t.ref.agent / 16) → srcW s t f.A = .ok a → t.wakeRight = some (BitVec.ofNat 64 (canonVa (t.ref.agent / 16) a.toNat)) →
    rootQueue s t.ref.ctx t = some (q, seq) → readRecord s t.ref.ctx (t.ref.agent / 16) a.toNat = .ok r →
    checkRecord s t.ref.ctx r (s.ctxD t.ref.ctx).coreSet none = .ok placed → lowSlot s t.ref.ctx = some slot →
    ∃ s' l u, exec (.wake f) s = .next s' ∧ s'.launches = s.launches ++ [l] ∧ l.record = canonVa (t.ref.agent / 16) a.toNat ∧ l.slot = slot ∧
      l.placed = placed ∧ l.queue = some q.id ∧ s'.thread? t.ref = some u ∧ u.wakeRight = none ∧ u.run = .waiting .reply ∧
      s'.done = s.done ++ [⟨⟨q.id, t.ref.ctx, seq⟩, 0, 1⟩] ∧
      Outbound s s' t (.wakeForward t.ref.ctx l.uid ((treeOrder (s.ctxD t.ref.ctx) q.die).headD (t.ref.agent / 16)) 0))
  ∧ (∀ s uid l q core pos, s.launch? uid = some l → l.queue = some q →
    let order := treeOrder (s.ctxD l.ctx) ((((s.ctxD l.ctx).queues.find? (fun x => x.id == q)).map (·.die)).getD 0)
    ∃ s', exec (.wakeForward l.ctx uid core pos) s = .next s' ∧
      (∀ p ∈ l.placed, p.2.1 = core → .threadStart l.ctx uid (radix l.ext p.1) ∈ s'.flight) ∧
      ∀ k c, k < 11 → pos < 2 ^ k → order[pos + 2 ^ k]? = some c → .wakeForward l.ctx uid c (pos + 2 ^ k) ∈ s'.flight)
  ∧ (∀ s uid l core pos, s.launch? uid = some l → l.queue = none → exec (.wakeForward l.ctx uid core pos) s =
    .next (s.post (l.placed.map (fun p => .messageArrival ⟨l.ctx, p.2.1, l.entry, [], false, l.famOf p.1, .subLaunch⟩))))
  ∧ (∀ s uid l lin path cc tid, s.launch? uid = some l → l.placed[lin]? = some (path, cc, tid) →
    ∃ s' u, exec (.threadStart l.ctx uid lin) s = .next s' ∧ s'.threads = s.threads ++ [u] ∧ u.ref.ctx = l.ctx ∧
      u.ref.agent = cc * 16 + tid ∧ u.pc = l.entry ∧ u.ts = 0 ∧ u.getG 0 = .full l.arg ∧ u.getG 14 = .full l.link ∧
      u.getG 15 = .full (l.stk + BitVec.ofNat 64 (lin + 1) * l.stkSize) ∧
      ∀ i : Fin 16, i ≠ 0 → i ≠ 14 → i ≠ 15 → u.getG i = .full 0)
  ∧ ∀ s ctx c queue q rec seq rest slot cc tid, s.ctx? ctx = some c → c.queues.find? (fun q => q.id == queue) = some q →
    q.posted = (rec, seq) :: rest → highSlot s ctx = some slot →
    (c.coreSet.filter (fun cc => dieOf cc == q.die)).head? = some cc →
    startTid s ctx cc (rootKey rec cc) = some tid →
    ∃ s', exec (.launchRootStart ctx queue) s = .next s' ∧ StartsThread s s' ctx (cc * 16 + tid) q.stub [BitVec.ofNat 64 rec] ∧
      ∃ u ∈ s'.threads, u.ref.agent = cc * 16 + tid ∧ u.wakeRight = some (BitVec.ofNat 64 rec)

/-- O40. R222, R223, R292-R296: `migr` to the thread's own core only goes on; to another it ends the thread here and sends out
its Pip; a Pip starts its thread in a free thread context, at its resume address, or waits in the inbound buffer like a
message; from an eviction request on the core stops for its image, and the entries of the context's threads there are gone; a
complete image holds the threads, and the core has none of them; resumption brings them back as their blocks in the image read,
ready. Which loops may migrate, which thread context a Pip takes, what an image holds and which requests count as not issued
are the model's readings (log entries 7, 17, 19, 32, 52, 58); that a Pip waits behind what waits in the buffer before it though
a thread context is free is the model's choice (log entry 59). -/
def Obligations.MigrationAndEviction : Prop :=
  (∀ f s t a, Goes s t f.toHead → srcW s t f.A = .ok a → t.h = false → pendingReg t = none → t.holds = [] →
    loopsMove t.advance = true → homeOfAddr s t a = .ok (t.ref.agent / 16) → t.pend = [] → cmdsQuiet s t = true →
    exec (.migr f) s = .next (ended s t.ref true))
  ∧ (∀ f s t a cc, Goes s t f.toHead → srcW s t f.A = .ok a → t.h = false → pendingReg t = none → t.holds = [] →
    homeOfAddr s t a = .ok cc → cc ≠ t.ref.agent / 16 → loopsMove t.advance = true → SendsNow s t cc →
    ∃ s', exec (.migr f) s = .next s' ∧ s'.thread? t.ref = none ∧ Outbound s s' t (.pipArrival (pipOf t.advance cc)))
  ∧ (∀ s p tid, (s.image? p.ctx p.core).isNone → behindOthers (s.core (s.mcOf p.ctx p.core)) (pipMsg p) = false →
    msgTid s (pipMsg p) = some tid → p.g.length = 16 →
    ∃ s' u, exec (.pipArrival p) s = .next s' ∧ s'.threads = s.threads ++ [u] ∧ u.ref.ctx = p.ctx ∧
      u.ref.agent = p.core * 16 + tid ∧ u.pc = p.resume ∧ u.run = .ready ∧ u.ras = [] ∧
      ∀ (i : Fin 16) (r : PipReg), p.g[i.val]? = some r → u.getG i = slotOfPip 64 r)
  ∧ (∀ s p, (s.image? p.ctx p.core).isNone →
    behindOthers (s.core (s.mcOf p.ctx p.core)) (pipMsg p) = true ∨ msgTid s (pipMsg p) = none →
    inboxRoom (s.core (s.mcOf p.ctx p.core)) false = true → ∃ s', exec (.pipArrival p) s = .next s' ∧ s'.threads = s.threads ∧
      (s'.core (s.mcOf p.ctx p.core)).inbox = (s.core (s.mcOf p.ctx p.core)).inbox ++ [pipMsg p])
  ∧ (∀ s ctx cc region, (s.imageAny? ctx cc).isNone → (s.ctxD ctx).has cc = true →
    ∃ s' im, exec (.evictionRequest ctx cc region) s = .next s' ∧ s'.imageAny? ctx cc = some im ∧ im.complete = false ∧
      im.region = region ∧ evicting s' ctx cc = true ∧ ∀ t ∈ threadsOf s ctx cc, ∀ w ∈ s'.waiters, w.t ≠ t.ref)
  ∧ (∀ s ctx cc im, s.imageAny? ctx cc = some im → im.complete = false → im.dump = none → imageReady s ctx cc = true →
    ∃ s' jm, exec (.imageComplete ctx cc) s = .next s' ∧ s'.image? ctx cc = some jm ∧ jm.region = im.region ∧
      jm.threads = threadsOf s ctx cc ∧ threadsOf s' ctx cc = [] ∧
      ∀ r ∈ (s'.core (s.mcOf ctx cc)).residents, r.ctx ≠ ctx)
  ∧ ∀ s ctx cc im, s.image? ctx cc = some im → resumeReady s ctx cc = true → im.log = [] → im.landing = [] →
    ∃ s', exec (.resumption ctx cc im.region) s = .next s' ∧ s'.imageAny? ctx cc = none ∧
      s'.threads = s.threads ++ im.threads.map (fun t => resumed s.cycle
        (blockRead (fun off n => Memory.readN s.mem n (im.base + (0x2000 + 4608 * (t.ref.agent % 16) + off))) t))

namespace Sys2Proof.Slice0

/-- R216: the byte span of len bytes a row from an address, over rows with a stride. -/
def copySpan (a : Word) (len rows : Nat) (st : Int) : Int × Int :=
  let last : Int := a.toNat + (rows - 1 : Nat) * st
  (min (a.toNat : Int) last, max (a.toNat : Int) last + len - 1)

/-- R216: source and destination of a copy do not meet. -/
def apart (a b : Word) (len rows : Nat) (ss ds : Int) : Prop :=
  len = 0 ∨ (copySpan a len rows ss).2 < (copySpan b len rows ds).1 ∨ (copySpan b len rows ds).2 < (copySpan a len rows ss).1

end Sys2Proof.Slice0

/-- O41. R202, R216, R217, R218, R227: `cpy`, `cpy2` and `hput` append their commands; a copy that is not empty stands among
the started ones from its start on; the next packet of a copy goes to its first window that is not done, with the bytes its
reads brought, and a poisoned source line stops the copy; a packet whose writes are performed marks its window, and counts;
past the last window the copy is over. How reads and writes are cut and joined, and when the registers of an `hput` are read,
are the model's readings (log entries 48, 50). -/
def Obligations.TransfersRun : Prop :=
  (∀ f s t a b d, Goes s t f.toHead → Appends s t true → srcW s t f.A = .ok a → srcW s t f.B = .ok b → srcW s t f.D = .ok d →
    f.fl.getLsbD 0 = false → d.extractLsb' 32 32 = 0 → apart a b (d.extractLsb' 0 32).toNat 1 0 0 →
    Appended s t true (.cpy a b (d.extractLsb' 0 32).toNat 1 0 0 none false) .zr (exec (.cpy f) s))
  ∧ (∀ f s t a b d, Goes s t f.toHead → Appends s t true → srcW s t f.A = .ok a → srcW s t f.B = .ok b → srcW s t f.D = .ok d →
    f.fl.getLsbD 0 = true → d.extractLsb' 43 21 = 0 → apart a b (d.extractLsb' 0 32).toNat 1 0 0 →
    let core := (d.extractLsb' 32 11).toNat
    (s.ctxD t.ref.ctx).has core = true → (counterOf s t.ref.ctx core f.cn).owner = some t.ref.ctx →
    Appended s t true (.cpy a b (d.extractLsb' 0 32).toNat 1 0 0 (some (core, f.cn)) false) .zr (exec (.cpy f) s))
  ∧ (∀ f s t a b d e, Goes s t f.toHead → Appends s t true → srcW s t f.A = .ok a → srcW s t f.B = .ok b → srcW s t f.D = .ok d →
    srcW s t (.g (Fin.ofNat 16 (f.d.toNat + 1))) = .ok e → f.fl.getLsbD 0 = false → d.extractLsb' 32 16 = 0 →
    let len := (d.extractLsb' 0 32).toNat
    let rows := (d.extractLsb' 48 16).toNat
    let ss : Int := (e.setWidth 32 : BitVec 32).toInt
    let ds : Int := (e.extractLsb' 32 32).toInt
    rows ≠ 0 → (1 < rows → len ≤ ds.natAbs) → apart a b len rows ss ds →
    Appended s t true (.cpy a b len rows ss ds none true) .zr (exec (.cpy2 f) s))
  ∧ (∀ f s t a b d, Goes s t f.toHead → Appends s t true → srcW s t f.A = .ok a → srcW s t f.B = .ok b → srcW s t f.D = .ok d →
    b.toNat % 128 = 0 → Appended s t true (.hput a b (d.extractLsb' 0 12).toNat) .zr (exec (.hput f) s))
  ∧ (∀ s mc ctx c a b len rows ss ds j two, transferHead s mc ctx = some (c, .start) → c.t.ctx = ctx →
    c.op = .cpy a b len rows ss ds j two → len * rows ≠ 0 →
    ∃ s' x, exec (.transferCommandStart mc ctx) s = .next s' ∧ x ∈ (queueOf true (s'.core mc) ctx).started ∧ x.cmd = c ∧ x.pos = 0)
  ∧ (∀ s id p x, s.Distinct → s.started? id = some (p, x) → nextByte x.cmd.op x.doneUnits (copyFuel x.cmd.op) x.pos = none →
    ∃ s', exec (.copyPieceAtStreamer id) s = .next s' ∧ ∀ y ∈ (queueOf p.tr (s'.core p.mc) p.q.ctx).started, y.cmd.id ≠ id)
  ∧ (∀ s id p x j s2 r, s.started? id = some (p, x) → nextByte x.cmd.op x.doneUnits (copyFuel x.cmd.op) x.pos = some j →
    let k := (copyByte x.cmd.op j).2 / 256
    readRuns x.cmd (nextPieces x j) (s.updStarted id (fun x => { x with pos := j })) ⟨[], none, []⟩ = (s2, r) → r.recs = [] →
    (r.stop = none → exec (.copyPieceAtStreamer id) s =
      .next (s2.post [.copyPacketWrite ⟨id, k, r.got, none, false, none⟩]))
    ∧ ∀ w, r.stop = some (.poison w) → exec (.copyPieceAtStreamer id) s =
      .next (s2.post [.commandFault id 0 ⟨.poisonUse, 0, w, 0, false⟩]))
  ∧ ∀ s q p x s2 done core n a b len rows ss ds two, s.started? q.cmd = some (p, x) →
    writeRuns x.cmd (joinRuns q.runs) s [] [] = (s2, done, none, []) → q.fault = none → q.written = false → q.port = none → x.cmd.op = .cpy a b len rows ss ds (some (core, n)) two →
    nextByte x.cmd.op (x.doneUnits ++ [q.window]) (copyFuel x.cmd.op) x.pos ≠ none →
    exec (.copyPacketWrite q) s = .next ((s2.updStarted q.cmd (fun x => { x with doneUnits := x.doneUnits ++ [q.window] })).post
      [.counterIncrement x.cmd.t.ctx core n])

namespace Sys2Proof.Slice0

/-- R224: the handle of a slot of a die. -/
def handleWord (die slot gen : Nat) : Word :=
  (BitVec.ofNat 16 gen).setWidth 64 <<< 16 ||| (BitVec.ofNat 2 die).setWidth 64 <<< 12 ||| (BitVec.ofNat 10 slot).setWidth 64

/-- R228: one arrived vector added with its weight, each step rounded once. -/
def addWeighted (acc : List (BitVec 32)) (w : XR) (x : Nat → XR) : List (BitVec 32) :=
  (List.range acc.length).map (fun e =>
    BitVec.ofNat 32 (roundF 0 0 (XR.add false (decodeF 0 (acc.getD e 0).toNat) (XR.mul w (x e)))))

/-- R229: RENORM: the arrived results added from +0, in ascending position, each with its weight divided by the rounded sum of the
weights that arrived; +0 where that sum is 0. -/
def renormed (x : HSlot) : List (BitVec 32) :=
  let arrived := (List.range (dscNexp x.desc)).filter (fun p => x.arr.getLsbD p)
  let sum := arrived.foldl (fun v p => rne32 (XR.add false v (dscWt x.desc p))) (.fin false 0 0)
  let zero : List (BitVec 32) := List.replicate (dscWidth x.desc) 0
  if sum.isZero then zero
  else arrived.foldl (fun acc p => addWeighted acc (rne32 (XR.div (dscWt x.desc p) sum)) (arrivedEl x p)) zero

/-- R230: line i of a slot's output: 32 FP32 elements, or 64 rounded to BF16. -/
def outputLine (x : HSlot) (i : Nat) : BitVec 1024 :=
  if (dscAt x.desc 8).getLsbD 4 then BitVec.ofNat 1024 (packBits 32 ((List.range 32).map (fun j => (x.acc.getD (32 * i + j) 0).toNat)))
  else BitVec.ofNat 1024 (packBits 16 ((List.range 64).map (fun j => roundF 1 0 (decodeF 0 (x.acc.getD (64 * i + j) 0).toNat))))

/-- The thread leaves the rotation for the Husk's reply to its instruction, whose request is on its way (R224, R226, R231). -/
def AsksHusk (s s' : State) (t : Thread) (i : Instr) (desc : List Word) (wd : BitVec 2) (ask : HAsk) : Prop :=
  ∃ u p, s'.thread? t.ref = some u ∧ u.run = .waiting .reply ∧ u.pc = t.pc ∧ u.pend = t.pend ++ [p] ∧ p.req = some i ∧
    .huskOpen ⟨t.ref, p.id, dieOf (s.homeOf t.ref), desc, wd == 1 || wd == 2, wd == 0, ask⟩ ∈ s'.flight

end Sys2Proof.Slice0

/-- O42. R224-R232: `hopen` sends its descriptor to the die's Husk, `hclose` and `hstat` their handle, and wait; the Husk opens
a slot with a zero accumulator and answers with its handle; a close of an open slot aborts it and answers 1, of any other it
answers 0; a status request is answered with the slot's state, and `hstat` with W leaves a future; `hcfg` sets the context's
quota, at most the ceiling; a line is kept until its position is complete, and a complete position is added with its weight
behind those before it, with all that have come after it; a line for a slot that is not open, is past its deadline or has been
opened again is late; at the deadline SUB has the positions that are missing, the accumulator what ZERO, RENORM or VEC make of
them, and release begins; the release writes each line of the output at DEST and gives the guard back; the notification frees
the slot, tells its queue and delivers its futures. Which free slot opens, that the descriptor is read at issue, the alignment
fault of `hopen` and what a stale handle says are the model's readings (log entries 7, 16, 51, 58). -/
def Obligations.HuskWorks : Prop :=
  (∀ f s t a ws s1, Goes s t f.toHead → srcW s t f.A = .ok a → a.toNat % 128 = 0 → t.pend = [] → cmdsQuiet s t = true →
    readDesc t a (List.range 16) s [] = .ok (ws, s1) →
    ∃ s', exec (.hopen f) s = .next s' ∧ AsksHusk s s' t (.hopen f) ws f.wd .opening)
  ∧ (∀ s r t f i slot, r.die < 4 → s.thread? r.t = some t → hopenOf t r.acc = some f → r.ask = .opening → f.D = .g i → canTake s r.t.ctx r.t.agent (.husk r.die) = true →
    s.mustRefuse r.t.ctx r.t.agent t.icount = false →
    dscOk r.desc = true → dscTargets s r.t.ctx (r.t.agent / 16) r.desc = true → freeSlot s r.die = some slot →
    (s.ctxD r.t.ctx).replay ≠ 2 →
    ∃ s' u x, exec (.huskOpen r) s = .next s' ∧ s'.thread? r.t = some u ∧ (s'.husk r.die).slot? slot = some x ∧
      u.getG i = .full (handleWord r.die slot x.gen) ∧ u.run = .ready ∧ x.st = .open_ ∧ x.ctx = r.t.ctx ∧ x.desc = r.desc ∧
      x.acc = List.replicate (dscWidth r.desc) 0 ∧ x.arr = 0 ∧ x.applied = 0 ∧ x.lines = [])
  ∧ (∀ f s t a, Goes s t f.toHead → srcW s t f.A = .ok a → t.pend = [] → cmdsQuiet s t = true →
    ∃ s', exec (.hclose f) s = .next s' ∧ AsksHusk s s' t (.hclose f) [] f.wd (.closing a))
  ∧ (∀ f s t a, Goes s t f.toHead → srcW s t f.A = .ok a → f.fl.getLsbD 0 = false →
    ∃ s', exec (.hstat f) s = .next s' ∧ AsksHusk s s' t (.hstat f) [] f.wd (.status a))
  ∧ (∀ s r t f i a x, s.thread? r.t = some t → hopenOf t r.acc = some f → r.ask = .closing a → f.D = .g i →
    handleSlot s r.die a = some x → x.st = .open_ → ∃ s' u y, exec (.huskOpen r) s = .next s' ∧
      (s'.husk r.die).slot? x.idx = some y ∧ y.st = .free ∧ y.aborted = true ∧
      (∀ q tag, (q, tag) ∈ x.futures → .taggedDelivery ⟨q, tag, .pois (poisonWord 4 4 r.die a.toNat), none⟩ ∈ s'.flight) ∧
      s'.thread? r.t = some u ∧ u.run = .ready ∧ u.getG i = .full 1)
  ∧ (∀ s r t f i a, s.thread? r.t = some t → hopenOf t r.acc = some f → r.ask = .closing a → f.D = .g i →
    (∀ x, handleSlot s r.die a = some x → x.st ≠ .open_) → ∃ s' u, exec (.huskOpen r) s = .next s' ∧ s'.husks = s.husks ∧
      s'.thread? r.t = some u ∧ u.run = .ready ∧ u.getG i = .full 0)
  ∧ (∀ s r t f i a x, s.thread? r.t = some t → hopenOf t r.acc = some f → r.ask = .status a → f.D = .g i →
    (∀ c ∈ s.ctxs, c.id = r.t.ctx → c.replay = 0) → handleSlot s r.die a = some x →
    ∃ s' u w, exec (.huskOpen r) s = .next s' ∧ s'.thread? r.t = some u ∧ u.run = .ready ∧ u.getG i = .full w ∧
      (w.extractLsb' 0 2).toNat = (match x.st with
        | .free => 0
        | .open_ => 1
        | _ => 2) ∧
      w.extractLsb' 16 16 = BitVec.ofNat 16 x.gen ∧ w.extractLsb' 32 8 = x.arr ∧ w.extractLsb' 40 8 = x.applied ∧
      w.extractLsb' 48 8 = x.sub)
  ∧ (∀ f s t a x n, Goes s t f.toHead → srcW s t f.A = .ok a → f.fl.getLsbD 0 = true → freeSeq s t 1 = some n →
    handleSlot s (dieOf (s.homeOf t.ref)) a = some x → x.st ≠ .free → ∃ s' u y, exec (.hstat f) s = .next s' ∧
      s'.thread? t.ref = some u ∧ u.g = (t.setPend f.D (mkTag 4 n)).g ∧
      (s'.husk (dieOf (s.homeOf t.ref))).slot? x.idx = some y ∧ y.futures = x.futures ++ [(t.ref, mkTag 4 n)])
  ∧ (∀ f s t a c, Goes s t f.toHead → srcW s t f.A = .ok a → s.ctx? t.ref.ctx = some c →
    let die := dieOf (s.homeOf t.ref)
    let q := min (a.extractLsb' 0 11).toNat (((c.ceil.find? (fun p => p.1 == die)).map (·.2)).getD 0)
    ∃ s' d, exec (.hcfg f) s = .next s' ∧ s'.ctx? t.ref.ctx = some d ∧ (die, q) ∈ d.quota ∧
      ∀ i u, f.D = .g i → s'.thread? t.ref = some u → u.getG i = .full (BitVec.ofNat 64 q))
  ∧ (∀ s l x, (s.husk l.die).slot? l.slot = some x → x.st = .open_ → (∀ g, l.gen = some g → g = x.gen) →
    l.pos < dscNexp x.desc → l.line < dscLines x.desc → (∀ y ∈ x.lines, ¬(y.1 = l.pos ∧ y.2.1 = l.line)) →
    pastDeadline s x = false → (s.ctxD x.ctx).replay ≠ 2 → (x.lines.filter (fun y => y.1 == l.pos)).length + 1 < dscLines x.desc →
    ∃ s' y, exec (.huskArrival l) s = .next s' ∧ (s'.husk l.die).slot? l.slot = some y ∧
      y.lines = x.lines ++ [(l.pos, l.line, l.data)] ∧ y.acc = x.acc ∧ y.arr = x.arr)
  ∧ (∀ s l x m k, (s.husk l.die).slot? l.slot = some x → x.st = .open_ → (∀ g, l.gen = some g → g = x.gen) →
    l.pos < dscNexp x.desc → l.line < dscLines x.desc → (∀ y ∈ x.lines, ¬(y.1 = l.pos ∧ y.2.1 = l.line)) →
    pastDeadline s x = false → (s.ctxD x.ctx).replay ≠ 2 → (x.lines.filter (fun y => y.1 == l.pos)).length + 1 = dscLines x.desc →
    let x1 := { x with lines := x.lines ++ [(l.pos, l.line, l.data)], arr := x.arr ||| BitVec.ofNat 8 (2 ^ l.pos) }
    x.applied.toNat = 2 ^ m - 1 → m + k ≤ dscNexp x.desc → (∀ j < k, x1.arr.getLsbD (m + j) = true) →
    (m + k < dscNexp x.desc → x1.arr.getLsbD (m + k) = false) →
    ∃ s' y, exec (.huskArrival l) s = .next s' ∧ (s'.husk l.die).slot? l.slot = some y ∧ y.arr = x1.arr ∧ y.lines = x1.lines ∧
      y.applied.toNat = 2 ^ (m + k) - 1 ∧
      y.acc = (List.range k).foldl (fun acc j => addWeighted acc (dscWt x.desc (m + j)) (arrivedEl x1 (m + j))) x.acc ∧
      y.st = if m + k = dscNexp x.desc then .releasing else .open_)
  ∧ (∀ s l x, (s.husk l.die).slot? l.slot = some x →
    x.st ≠ .open_ ∨ pastDeadline s x = true ∨ (∃ g, l.gen = some g ∧ g ≠ x.gen) →
    ∃ s', exec (.huskArrival l) s = .next s' ∧ (s'.husk l.die).late = (s.husk l.die).late + 1 ∧
      (s'.husk l.die).slot? l.slot = some x)
  ∧ (∀ s die slot x, (s.husk die).slot? slot = some x → x.st = .open_ → ∃ s' y, exec (.huskDeadline die slot) s = .next s' ∧
      (s'.husk die).slot? slot = some y ∧ y.st = .releasing)
  ∧ (∀ s die slot x, (s.husk die).slot? slot = some x → x.st = .open_ → (s.ctxD x.ctx).replay ≠ 2 →
    ∃ s' y, exec (.huskDeadline die slot) s = .next s' ∧ (s'.husk die).slot? slot = some y ∧
      (∀ p < dscNexp x.desc, y.sub.getLsbD p = !x.arr.getLsbD p) ∧ (∀ p < dscNexp x.desc, y.applied.getLsbD p = true) ∧
      (dscPol x.desc = 0 → y.acc = ((List.range (dscNexp x.desc)).filter (fun p => !x.applied.getLsbD p && x.arr.getLsbD p)).foldl
        (fun acc p => addWeighted acc (dscWt x.desc p) (arrivedEl x p)) x.acc) ∧
      (dscPol x.desc = 1 → y.acc = renormed x))
  ∧ (∀ s die slot x m e, s.Canonical → (s.husk die).slot? slot = some x → x.st = .open_ → (∀ c ∈ s.ctxs, c.id = x.ctx → c.replay = 0) →
    dscPol x.desc = 2 → m < dscNexp x.desc → (∀ p < dscNexp x.desc, p ≠ m → x.applied.getLsbD p = true) →
    x.applied.getLsbD m = false → x.arr.getLsbD m = false → e < x.acc.length → e < dscWidth x.desc →
    let va := (dscAt x.desc 0x50).toNat + m * dscWidth x.desc * 4 + 128 * (e / 32)
    let a := huskLine s die x.ctx .read va 0 none
    ∃ s' y, exec (.huskDeadline die slot) s = .next s' ∧ (s'.husk die).slot? slot = some y ∧
      (∀ f, spotOf s x.ctx Config.cores va false true = .error f → y.acc.getD e 0 = x.acc.getD e 0) ∧
      ∀ k key, spotOf s x.ctx Config.cores va false true = .ok (.at_ k key) → s.shut a k = false →
        checkHome s a (s.md (lineOf k)) ≠ .fail → s.pois (lineOf k) = 0 →
        let sub : BitVec 32 := BitVec.ofNat 32 (s.load k 128 key / 2 ^ (32 * (e % 32)))
        y.acc.getD e 0 = BitVec.ofNat 32 (roundF 0 0 (XR.add false (decodeF 0 (x.acc.getD e 0).toNat)
          (XR.mul (dscWt x.desc m) (decodeF 0 sub.toNat)))))
  ∧ (∀ s die slot x h, (s.husk die).slot? slot = some x → x.hold = some h → ∃ s' y, exec (.huskRelease die slot) s = .next s' ∧
      (s'.husk die).slot? slot = some y ∧ y.st = .written ∧ ∃ r, .guardRequestAtHome r ∈ s'.flight ∧ r.op = .release ∧
        r.idx = h.guard ∧ r.ctx = x.ctx ∧ r.agent = 0xFFFF8 + die)
  ∧ (∀ s die slot x h, (s.husk die).slot? slot = some x → x.hold = some h → ∃ s', exec (.huskRelease die slot) s = .next s' ∧
      s'.mem = ((List.range (dscWidth x.desc * (if (dscAt x.desc 8).getLsbD 4 then 4 else 2) / 128)).foldl (writeOut die x) s).mem)
  ∧ (∀ s die x i k key,
    let va := (dscAt x.desc 0x40).toNat + 128 * i
    s.Canonical →
    spotOf s x.ctx Config.cores va true true = .ok (.at_ k key) → k % 128 = 0 → s.lineKey (lineOf k) = key →
    s.shut (huskLine s die x.ctx .write va (outLine x i) x.hold) k = false →
    checkHome s (huskLine s die x.ctx .write va (outLine x i) x.hold) (s.md (lineOf k)) = .pass →
    let s' := writeOut die x s i
    BitVec.ofNat 1024 (s'.load k 128 key) = outputLine x i ∧
      (∀ b, b < k ∨ k + 128 ≤ b → ¬TagByte s (lineOf k) b → Memory.read s'.mem b = Memory.read s.mem b))
  ∧ ∀ s die slot x, (s.husk die).slot? slot = some x → mayNotify s die x = true →
    ∃ s' y, exec (.huskNotify die slot) s = .next s' ∧ (s'.husk die).slot? slot = some y ∧ y.st = .free ∧ y.futures = [] ∧
      (∀ r tag, (r, tag) ∈ x.futures → .taggedDelivery ⟨r, tag, .val ((tokenWord die x).setWidth 1024), none⟩ ∈ s'.flight) ∧
      ∀ c off q, dscNk x.desc = false → ntfQueue x.core x.desc = some (c, off) → s.queue? x.ctx c off = some q →
        s'.queue? x.ctx c off = some { q with items := q.items ++ [(dscAt x.desc 0, true), (tokenWord die x, true)] }

namespace Sys2Proof.Slice0

/-- R380, R382: the command is the next of the command endpoint. -/
def Next (h : Hdr) (s : State) : Prop := h.queue = 0xFFFF ∧ h.seq = s.cmdNext

/-- R380: a state that has taken the endpoint's next command. -/
def taken (s : State) : State := { s with cmdNext := s.cmdNext + 1 }

/-- R380: a state that has sent a message's completion, whose value has 56 bits, and keeps it to send it again. -/
def told (s : State) (h : Hdr) (status : Nat) (v : Word) : State :=
  let c : Completion := ⟨h, status, (v.setWidth 56).setWidth 64⟩
  { s with done := s.done ++ [c], answers := s.answers.filter (fun x => x.h != h) ++ [c] }

end Sys2Proof.Slice0

/-- O43. R124, R256, R258, R259, R268, R272, R273, R280, R285, R382, R383, R391: the commands that set up the module and its
contexts, each the next of its endpoint and with values in range: what each writes, and that it is answered 0 at once, or kept
waiting for the accesses it affects; a context that goes has its posted launches answered, with STATUS 3 (log entry 34). What a
context has that no command has set, what a command that writes a table waits for, and which values are refused are the model's
readings (log entries 4, 17, 34). -/
def Obligations.ConfigurationCommands : Prop :=
  (∀ h num tfb gbase gsize link ea ep s, Next h s → num < 2048 → s.ctx? num = none → tfb % 128 = 0 → gbase % 16 = 0 →
    gsize ≤ 2 ^ 22 → link < 2 ^ 22 →
    ∃ s' c, exec (.ctxnew h num tfb gbase gsize link ea ep) s = .next (told s' h 0 0) ∧ s'.ctx? num = some c ∧ c.tfb = tfb ∧
      c.gbase = gbase ∧ c.gsize = gsize ∧ c.linkGuard = link ∧ c.evAddr = ea ∧ c.evEp = ep ∧ c.coreMap = [] ∧ c.guards = [])
  ∧ (∀ h s c, Next h s → s.ctx? h.ctx = some c → ∃ s', exec (.ctxdel h) s = .next (told s' h 0 0) ∧ s'.ctx? h.ctx = none ∧
      (∀ t ∈ s'.threads, t.ref.ctx ≠ h.ctx) ∧ (∀ l ∈ s'.launches, l.ctx ≠ h.ctx) ∧
      ∀ q ∈ c.queues, ∀ p ∈ q.posted, ⟨⟨q.id, h.ctx, p.2⟩, 3, 0⟩ ∈ s'.done)
  ∧ (∀ h addr s c, Next h s → s.ctx? h.ctx = some c → addr % 0x20000 = 0 →
    exec (.ptroot h addr) s = .next (((taken s).updCtx h.ctx (fun c => { c with root := some addr })).whenQuiet h (some h.ctx)))
  ∧ (∀ h va len s c, Next h s → s.ctx? h.ctx = some c → ∃ s', exec (.inval h va len) s = .next s' ∧
      (∀ e, e ∈ s'.tlbs ↔ e ∈ s.tlbs ∧ ¬(e.ctx = h.ctx ∧ va < e.va + e.size ∧ e.va < va + len)) ∧
      (∀ e, e ∈ s'.shared ↔ e ∈ s.shared ∧ ¬(e.ctx = h.ctx ∧ va < e.va + e.size ∧ e.va < va + len)) ∧
      s'.defers = s.defers ++ [⟨h, accessesOf s (some h.ctx), [], []⟩])
  ∧ (∀ h cc mc s c, Next h s → s.ctx? h.ctx = some c → cc < 1536 → mc < 1536 → c.has cc = false →
    (∀ p ∈ c.coreMap, p.2 ≠ mc) → (5, mc) ∉ s.mgmt.fenced →
    ∃ s' d, exec (.coremap h cc mc) s = .next s' ∧ s'.ctx? h.ctx = some d ∧ d.mc cc = some mc ∧
      ∀ x, x ≠ cc → d.mc x = c.mc x)
  ∧ (∀ h mc slot mask base units s c, Next h s → s.ctx? h.ctx = some c → mc < 1536 → slot < 4 → mask < 2 ^ 16 →
    base + units ≤ 8 → (∀ r ∈ (s.core mc).residents, r.ctx ≠ h.ctx ∧ r.slot ≠ slot ∧ r.mask &&& mask = 0 ∧
      (r.base + r.size ≤ base * 0x10000 ∨ (base + units) * 0x10000 ≤ r.base)) →
    ∃ s', exec (.reside h mc slot mask base units) s = .next (told s' h 0 0) ∧ (s'.core mc).residents =
      (s.core mc).residents ++ [⟨slot, h.ctx, mask, base * 0x10000, units * 0x10000, 0⟩])
  ∧ (∀ h mc es s, Next h s → mc < 1536 → es.length = 64 →
    exec (.slottbl h mc es) s = .next (told ((taken s).updCore mc (fun c => { c with slotTable := es })) h 0 0))
  ∧ (∀ h a b sc c0 c1 s c, Next h s → s.ctx? h.ctx = some c → a ≤ b → b < c.gsize → sc ≤ 5 → c0 ≤ c1 → c1 < 1536 →
    ∃ s' d, exec (.gscope h a b sc c0 c1) s = .next s' ∧ s'.ctx? h.ctx = some d ∧
      (∀ g, a ≤ g → g ≤ b → d.scopeOf g = ⟨a, b, sc, c0, c1⟩) ∧ ∀ g, g < a ∨ b < g → d.scopeOf g = c.scopeOf g)
  ∧ (∀ h q e die s c, Next h s → s.ctx? h.ctx = some c → q < 64 → die < 4 → Target e →
    ∃ s' d, exec (.qstub h q e die) s = .next (told s' h 0 0) ∧ s'.ctx? h.ctx = some d ∧ (d.hq q).stub = e ∧ (d.hq q).die = die ∧
      (d.hq q).next = (c.hq q).next)
  ∧ (∀ h kind die base k head s, Next h s → kind < 4 → die < 4 → 6 ≤ k → k ≤ (if kind = 2 then 20 else 16) →
    base % [64, 256, 32, 32].getD kind 1 = 0 → s.ring? kind die = none →
    ∃ s', exec (.ring h kind die base k head) s = .next (told s' h 0 0) ∧
      s'.ring? kind die = some ⟨kind, die, base, k, head % 2 ^ 32, 0, 0, false, []⟩)
  ∧ (∀ h page s c, Next h s → s.ctx? h.ctx = some c → exec (.spill h page) s =
      .next (told ((taken s).updCtx h.ctx (fun c => { c with spillPages := c.spillPages ++ [page] })) h 0 0))
  ∧ (∀ h idx peer ep key s c, Next h s → s.ctx? h.ctx = some c → ∃ s' d, exec (.remote h idx peer ep key) s = .next (told s' h 0 0) ∧
      s'.ctx? h.ctx = some d ∧ ∀ r, r ∈ d.remotes ↔ (r ∈ c.remotes ∧ r.1 ≠ idx) ∨ r = (idx, peer, ep, key))
  ∧ (∀ h slot w s, Next h s → 1 ≤ slot → slot ≤ 255 → ∃ s', exec (.key h slot w) s = .next s' ∧
      ∀ k, k ∈ s'.keys ↔ (k ∈ s.keys ∧ k.1 ≠ slot) ∨ k = (slot, Config.unwrap w))
  ∧ (∀ h mc mask s c, Next h s → s.ctx? h.ctx = some c → mc < 1536 →
    (∀ i < 64, mask.getLsbD i = true → ((s.core mc).counter i).owner = none ∨ ((s.core mc).counter i).owner = some h.ctx) →
    ∃ s', exec (.cntr h mc mask) s = .next (told s' h 0 0) ∧ ∀ i < 64, ((s'.core mc).counter i).owner =
      if mask.getLsbD i then some h.ctx else if ((s.core mc).counter i).owner = some h.ctx then none else ((s.core mc).counter i).owner)
  ∧ (∀ h mc owner s, Next h s → mc < 1536 → ∃ s', exec (.portown h mc owner) s = .next (told s' h 0 0) ∧
      (s'.core mc).portOwner = if owner < 2048 then some owner else none)
  ∧ ∀ h die ceil s c, Next h s → s.ctx? h.ctx = some c → die < 4 → ceil ≤ 1024 →
    ∃ s' d, exec (.hceil h die ceil) s = .next (told s' h 0 0) ∧ s'.ctx? h.ctx = some d ∧ d.quotaOn die ≤ ceil

/-- O44. R126, R280, R292, R296, R299, R346, R347, R375, R376, R380-R383: the messages of a context's own queues post a launch,
and, once the launches before them have run their `wake`, raise the count of the free link guard, which under REPORT stays held
until the race record of the store is placed (R391), and take the link view; the commands that act on running work send the
evictions and resumptions out, make a stopped or halted thread run again, a stopped one with what the host has changed in its
block of a live dump, end a halted one whose accesses and commands are over, ask for a guard for a port and give it up, and set
what debugging a context has. What a halted thread keeps, when a link message has its turn, what is a core's image in another
region, and which values are refused are the model's readings (log entries 31, 32, 33, 34, 44). -/
def Obligations.RunningContextCommands : Prop :=
  (∀ h record s c, s.ctx? h.ctx = some c → h.queue < 64 → h.seq = (c.hq h.queue).next → record % 256 = 0 →
    ∃ s' d, exec (.launch h record) s = .next s' ∧ s'.ctx? h.ctx = some d ∧ s'.done = s.done ∧
      (d.hq h.queue).posted = (c.hq h.queue).posted ++ [(canonVa (rootCore c (c.hq h.queue)) record, h.seq)] ∧ (d.hq h.queue).next = (c.hq h.queue).next + 1)
  ∧ (∀ h entry addr s c, s.ctx? h.ctx = some c → h.queue < 64 → h.seq = (c.hq h.queue).next →
    (c.hq h.queue).posted = [] → (c.hq h.queue).starting = none → (c.guard c.linkGuard).isFree = true →
    s.capOk c.id true c.linkGuard = true → (∀ w ∈ s.waiters, w.on c.id (.guard c.linkGuard) = false) →
    (∀ k key, spotOf s c.id 1536 (128 * Config.linkTable c.id + 8 * entry) true true = .ok (.at_ k key) →
      lineTurn s (linkStore s c entry 0) k = true) →
    ∃ s', exec (.linkupd h entry addr) s = .next s' ∧
      ∀ k key, spotOf s c.id 1536 (128 * Config.linkTable c.id + 8 * entry) true true = .ok (.at_ k key) →
        let freed := guardIn s' h.ctx c.linkGuard = ⟨false, 0, ((c.guard c.linkGuard).count + 1) % 2 ^ 32, 0⟩
        (c.mode.extractLsb' 0 2 ≠ 1 → freed) ∧ (freed ∨ guardIn s' h.ctx c.linkGuard =
          { c.guard c.linkGuard with excl := true, holder := 0xF0000 + s.somePort * 0x800 + c.id }))
  ∧ (∀ h s c, s.ctx? h.ctx = some c → h.queue < 64 → h.seq = (c.hq h.queue).next → (c.hq h.queue).posted = [] →
    (c.hq h.queue).starting = none → ((c.guard c.linkGuard).excl = true → (c.guard c.linkGuard).holder < 0xF0000) →
    ∃ s' d, exec (.linkacq h) s = .next (told s' h 0 0) ∧ s'.ctx? h.ctx = some d ∧
      (d.hq h.queue).view = (c.guard c.linkGuard).count)
  ∧ (∀ h cores region s c, Next h s → s.ctx? h.ctx = some c → (∀ cc ∈ cores, c.has cc = true) → region % 4096 = 0 →
    ∃ s', exec (.preempt h cores region) s = .next s' ∧ s'.defers = s.defers ++ [⟨h, [], cores, []⟩] ∧
      ∀ cc ∈ cores, s.imageAny? h.ctx cc = none → .evictionRequest h.ctx cc region ∈ s'.flight)
  ∧ (∀ h cores region s c, Next h s → s.ctx? h.ctx = some c →
    (∀ cc ∈ cores, (s.image? h.ctx cc).isSome) → region % 4096 = 0 →
    exec (.resume h cores region) s = .next { (taken s).post (cores.map (fun cc => .resumption h.ctx cc region)) with
      defers := s.defers ++ [⟨h, [], [], cores⟩] })
  ∧ (∀ h cc tid addr s c t, Next h s → s.ctx? h.ctx = some c → s.agent? h.ctx (cc * 16 + tid) = some t → tid < 16 →
    ((∃ n, t.run = .stopped n) ∨ t.run = .halted) → (t.run ≠ .halted → ∀ b ∈ s.blocks, b.2.ref ≠ t.ref) → Target addr →
    ∃ s' u, exec (.thrres h cc tid addr) s = .next (told s' h 0 0) ∧ s'.thread? t.ref = some u ∧ u.run = .ready ∧ u.pc = addr ∧
      u.g = t.g ∧ u.v = t.v ∧ u.k = t.k ∧ (t.run = .halted → u.h = false))
  ∧ (∀ h cc tid addr s c t b n, Next h s → s.ctx? h.ctx = some c → s.agent? h.ctx (cc * 16 + tid) = some t → tid < 16 →
    t.run = .stopped n → s.blocks.find? (fun b => b.2.ref == t.ref) = some b → Target addr →
    let now := s.readBlock b.1 b.2
    ∃ s' u, exec (.thrres h cc tid addr) s = .next (told s' h 0 0) ∧ s'.thread? t.ref = some u ∧ u.run = .ready ∧ u.pc = addr ∧
      (∀ i, u.getG i = if now.getG i = b.2.getG i then t.getG i else now.getG i) ∧
      (∀ i, u.getV i = if now.getV i = b.2.getV i then t.getV i else now.getV i) ∧
      ∀ i, u.getK i = if now.getK i = b.2.getK i then t.getK i else now.getK i)
  ∧ (∀ h cc tid s c t, Next h s → s.ctx? h.ctx = some c → s.agent? h.ctx (cc * 16 + tid) = some t → tid < 16 → t.run = .halted →
    (∀ p ∈ t.pend, p.fault.isSome) → cmdsQuiet s { t with pend := [], cmdFaults := [] } = true →
    ∃ s', exec (.thrend h cc tid) s = .next (told s' h 0 0) ∧ s'.thread? t.ref = none)
  ∧ (∀ h g x port s c, Next h s → s.ctx? h.ctx = some c → port < 16 → g < c.gsize → (c.scopeOf g).scope = 0 →
    (∀ p ∈ c.portHolds, ¬(p.1 = 0xF0000 + port * 0x800 + h.ctx ∧ p.2.guard = g)) →
    ∃ s' r, exec (.hgacq h g x port) s = .next s' ∧ s'.flight = s.flight ++ [.guardRequestAtHome r] ∧ r.ctx = h.ctx ∧ r.idx = g ∧
      r.agent = 0xF0000 + port * 0x800 + h.ctx ∧ r.op = .acquire x false ∧ r.who = .port h.queue h.seq)
  ∧ (∀ h g port s c p, Next h s → s.ctx? h.ctx = some c → p ∈ c.portHolds → p.1 = 0xF0000 + port * 0x800 + h.ctx → p.2.guard = g →
    ∃ s' r, exec (.hgrel h g port) s = .next s' ∧ s'.flight = s.flight ++ [.guardRequestAtHome r] ∧ r.ctx = h.ctx ∧ r.idx = g ∧
      r.agent = 0xF0000 + port * 0x800 + h.ctx ∧ r.op = .release)
  ∧ (∀ h on s c, Next h s → s.ctx? h.ctx = some c → exec (.debugDbg h on) s =
      .next (told ((taken s).updCtx h.ctx (fun c => { c with dbg := on })) h 0 0))
  ∧ (∀ h n v s c, Next h s → s.ctx? h.ctx = some c → n < 4 → v.getLsbD 2 = false → v.extractLsb' 48 16 = 0 →
    exec (.debugAddrm h n v) s = .next (told ((taken s).updCtx h.ctx (fun c => { c with addrm := c.addrm.set (Fin.ofNat 4 n) v })) h 0 0))
  ∧ (∀ h s c t, Next h s → s.ctx? h.ctx = some c → t ∈ s.threads → t.ref.ctx = h.ctx → t.run = .ready →
    (∀ x ∈ s.threads, x.ref = t.ref → x = t) →
    ∃ s' u, exec (.debugStopAll h) s = .next s' ∧ s'.thread? t.ref = some u ∧ (∃ n, u.run = .stopped n) ∧ u.pc = t.pc)
  ∧ ∀ h m s c, Next h s → s.ctx? h.ctx = some c → exec (.debugTraceMask h m) s =
      .next (told ((taken s).updCtx h.ctx (fun c => { c with trace := m })) h 0 0)

namespace Sys2Proof.Slice0

/-- R387: the attempts of a boot step once it has run again. -/
def attempts (s : State) (n : Nat) : Nat := min ((s.mgmt.entry n).2.1 + 1) 255

end Sys2Proof.Slice0

/-- O45. R310, R367, R371, R372, R377, R379-R382, R385-R389: the commands of probes, replay, droop and management, each the
next of its endpoint, and the requests of the side band: an exclusive operation is performed for the master that may; a live
dump stops the cores that are not evicted, and each goes on when its image is written; each boot step that finds no unit
failing, or an image that verifies, goes on to the next, one that does not ends the start, and one whose entry shows failure
takes its alternate path; RMA sends one access for each line as its port's agent; a code that is not in the table is answered
4. What stays over a reset, how images and side-band answers stand as numbers, what a sensor is, the pages of a replay log,
what a dump's image holds, reserved bits and the header of an answer that no endpoint gives are the model's choices (log
entries 4, 21, 24, 32, 34, 54). The clause of `fwupd` takes the image's address as a physical address of device memory, which
is the model's choice (log entry 60). -/
def Obligations.ManagementCommands : Prop :=
  (∀ h v s, Next h s → ∃ s', exec (.snapControl h v) s = .next (told s' h 0 0) ∧
      s'.probe.snapctl &&& 0x8F = v &&& 0x8F ∧ s'.probe.snapctl &&& ~~~0x8F = s.probe.snapctl &&& ~~~0x8F)
  ∧ (∀ h s, Next h s → exec (.snapHostTrigger h) s = .next (told ((taken s).snap .host) h 0 0))
  ∧ (∀ h v s, Next h s → v = 0 ∨ (256 ≤ v ∧ v < 2 ^ 32) → ∃ s', exec (.snapPulsep h v) s = .next (told s' h 0 0) ∧
      s'.probe.pulsep = v ∧ (v ≠ 0 → s'.probe.nextPulse % v = 0 ∧ s.thirds / 3 < s'.probe.nextPulse ∧
        s'.probe.nextPulse ≤ s.thirds / 3 + v))
  ∧ (∀ h mode page s c, Next h s → s.ctx? h.ctx = some c → mode ≤ 2 → (mode = c.replay ∨ running s h.ctx = []) →
    ∃ s' d, exec (.replay h mode page) s = .next (told s' h 0 0) ∧ s'.ctx? h.ctx = some d ∧ d.replay = mode ∧
      d.logPages = c.logPages + (if page = 0 then 0 else 1) ∧ (mode = 1 → c.replay ≠ 1 → d.log = []) ∧
      (mode = 2 → c.replay ≠ 2 → d.log = c.log.map (fun e => { e with used := false })))
  ∧ (∀ h v s, Next h s → exec (.droop h v) s = .next (told { taken s with droopth := (v.setWidth 12).setWidth 64 } h 0 0))
  ∧ (∀ h s, Next h s → s.liveLock = none → exec (.mlock h) s =
      .next (told { taken s with mgmt := { s.mgmt with lock := some ⟨false, s.thirds / 3 + 10000000000, s.thirds / 3, none, false⟩ } } h 0 1))
  ∧ (∀ h s l, Next h s → s.liveLock = some l → l.side = true → exec (.mlock h) s = .next (told (taken s) h 0 0))
  ∧ (∀ h s, Next h s → s.mayExclude false = true → ∃ s', exec (.mreset h) s = .next s' ∧ s'.ctxs = [] ∧ s'.threads = [] ∧
      s'.mgmt.step = 1 ∧ s'.mem = s.mem ∧ s'.done = s.done ∧ s'.thirds = 0)
  ∧ (∀ h addr len b s, Next h s → s.mayExclude false = true → ∃ s', exec (.fwupd h addr len b) s = .next (told s' h 0 0) ∧
      (if b then s'.mgmt.slotB else s'.mgmt.slotA) = 2 ^ (8 * len) + Memory.readN s.mem len addr ∧
      (if b then s'.mgmt.slotA = s.mgmt.slotA else s'.mgmt.slotB = s.mgmt.slotB))
  ∧ (∀ h n s, Next h s → 1 ≤ n → n ≤ 7 → s.mayExclude false = true → ∃ s', exec (.stepclr h n) s = .next (told s' h 0 0) ∧
      s'.mgmt.entry n = (0, 0, 0) ∧ ∀ i, 1 ≤ i → i ≤ 7 → i ≠ n → s'.mgmt.entry i = s.mgmt.entry i)
  ∧ (∀ h id s, Next h s → exec (.sensor h id) s = .next (told (taken s) h 0 (BitVec.ofNat 64 (s.sensor id))))
  ∧ (∀ h region s c, Next h s → s.ctx? h.ctx = some c → region % 4096 = 0 →
    let cores := c.coreSet.filter (fun cc => (s.imageAny? h.ctx cc).isNone)
    ∃ s', exec (.liveDump h region) s = .next s' ∧ s'.defers = s.defers ++ [⟨h, [], [], cores⟩] ∧ s'.threads = s.threads ∧
      ∀ cc ∈ cores, ∃ im, s'.imageAny? h.ctx cc = some im ∧ im.region = region ∧ im.dump = some s.cycle ∧ im.complete = false)
  ∧ (∀ s ctx cc im start, s.imageAny? ctx cc = some im → im.complete = false → im.dump = some start → im.landing = [] →
    imageReady s ctx cc = true → ∃ s', exec (.imageComplete ctx cc) s = .next s' ∧ s'.imageAny? ctx cc = none ∧
      s'.threads.map (fun t => { t with run := .ready }) = s.threads.map (fun t => { t with run := .ready }))
  ∧ (∀ h op s, Next h s → op ∉ opCodes → exec (.unknownOperation h op) s = .next (told (taken s) h 4 0))
  ∧ (∀ s, s.mayExclude true = true → ∃ s', exec .sidebandReset s = .next s' ∧ s'.ctxs = [] ∧ s'.threads = [] ∧
      s'.mgmt.step = 1 ∧ s'.mem = s.mem ∧ s'.done = s.done)
  ∧ (∀ n s, 1 ≤ n → n ≤ 7 → s.mayExclude true = true → ∃ s', exec (.sidebandStepClear n) s = .next s' ∧
      s'.mgmt.entry n = (0, 0, 0) ∧ s'.mgmt.side = s.mgmt.side ++ [0] ∧
      ∀ i, 1 ≤ i → i ≤ 7 → i ≠ n → s'.mgmt.entry i = s.mgmt.entry i)
  ∧ (∀ p up s, ∃ s', exec (.portLinkChange p up) s = .next s' ∧ (p ∈ s'.mgmt.ports ↔ up = true ∧ (7, p) ∉ s.mgmt.fenced) ∧
      ∀ q, q ≠ p → (q ∈ s'.mgmt.ports ↔ q ∈ s.mgmt.ports))
  ∧ (∀ id s, exec (.pldmSensorRead id) s =
      .next { s with mgmt := { s.mgmt with side := s.mgmt.side ++ [s.sensor id] } })
  ∧ (∀ b image s, s.mayExclude true = true → ∃ s', exec (.pldmFirmwareUpdate b image) s = .next s' ∧
      (if b then s'.mgmt.slotB else s'.mgmt.slotA) = image ∧ s'.mgmt.side = s.mgmt.side ++ [0])
  ∧ (∀ n s, let boot := sha512 (blobBytes s.mgmt.slotA)
    let running := sha512 (blobBytes s.mgmt.running)
    let record := sha512 s.mgmt.recordBytes
    exec (.spdmGetMeasurements n) s = .next { s with mgmt := { s.mgmt with
      side := s.mgmt.side ++ [boot, running, record, Config.signed n boot running record] } })
  ∧ (∀ s, s.liveLock = none → ∃ s', exec .sidebandLockRequest s = .next s' ∧
      s'.mgmt.lock = some ⟨true, s.thirds / 3 + 10000000000, s.thirds / 3, none, false⟩ ∧ s'.mgmt.side = s.mgmt.side ++ [1])
  ∧ (∀ s l, s.mgmt.lock = some l → l.fin ≤ s.thirds / 3 →
    exec .lockLeaseExpiry s = .next { s with mgmt := { s.mgmt with lock := some { l with ended := true } } })
  ∧ (∀ s n, n ∈ [1, 2, 3, 4, 7] → s.mgmt.step = n → (s.mgmt.entry n).1 ≠ 1 → failing n s.oracle.fail = [] →
    ∃ s', exec .boot s = .next s' ∧ s'.mgmt.step = n + 1 ∧ s'.mgmt.entry n = (0, attempts s n, 0) ∧
      (n = 7 → ∀ p, p ∈ s'.mgmt.ports ↔ p < 16 ∧ (7, p) ∉ s.mgmt.fenced))
  ∧ (∀ s n, n ∈ [1, 2, 3, 4, 7] → s.mgmt.step = n → (s.mgmt.entry n).1 ≠ 1 → failing n s.oracle.fail ≠ [] →
    ∃ s', exec .boot s = .next s' ∧ s'.mgmt.step = 0 ∧
      s'.mgmt.entry n = (1, attempts s n, unitMask n (failing n s.oracle.fail)))
  ∧ (∀ s, s.mgmt.step = 5 → (s.mgmt.entry 5).1 ≠ 1 → let l := failing 5 s.oracle.fail
    ∃ s', exec .boot s = .next s' ∧ (deadTiles [] l = [] → s'.mgmt.step = 6 ∧ s'.mgmt.entry 5 = (0, attempts s 5, 0)) ∧
      (deadTiles [] l ≠ [] → s'.mgmt.step = 0 ∧ s'.mgmt.entry 5 = (1, attempts s 5, unitMask 5 l)))
  ∧ (∀ s, s.mgmt.step = 6 → let again := (s.mgmt.entry 6).1 = 1
    ∀ image, (again → image = s.mgmt.slotB) → (¬again → image = s.mgmt.slotA) → ∃ s', exec .boot s = .next s' ∧
      let ok := Config.signatureOk image = true ∧ s.mgmt.rollback ≤ Config.imageVersion image
      (ok → s'.mgmt.running = image ∧ s'.mgmt.step = 7 ∧ (again → s'.mgmt.entry 6 = (3, attempts s 6, 0)) ∧
        (¬again → s'.mgmt.entry 6 = (0, attempts s 6, 0))) ∧
      (¬ok → s'.mgmt.running = s.mgmt.running ∧ s'.mgmt.step = 0 ∧ s'.mgmt.entry 6 = (1, attempts s 6, 0)))
  ∧ (∀ s, s.mgmt.step = 1 → (s.mgmt.entry 1).1 = 1 → ∃ s', exec .boot s = .next s' ∧ s'.mgmt.step = 0 ∧
      s'.mgmt.entry 1 = (1, attempts s 1, (s.mgmt.entry 1).2.2))
  ∧ (∀ s, s.mgmt.step = 2 → (s.mgmt.entry 2).1 = 1 → ∃ s', exec .boot s = .next s' ∧ s'.mgmt.step = 3 ∧
      s'.mgmt.entry 2 = (2, (s.mgmt.entry 2).2.1, (s.mgmt.entry 2).2.2))
  ∧ (∀ s n, n = 3 ∨ n = 7 → s.mgmt.step = n → (s.mgmt.entry n).1 = 1 →
    let mask := (s.mgmt.entry n).2.2 ||| unitMask n (failing n s.oracle.fail)
    ∃ s', exec .boot s = .next s' ∧ s'.mgmt.step = n + 1 ∧ s'.mgmt.entry n = (3, attempts s n, mask) ∧
      ∀ u, (n, u) ∈ s'.mgmt.fenced ↔ (n, u) ∈ s.mgmt.fenced ∨ u < 64 ∧ mask.testBit u = true)
  ∧ (∀ s, s.mgmt.step = 4 → (s.mgmt.entry 4).1 = 1 → let l := failing 4 s.oracle.fail
    ∃ s', exec .boot s = .next s' ∧ s'.mgmt.step = 5 ∧ s'.mgmt.entry 4 = (3, attempts s 4, unitMask 4 l) ∧
      (∀ u, u ∈ s'.mgmt.slow ↔ u < 64 ∧ (s.mgmt.entry 4).2.2.testBit u = true) ∧
      ∀ u, (4, u) ∈ s'.mgmt.fenced ↔ (4, u) ∈ s.mgmt.fenced ∨ u ∈ l)
  ∧ (∀ s, s.mgmt.step = 5 → (s.mgmt.entry 5).1 = 1 → let l := failing 5 s.oracle.fail
    ∃ s', exec .boot s = .next s' ∧ s'.mgmt.step = 6 ∧ s'.mgmt.entry 5 = (3, attempts s 5, unitMask 5 l) ∧
      s'.mgmt.spare = sparedColumns l ∧
      ∀ u, (5, u) ∈ s'.mgmt.fenced ↔ (5, u) ∈ s.mgmt.fenced ∨ u ∈ deadTiles (sparedColumns l) l)
  ∧ (∀ ctx seq s, exec (.unsupportedOperation ctx seq) s = .next (told s ⟨0x10000, ctx, seq⟩ 4 0))
  ∧ (∀ ctx port va len d q s c, s.ctx? ctx = some c → 0 < len → port < 16 → (∀ o ∈ s.rmaOpen, ¬(o.ctx = ctx ∧ o.seq = q)) →
    ∃ x : Nat × Nat → Access, (∀ p, (x p).agent = 0xF0000 + port * 0x800 + ctx ∧ (x p).kind = .write ∧ (x p).va = va + p.1 ∧
        (x p).size = p.2 ∧ (x p).data = BitVec.ofNat 1024 (d / 2 ^ (8 * p.1) % 2 ^ (8 * p.2))) ∧
      exec (.rmaWrite ctx port va len d q) s = .next ((linePieces va len).foldl (fun s p => sendAccess s (x p))
        { s with rmaOpen := s.rmaOpen ++ [⟨ctx, q, (linePieces va len).length, 0, true⟩] }))
  ∧ (∀ ctx port va len q s c, s.ctx? ctx = some c → 0 < len → port < 16 → (∀ o ∈ s.rmaOpen, ¬(o.ctx = ctx ∧ o.seq = q)) →
    ∃ x : Nat × Nat → Access, (∀ p, (x p).agent = 0xF0000 + port * 0x800 + ctx ∧ (x p).kind = .read ∧ (x p).va = va + p.1 ∧
        (x p).size = p.2) ∧
      exec (.rmaRead ctx port va len q) s = .next ((linePieces va len).foldl (fun s p => sendAccess s (x p))
        { s with rmaOpen := s.rmaOpen ++ [⟨ctx, q, (linePieces va len).length, 0, true⟩] }))
  ∧ ∀ va len, (∀ p ∈ linePieces va len, 0 < p.2 ∧ (va + p.1) % 128 + p.2 ≤ 128) ∧
      ∀ b, va ≤ b ∧ b < va + len ↔ ∃ p ∈ linePieces va len, va + p.1 ≤ b ∧ b < va + p.1 + p.2

namespace Sys2Proof.Slice0

/-- R371: the enable bit of a snapshot trigger's source in SNAPCTL. -/
def sourceBit : SnapSrc → Nat
  | .pulse => 0
  | .race => 1
  | .host => 2
  | .ext => 3

end Sys2Proof.Slice0

/-- O46. R129, R265, R270, R283, R310, R311, R367-R378, R389, R390: a comparator stops its thread before the instruction at its
PC; a replay mismatch stops the context's threads, uses its entry up and is told; the pulse advances by its period; of the
enabled triggers of any source the first while armed sets the latch 16 reference nanoseconds ahead and SRC to its bit, those of
the same tick add theirs, later ones change nothing, and one while not armed is counted in MISSED; the latch disarms; a ring
that is not full moves its tail past the record it places; a droop alarm stretches the clock by six thirds of a nanosecond and
restricts issue for 64 cycles; the static energy falls due again a microsecond on; a settled line's stamp is pulled into the
window; an uncorrectable error poisons its line and is counted; memory that the host frees is FREE. The stretch of a cycle, the
energy of what is counted, where rings stand, the form of events and which entry a mismatch names are the model's choices (log
entries 2, 22, 27, 34, 38, 54). -/
def Obligations.DeviceEvents : Prop :=
  (∀ s r n t, s.thread? r = some t → (∀ w, t.run ≠ .stopped w) → t.run ≠ .halted → 4 ≤ n ∨ ((s.ctxD r.ctx).addrm.toList.getD n 0).getLsbD 1 = false →
    ∃ s' u, exec (.addressComparatorStop r n) s = .next s' ∧ s'.thread? r = some u ∧ u.run = .stopped n ∧ u.pc = t.pc)
  ∧ (∀ s r e, ∃ s' x, exec (.replayMismatch r e) s = .next s' ∧ s'.events = x ++ [⟨4, some r.ctx, r.agent / 16, r.agent % 16,
      BitVec.ofNat 64 e, s.thirds / 3, s.cycle⟩] ∧
    (∀ t ∈ s.threads, t.ref.ctx = r.ctx → t.run = .ready → (∀ x ∈ s.threads, x.ref = t.ref → x = t) →
      ∃ u, s'.thread? t.ref = some u ∧ u.run = .stopped 5 ∧ u.pc = t.pc) ∧
    ∀ c y, s.ctx? r.ctx = some c → c.log[e]? = some y → ∃ d, s'.ctx? r.ctx = some d ∧ d.log[e]? = some { y with used := true })
  ∧ (∀ s, ∃ s', exec .acornPulse s = .next s' ∧ s'.probe.nextPulse = s.probe.nextPulse + s.probe.pulsep)
  ∧ (∀ s, s.probe.snapctl.getLsbD 3 = true → s.probe.snapctl.getLsbD 7 = true → s.probe.latchAt = none →
    exec .externalTrigger s = .next { s with probe := { s.probe with latchAt := some (s.thirds / 3 + 16), src := 8 } })
  ∧ (∀ s src, s.probe.snapctl.getLsbD (sourceBit src) = true → s.probe.snapctl.getLsbD 7 = true → s.probe.latchAt = none →
    exec (.snapshotTrigger src) s = .next { s with
      probe := { s.probe with latchAt := some (s.thirds / 3 + 16), src := 1 <<< sourceBit src } })
  ∧ (∀ s src, s.probe.snapctl.getLsbD (sourceBit src) = true → s.probe.snapctl.getLsbD 7 = true →
    s.probe.latchAt = some (s.thirds / 3 + 16) →
    exec (.snapshotTrigger src) s = .next { s with probe := { s.probe with src := s.probe.src ||| 1 <<< sourceBit src } })
  ∧ (∀ s src x, s.probe.snapctl.getLsbD 7 = true → s.probe.latchAt = some x → x ≠ s.thirds / 3 + 16 →
    exec (.snapshotTrigger src) s = .next s)
  ∧ (∀ s src, s.probe.snapctl.getLsbD (sourceBit src) = false → exec (.snapshotTrigger src) s = .next s)
  ∧ (∀ s src, s.probe.snapctl.getLsbD (sourceBit src) = true → s.probe.snapctl.getLsbD 7 = false →
    ∃ s', exec (.snapshotTrigger src) s = .next s' ∧ s'.probe.latchAt = s.probe.latchAt ∧
      (s'.probe.snapctl.extractLsb' 16 16).toNat = min ((s.probe.snapctl.extractLsb' 16 16).toNat + 1) 0xFFFF ∧
      ∀ i, i < 16 ∨ 32 ≤ i → s'.probe.snapctl.getLsbD i = s.probe.snapctl.getLsbD i)
  ∧ (∀ s, s.probe.snapctl.getLsbD 1 = true → s.probe.snapctl.getLsbD 7 = false → ∃ s', exec (.snapshotTrigger .race) s = .next s' ∧
      (s'.probe.snapctl.extractLsb' 16 16).toNat = min ((s.probe.snapctl.extractLsb' 16 16).toNat + 1) 0xFFFF)
  ∧ (∀ s x, s.probe.latchAt = some x → ∃ s', exec .snapshotLatch s = .next s' ∧ s'.probe.latchAt = none ∧
      s'.probe.snapctl.getLsbD 7 = false ∧ s'.probe.snapctl.extractLsb' 8 4 = s.probe.src)
  ∧ (∀ s r ws, s.rings = [r] → r.tail % 2 ^ 32 = r.tail → r.head % 2 ^ 32 = r.head →
    r.coll = [(0, 0, ws, [])] → 0 < s.thirds / 3 → (r.tail + 2 ^ 32 - r.head) % 2 ^ 32 ≠ 2 ^ r.k →
    ∃ s' q, exec (.ringTickPlacement r.die) s = .next s' ∧ s'.rings = [q] ∧ q.tail = (r.tail + 1) % 2 ^ 32 ∧ q.coll = [] ∧
      q.drop = r.drop)
  ∧ (∀ s, exec .droopAlarm s = .next { s with thirds := s.thirds + 6, droopEnd := some (s.cycle + 65) })
  ∧ (∀ s, exec .droopWindowEnd s = .next { s with droopEnd := none })
  ∧ (∀ s, ∃ s', exec .energyStaticTick s = .next s' ∧ s'.nextStatic = s.nextStatic + 3000 ∧ s'.mem = s.mem)
  ∧ (∀ s l, s.Canonical → mdST (s.md l) = 2 → 2 ^ 15 ≤ delta (guardIn s (s.ownerOf l) (mdBD (s.md l))).count (mdSP (s.md l)) →
    ∃ s', exec (.agerVisit l) s = .next s' ∧ mdST (s'.md l) = 2 ∧ mdBD (s'.md l) = mdBD (s.md l) ∧
      delta (guardIn s (s.ownerOf l) (mdBD (s.md l))).count (mdSP (s'.md l)) = 2 ^ 15)
  ∧ (∀ s k, s.Canonical → ∃ s', exec (.softError (.mem k) false) s = .next s' ∧ s'.pois (lineOf k) ≠ 0 ∧ s'.mem = s.mem ∧
      (∀ l, l ≠ lineOf k → s'.pois l = s.pois l) ∧
      tabGet 0 s'.errors (2 * storageNo s (.mem k) + 1) = tabGet 0 s.errors (2 * storageNo s (.mem k) + 1) + 1)
  ∧ ∀ s base len l, s.Canonical → ∃ s', exec (.hostFreesMemory base len) s = .next s' ∧
      (∀ b, (∀ m, ¬TagByte s m b) → Memory.read s'.mem b = Memory.read s.mem b) ∧
      s'.md l = if base ≤ 128 * l ∧ 128 * l < base + len ∧ mdST (s.md l) = 3 then 0 else s.md l

/-- O47. R12, R76: an instruction whose guard predicate is FULL and has no effect only advances, by the back-edge test where it
applies; one whose predicate is EMPTY parks its thread there under PARK. An engine command that waits for its fence keeps the
condition of its issue (R178), and is not such an instruction any longer. -/
def Obligations.IneffectiveGuards : Prop :=
  (∀ i w s t k, encode i = some w → i ≠ .kend → s.curThread = some t → t.cguard = none → (∀ c ∈ s.ctxs, c.id = t.ref.ctx → c.replay = 0) →
    t.getK (Fin.ofNat 8 (headOf w).gk.toNat) = .full k → k.getLsbD 0 = ((headOf w).gn == 1) →
    exec i s = .next (s.updThread t.ref (fun t => counted t.advance)))
  ∧ ∀ i w s t, encode i = some w → i ≠ .kend → s.curThread = some t → t.cguard = none → (∀ c ∈ s.ctxs, c.id = t.ref.ctx → c.replay = 0) →
    t.getK (Fin.ofNat 8 (headOf w).gk.toNat) = .empty → (headOf w).wd = 0 →
    exec i s = .next ((s.unreserve t.ref).updThread t.ref (fun t =>
      { t with run := .parked (.reg (.k (Fin.ofNat 8 (headOf w).gk.toNat))) .empty, skipCmp := false }))

namespace Sys2Proof.Slice0

/-- R21: where BRANCH goes. -/
def afterBranch (pc : Word) (nro : BitVec 16) : Word := pc + (nro.signExtend 64 <<< 3)

/-- R21, R25: `ts` with NR set and OC a code. -/
def notedTs (ts : Word) (code : Nat) : Word := (ts &&& ~~~(0xF001 : Word)) ||| (BitVec.ofNat 4 code).setWidth 64 <<< 12 ||| 1

end Sys2Proof.Slice0

/-- O48. R21, R25, R36, R76: a not-ready outcome on a register or a router under PARK parks and moves nothing; under BRANCH it
sets NR and OC and goes to pcv + 8 NRO; under FLAG it sets them and advances; under TRAP it takes the would-block trap with the
code, but parks on RETRY. A buffer entry that the instruction had reserved is free again, and what the router refused is
counted (R370). -/
def Obligations.OutcomesByDisposition : Prop :=
  ∀ (s : State) (t : Thread) nro (code : OC) o, s.thread? t.ref = some t → (∀ c ∈ s.ctxs, c.id = t.ref.ctx → c.replay = 0) →
    ((∃ r, o = .reg r) ∨ ∃ c, o = .router c) → code ≠ .cnt → code ≠ .miss → code ≠ .ok →
    let s0 := (s.unreserve t.ref).countRefusal o
    s.outcome t 0 nro code o 0 = s0.updThread t.ref (fun t => { t with run := .parked o code, skipCmp := false })
    ∧ s.outcome t 1 nro code o 0 = s0.updThread t.ref (fun u =>
        counted { u with ts := notedTs u.ts code.num, pc := afterBranch u.pc nro, bySeq := false })
    ∧ s.outcome t 2 nro code o 0 = s0.updThread t.ref (fun u => counted ({ u with ts := notedTs u.ts code.num }).advance)
    ∧ s.outcome t 3 nro code o 0 = (if code = .retry then s0.updThread t.ref (fun t =>
          { t with run := .parked o code, skipCmp := false })
        else s0.takeTrap t .wouldBlock { c := { oc := code.num } } t.pc t.pc .none)

namespace Sys2Proof.Slice0

/-- R301: the 64-byte record. -/
def trapRecord (t : Thread) (c : Cause) (i : TrapInfo) (pc resume : Word) : List Word :=
  [i.c.word c.num, pc, resume, t.ts, i.addr, i.data, i.prog, i.info]

end Sys2Proof.Slice0

/-- O49. R297, R298, R299, R301, R88: taking a trap writes the record at the thread's frame and nothing else of memory, makes
its line FREE, sets H, clears LA0 and LA1 and keeps OC and NR, and puts the thread at its handler with its registers as they
were; a trap inside a handler halts the thread and tells the host. -/
def Obligations.TrapEntry : Prop :=
  (∀ (s : State) (t : Thread) (c : Cause) (i : TrapInfo) pc resume tied k key, s.Canonical → s.thread? t.ref = some t → t.h = false → t.fam.handler ≠ 0 → k % 128 = 0 →
    spotOf s t.ref.ctx (t.ref.agent / 16) ((s.ctxD t.ref.ctx).tfb + t.ref.agent * 128) true true = .ok (.at_ k key) →
    s.lineKey (k / 128) = key → let s' := s.takeTrap t c i pc resume tied
    (∃ u, s'.thread? t.ref = some u ∧ u.pc = t.fam.handler ∧ u.ts = (t.ts &&& ~~~(0xE00 : Word)) ||| 0x800 ∧
      u.trp = BitVec.ofNat 64 ((s.ctxD t.ref.ctx).tfb + t.ref.agent * 128) ∧ u.run = .ready ∧ u.trapped = tied ∧
      u.g = t.g ∧ u.v = t.v ∧ u.k = t.k ∧ u.lc = t.lc ∧ u.ls = t.ls ∧ u.le = t.le ∧ u.ras = t.ras ∧ u.wg = t.wg ∧
      u.holds = t.holds) ∧
    (∀ j < 8, Memory.readN s'.mem 8 (k + 8 * j) = ((trapRecord t c i pc resume).getD j 0).toNat) ∧
    (∀ a, a < k ∨ k + 64 ≤ a → Memory.read s'.mem a = Memory.read s.mem a) ∧
    s'.md (k / 128) = 0 ∧ ∀ l, l ≠ k / 128 → s'.md l = s.md l)
  ∧ ∀ (s : State) (t : Thread) (c : Cause) (i : TrapInfo) pc resume tied, s.thread? t.ref = some t → t.h = true →
    ∃ u, (s.takeTrap t c i pc resume tied).thread? t.ref = some u ∧ u.run = .halted ∧ u.pc = t.pc ∧ u.ts = t.ts ∧ u.g = t.g ∧
      ∃ e ∈ (s.takeTrap t c i pc resume tied).events, e.kind = 1 ∧ e.ctx = some t.ref.ctx ∧ e.core = t.ref.agent / 16 ∧
        e.tid = t.ref.agent % 16 ∧ e.info = BitVec.ofNat 64 c.num

namespace Sys2Proof.Slice0

/-- R86: whether loop j ends at the thread's PC. -/
def loopAt (t : Thread) (j : Fin 2) : Bool := t.ts.getLsbD (9 + j.val) && t.le.get j == t.pc

/-- R86: loop j left: its count and its LA bit are 0. -/
def loopLeft (j : Fin 2) (t : Thread) : Thread :=
  { t with lc := t.lc.set j 0, ts := t.ts &&& ~~~((0x200 : Word) <<< j.val), pc := t.le.get j + 8, bySeq := true }

/-- R86: loop j's next iteration. -/
def loopAgain (j : Fin 2) (t : Thread) : Thread := { t with lc := t.lc.set j (t.lc.get j - 1), pc := t.ls.get j, bySeq := false }

end Sys2Proof.Slice0

/-- O50. R76, R86: sequential advance goes to PC + 8 where no active loop ends at the PC; at the end of a loop whose count is
above 1 it counts down and goes to the body; at the last pass it clears LAj and leaves; loop 1 is tested first, and loop 0 only
when loop 1 exits. -/
def Obligations.AdvanceAndBackEdge : Prop :=
  (∀ (t : Thread), loopAt t 0 = false → loopAt t 1 = false → t.advance = { t with pc := t.pc + 8, bySeq := true })
  ∧ (∀ (t : Thread), loopAt t 1 = true → 1 < (t.lc.get 1).toNat → t.advance = loopAgain 1 t)
  ∧ (∀ (t : Thread), loopAt t 1 = true → (t.lc.get 1).toNat ≤ 1 → loopAt t 0 = false → t.advance = loopLeft 1 t)
  ∧ (∀ (t : Thread), loopAt t 1 = true → (t.lc.get 1).toNat ≤ 1 → loopAt t 0 = true → 1 < (t.lc.get 0).toNat →
      t.advance = loopAgain 0 (loopLeft 1 t))
  ∧ (∀ (t : Thread), loopAt t 1 = true → (t.lc.get 1).toNat ≤ 1 → loopAt t 0 = true → (t.lc.get 0).toNat ≤ 1 →
      t.advance = loopLeft 0 (loopLeft 1 t))
  ∧ (∀ (t : Thread), loopAt t 1 = false → loopAt t 0 = true → 1 < (t.lc.get 0).toNat → t.advance = loopAgain 0 t)
  ∧ ∀ (t : Thread), loopAt t 1 = false → loopAt t 0 = true → (t.lc.get 0).toNat ≤ 1 → t.advance = loopLeft 0 t

/-- O51. R11, R13, R14, R15, R19, R37, R38: what a plain source gives in each state of its register, what the codes that name
no register give, and what a write does: `zr` and `k0` discard it, any other register becomes FULL with it, a `k` register with
its low 32 bits. That of a pair's two registers the lower one decides, whatever the upper one holds, is the model's choice: R38
does not say which does (log entry 60). -/
def Obligations.OperandAccess : Prop :=
  (∀ (s : State) (t : Thread) i w, t.getG i = .full w → srcW s t (.g i) = .ok w)
  ∧ (∀ (s : State) (t : Thread) i w, t.getK i = .full w → srcW s t (.k i) = .ok (w.setWidth 64))
  ∧ (∀ (s : State) (t : Thread) i, t.getG i = .empty → srcW s t (.g i) = .error (.notReady .empty (.reg (.g i))))
  ∧ (∀ (s : State) (t : Thread) i g, t.getG i = .pend g → srcW s t (.g i) = .error (.notReady .pend (.reg (.g i))))
  ∧ (∀ (s : State) (t : Thread) i w, t.getG i = .pois w → srcW s t (.g i) = .error (.trap .poisonUse { c := { reg := i.val }, info := w }))
  ∧ (∀ s t, srcW s t .zr = .ok 0 ∧ srcW s t .pcv = .ok t.pc ∧ srcW s t .tid = .ok (BitVec.ofNat 64 (t.ref.agent % 16)) ∧
      srcW s t .cid = .ok (BitVec.ofNat 64 (t.ref.agent / 16)))
  ∧ (∀ (s : State) (t : Thread) d w, s.ownsPorts t = true → s.portWord t d = some w → srcW s t (.port d) = .ok w)
  ∧ (∀ (s : State) (t : Thread) d, s.ownsPorts t = true → s.portWord t d = none → srcW s t (.port d) = .error (.notReady .empty (.portIn d)))
  ∧ (∀ (s : State) (t : Thread) d, s.ownsPorts t = false → srcW s t (.port d) = .error (.trap .protection {}))
  ∧ (∀ t : Thread, t.getK 0 = .full 0xFFFFFFFF)
  ∧ (∀ (s : State) r w u, s.thread? r = some u → (writeW s r .zr w).thread? r = some u ∧ (writeW s r (.k 0) w).thread? r = some u)
  ∧ (∀ (s : State) r i w u, s.thread? r = some u → ∃ x, (writeW s r (.g i) w).thread? r = some x ∧ x.getG i = .full w ∧
      (∀ j, j ≠ i → x.getG j = u.getG j) ∧ x.v = u.v ∧ x.k = u.k)
  ∧ (∀ (s : State) r i w u, s.thread? r = some u → i ≠ 0 → ∃ x, (writeW s r (.k i) w).thread? r = some x ∧
      x.getK i = .full (w.setWidth 32) ∧ (∀ j, j ≠ i → x.getK j = u.getK j) ∧ x.g = u.g ∧ x.v = u.v)
  ∧ (∀ (s : State) r o u, s.thread? r = some u → ∃ x, (consumeOne s r (.g o) .consume).thread? r = some x ∧ x.getG o = .empty ∧
      (∀ j, j ≠ o → x.getG j = u.getG j) ∧ x.v = u.v ∧ x.k = u.k)
  ∧ (∀ (t : Thread) i w, t.getV i = .full w → srcV t (.v i) = .ok w ∧ srcL t false (.v i) = .ok (w, 0))
  ∧ (∀ (t : Thread) i x y, t.getV i = .full x → t.getV (pairUp i) = .full y → srcL t true (.v i) = .ok (x, y))
  ∧ (∀ (t : Thread) i p, t.getV i = .empty → srcV t (.v i) = .error (.notReady .empty (.reg (.v i))) ∧
      srcL t p (.v i) = .error (.notReady .empty (.reg (.v i))))
  ∧ (∀ (t : Thread) i p g, t.getV i = .pend g → srcV t (.v i) = .error (.notReady .pend (.reg (.v i))) ∧
      srcL t p (.v i) = .error (.notReady .pend (.reg (.v i))))
  ∧ (∀ (t : Thread) i p w, t.getV i = .pois w → srcV t (.v i) = .error (poisonTrap (.v i) w) ∧
      srcL t p (.v i) = .error (poisonTrap (.v i) w))
  ∧ (∀ (t : Thread) i x, t.getV i = .full x → t.getV (pairUp i) = .empty →
      srcL t true (.v i) = .error (.notReady .empty (.reg (.v (pairUp i)))))
  ∧ (∀ (t : Thread) p, srcV t .zr = .ok 0 ∧ srcL t p .zr = .ok (0, 0))
  ∧ (∀ (x y : VWord) (n : Nat), n < 32 → laneNat false (x, y) n = (x.extractLsb' (32 * n) 32).toNat ∧
      laneNat true (x, y) n = (y.extractLsb' (32 * n) 32 ++ x.extractLsb' (32 * n) 32).toNat)
  ∧ (∀ k (g : Nat → Nat) (n : Nat), n < 32 → (lanesOf k g).1.extractLsb' (32 * n) 32 = (if k.getLsbD n then BitVec.ofNat 32 (g n) else 0) ∧
      (lanesOf k g).2.extractLsb' (32 * n) 32 = (if k.getLsbD n then BitVec.ofNat 32 (g n / 2 ^ 32) else 0))
  ∧ (∀ (s : State) r i p lo hi u, s.thread? r = some u → writeL s r p .zr lo hi = s ∧
      ∃ x, (writeL s r p (.v i) lo hi).thread? r = some x ∧ x.getV i = .full lo ∧ (p = true → x.getV (pairUp i) = .full hi) ∧
        (∀ j, j ≠ i → (p = true → j ≠ pairUp i) → x.getV j = u.getV j) ∧ x.g = u.g ∧ x.k = u.k)
  ∧ ∀ (s : State) r i p u, s.thread? r = some u →
      ∃ x, (consumeL s r p (.v i) .consume).thread? r = some x ∧ x.getV i = .empty ∧ (p = true → x.getV (pairUp i) = .empty) ∧
        (∀ j, j ≠ i → (p = true → j ≠ pairUp i) → x.getV j = u.getV j) ∧ x.g = u.g ∧ x.k = u.k

/-- O52. R386, R387 and log entry 4: the module right after reset holds no context, no thread and no core in use, its memory
lists nothing and every line is FREE and unpoisoned, the boot is at step 1, and the invariants hold. -/
def Obligations.ResetState : Prop :=
  State.reset.mgmt.step = 1 ∧ State.reset.mgmt.ports = [] ∧ State.reset.mgmt.lock = none ∧
  State.reset.ctxs = [] ∧ State.reset.threads = [] ∧ State.reset.launches = [] ∧ State.reset.flight = [] ∧ State.reset.done = [] ∧
  (∀ a, Memory.read State.reset.mem a = Config.blank) ∧ (∀ l, State.reset.md l = 0 ∧ State.reset.pois l = 0) ∧
  (∀ c n, ((State.reset.core c).pod n).st = .free ∧ ((State.reset.core c).acc n).st = .free ∧
    ((State.reset.core c).counter n).val = 0) ∧
  State.reset.Canonical ∧ State.reset.Distinct

namespace Sys2Proof.Slice0

/-- R101: what a step makes of a state in which a thread's fence wait has ended: the thread, ready, in its own turn still. -/
def goingOn (t : Thread) : Thread := { t with run := .ready, fetched := true }

end Sys2Proof.Slice0

/-- O53. R18, R33, R51, R73, R74, R75, R101, R287, R289, R290, R300, R367, R374: what is due before the issues of a cycle comes
first; then the issues: where the draw picks a core's thread whose fetched word decodes to i, a step is i by `exec`, after the
turn's bookkeeping and before the counts and the next draw; a trap that is due takes the turn, else a comparator stops the
thread; a word that is no instruction runs its row, a PC reached by sequential advance at the segment's bound runs `kend`, a
fetch that faults takes its trap, and a word that is not there yet is fetched. Then an instruction whose fence wait has ended
runs, without a turn of its own. After that the event that is due runs, else one that the draw picks, else the cycle ends. The
order among cores and among events, and when a cycle ends, are the model's choices (log entries 1, 2). -/
def Obligations.StepRunsDecoded : Prop :=
  (∀ s i, dueFirst s = some i → step s = Out.andThen (exec i (beforeEvent s i)) (afterEvent s i))
  ∧ (∀ s c t w i, dueFirst s = none → pickOf s (issuing s) = some (c, t) → trapDue s t = false → comparatorHit s t = none →
    ¬(t.bySeq = true ∧ t.pc = t.fam.bound) → fetchAt s t = .word w → decodeWord w = .ok i →
    step s = Out.andThen (exec i (beforeIssue s c t i)) (afterIssue s t.ref))
  ∧ (∀ s c t, dueFirst s = none → pickOf s (issuing s) = some (c, t) → trapDue s t = true →
    step s = Out.andThen (exec (.takeTrap t.ref) (beforeIssue s c t (.takeTrap t.ref))) (afterIssue s t.ref))
  ∧ (∀ s c t n, dueFirst s = none → pickOf s (issuing s) = some (c, t) → trapDue s t = false → comparatorHit s t = some n →
    step s = Out.andThen (exec (.addressComparatorStop t.ref n) (beforeIssue s c t (.addressComparatorStop t.ref n)))
      (afterIssue s t.ref))
  ∧ (∀ s c t w r, dueFirst s = none → pickOf s (issuing s) = some (c, t) → trapDue s t = false → comparatorHit s t = none →
    ¬(t.bySeq = true ∧ t.pc = t.fam.bound) → fetchAt s t = .word w → decodeWord w = .error r →
    step s = Out.andThen (exec (.illegalInstruction r) (beforeIssue s c t (.illegalInstruction r))) (afterIssue s t.ref))
  ∧ (∀ s c t, dueFirst s = none → pickOf s (issuing s) = some (c, t) → trapDue s t = false → comparatorHit s t = none →
    t.bySeq = true → t.pc = t.fam.bound →
    step s = Out.andThen (exec .kend (beforeIssue s c t .kend)) (afterIssue s t.ref))
  ∧ (∀ s c t, dueFirst s = none → pickOf s (issuing s) = some (c, t) → trapDue s t = false → comparatorHit s t = none →
    ¬(t.bySeq = true ∧ t.pc = t.fam.bound) → fetchAt s t = .fault →
    step s = Out.andThen (exec (.takeTrap t.ref) (beforeIssue s c t (.takeTrap t.ref))) (afterIssue s t.ref))
  ∧ (∀ s c t, dueFirst s = none → pickOf s (issuing s) = some (c, t) → trapDue s t = false → comparatorHit s t = none →
    ¬(t.bySeq = true ∧ t.pc = t.fam.bound) → fetchAt s t = .miss →
    step s = .next (redraw (startFetch (takeTurn s c t) t)))
  ∧ (∀ s t w i, dueFirst s = none → pickOf s (issuing s) = none → resuming s = some t →
    let s1 : State := { s.setThread (goingOn t) with cur := t.ref }
    ¬(t.bySeq = true ∧ t.pc = t.fam.bound) → fetchAt s1 (goingOn t) = .word w → decodeWord w = .ok i →
    step s = Out.andThen (exec i s1) (afterIssue s1 t.ref))
  ∧ (∀ s m, dueFirst s = none → pickOf s (issuing s) = none → resuming s = none → dueEvent s = some m →
    step s = Out.andThen (exec m.i (beforeEvent (m.take s) m.i)) (afterEvent s m.i))
  ∧ (∀ s m, dueFirst s = none → pickOf s (issuing s) = none → resuming s = none → dueEvent s = none → s.oracle.elapse = false →
    pickOf s (events s) = some m → step s = Out.andThen (exec m.i (beforeEvent (m.take s) m.i)) (afterEvent s m.i))
  ∧ ∀ s, dueFirst s = none → pickOf s (issuing s) = none → resuming s = none → dueEvent s = none →
    s.oracle.elapse = true ∨ events s = [] → step s = .next (redraw (tick s))

/-- O54. R32, R33, R40-R44, R49-R51: an accepted instruction's word, wherever it stands at the head of bytes, decodes to it and
leaves the rest; and a word that decodes is the word of what it decodes to, which is accepted. -/
def Obligations.DecodeEncode : Prop :=
  (∀ i w rest, i.WellFormed → encode i = some w → decode (leBytes 8 w.toNat ++ rest) = .ok (i, rest))
  ∧ ∀ w i, decodeWord w = .ok i → i.WellFormed ∧ (i ≠ .kend → encode i = some w)

/-- O55. R5, R119, R259 and log entry 4: every step keeps the canonical form of memory, metadata, poison, keys and owners. -/
def Obligations.CanonicalKept : Prop :=
 ∀ s s', s.Canonical → step s = .next s' → s'.Canonical

/-- O56. R28, R176, R202: every step keeps one record of each core, and one queue of each kind for a context on it. -/
def Obligations.DistinctKept : Prop :=
 ∀ s s', s.Distinct → step s = .next s' → s'.Distinct

namespace Sys2Proof.Slice0

/-- The registers of an operand: one, or a pair's two (R38). -/
def operandRegs (pair : Bool) (o : Opd) : List Opd :=
  match o with
  | .v i => if pair then [.v i, .v (Fin.ofNat 32 (i.val + 1))] else [.v i]
  | o => [o]

/-- The registers that a source consumes (R13). -/
def consumedRegs (pair : Bool) (m : BitVec 2) (o : Opd) : List Opd :=
  if SrcMod.ofCode m = .consume then operandRegs pair o else []

/-- The registers that an instruction of registers only may change: its destination and what it consumes or moves (R13, R14,
R38). -/
def registerWrites (i : Instr) : Option (List Opd) :=
  match twoSource i, oneSource i, immediate i, laneTable i, floatTable i with
  | some (f, _), _, _, _, _ => some (f.D :: consumedRegs false f.ma f.A ++ consumedRegs false f.mb f.B)
  | _, some (f, _), _, _, _ => some (f.D :: consumedRegs false f.ma f.A)
  | _, _, some (f, _), _, _ => some [f.D]
  | _, _, _, some (f, sh, _), _ => some (operandRegs (paired f) f.D ++ consumedRegs (paired f && sh.pairA) f.ma f.A
      ++ if sh.readB then consumedRegs (paired f && sh.pairB) f.mb f.B else [])
  | _, _, _, _, some (f, sh, _) => some (f.D :: consumedRegs false f.ma f.A ++ if sh.readB then consumedRegs false f.mb f.B else [])
  | _, _, _, _, _ =>
    match i with
    | .movi f => some [f.D]
    | .adr f => some [f.D]
    | .bfi f | .sel f => some (f.D :: consumedRegs false f.ma f.A ++ consumedRegs false f.mb f.B)
    | .mov f => some (f.D :: if f.ma = 0 then [] else [f.A])
    | .movf f => some [f.D, f.A]
    | .rst f | .rclr f | .mfs f | .tstamp f => some [f.D]
    | .nop _ | .park _ => some []
    | .vbc f | .viota f => some (operandRegs (paired f) f.D ++ consumedRegs false f.ma f.A)
    | .vext f => some (f.D :: consumedRegs (paired f) f.ma f.A ++ consumedRegs false f.mb f.B)
    | .vins f => some (operandRegs (paired f) f.D ++ consumedRegs false f.ma f.A ++ consumedRegs false f.mb f.B)
    | .vscan f => some (operandRegs (paired f) f.D ++ consumedRegs (paired f) f.ma f.A)
    | .vred f => some (f.D :: consumedRegs (paired f) f.ma f.A)
    | .vcmp f | .vfcmp f => some (f.D :: consumedRegs (paired f) f.ma f.A ++ consumedRegs (paired f) f.mb f.B)
    | .vsel f => some (operandRegs (paired f) f.D ++ consumedRegs (paired f) f.ma f.A ++ consumedRegs (paired f) f.mb f.B)
    | .vperm f => some (operandRegs (paired f) f.D ++ consumedRegs (paired f) f.ma f.A ++ consumedRegs false f.mb f.B)
    | .vfscan f | .vfred f | .vfcvt f | .vmxd f | .vmxq f => some (f.D :: consumedRegs false f.ma f.A)
    | _ => none

/-- The bytes of memory that a trap of a thread may write (R298, R299, R301): a record at its frame or 64 bytes above, at the place
that the walk gives; where the record's line was last written under another key, all of that line. -/
def TrapByte (s : State) (t : Thread) (a : Nat) : Prop :=
  ∃ h k key, (h = 0 ∨ h = 64) ∧
    spotOf s t.ref.ctx (t.ref.agent / 16) ((s.ctxD t.ref.ctx).tfb + t.ref.agent * 128 + h) true true = .ok (.at_ k key) ∧
    ((k ≤ a ∧ a < k + 64) ∨ ∃ j < 8, a / 128 = (k + 8 * j) / 128 ∧ s.lineKey (a / 128) ≠ key)

/-- A thread as it is but for its run state. -/
def rested (t : Thread) : Thread := { t with run := .ready }

/-- The frame of an issued instruction that may change the registers `regs` and of its cores what `view` leaves out: every other
register of its thread, its family, write guard, loop bounds, holds, arrivals, barrier marks and right to wake, and the bits of
`ts` but NR, LA0, LA1, H and OC, are as they were; so is every other thread but that it may have been made ready, every core as
`view` shows it, every context but its replay log, and every launch; so is every byte of memory that is not one of those the
instruction stores, and where the thread has trapped or halted every byte that its trap record does not cover. -/
structure Kept (s s' : State) (t : Thread) (regs : List Opd) (view : Core → Core) (stored : Nat → Prop) : Prop where
  own : ∃ u, s'.thread? t.ref = some u ∧ (∀ i, .g i ∉ regs → u.getG i = t.getG i) ∧ (∀ i, .v i ∉ regs → u.getV i = t.getV i) ∧
    (∀ i, .k i ∉ regs → u.getK i = t.getK i) ∧ u.ts &&& ~~~(0xFE01 : Word) = t.ts &&& ~~~(0xFE01 : Word) ∧ u.fam = t.fam ∧
    u.wg = t.wg ∧ u.ls = t.ls ∧ u.le = t.le ∧ u.ras = t.ras ∧ u.holds = t.holds ∧ u.arrived = t.arrived ∧ u.marks = t.marks ∧
    u.wakeRight = t.wakeRight ∧
    ((∀ a, ¬stored a → Memory.read s'.mem a = Memory.read s.mem a) ∨
      ((u.run = .halted ∨ (t.h = false ∧ u.h = true)) ∧ ∀ a, ¬TrapByte s t a → Memory.read s'.mem a = Memory.read s.mem a))
  others : ∀ r, r ≠ t.ref → (s'.thread? r).map rested = (s.thread? r).map rested
  cores : ∀ c, view (s'.core c) = view (s.core c)
  ctxs : ∀ c, (s'.ctx? c).map (fun x => { x with log := [] }) = (s.ctx? c).map (fun x => { x with log := [] })
  launches : s'.launches = s.launches

end Sys2Proof.Slice0

/-- O57. R13, R14, R21, R22, R25, R38, R298, R301: the frame of the scalar and vector instructions of registers only, whatever
becomes of them: they change no register but those they write, consume or move, no memory but a trap record, and of the cores
only the inbound latches. -/
def Obligations.RegisterInstructionFrame : Prop :=
  ∀ i regs s s' t, registerWrites i = some regs → s.Canonical → s.curThread = some t → exec i s = .next s' →
    Kept s s' t regs (fun c => { c with latch := Vector.replicate 4 none }) (fun _ => False) ∧ s'.images = s.images ∧ s'.husks = s.husks ∧ s'.mgmt = s.mgmt

namespace Sys2Proof.Slice0

/-- The registers that an instruction of memory makes PEND or writes at its issue (R106, R112, R114, R158-R164). -/
def memoryWrites (i : Instr) : Option (List Opd) :=
  match i with
  | .ld f | .ldx f | .amo f | .cas f | .vld f | .vlds f | .vgth f => some [f.D]
  | .st _ | .stx _ | .red _ | .fred _ | .vst _ | .vsts _ | .vsct _ | .pfh _ | .fence _ => some []
  | .vldt f => some (match f.D with
    | .v i => (List.range 8).map (fun c => .v (Fin.ofNat 32 (i.val + c)))
    | _ => [])
  | .gstat f => some [f.D]
  | .gpub _ => some []
  | _ => none

end Sys2Proof.Slice0

/-- O58. R15, R99, R101, R106-R116, R158-R164: the frame of the memory instructions at their issue: what is sent is served at
its home later, so that no byte of memory but a trap record changes, no register but the destination, and of the cores only the
inbound latch of a port that a store takes its word from, and the count of what the router refused. -/
def Obligations.MemoryIssueFrame : Prop :=
  ∀ i regs s s' t, memoryWrites i = some regs → s.Canonical → s.curThread = some t → exec i s = .next s' →
    Kept s s' t regs (fun c => { c with latch := Vector.replicate 4 none, retries := 0 }) (fun _ => False) ∧ s'.images = s.images ∧ s'.husks = s.husks ∧ s'.mgmt = s.mgmt

namespace Sys2Proof.Slice0

/-- The registers that an engine command, a message, a queue operation, a Pod or counter instruction may change at its issue,
with what of its core it may change. -/
def coreWrites (i : Instr) : Option (List Opd × (Core → Core)) :=
  let cmd (c : Core) : Core := { c with mq := [], tq := [], retries := 0 }
  let msg (c : Core) : Core := { c with outbox := [], retries := 0 }
  let que (c : Core) : Core := { c with queues := [], latch := Vector.replicate 4 none, retries := 0 }
  let obj (c : Core) : Core := { c with pods := Vector.replicate 16 Pod.reset, accs := Vector.replicate 4 Acc.reset }
  let cnt (c : Core) : Core := { c with counters := Vector.replicate 64 Counter.reset }
  match i with
  | .prel _ | .pld _ | .pldt _ | .arel _ | .azero _ | .mma _ | .atbl _ | .cpy _ | .cpy2 _ | .hput _ => some ([], cmd)
  | .drn f | .drnm f => some ([f.D], cmd)
  | .pclm _ | .aclm _ => some ([], obj)
  | .mstat f => some ([f.D], fun c => { c with latch := Vector.replicate 4 none })
  | .send _ => some ([], msg)
  | .rput f => some ([.k (Fin.ofNat 8 f.opk.toNat)], msg)
  | .qpush f => some ([.k (Fin.ofNat 8 f.opk.toNat)], que)
  | .qpop f | .qlen f => some ([f.D, .k (Fin.ofNat 8 f.opk.toNat)], que)
  | .waitc _ | .carm _ | .cset _ => some ([], cnt)
  | _ => none

/-- The operand with which a push or a pop names its queue, whose bytes it stores (R206, R208). -/
def queueOperand : Instr → Option Opd
  | .qpush f | .qpop f => some f.A
  | _ => none

/-- R206, R208: the bytes of the scratchpad in which the queue named by a word stands after an operation on it: its descriptor and
its items; and the rest of a line of theirs that was last written under a key. -/
def QueueByte (s s' : State) (t : Thread) (a : Word) (b : Nat) : Prop :=
  ∃ cc off q k, queueAt t a = .ok (cc, off) ∧ s'.queue? t.ref.ctx cc off = some q ∧ s.scratchSpot t.ref.ctx cc off = some k ∧
    ∃ w ∈ q.words, (k + w.1 ≤ b ∧ b < k + w.1 + 8) ∨ (b / 128 = (k + w.1) / 128 ∧ s.lineKey (b / 128) ≠ 0)

end Sys2Proof.Slice0

/-- O59. R176, R179, R185, R203, R205, R206, R208, R214, R215: the frame of the engine commands, messages, queue operations and
Pod, accumulator and counter instructions at their issue: of memory only a push or a pop stores, and only its queue's bytes. A
register of a form's destination may be a port, whose word goes to a latch. -/
def Obligations.CoreObjectFrame : Prop :=
  ∀ i regs view s s' t, coreWrites i = some (regs, view) → s.Canonical → s.curThread = some t → exec i s = .next s' →
    Kept s s' t regs view (fun b => ∃ o a, queueOperand i = some o ∧ srcW s t o = .ok a ∧ QueueByte s s' t a b)

namespace Sys2Proof.Slice0

/-- The high word of an unguarded instruction under PARK with three operand codes (R32). -/
def plainHead (d a b : Nat) : Head := ⟨0, 0, 0, BitVec.ofNat 6 d, BitVec.ofNat 6 a, BitVec.ofNat 6 b⟩

end Sys2Proof.Slice0

/-- O60. R32-R48: words written out in the spec, of every format and of every family, decode to the instructions they stand
for. -/
def Obligations.KnownWordsDecode : Prop :=
  decodeWord 0x010050C440000000 = .ok (.add ⟨plainHead 5 3 4, 1, 0, 0, 0⟩)
  ∧ decodeWord 0x015050C400000000 = .ok (.add ⟨⟨2, 1, 0, 5, 3, 4⟩, 0, 0, 0, 0⟩)
  ∧ decodeWord 0x010450C44000FFFD = .ok (.add ⟨⟨0, 0, 1, 5, 3, 4⟩, 1, 0, 0, 0xFFFD⟩)
  ∧ decodeWord 0x010050C404100000 = .ok (.add ⟨plainHead 5 3 4, 0, 0, 0x410, 0⟩)
  ∧ decodeWord 0x1D03108300800000 = .ok (.cmp ⟨plainHead 49 2 3, 0, 0, 0x080, 0⟩)
  ∧ decodeWord 0x1E03204400000064 = .ok (.cmpi ⟨plainHead 50 1 4, 100⟩)
  ∧ decodeWord 0x280070C080000000 = .ok (.mov ⟨plainHead 7 3 0, 2, 0, 0, 0⟩)
  ∧ decodeWord 0x2C001040FFFFFFFF = .ok (.addi ⟨plainHead 1 1 0, 0xFFFFFFFF⟩)
  ∧ decodeWord 0x36200000FFFFFFFD = .ok (.br ⟨⟨1, 0, 0, 0, 0, 0⟩, 0xFFFFFFFD⟩)
  ∧ decodeWord 0x3D00006400000002 = .ok (.loopi ⟨plainHead 0 1 36, 2⟩)
  ∧ decodeWord 0x46000140000C0000 = .ok (.mts ⟨plainHead 0 5 0, 0, 0, 0x00C, 0⟩)
  ∧ decodeWord 0x50002100C0020000 = .ok (.ld ⟨plainHead 2 4 0, 3, 0, 2, 0⟩)
  ∧ decodeWord 0x56002105E0000000 = .ok (.amo ⟨plainHead 2 4 5, 3, 0x10, 0, 0⟩)
  ∧ decodeWord 0x5A0410C00003FFFE = .ok (.gacq ⟨⟨0, 0, 1, 1, 3, 0⟩, 0, 0, 0, 3, 0xFFFE⟩)
  ∧ decodeWord 0x6001408086020000 = .ok (.vld ⟨plainHead 20 2 0, 2, 3, 2, 0⟩)
  ∧ decodeWord 0x7501A69304080000 = .ok (.vwad ⟨plainHead 26 26 19, 0, 0, 0x408, 0⟩)
  ∧ decodeWord 0x9801344000400000 = .ok (.vfcvt ⟨plainHead 19 17 0, 0, 0, 0x040, 0⟩)
  ∧ decodeWord 0xA7000000350A0000 = .ok (.mma ⟨plainHead 0 0 0, 0x35, 0, 0, 10, 0⟩)
  ∧ decodeWord 0xB300018200B00000 = .ok (.qpush ⟨plainHead 0 6 2, 0, 1, 3, 0, 0⟩)
  ∧ decodeWord 0xB800610509010000 = .ok (.cpy ⟨plainHead 6 4 5, 9, 0, 0, 1, 0⟩)
  ∧ decodeWord 0xC80421000000FFFD = .ok (.hopen ⟨⟨0, 0, 1, 2, 4, 0⟩, 0, 0, 0, 0, 0xFFFD⟩)
  ∧ decodeWord 0xFE00000000000000 = .ok .kend
  ∧ decodeWord 0 = .error .illegalInstruction

end
end

