-- ==== Sys2Proof/Laws/Bits.lean ====
section
/-! SUPPORT. The bit-field helpers of the model said in bit vectors (spec 00 R5, 01 R31). -/
namespace Sys2Proof
set_option Elab.async false
open Sys2Proof.Machine

theorem bits_toNat {w : Nat} (x : BitVec w) (hi lo : Nat) : bits x.toNat hi lo = (x.extractLsb' lo (hi + 1 - lo)).toNat := by
  simp [bits]

theorem fld_eq (w : Word) (hi lo : Nat) : fld w hi lo = (w.extractLsb' lo (hi + 1 - lo)).toNat := bits_toNat w hi lo

theorem bit_eq {w : Nat} (x : BitVec w) (i : Nat) : bit x.toNat i = x.getLsbD i := by
  simp only [bit, BitVec.getLsbD, Nat.testBit, Nat.one_and_eq_mod_two]
  rcases Nat.mod_two_eq_zero_or_one (x.toNat >>> i) with h | h <;> simp [h]

/-- Bit i of a word with a field replaced. -/
theorem getLsbD_setFld (w : Word) (hi lo x i : Nat) (h : lo ≤ hi) :
    (setFld w hi lo x).getLsbD i = if i < 64 ∧ lo ≤ i ∧ i ≤ hi then x.testBit (i - lo) else w.getLsbD i := by
  simp only [setFld, BitVec.getLsbD_or, BitVec.getLsbD_and, BitVec.getLsbD_not, BitVec.getLsbD_ofNat, Nat.testBit_shiftLeft,
    Nat.testBit_two_pow_sub_one, Nat.testBit_mod_two_pow]
  by_cases i64 : i < 64
  · by_cases a : lo ≤ i
    · by_cases b : i ≤ hi
      · simp [i64, a, b, show i - lo < hi + 1 - lo by omega]
      · simp [i64, a, b, show ¬ i - lo < hi + 1 - lo by omega]
    · simp [i64, a]
  · have := BitVec.getLsbD_of_ge w i (by omega)
    simp [i64, this]

theorem toSigned_eq (n x : Nat) : toSigned n x = (BitVec.ofNat n x).toInt := by
  unfold toSigned
  cases n with
  | zero => simp [BitVec.toInt, Nat.mod_one]
  | succ n =>
    have e : 2 ^ (n + 1) = 2 * 2 ^ n := Nat.pow_succ'
    simp only [BitVec.toInt_eq_msb_cond, BitVec.msb_eq_decide, BitVec.toNat_ofNat]
    by_cases h : 2 ^ n ≤ x % 2 ^ (n + 1) <;> simp [h]

theorem sext64_eq (n x : Nat) : sext64 n x = (BitVec.ofNat n x).signExtend 64 := by
  rw [sext64, toSigned_eq, BitVec.signExtend]
  apply BitVec.eq_of_toNat_eq
  have h : ((2 : Int) ^ 64).toNat = 2 ^ 64 := by decide
  simp only [wrapN, BitVec.toNat_ofNat, BitVec.toNat_ofInt]
  have : ((BitVec.ofNat n x).toInt % (2 ^ 64 : Int)).toNat < 2 ^ 64 := by
    have := Int.emod_lt_of_pos (BitVec.ofNat n x).toInt (show (0 : Int) < 2 ^ 64 by decide)
    have := Int.emod_nonneg (BitVec.ofNat n x).toInt (show (2 ^ 64 : Int) ≠ 0 by decide)
    omega
  rw [Nat.mod_eq_of_lt this]
  norm_cast

theorem zext64_eq (n x : Nat) : zext64 n x = (BitVec.ofNat n x).setWidth 64 := by
  apply BitVec.eq_of_toNat_eq
  simp [zext64]

end Sys2Proof
end

