-- ==== Sys2Proof/Laws/Decode.lean ====
section
/-! SUPPORT. What the decoder's field readers give back of an encoded word: every format's fields and the opcode
(spec 02 R32, R40-R44), and the word that a decoder reads from bytes. -/
namespace Sys2Proof
set_option Elab.async false

theorem col_encR (op : BitVec 8) (f : RForm) : (encR op f).extractLsb' 56 4 = op.extractLsb' 0 4 := by
  ext i hi; simp [encR, headBits]; grind
theorem row_encR (op : BitVec 8) (f : RForm) : (encR op f).extractLsb' 60 4 = op.extractLsb' 4 4 := by
  ext i hi; simp [encR, headBits]; grind
theorem col_encI (op : BitVec 8) (f : IForm) : (encI op f).extractLsb' 56 4 = op.extractLsb' 0 4 := by
  ext i hi; simp [encI, headBits]; grind
theorem row_encI (op : BitVec 8) (f : IForm) : (encI op f).extractLsb' 60 4 = op.extractLsb' 4 4 := by
  ext i hi; simp [encI, headBits]; grind
theorem col_encM (op : BitVec 8) (f : MForm) : (encM op f).extractLsb' 56 4 = op.extractLsb' 0 4 := by
  ext i hi; simp [encM, headBits]; grind
theorem row_encM (op : BitVec 8) (f : MForm) : (encM op f).extractLsb' 60 4 = op.extractLsb' 4 4 := by
  ext i hi; simp [encM, headBits]; grind
theorem col_encB (op : BitVec 8) (f : BForm) : (encB op f).extractLsb' 56 4 = op.extractLsb' 0 4 := by
  ext i hi; simp [encB, headBits]; grind
theorem row_encB (op : BitVec 8) (f : BForm) : (encB op f).extractLsb' 60 4 = op.extractLsb' 4 4 := by
  ext i hi; simp [encB, headBits]; grind
theorem col_encE (op : BitVec 8) (f : EForm) : (encE op f).extractLsb' 56 4 = op.extractLsb' 0 4 := by
  ext i hi; simp [encE, headBits]; grind
theorem row_encE (op : BitVec 8) (f : EForm) : (encE op f).extractLsb' 60 4 = op.extractLsb' 4 4 := by
  ext i hi; simp [encE, headBits]; grind

/-- The fields of the high word come back, whatever stands in the low word (R32). -/
theorem headOf_bits (op : BitVec 8) (h : Head) (lo : BitVec 32) : headOf (headBits op h ++ lo) = h := by
  obtain ⟨gk, gn, wd, d, a, b⟩ := h
  simp only [headOf, headBits, Head.mk.injEq]
  refine ⟨?_, ?_, ?_, ?_, ?_, ?_⟩ <;> (ext i hi; simp; grind)

theorem rformOf_encR (op : BitVec 8) (f : RForm) : rformOf (encR op f) = f := by
  obtain ⟨h, ma, mb, fn, nro⟩ := f
  simp only [rformOf, encR, RForm.mk.injEq]
  refine ⟨headOf_bits _ _ _, ?_, ?_, ?_, ?_⟩ <;> (ext i hi; simp; grind)
theorem iformOf_encI (op : BitVec 8) (f : IForm) : iformOf (encI op f) = f := by
  obtain ⟨h, imm⟩ := f
  simp only [iformOf, encI, headOf_bits, IForm.mk.injEq, true_and]
  ext i hi; simp; grind
theorem mformOf_encM (op : BitVec 8) (f : MForm) : mformOf (encM op f) = f := by
  obtain ⟨h, sz, ex, dsp, nro⟩ := f
  simp only [mformOf, encM, MForm.mk.injEq]
  refine ⟨headOf_bits _ _ _, ?_, ?_, ?_, ?_⟩ <;> (ext i hi; simp; grind)
theorem bformOf_encB (op : BitVec 8) (f : BForm) : bformOf (encB op f) = f := by
  obtain ⟨h, off⟩ := f
  simp only [bformOf, encB, headOf_bits, BForm.mk.injEq, true_and]
  ext i hi; simp; grind
theorem eformOf_encE (op : BitVec 8) (f : EForm) : eformOf (encE op f) = f := by
  obtain ⟨h, fn, opv, opk, fl, nro⟩ := f
  simp only [eformOf, encE, EForm.mk.injEq]
  refine ⟨headOf_bits _ _ _, ?_, ?_, ?_, ?_, ?_⟩ <;> (ext i hi; simp; grind)

end Sys2Proof
end

