-- ==== Sys2Proof/Laws/Issue.lean ====
section
/-! SUPPORT. What the course of one issued instruction can do (spec 01 R12, R21, R22, 04 R76): one lemma per way it ends. -/
namespace Sys2Proof.Machine
set_option Elab.async false
open Sys2Proof

theorem bit_eq_getLsbD {w : Nat} (k : BitVec w) (i : Nat) : bit k.toNat i = k.getLsbD i := by
  simp only [bit, BitVec.getLsbD, Nat.testBit, Nat.one_and_eq_mod_two]
  rcases Nat.mod_two_eq_zero_or_one (k.toNat >>> i) with h | h <;> simp [h]

/-- A context of a list that neither records nor replays where each of its number does not. -/
theorem replay_ctxD {s : State} {id : Nat} (h : ∀ c ∈ s.ctxs, c.id = id → c.replay = 0) : (s.ctxD id).replay = 0 := by
  unfold State.ctxD State.ctx?
  cases e : s.ctxs.find? (fun c => c.id == id) with
  | none => rfl
  | some c => exact h c (List.mem_of_find?_eq_some e) (by simpa using List.find?_some e)

/-- The guard of an instruction that goes on. -/
theorem Goes.guardOf {s : State} {t : Thread} {h : Head} (g : Goes s t h) : guardOf t h = .ok true := by
  obtain ⟨k, hk, hb⟩ := g.guard
  simp only [Machine.guardOf, hk, readSlot, bit_eq_getLsbD, hb, bind, Except.bind, pure, Except.pure]
  exact congrArg Except.ok ((by decide : ∀ n : BitVec 1, ((n == 0#1) != (n == 1)) = true) h.gn)

/-- An instruction that goes on ends as its body says. -/
theorem issueAt_goes {outs : Bool} {h : Head} {nro : BitVec 16} {n : Nat} {body : State → Thread → Ev Done} {s : State}
    {t : Thread} (g : Goes s t h) : issueAt outs h nro n body s = .next (s.applyEnd outs h nro n t (body s t)) := by
  simp [issueAt, g.cur, replay_ctxD g.plain, course, g.guardOf, bind, Except.bind]

theorem issue_next {outs : Bool} {h : Head} {nro : BitVec 16} {body : State → Thread → Ev Done} {s s1 : State}
    {t : Thread} (g : Goes s t h) (b : body s t = .ok (.next s1)) : issue outs h nro body s = .next (ended s1 t.ref outs) := by
  simp [issue, issueAt_goes g, b, State.applyEnd, finish, ended]

theorem issue_jump {outs : Bool} {h : Head} {nro : BitVec 16} {body : State → Thread → Ev Done} {s s1 : State}
    {t : Thread} {a : Word} (g : Goes s t h) (b : body s t = .ok (.jump s1 a)) :
    issue outs h nro body s = .next (jumped s1 t.ref outs a) := by
  simp [issue, issueAt_goes g, b, State.applyEnd, finish, jumped]

theorem issue_settled {outs : Bool} {h : Head} {nro : BitVec 16} {body : State → Thread → Ev Done} {s s1 : State}
    {t : Thread} (g : Goes s t h) (b : body s t = .ok (.settled s1)) : issue outs h nro body s = .next s1 := by
  simp [issue, issueAt_goes g, b, State.applyEnd, finish]

theorem issue_trap {outs : Bool} {h : Head} {nro : BitVec 16} {body : State → Thread → Ev Done} {s : State}
    {t : Thread} {c : Cause} {i : TrapInfo} (g : Goes s t h) (b : body s t = .error (.trap c i)) :
    issue outs h nro body s = .next (s.takeTrap t c i t.pc t.pc .none) := by
  simp [issue, issueAt_goes g, b, State.applyEnd, State.stopped]

theorem issue_notReady {outs : Bool} {h : Head} {nro : BitVec 16} {body : State → Thread → Ev Done} {s : State}
    {t : Thread} {oc : OC} {o : WObj} (g : Goes s t h) (b : body s t = .error (.notReady oc o)) :
    issue outs h nro body s = .next (s.outcome t h.wd nro oc o 0) := by
  simp [issue, issueAt_goes g, b, State.applyEnd, State.stopped]

/-- An instruction whose guard is ineffective only advances, and leaves `ts` as it is (R12). -/
theorem issue_skip {outs : Bool} {h : Head} {nro : BitVec 16} {body : State → Thread → Ev Done} {s : State} {t : Thread}
    (c : s.curThread = some t) (r : (s.ctxD t.ref.ctx).replay = 0) (g : guardOf t h = .ok false) :
    issue outs h nro body s = .next (s.updThread t.ref (fun t => counted t.advance)) := by
  simp [issue, issueAt, c, r, course, g, bind, Except.bind, State.applyEnd, finish, pure, Except.pure]

end Sys2Proof.Machine
end

