-- ==== Sys2Proof/Laws/State.lean ====
section
/-! SUPPORT. What each update of the state leaves as it was: one lemma for each field, and one for each look-up. -/
namespace Sys2Proof.Machine
set_option Elab.async false
open Sys2Proof

variable (s : State)

@[simp] theorem State.cycle_setThread (t : Thread) : (s.setThread t).cycle = s.cycle := rfl
@[simp] theorem State.stage_setThread (t : Thread) : (s.setThread t).stage = s.stage := rfl
@[simp] theorem State.thirds_setThread (t : Thread) : (s.setThread t).thirds = s.thirds := rfl
@[simp] theorem State.oracle_setThread (t : Thread) : (s.setThread t).oracle = s.oracle := rfl
@[simp] theorem State.draws_setThread (t : Thread) : (s.setThread t).draws = s.draws := rfl
@[simp] theorem State.cur_setThread (t : Thread) : (s.setThread t).cur = s.cur := rfl
@[simp] theorem State.nextId_setThread (t : Thread) : (s.setThread t).nextId = s.nextId := rfl
@[simp] theorem State.inputs_setThread (t : Thread) : (s.setThread t).inputs = s.inputs := rfl
@[simp] theorem State.waits_setThread (t : Thread) : (s.setThread t).waits = s.waits := rfl
@[simp] theorem State.flight_setThread (t : Thread) : (s.setThread t).flight = s.flight := rfl
@[simp] theorem State.mem_setThread (t : Thread) : (s.setThread t).mem = s.mem := rfl
@[simp] theorem State.lines_setThread (t : Thread) : (s.setThread t).lines = s.lines := rfl
@[simp] theorem State.poison_setThread (t : Thread) : (s.setThread t).poison = s.poison := rfl
@[simp] theorem State.lineKeys_setThread (t : Thread) : (s.setThread t).lineKeys = s.lineKeys := rfl
@[simp] theorem State.owners_setThread (t : Thread) : (s.setThread t).owners = s.owners := rfl
@[simp] theorem State.held_setThread (t : Thread) : (s.setThread t).held = s.held := rfl
@[simp] theorem State.shadows_setThread (t : Thread) : (s.setThread t).shadows = s.shadows := rfl
@[simp] theorem State.copies_setThread (t : Thread) : (s.setThread t).copies = s.copies := rfl
@[simp] theorem State.tlbs_setThread (t : Thread) : (s.setThread t).tlbs = s.tlbs := rfl
@[simp] theorem State.shared_setThread (t : Thread) : (s.setThread t).shared = s.shared := rfl
@[simp] theorem State.agers_setThread (t : Thread) : (s.setThread t).agers = s.agers := rfl
@[simp] theorem State.keys_setThread (t : Thread) : (s.setThread t).keys = s.keys := rfl
@[simp] theorem State.cores_setThread (t : Thread) : (s.setThread t).cores = s.cores := rfl
@[simp] theorem State.ctxs_setThread (t : Thread) : (s.setThread t).ctxs = s.ctxs := rfl
@[simp] theorem State.launches_setThread (t : Thread) : (s.setThread t).launches = s.launches := rfl
@[simp] theorem State.images_setThread (t : Thread) : (s.setThread t).images = s.images := rfl
@[simp] theorem State.blocks_setThread (t : Thread) : (s.setThread t).blocks = s.blocks := rfl
@[simp] theorem State.waiters_setThread (t : Thread) : (s.setThread t).waiters = s.waiters := rfl
@[simp] theorem State.advances_setThread (t : Thread) : (s.setThread t).advances = s.advances := rfl
@[simp] theorem State.capped_setThread (t : Thread) : (s.setThread t).capped = s.capped := rfl
@[simp] theorem State.husks_setThread (t : Thread) : (s.setThread t).husks = s.husks := rfl
@[simp] theorem State.rings_setThread (t : Thread) : (s.setThread t).rings = s.rings := rfl
@[simp] theorem State.probe_setThread (t : Thread) : (s.setThread t).probe = s.probe := rfl
@[simp] theorem State.droopth_setThread (t : Thread) : (s.setThread t).droopth = s.droopth := rfl
@[simp] theorem State.droopEnd_setThread (t : Thread) : (s.setThread t).droopEnd = s.droopEnd := rfl
@[simp] theorem State.nextStatic_setThread (t : Thread) : (s.setThread t).nextStatic = s.nextStatic := rfl
@[simp] theorem State.errors_setThread (t : Thread) : (s.setThread t).errors = s.errors := rfl
@[simp] theorem State.counts_setThread (t : Thread) : (s.setThread t).counts = s.counts := rfl
@[simp] theorem State.mgmt_setThread (t : Thread) : (s.setThread t).mgmt = s.mgmt := rfl
@[simp] theorem State.cmdNext_setThread (t : Thread) : (s.setThread t).cmdNext = s.cmdNext := rfl
@[simp] theorem State.defers_setThread (t : Thread) : (s.setThread t).defers = s.defers := rfl
@[simp] theorem State.done_setThread (t : Thread) : (s.setThread t).done = s.done := rfl
@[simp] theorem State.answers_setThread (t : Thread) : (s.setThread t).answers = s.answers := rfl
@[simp] theorem State.events_setThread (t : Thread) : (s.setThread t).events = s.events := rfl
@[simp] theorem State.rmaOpen_setThread (t : Thread) : (s.setThread t).rmaOpen = s.rmaOpen := rfl
@[simp] theorem State.rmaOut_setThread (t : Thread) : (s.setThread t).rmaOut = s.rmaOut := rfl
@[simp] theorem State.ctx_q_setThread (t : Thread) (x : Nat) : (s.setThread t).ctx? x = s.ctx? x := rfl
@[simp] theorem State.ctxD_setThread (t : Thread) (x : Nat) : (s.setThread t).ctxD x = s.ctxD x := rfl
@[simp] theorem State.core_setThread (t : Thread) (x : Nat) : (s.setThread t).core x = s.core x := rfl
@[simp] theorem State.launch_q_setThread (t : Thread) (x : Nat) : (s.setThread t).launch? x = s.launch? x := rfl
@[simp] theorem State.husk_setThread (t : Thread) (x : Nat) : (s.setThread t).husk x = s.husk x := rfl
@[simp] theorem State.image_q_setThread (t : Thread) (x y : Nat) : (s.setThread t).image? x y = s.image? x y := rfl
@[simp] theorem State.imageAny_q_setThread (t : Thread) (x y : Nat) : (s.setThread t).imageAny? x y = s.imageAny? x y := rfl
@[simp] theorem State.mcOf_setThread (t : Thread) (x y : Nat) : (s.setThread t).mcOf x y = s.mcOf x y := rfl
@[simp] theorem State.homeOf_setThread (t : Thread) (q : TRef) : (s.setThread t).homeOf q = s.homeOf q := rfl
@[simp] theorem State.md_setThread (t : Thread) (x : Nat) : (s.setThread t).md x = s.md x := rfl
@[simp] theorem State.pois_setThread (t : Thread) (x : Nat) : (s.setThread t).pois x = s.pois x := rfl
@[simp] theorem State.lineKey_setThread (t : Thread) (x : Nat) : (s.setThread t).lineKey x = s.lineKey x := rfl
@[simp] theorem State.ownerOf_setThread (t : Thread) (x : Nat) : (s.setThread t).ownerOf x = s.ownerOf x := rfl
@[simp] theorem State.now_setThread (t : Thread)  : (s.setThread t).now = s.now := rfl

@[simp] theorem State.cycle_updThread (r : TRef) (f : Thread → Thread) : (s.updThread r f).cycle = s.cycle := rfl
@[simp] theorem State.stage_updThread (r : TRef) (f : Thread → Thread) : (s.updThread r f).stage = s.stage := rfl
@[simp] theorem State.thirds_updThread (r : TRef) (f : Thread → Thread) : (s.updThread r f).thirds = s.thirds := rfl
@[simp] theorem State.oracle_updThread (r : TRef) (f : Thread → Thread) : (s.updThread r f).oracle = s.oracle := rfl
@[simp] theorem State.draws_updThread (r : TRef) (f : Thread → Thread) : (s.updThread r f).draws = s.draws := rfl
@[simp] theorem State.cur_updThread (r : TRef) (f : Thread → Thread) : (s.updThread r f).cur = s.cur := rfl
@[simp] theorem State.nextId_updThread (r : TRef) (f : Thread → Thread) : (s.updThread r f).nextId = s.nextId := rfl
@[simp] theorem State.inputs_updThread (r : TRef) (f : Thread → Thread) : (s.updThread r f).inputs = s.inputs := rfl
@[simp] theorem State.waits_updThread (r : TRef) (f : Thread → Thread) : (s.updThread r f).waits = s.waits := rfl
@[simp] theorem State.flight_updThread (r : TRef) (f : Thread → Thread) : (s.updThread r f).flight = s.flight := rfl
@[simp] theorem State.mem_updThread (r : TRef) (f : Thread → Thread) : (s.updThread r f).mem = s.mem := rfl
@[simp] theorem State.lines_updThread (r : TRef) (f : Thread → Thread) : (s.updThread r f).lines = s.lines := rfl
@[simp] theorem State.poison_updThread (r : TRef) (f : Thread → Thread) : (s.updThread r f).poison = s.poison := rfl
@[simp] theorem State.lineKeys_updThread (r : TRef) (f : Thread → Thread) : (s.updThread r f).lineKeys = s.lineKeys := rfl
@[simp] theorem State.owners_updThread (r : TRef) (f : Thread → Thread) : (s.updThread r f).owners = s.owners := rfl
@[simp] theorem State.held_updThread (r : TRef) (f : Thread → Thread) : (s.updThread r f).held = s.held := rfl
@[simp] theorem State.shadows_updThread (r : TRef) (f : Thread → Thread) : (s.updThread r f).shadows = s.shadows := rfl
@[simp] theorem State.copies_updThread (r : TRef) (f : Thread → Thread) : (s.updThread r f).copies = s.copies := rfl
@[simp] theorem State.tlbs_updThread (r : TRef) (f : Thread → Thread) : (s.updThread r f).tlbs = s.tlbs := rfl
@[simp] theorem State.shared_updThread (r : TRef) (f : Thread → Thread) : (s.updThread r f).shared = s.shared := rfl
@[simp] theorem State.agers_updThread (r : TRef) (f : Thread → Thread) : (s.updThread r f).agers = s.agers := rfl
@[simp] theorem State.keys_updThread (r : TRef) (f : Thread → Thread) : (s.updThread r f).keys = s.keys := rfl
@[simp] theorem State.cores_updThread (r : TRef) (f : Thread → Thread) : (s.updThread r f).cores = s.cores := rfl
@[simp] theorem State.ctxs_updThread (r : TRef) (f : Thread → Thread) : (s.updThread r f).ctxs = s.ctxs := rfl
@[simp] theorem State.launches_updThread (r : TRef) (f : Thread → Thread) : (s.updThread r f).launches = s.launches := rfl
@[simp] theorem State.images_updThread (r : TRef) (f : Thread → Thread) : (s.updThread r f).images = s.images := rfl
@[simp] theorem State.blocks_updThread (r : TRef) (f : Thread → Thread) : (s.updThread r f).blocks = s.blocks := rfl
@[simp] theorem State.waiters_updThread (r : TRef) (f : Thread → Thread) : (s.updThread r f).waiters = s.waiters := rfl
@[simp] theorem State.advances_updThread (r : TRef) (f : Thread → Thread) : (s.updThread r f).advances = s.advances := rfl
@[simp] theorem State.capped_updThread (r : TRef) (f : Thread → Thread) : (s.updThread r f).capped = s.capped := rfl
@[simp] theorem State.husks_updThread (r : TRef) (f : Thread → Thread) : (s.updThread r f).husks = s.husks := rfl
@[simp] theorem State.rings_updThread (r : TRef) (f : Thread → Thread) : (s.updThread r f).rings = s.rings := rfl
@[simp] theorem State.probe_updThread (r : TRef) (f : Thread → Thread) : (s.updThread r f).probe = s.probe := rfl
@[simp] theorem State.droopth_updThread (r : TRef) (f : Thread → Thread) : (s.updThread r f).droopth = s.droopth := rfl
@[simp] theorem State.droopEnd_updThread (r : TRef) (f : Thread → Thread) : (s.updThread r f).droopEnd = s.droopEnd := rfl
@[simp] theorem State.nextStatic_updThread (r : TRef) (f : Thread → Thread) : (s.updThread r f).nextStatic = s.nextStatic := rfl
@[simp] theorem State.errors_updThread (r : TRef) (f : Thread → Thread) : (s.updThread r f).errors = s.errors := rfl
@[simp] theorem State.counts_updThread (r : TRef) (f : Thread → Thread) : (s.updThread r f).counts = s.counts := rfl
@[simp] theorem State.mgmt_updThread (r : TRef) (f : Thread → Thread) : (s.updThread r f).mgmt = s.mgmt := rfl
@[simp] theorem State.cmdNext_updThread (r : TRef) (f : Thread → Thread) : (s.updThread r f).cmdNext = s.cmdNext := rfl
@[simp] theorem State.defers_updThread (r : TRef) (f : Thread → Thread) : (s.updThread r f).defers = s.defers := rfl
@[simp] theorem State.done_updThread (r : TRef) (f : Thread → Thread) : (s.updThread r f).done = s.done := rfl
@[simp] theorem State.answers_updThread (r : TRef) (f : Thread → Thread) : (s.updThread r f).answers = s.answers := rfl
@[simp] theorem State.events_updThread (r : TRef) (f : Thread → Thread) : (s.updThread r f).events = s.events := rfl
@[simp] theorem State.rmaOpen_updThread (r : TRef) (f : Thread → Thread) : (s.updThread r f).rmaOpen = s.rmaOpen := rfl
@[simp] theorem State.rmaOut_updThread (r : TRef) (f : Thread → Thread) : (s.updThread r f).rmaOut = s.rmaOut := rfl
@[simp] theorem State.ctx_q_updThread (r : TRef) (f : Thread → Thread) (x : Nat) : (s.updThread r f).ctx? x = s.ctx? x := rfl
@[simp] theorem State.ctxD_updThread (r : TRef) (f : Thread → Thread) (x : Nat) : (s.updThread r f).ctxD x = s.ctxD x := rfl
@[simp] theorem State.core_updThread (r : TRef) (f : Thread → Thread) (x : Nat) : (s.updThread r f).core x = s.core x := rfl
@[simp] theorem State.launch_q_updThread (r : TRef) (f : Thread → Thread) (x : Nat) : (s.updThread r f).launch? x = s.launch? x := rfl
@[simp] theorem State.husk_updThread (r : TRef) (f : Thread → Thread) (x : Nat) : (s.updThread r f).husk x = s.husk x := rfl
@[simp] theorem State.image_q_updThread (r : TRef) (f : Thread → Thread) (x y : Nat) : (s.updThread r f).image? x y = s.image? x y := rfl
@[simp] theorem State.imageAny_q_updThread (r : TRef) (f : Thread → Thread) (x y : Nat) : (s.updThread r f).imageAny? x y = s.imageAny? x y := rfl
@[simp] theorem State.mcOf_updThread (r : TRef) (f : Thread → Thread) (x y : Nat) : (s.updThread r f).mcOf x y = s.mcOf x y := rfl
@[simp] theorem State.homeOf_updThread (r : TRef) (f : Thread → Thread) (q : TRef) : (s.updThread r f).homeOf q = s.homeOf q := rfl
@[simp] theorem State.md_updThread (r : TRef) (f : Thread → Thread) (x : Nat) : (s.updThread r f).md x = s.md x := rfl
@[simp] theorem State.pois_updThread (r : TRef) (f : Thread → Thread) (x : Nat) : (s.updThread r f).pois x = s.pois x := rfl
@[simp] theorem State.lineKey_updThread (r : TRef) (f : Thread → Thread) (x : Nat) : (s.updThread r f).lineKey x = s.lineKey x := rfl
@[simp] theorem State.ownerOf_updThread (r : TRef) (f : Thread → Thread) (x : Nat) : (s.updThread r f).ownerOf x = s.ownerOf x := rfl
@[simp] theorem State.now_updThread (r : TRef) (f : Thread → Thread)  : (s.updThread r f).now = s.now := rfl

@[simp] theorem State.cycle_dropThread (r : TRef) : (s.dropThread r).cycle = s.cycle := rfl
@[simp] theorem State.stage_dropThread (r : TRef) : (s.dropThread r).stage = s.stage := rfl
@[simp] theorem State.thirds_dropThread (r : TRef) : (s.dropThread r).thirds = s.thirds := rfl
@[simp] theorem State.oracle_dropThread (r : TRef) : (s.dropThread r).oracle = s.oracle := rfl
@[simp] theorem State.draws_dropThread (r : TRef) : (s.dropThread r).draws = s.draws := rfl
@[simp] theorem State.cur_dropThread (r : TRef) : (s.dropThread r).cur = s.cur := rfl
@[simp] theorem State.nextId_dropThread (r : TRef) : (s.dropThread r).nextId = s.nextId := rfl
@[simp] theorem State.inputs_dropThread (r : TRef) : (s.dropThread r).inputs = s.inputs := rfl
@[simp] theorem State.waits_dropThread (r : TRef) : (s.dropThread r).waits = s.waits := rfl
@[simp] theorem State.flight_dropThread (r : TRef) : (s.dropThread r).flight = s.flight := rfl
@[simp] theorem State.mem_dropThread (r : TRef) : (s.dropThread r).mem = s.mem := rfl
@[simp] theorem State.lines_dropThread (r : TRef) : (s.dropThread r).lines = s.lines := rfl
@[simp] theorem State.poison_dropThread (r : TRef) : (s.dropThread r).poison = s.poison := rfl
@[simp] theorem State.lineKeys_dropThread (r : TRef) : (s.dropThread r).lineKeys = s.lineKeys := rfl
@[simp] theorem State.owners_dropThread (r : TRef) : (s.dropThread r).owners = s.owners := rfl
@[simp] theorem State.held_dropThread (r : TRef) : (s.dropThread r).held = s.held := rfl
@[simp] theorem State.shadows_dropThread (r : TRef) : (s.dropThread r).shadows = s.shadows := rfl
@[simp] theorem State.copies_dropThread (r : TRef) : (s.dropThread r).copies = s.copies := rfl
@[simp] theorem State.tlbs_dropThread (r : TRef) : (s.dropThread r).tlbs = s.tlbs := rfl
@[simp] theorem State.shared_dropThread (r : TRef) : (s.dropThread r).shared = s.shared := rfl
@[simp] theorem State.agers_dropThread (r : TRef) : (s.dropThread r).agers = s.agers := rfl
@[simp] theorem State.keys_dropThread (r : TRef) : (s.dropThread r).keys = s.keys := rfl
@[simp] theorem State.cores_dropThread (r : TRef) : (s.dropThread r).cores = s.cores := rfl
@[simp] theorem State.ctxs_dropThread (r : TRef) : (s.dropThread r).ctxs = s.ctxs := rfl
@[simp] theorem State.launches_dropThread (r : TRef) : (s.dropThread r).launches = s.launches := rfl
@[simp] theorem State.images_dropThread (r : TRef) : (s.dropThread r).images = s.images := rfl
@[simp] theorem State.blocks_dropThread (r : TRef) : (s.dropThread r).blocks = s.blocks := rfl
@[simp] theorem State.waiters_dropThread (r : TRef) : (s.dropThread r).waiters = s.waiters := rfl
@[simp] theorem State.advances_dropThread (r : TRef) : (s.dropThread r).advances = s.advances := rfl
@[simp] theorem State.capped_dropThread (r : TRef) : (s.dropThread r).capped = s.capped := rfl
@[simp] theorem State.husks_dropThread (r : TRef) : (s.dropThread r).husks = s.husks := rfl
@[simp] theorem State.rings_dropThread (r : TRef) : (s.dropThread r).rings = s.rings := rfl
@[simp] theorem State.probe_dropThread (r : TRef) : (s.dropThread r).probe = s.probe := rfl
@[simp] theorem State.droopth_dropThread (r : TRef) : (s.dropThread r).droopth = s.droopth := rfl
@[simp] theorem State.droopEnd_dropThread (r : TRef) : (s.dropThread r).droopEnd = s.droopEnd := rfl
@[simp] theorem State.nextStatic_dropThread (r : TRef) : (s.dropThread r).nextStatic = s.nextStatic := rfl
@[simp] theorem State.errors_dropThread (r : TRef) : (s.dropThread r).errors = s.errors := rfl
@[simp] theorem State.counts_dropThread (r : TRef) : (s.dropThread r).counts = s.counts := rfl
@[simp] theorem State.mgmt_dropThread (r : TRef) : (s.dropThread r).mgmt = s.mgmt := rfl
@[simp] theorem State.cmdNext_dropThread (r : TRef) : (s.dropThread r).cmdNext = s.cmdNext := rfl
@[simp] theorem State.defers_dropThread (r : TRef) : (s.dropThread r).defers = s.defers := rfl
@[simp] theorem State.done_dropThread (r : TRef) : (s.dropThread r).done = s.done := rfl
@[simp] theorem State.answers_dropThread (r : TRef) : (s.dropThread r).answers = s.answers := rfl
@[simp] theorem State.events_dropThread (r : TRef) : (s.dropThread r).events = s.events := rfl
@[simp] theorem State.rmaOpen_dropThread (r : TRef) : (s.dropThread r).rmaOpen = s.rmaOpen := rfl
@[simp] theorem State.rmaOut_dropThread (r : TRef) : (s.dropThread r).rmaOut = s.rmaOut := rfl
@[simp] theorem State.ctx_q_dropThread (r : TRef) (x : Nat) : (s.dropThread r).ctx? x = s.ctx? x := rfl
@[simp] theorem State.ctxD_dropThread (r : TRef) (x : Nat) : (s.dropThread r).ctxD x = s.ctxD x := rfl
@[simp] theorem State.core_dropThread (r : TRef) (x : Nat) : (s.dropThread r).core x = s.core x := rfl
@[simp] theorem State.launch_q_dropThread (r : TRef) (x : Nat) : (s.dropThread r).launch? x = s.launch? x := rfl
@[simp] theorem State.husk_dropThread (r : TRef) (x : Nat) : (s.dropThread r).husk x = s.husk x := rfl
@[simp] theorem State.image_q_dropThread (r : TRef) (x y : Nat) : (s.dropThread r).image? x y = s.image? x y := rfl
@[simp] theorem State.imageAny_q_dropThread (r : TRef) (x y : Nat) : (s.dropThread r).imageAny? x y = s.imageAny? x y := rfl
@[simp] theorem State.mcOf_dropThread (r : TRef) (x y : Nat) : (s.dropThread r).mcOf x y = s.mcOf x y := rfl
@[simp] theorem State.homeOf_dropThread (r : TRef) (q : TRef) : (s.dropThread r).homeOf q = s.homeOf q := rfl
@[simp] theorem State.md_dropThread (r : TRef) (x : Nat) : (s.dropThread r).md x = s.md x := rfl
@[simp] theorem State.pois_dropThread (r : TRef) (x : Nat) : (s.dropThread r).pois x = s.pois x := rfl
@[simp] theorem State.lineKey_dropThread (r : TRef) (x : Nat) : (s.dropThread r).lineKey x = s.lineKey x := rfl
@[simp] theorem State.ownerOf_dropThread (r : TRef) (x : Nat) : (s.dropThread r).ownerOf x = s.ownerOf x := rfl
@[simp] theorem State.now_dropThread (r : TRef)  : (s.dropThread r).now = s.now := rfl

@[simp] theorem State.cycle_setCtx (c : Ctx) : (s.setCtx c).cycle = s.cycle := rfl
@[simp] theorem State.stage_setCtx (c : Ctx) : (s.setCtx c).stage = s.stage := rfl
@[simp] theorem State.thirds_setCtx (c : Ctx) : (s.setCtx c).thirds = s.thirds := rfl
@[simp] theorem State.oracle_setCtx (c : Ctx) : (s.setCtx c).oracle = s.oracle := rfl
@[simp] theorem State.draws_setCtx (c : Ctx) : (s.setCtx c).draws = s.draws := rfl
@[simp] theorem State.cur_setCtx (c : Ctx) : (s.setCtx c).cur = s.cur := rfl
@[simp] theorem State.nextId_setCtx (c : Ctx) : (s.setCtx c).nextId = s.nextId := rfl
@[simp] theorem State.inputs_setCtx (c : Ctx) : (s.setCtx c).inputs = s.inputs := rfl
@[simp] theorem State.waits_setCtx (c : Ctx) : (s.setCtx c).waits = s.waits := rfl
@[simp] theorem State.flight_setCtx (c : Ctx) : (s.setCtx c).flight = s.flight := rfl
@[simp] theorem State.mem_setCtx (c : Ctx) : (s.setCtx c).mem = s.mem := rfl
@[simp] theorem State.lines_setCtx (c : Ctx) : (s.setCtx c).lines = s.lines := rfl
@[simp] theorem State.poison_setCtx (c : Ctx) : (s.setCtx c).poison = s.poison := rfl
@[simp] theorem State.lineKeys_setCtx (c : Ctx) : (s.setCtx c).lineKeys = s.lineKeys := rfl
@[simp] theorem State.owners_setCtx (c : Ctx) : (s.setCtx c).owners = s.owners := rfl
@[simp] theorem State.held_setCtx (c : Ctx) : (s.setCtx c).held = s.held := rfl
@[simp] theorem State.shadows_setCtx (c : Ctx) : (s.setCtx c).shadows = s.shadows := rfl
@[simp] theorem State.copies_setCtx (c : Ctx) : (s.setCtx c).copies = s.copies := rfl
@[simp] theorem State.tlbs_setCtx (c : Ctx) : (s.setCtx c).tlbs = s.tlbs := rfl
@[simp] theorem State.shared_setCtx (c : Ctx) : (s.setCtx c).shared = s.shared := rfl
@[simp] theorem State.agers_setCtx (c : Ctx) : (s.setCtx c).agers = s.agers := rfl
@[simp] theorem State.keys_setCtx (c : Ctx) : (s.setCtx c).keys = s.keys := rfl
@[simp] theorem State.threads_setCtx (c : Ctx) : (s.setCtx c).threads = s.threads := rfl
@[simp] theorem State.cores_setCtx (c : Ctx) : (s.setCtx c).cores = s.cores := rfl
@[simp] theorem State.launches_setCtx (c : Ctx) : (s.setCtx c).launches = s.launches := rfl
@[simp] theorem State.images_setCtx (c : Ctx) : (s.setCtx c).images = s.images := rfl
@[simp] theorem State.blocks_setCtx (c : Ctx) : (s.setCtx c).blocks = s.blocks := rfl
@[simp] theorem State.waiters_setCtx (c : Ctx) : (s.setCtx c).waiters = s.waiters := rfl
@[simp] theorem State.advances_setCtx (c : Ctx) : (s.setCtx c).advances = s.advances := rfl
@[simp] theorem State.capped_setCtx (c : Ctx) : (s.setCtx c).capped = s.capped := rfl
@[simp] theorem State.husks_setCtx (c : Ctx) : (s.setCtx c).husks = s.husks := rfl
@[simp] theorem State.rings_setCtx (c : Ctx) : (s.setCtx c).rings = s.rings := rfl
@[simp] theorem State.probe_setCtx (c : Ctx) : (s.setCtx c).probe = s.probe := rfl
@[simp] theorem State.droopth_setCtx (c : Ctx) : (s.setCtx c).droopth = s.droopth := rfl
@[simp] theorem State.droopEnd_setCtx (c : Ctx) : (s.setCtx c).droopEnd = s.droopEnd := rfl
@[simp] theorem State.nextStatic_setCtx (c : Ctx) : (s.setCtx c).nextStatic = s.nextStatic := rfl
@[simp] theorem State.errors_setCtx (c : Ctx) : (s.setCtx c).errors = s.errors := rfl
@[simp] theorem State.counts_setCtx (c : Ctx) : (s.setCtx c).counts = s.counts := rfl
@[simp] theorem State.mgmt_setCtx (c : Ctx) : (s.setCtx c).mgmt = s.mgmt := rfl
@[simp] theorem State.cmdNext_setCtx (c : Ctx) : (s.setCtx c).cmdNext = s.cmdNext := rfl
@[simp] theorem State.defers_setCtx (c : Ctx) : (s.setCtx c).defers = s.defers := rfl
@[simp] theorem State.done_setCtx (c : Ctx) : (s.setCtx c).done = s.done := rfl
@[simp] theorem State.answers_setCtx (c : Ctx) : (s.setCtx c).answers = s.answers := rfl
@[simp] theorem State.events_setCtx (c : Ctx) : (s.setCtx c).events = s.events := rfl
@[simp] theorem State.rmaOpen_setCtx (c : Ctx) : (s.setCtx c).rmaOpen = s.rmaOpen := rfl
@[simp] theorem State.rmaOut_setCtx (c : Ctx) : (s.setCtx c).rmaOut = s.rmaOut := rfl
@[simp] theorem State.thread_q_setCtx (c : Ctx) (q : TRef) : (s.setCtx c).thread? q = s.thread? q := rfl
@[simp] theorem State.agent_q_setCtx (c : Ctx) (x y : Nat) : (s.setCtx c).agent? x y = s.agent? x y := rfl
@[simp] theorem State.curThread_setCtx (c : Ctx)  : (s.setCtx c).curThread = s.curThread := rfl
@[simp] theorem State.core_setCtx (c : Ctx) (x : Nat) : (s.setCtx c).core x = s.core x := rfl
@[simp] theorem State.launch_q_setCtx (c : Ctx) (x : Nat) : (s.setCtx c).launch? x = s.launch? x := rfl
@[simp] theorem State.husk_setCtx (c : Ctx) (x : Nat) : (s.setCtx c).husk x = s.husk x := rfl
@[simp] theorem State.image_q_setCtx (c : Ctx) (x y : Nat) : (s.setCtx c).image? x y = s.image? x y := rfl
@[simp] theorem State.imageAny_q_setCtx (c : Ctx) (x y : Nat) : (s.setCtx c).imageAny? x y = s.imageAny? x y := rfl
@[simp] theorem State.md_setCtx (c : Ctx) (x : Nat) : (s.setCtx c).md x = s.md x := rfl
@[simp] theorem State.pois_setCtx (c : Ctx) (x : Nat) : (s.setCtx c).pois x = s.pois x := rfl
@[simp] theorem State.lineKey_setCtx (c : Ctx) (x : Nat) : (s.setCtx c).lineKey x = s.lineKey x := rfl
@[simp] theorem State.ownerOf_setCtx (c : Ctx) (x : Nat) : (s.setCtx c).ownerOf x = s.ownerOf x := rfl
@[simp] theorem State.now_setCtx (c : Ctx)  : (s.setCtx c).now = s.now := rfl

@[simp] theorem State.cycle_updCtx (i : Nat) (f : Ctx → Ctx) : (s.updCtx i f).cycle = s.cycle := rfl
@[simp] theorem State.stage_updCtx (i : Nat) (f : Ctx → Ctx) : (s.updCtx i f).stage = s.stage := rfl
@[simp] theorem State.thirds_updCtx (i : Nat) (f : Ctx → Ctx) : (s.updCtx i f).thirds = s.thirds := rfl
@[simp] theorem State.oracle_updCtx (i : Nat) (f : Ctx → Ctx) : (s.updCtx i f).oracle = s.oracle := rfl
@[simp] theorem State.draws_updCtx (i : Nat) (f : Ctx → Ctx) : (s.updCtx i f).draws = s.draws := rfl
@[simp] theorem State.cur_updCtx (i : Nat) (f : Ctx → Ctx) : (s.updCtx i f).cur = s.cur := rfl
@[simp] theorem State.nextId_updCtx (i : Nat) (f : Ctx → Ctx) : (s.updCtx i f).nextId = s.nextId := rfl
@[simp] theorem State.inputs_updCtx (i : Nat) (f : Ctx → Ctx) : (s.updCtx i f).inputs = s.inputs := rfl
@[simp] theorem State.waits_updCtx (i : Nat) (f : Ctx → Ctx) : (s.updCtx i f).waits = s.waits := rfl
@[simp] theorem State.flight_updCtx (i : Nat) (f : Ctx → Ctx) : (s.updCtx i f).flight = s.flight := rfl
@[simp] theorem State.mem_updCtx (i : Nat) (f : Ctx → Ctx) : (s.updCtx i f).mem = s.mem := rfl
@[simp] theorem State.lines_updCtx (i : Nat) (f : Ctx → Ctx) : (s.updCtx i f).lines = s.lines := rfl
@[simp] theorem State.poison_updCtx (i : Nat) (f : Ctx → Ctx) : (s.updCtx i f).poison = s.poison := rfl
@[simp] theorem State.lineKeys_updCtx (i : Nat) (f : Ctx → Ctx) : (s.updCtx i f).lineKeys = s.lineKeys := rfl
@[simp] theorem State.owners_updCtx (i : Nat) (f : Ctx → Ctx) : (s.updCtx i f).owners = s.owners := rfl
@[simp] theorem State.held_updCtx (i : Nat) (f : Ctx → Ctx) : (s.updCtx i f).held = s.held := rfl
@[simp] theorem State.shadows_updCtx (i : Nat) (f : Ctx → Ctx) : (s.updCtx i f).shadows = s.shadows := rfl
@[simp] theorem State.copies_updCtx (i : Nat) (f : Ctx → Ctx) : (s.updCtx i f).copies = s.copies := rfl
@[simp] theorem State.tlbs_updCtx (i : Nat) (f : Ctx → Ctx) : (s.updCtx i f).tlbs = s.tlbs := rfl
@[simp] theorem State.shared_updCtx (i : Nat) (f : Ctx → Ctx) : (s.updCtx i f).shared = s.shared := rfl
@[simp] theorem State.agers_updCtx (i : Nat) (f : Ctx → Ctx) : (s.updCtx i f).agers = s.agers := rfl
@[simp] theorem State.keys_updCtx (i : Nat) (f : Ctx → Ctx) : (s.updCtx i f).keys = s.keys := rfl
@[simp] theorem State.threads_updCtx (i : Nat) (f : Ctx → Ctx) : (s.updCtx i f).threads = s.threads := rfl
@[simp] theorem State.cores_updCtx (i : Nat) (f : Ctx → Ctx) : (s.updCtx i f).cores = s.cores := rfl
@[simp] theorem State.launches_updCtx (i : Nat) (f : Ctx → Ctx) : (s.updCtx i f).launches = s.launches := rfl
@[simp] theorem State.images_updCtx (i : Nat) (f : Ctx → Ctx) : (s.updCtx i f).images = s.images := rfl
@[simp] theorem State.blocks_updCtx (i : Nat) (f : Ctx → Ctx) : (s.updCtx i f).blocks = s.blocks := rfl
@[simp] theorem State.waiters_updCtx (i : Nat) (f : Ctx → Ctx) : (s.updCtx i f).waiters = s.waiters := rfl
@[simp] theorem State.advances_updCtx (i : Nat) (f : Ctx → Ctx) : (s.updCtx i f).advances = s.advances := rfl
@[simp] theorem State.capped_updCtx (i : Nat) (f : Ctx → Ctx) : (s.updCtx i f).capped = s.capped := rfl
@[simp] theorem State.husks_updCtx (i : Nat) (f : Ctx → Ctx) : (s.updCtx i f).husks = s.husks := rfl
@[simp] theorem State.rings_updCtx (i : Nat) (f : Ctx → Ctx) : (s.updCtx i f).rings = s.rings := rfl
@[simp] theorem State.probe_updCtx (i : Nat) (f : Ctx → Ctx) : (s.updCtx i f).probe = s.probe := rfl
@[simp] theorem State.droopth_updCtx (i : Nat) (f : Ctx → Ctx) : (s.updCtx i f).droopth = s.droopth := rfl
@[simp] theorem State.droopEnd_updCtx (i : Nat) (f : Ctx → Ctx) : (s.updCtx i f).droopEnd = s.droopEnd := rfl
@[simp] theorem State.nextStatic_updCtx (i : Nat) (f : Ctx → Ctx) : (s.updCtx i f).nextStatic = s.nextStatic := rfl
@[simp] theorem State.errors_updCtx (i : Nat) (f : Ctx → Ctx) : (s.updCtx i f).errors = s.errors := rfl
@[simp] theorem State.counts_updCtx (i : Nat) (f : Ctx → Ctx) : (s.updCtx i f).counts = s.counts := rfl
@[simp] theorem State.mgmt_updCtx (i : Nat) (f : Ctx → Ctx) : (s.updCtx i f).mgmt = s.mgmt := rfl
@[simp] theorem State.cmdNext_updCtx (i : Nat) (f : Ctx → Ctx) : (s.updCtx i f).cmdNext = s.cmdNext := rfl
@[simp] theorem State.defers_updCtx (i : Nat) (f : Ctx → Ctx) : (s.updCtx i f).defers = s.defers := rfl
@[simp] theorem State.done_updCtx (i : Nat) (f : Ctx → Ctx) : (s.updCtx i f).done = s.done := rfl
@[simp] theorem State.answers_updCtx (i : Nat) (f : Ctx → Ctx) : (s.updCtx i f).answers = s.answers := rfl
@[simp] theorem State.events_updCtx (i : Nat) (f : Ctx → Ctx) : (s.updCtx i f).events = s.events := rfl
@[simp] theorem State.rmaOpen_updCtx (i : Nat) (f : Ctx → Ctx) : (s.updCtx i f).rmaOpen = s.rmaOpen := rfl
@[simp] theorem State.rmaOut_updCtx (i : Nat) (f : Ctx → Ctx) : (s.updCtx i f).rmaOut = s.rmaOut := rfl
@[simp] theorem State.thread_q_updCtx (i : Nat) (f : Ctx → Ctx) (q : TRef) : (s.updCtx i f).thread? q = s.thread? q := rfl
@[simp] theorem State.agent_q_updCtx (i : Nat) (f : Ctx → Ctx) (x y : Nat) : (s.updCtx i f).agent? x y = s.agent? x y := rfl
@[simp] theorem State.curThread_updCtx (i : Nat) (f : Ctx → Ctx)  : (s.updCtx i f).curThread = s.curThread := rfl
@[simp] theorem State.core_updCtx (i : Nat) (f : Ctx → Ctx) (x : Nat) : (s.updCtx i f).core x = s.core x := rfl
@[simp] theorem State.launch_q_updCtx (i : Nat) (f : Ctx → Ctx) (x : Nat) : (s.updCtx i f).launch? x = s.launch? x := rfl
@[simp] theorem State.husk_updCtx (i : Nat) (f : Ctx → Ctx) (x : Nat) : (s.updCtx i f).husk x = s.husk x := rfl
@[simp] theorem State.image_q_updCtx (i : Nat) (f : Ctx → Ctx) (x y : Nat) : (s.updCtx i f).image? x y = s.image? x y := rfl
@[simp] theorem State.imageAny_q_updCtx (i : Nat) (f : Ctx → Ctx) (x y : Nat) : (s.updCtx i f).imageAny? x y = s.imageAny? x y := rfl
@[simp] theorem State.md_updCtx (i : Nat) (f : Ctx → Ctx) (x : Nat) : (s.updCtx i f).md x = s.md x := rfl
@[simp] theorem State.pois_updCtx (i : Nat) (f : Ctx → Ctx) (x : Nat) : (s.updCtx i f).pois x = s.pois x := rfl
@[simp] theorem State.lineKey_updCtx (i : Nat) (f : Ctx → Ctx) (x : Nat) : (s.updCtx i f).lineKey x = s.lineKey x := rfl
@[simp] theorem State.ownerOf_updCtx (i : Nat) (f : Ctx → Ctx) (x : Nat) : (s.updCtx i f).ownerOf x = s.ownerOf x := rfl
@[simp] theorem State.now_updCtx (i : Nat) (f : Ctx → Ctx)  : (s.updCtx i f).now = s.now := rfl

@[simp] theorem State.cycle_setCore (c : Core) : (s.setCore c).cycle = s.cycle := by unfold State.setCore; split <;> rfl
@[simp] theorem State.stage_setCore (c : Core) : (s.setCore c).stage = s.stage := by unfold State.setCore; split <;> rfl
@[simp] theorem State.thirds_setCore (c : Core) : (s.setCore c).thirds = s.thirds := by unfold State.setCore; split <;> rfl
@[simp] theorem State.oracle_setCore (c : Core) : (s.setCore c).oracle = s.oracle := by unfold State.setCore; split <;> rfl
@[simp] theorem State.draws_setCore (c : Core) : (s.setCore c).draws = s.draws := by unfold State.setCore; split <;> rfl
@[simp] theorem State.cur_setCore (c : Core) : (s.setCore c).cur = s.cur := by unfold State.setCore; split <;> rfl
@[simp] theorem State.nextId_setCore (c : Core) : (s.setCore c).nextId = s.nextId := by unfold State.setCore; split <;> rfl
@[simp] theorem State.inputs_setCore (c : Core) : (s.setCore c).inputs = s.inputs := by unfold State.setCore; split <;> rfl
@[simp] theorem State.waits_setCore (c : Core) : (s.setCore c).waits = s.waits := by unfold State.setCore; split <;> rfl
@[simp] theorem State.flight_setCore (c : Core) : (s.setCore c).flight = s.flight := by unfold State.setCore; split <;> rfl
@[simp] theorem State.mem_setCore (c : Core) : (s.setCore c).mem = s.mem := by unfold State.setCore; split <;> rfl
@[simp] theorem State.lines_setCore (c : Core) : (s.setCore c).lines = s.lines := by unfold State.setCore; split <;> rfl
@[simp] theorem State.poison_setCore (c : Core) : (s.setCore c).poison = s.poison := by unfold State.setCore; split <;> rfl
@[simp] theorem State.lineKeys_setCore (c : Core) : (s.setCore c).lineKeys = s.lineKeys := by unfold State.setCore; split <;> rfl
@[simp] theorem State.owners_setCore (c : Core) : (s.setCore c).owners = s.owners := by unfold State.setCore; split <;> rfl
@[simp] theorem State.held_setCore (c : Core) : (s.setCore c).held = s.held := by unfold State.setCore; split <;> rfl
@[simp] theorem State.shadows_setCore (c : Core) : (s.setCore c).shadows = s.shadows := by unfold State.setCore; split <;> rfl
@[simp] theorem State.copies_setCore (c : Core) : (s.setCore c).copies = s.copies := by unfold State.setCore; split <;> rfl
@[simp] theorem State.tlbs_setCore (c : Core) : (s.setCore c).tlbs = s.tlbs := by unfold State.setCore; split <;> rfl
@[simp] theorem State.shared_setCore (c : Core) : (s.setCore c).shared = s.shared := by unfold State.setCore; split <;> rfl
@[simp] theorem State.agers_setCore (c : Core) : (s.setCore c).agers = s.agers := by unfold State.setCore; split <;> rfl
@[simp] theorem State.keys_setCore (c : Core) : (s.setCore c).keys = s.keys := by unfold State.setCore; split <;> rfl
@[simp] theorem State.threads_setCore (c : Core) : (s.setCore c).threads = s.threads := by unfold State.setCore; split <;> rfl
@[simp] theorem State.ctxs_setCore (c : Core) : (s.setCore c).ctxs = s.ctxs := by unfold State.setCore; split <;> rfl
@[simp] theorem State.launches_setCore (c : Core) : (s.setCore c).launches = s.launches := by unfold State.setCore; split <;> rfl
@[simp] theorem State.images_setCore (c : Core) : (s.setCore c).images = s.images := by unfold State.setCore; split <;> rfl
@[simp] theorem State.blocks_setCore (c : Core) : (s.setCore c).blocks = s.blocks := by unfold State.setCore; split <;> rfl
@[simp] theorem State.waiters_setCore (c : Core) : (s.setCore c).waiters = s.waiters := by unfold State.setCore; split <;> rfl
@[simp] theorem State.advances_setCore (c : Core) : (s.setCore c).advances = s.advances := by unfold State.setCore; split <;> rfl
@[simp] theorem State.capped_setCore (c : Core) : (s.setCore c).capped = s.capped := by unfold State.setCore; split <;> rfl
@[simp] theorem State.husks_setCore (c : Core) : (s.setCore c).husks = s.husks := by unfold State.setCore; split <;> rfl
@[simp] theorem State.rings_setCore (c : Core) : (s.setCore c).rings = s.rings := by unfold State.setCore; split <;> rfl
@[simp] theorem State.probe_setCore (c : Core) : (s.setCore c).probe = s.probe := by unfold State.setCore; split <;> rfl
@[simp] theorem State.droopth_setCore (c : Core) : (s.setCore c).droopth = s.droopth := by unfold State.setCore; split <;> rfl
@[simp] theorem State.droopEnd_setCore (c : Core) : (s.setCore c).droopEnd = s.droopEnd := by unfold State.setCore; split <;> rfl
@[simp] theorem State.nextStatic_setCore (c : Core) : (s.setCore c).nextStatic = s.nextStatic := by unfold State.setCore; split <;> rfl
@[simp] theorem State.errors_setCore (c : Core) : (s.setCore c).errors = s.errors := by unfold State.setCore; split <;> rfl
@[simp] theorem State.counts_setCore (c : Core) : (s.setCore c).counts = s.counts := by unfold State.setCore; split <;> rfl
@[simp] theorem State.mgmt_setCore (c : Core) : (s.setCore c).mgmt = s.mgmt := by unfold State.setCore; split <;> rfl
@[simp] theorem State.cmdNext_setCore (c : Core) : (s.setCore c).cmdNext = s.cmdNext := by unfold State.setCore; split <;> rfl
@[simp] theorem State.defers_setCore (c : Core) : (s.setCore c).defers = s.defers := by unfold State.setCore; split <;> rfl
@[simp] theorem State.done_setCore (c : Core) : (s.setCore c).done = s.done := by unfold State.setCore; split <;> rfl
@[simp] theorem State.answers_setCore (c : Core) : (s.setCore c).answers = s.answers := by unfold State.setCore; split <;> rfl
@[simp] theorem State.events_setCore (c : Core) : (s.setCore c).events = s.events := by unfold State.setCore; split <;> rfl
@[simp] theorem State.rmaOpen_setCore (c : Core) : (s.setCore c).rmaOpen = s.rmaOpen := by unfold State.setCore; split <;> rfl
@[simp] theorem State.rmaOut_setCore (c : Core) : (s.setCore c).rmaOut = s.rmaOut := by unfold State.setCore; split <;> rfl
@[simp] theorem State.thread_q_setCore (c : Core) (q : TRef) : (s.setCore c).thread? q = s.thread? q := by simp [State.thread?]
@[simp] theorem State.agent_q_setCore (c : Core) (x y : Nat) : (s.setCore c).agent? x y = s.agent? x y := by simp [State.agent?]
@[simp] theorem State.curThread_setCore (c : Core)  : (s.setCore c).curThread = s.curThread := by simp [State.curThread, State.thread?]
@[simp] theorem State.ctx_q_setCore (c : Core) (x : Nat) : (s.setCore c).ctx? x = s.ctx? x := by simp [State.ctx?]
@[simp] theorem State.ctxD_setCore (c : Core) (x : Nat) : (s.setCore c).ctxD x = s.ctxD x := by simp [State.ctxD, State.ctx?]
@[simp] theorem State.launch_q_setCore (c : Core) (x : Nat) : (s.setCore c).launch? x = s.launch? x := by simp [State.launch?]
@[simp] theorem State.husk_setCore (c : Core) (x : Nat) : (s.setCore c).husk x = s.husk x := by simp [State.husk]
@[simp] theorem State.image_q_setCore (c : Core) (x y : Nat) : (s.setCore c).image? x y = s.image? x y := by simp [State.image?]
@[simp] theorem State.imageAny_q_setCore (c : Core) (x y : Nat) : (s.setCore c).imageAny? x y = s.imageAny? x y := by simp [State.imageAny?]
@[simp] theorem State.mcOf_setCore (c : Core) (x y : Nat) : (s.setCore c).mcOf x y = s.mcOf x y := by simp [State.mcOf, State.ctx?]
@[simp] theorem State.homeOf_setCore (c : Core) (q : TRef) : (s.setCore c).homeOf q = s.homeOf q := by simp [State.homeOf, State.mcOf, State.ctx?]
@[simp] theorem State.md_setCore (c : Core) (x : Nat) : (s.setCore c).md x = s.md x := by simp [State.md]
@[simp] theorem State.pois_setCore (c : Core) (x : Nat) : (s.setCore c).pois x = s.pois x := by simp [State.pois]
@[simp] theorem State.lineKey_setCore (c : Core) (x : Nat) : (s.setCore c).lineKey x = s.lineKey x := by simp [State.lineKey]
@[simp] theorem State.ownerOf_setCore (c : Core) (x : Nat) : (s.setCore c).ownerOf x = s.ownerOf x := by simp [State.ownerOf]
@[simp] theorem State.now_setCore (c : Core)  : (s.setCore c).now = s.now := by simp [State.now]

@[simp] theorem State.cycle_updCore (i : Nat) (f : Core → Core) : (s.updCore i f).cycle = s.cycle := by simp [State.updCore]
@[simp] theorem State.stage_updCore (i : Nat) (f : Core → Core) : (s.updCore i f).stage = s.stage := by simp [State.updCore]
@[simp] theorem State.thirds_updCore (i : Nat) (f : Core → Core) : (s.updCore i f).thirds = s.thirds := by simp [State.updCore]
@[simp] theorem State.oracle_updCore (i : Nat) (f : Core → Core) : (s.updCore i f).oracle = s.oracle := by simp [State.updCore]
@[simp] theorem State.draws_updCore (i : Nat) (f : Core → Core) : (s.updCore i f).draws = s.draws := by simp [State.updCore]
@[simp] theorem State.cur_updCore (i : Nat) (f : Core → Core) : (s.updCore i f).cur = s.cur := by simp [State.updCore]
@[simp] theorem State.nextId_updCore (i : Nat) (f : Core → Core) : (s.updCore i f).nextId = s.nextId := by simp [State.updCore]
@[simp] theorem State.inputs_updCore (i : Nat) (f : Core → Core) : (s.updCore i f).inputs = s.inputs := by simp [State.updCore]
@[simp] theorem State.waits_updCore (i : Nat) (f : Core → Core) : (s.updCore i f).waits = s.waits := by simp [State.updCore]
@[simp] theorem State.flight_updCore (i : Nat) (f : Core → Core) : (s.updCore i f).flight = s.flight := by simp [State.updCore]
@[simp] theorem State.mem_updCore (i : Nat) (f : Core → Core) : (s.updCore i f).mem = s.mem := by simp [State.updCore]
@[simp] theorem State.lines_updCore (i : Nat) (f : Core → Core) : (s.updCore i f).lines = s.lines := by simp [State.updCore]
@[simp] theorem State.poison_updCore (i : Nat) (f : Core → Core) : (s.updCore i f).poison = s.poison := by simp [State.updCore]
@[simp] theorem State.lineKeys_updCore (i : Nat) (f : Core → Core) : (s.updCore i f).lineKeys = s.lineKeys := by simp [State.updCore]
@[simp] theorem State.owners_updCore (i : Nat) (f : Core → Core) : (s.updCore i f).owners = s.owners := by simp [State.updCore]
@[simp] theorem State.held_updCore (i : Nat) (f : Core → Core) : (s.updCore i f).held = s.held := by simp [State.updCore]
@[simp] theorem State.shadows_updCore (i : Nat) (f : Core → Core) : (s.updCore i f).shadows = s.shadows := by simp [State.updCore]
@[simp] theorem State.copies_updCore (i : Nat) (f : Core → Core) : (s.updCore i f).copies = s.copies := by simp [State.updCore]
@[simp] theorem State.tlbs_updCore (i : Nat) (f : Core → Core) : (s.updCore i f).tlbs = s.tlbs := by simp [State.updCore]
@[simp] theorem State.shared_updCore (i : Nat) (f : Core → Core) : (s.updCore i f).shared = s.shared := by simp [State.updCore]
@[simp] theorem State.agers_updCore (i : Nat) (f : Core → Core) : (s.updCore i f).agers = s.agers := by simp [State.updCore]
@[simp] theorem State.keys_updCore (i : Nat) (f : Core → Core) : (s.updCore i f).keys = s.keys := by simp [State.updCore]
@[simp] theorem State.threads_updCore (i : Nat) (f : Core → Core) : (s.updCore i f).threads = s.threads := by simp [State.updCore]
@[simp] theorem State.ctxs_updCore (i : Nat) (f : Core → Core) : (s.updCore i f).ctxs = s.ctxs := by simp [State.updCore]
@[simp] theorem State.launches_updCore (i : Nat) (f : Core → Core) : (s.updCore i f).launches = s.launches := by simp [State.updCore]
@[simp] theorem State.images_updCore (i : Nat) (f : Core → Core) : (s.updCore i f).images = s.images := by simp [State.updCore]
@[simp] theorem State.blocks_updCore (i : Nat) (f : Core → Core) : (s.updCore i f).blocks = s.blocks := by simp [State.updCore]
@[simp] theorem State.waiters_updCore (i : Nat) (f : Core → Core) : (s.updCore i f).waiters = s.waiters := by simp [State.updCore]
@[simp] theorem State.advances_updCore (i : Nat) (f : Core → Core) : (s.updCore i f).advances = s.advances := by simp [State.updCore]
@[simp] theorem State.capped_updCore (i : Nat) (f : Core → Core) : (s.updCore i f).capped = s.capped := by simp [State.updCore]
@[simp] theorem State.husks_updCore (i : Nat) (f : Core → Core) : (s.updCore i f).husks = s.husks := by simp [State.updCore]
@[simp] theorem State.rings_updCore (i : Nat) (f : Core → Core) : (s.updCore i f).rings = s.rings := by simp [State.updCore]
@[simp] theorem State.probe_updCore (i : Nat) (f : Core → Core) : (s.updCore i f).probe = s.probe := by simp [State.updCore]
@[simp] theorem State.droopth_updCore (i : Nat) (f : Core → Core) : (s.updCore i f).droopth = s.droopth := by simp [State.updCore]
@[simp] theorem State.droopEnd_updCore (i : Nat) (f : Core → Core) : (s.updCore i f).droopEnd = s.droopEnd := by simp [State.updCore]
@[simp] theorem State.nextStatic_updCore (i : Nat) (f : Core → Core) : (s.updCore i f).nextStatic = s.nextStatic := by simp [State.updCore]
@[simp] theorem State.errors_updCore (i : Nat) (f : Core → Core) : (s.updCore i f).errors = s.errors := by simp [State.updCore]
@[simp] theorem State.counts_updCore (i : Nat) (f : Core → Core) : (s.updCore i f).counts = s.counts := by simp [State.updCore]
@[simp] theorem State.mgmt_updCore (i : Nat) (f : Core → Core) : (s.updCore i f).mgmt = s.mgmt := by simp [State.updCore]
@[simp] theorem State.cmdNext_updCore (i : Nat) (f : Core → Core) : (s.updCore i f).cmdNext = s.cmdNext := by simp [State.updCore]
@[simp] theorem State.defers_updCore (i : Nat) (f : Core → Core) : (s.updCore i f).defers = s.defers := by simp [State.updCore]
@[simp] theorem State.done_updCore (i : Nat) (f : Core → Core) : (s.updCore i f).done = s.done := by simp [State.updCore]
@[simp] theorem State.answers_updCore (i : Nat) (f : Core → Core) : (s.updCore i f).answers = s.answers := by simp [State.updCore]
@[simp] theorem State.events_updCore (i : Nat) (f : Core → Core) : (s.updCore i f).events = s.events := by simp [State.updCore]
@[simp] theorem State.rmaOpen_updCore (i : Nat) (f : Core → Core) : (s.updCore i f).rmaOpen = s.rmaOpen := by simp [State.updCore]
@[simp] theorem State.rmaOut_updCore (i : Nat) (f : Core → Core) : (s.updCore i f).rmaOut = s.rmaOut := by simp [State.updCore]
@[simp] theorem State.thread_q_updCore (i : Nat) (f : Core → Core) (q : TRef) : (s.updCore i f).thread? q = s.thread? q := by simp [State.thread?]
@[simp] theorem State.agent_q_updCore (i : Nat) (f : Core → Core) (x y : Nat) : (s.updCore i f).agent? x y = s.agent? x y := by simp [State.agent?]
@[simp] theorem State.curThread_updCore (i : Nat) (f : Core → Core)  : (s.updCore i f).curThread = s.curThread := by simp [State.curThread, State.thread?]
@[simp] theorem State.ctx_q_updCore (i : Nat) (f : Core → Core) (x : Nat) : (s.updCore i f).ctx? x = s.ctx? x := by simp [State.ctx?]
@[simp] theorem State.ctxD_updCore (i : Nat) (f : Core → Core) (x : Nat) : (s.updCore i f).ctxD x = s.ctxD x := by simp [State.ctxD, State.ctx?]
@[simp] theorem State.launch_q_updCore (i : Nat) (f : Core → Core) (x : Nat) : (s.updCore i f).launch? x = s.launch? x := by simp [State.launch?]
@[simp] theorem State.husk_updCore (i : Nat) (f : Core → Core) (x : Nat) : (s.updCore i f).husk x = s.husk x := by simp [State.husk]
@[simp] theorem State.image_q_updCore (i : Nat) (f : Core → Core) (x y : Nat) : (s.updCore i f).image? x y = s.image? x y := by simp [State.image?]
@[simp] theorem State.imageAny_q_updCore (i : Nat) (f : Core → Core) (x y : Nat) : (s.updCore i f).imageAny? x y = s.imageAny? x y := by simp [State.imageAny?]
@[simp] theorem State.mcOf_updCore (i : Nat) (f : Core → Core) (x y : Nat) : (s.updCore i f).mcOf x y = s.mcOf x y := by simp [State.mcOf, State.ctx?]
@[simp] theorem State.homeOf_updCore (i : Nat) (f : Core → Core) (q : TRef) : (s.updCore i f).homeOf q = s.homeOf q := by simp [State.homeOf, State.mcOf, State.ctx?]
@[simp] theorem State.md_updCore (i : Nat) (f : Core → Core) (x : Nat) : (s.updCore i f).md x = s.md x := by simp [State.md]
@[simp] theorem State.pois_updCore (i : Nat) (f : Core → Core) (x : Nat) : (s.updCore i f).pois x = s.pois x := by simp [State.pois]
@[simp] theorem State.lineKey_updCore (i : Nat) (f : Core → Core) (x : Nat) : (s.updCore i f).lineKey x = s.lineKey x := by simp [State.lineKey]
@[simp] theorem State.ownerOf_updCore (i : Nat) (f : Core → Core) (x : Nat) : (s.updCore i f).ownerOf x = s.ownerOf x := by simp [State.ownerOf]
@[simp] theorem State.now_updCore (i : Nat) (f : Core → Core)  : (s.updCore i f).now = s.now := by simp [State.now]

@[simp] theorem State.cycle_updLaunch (u : Nat) (f : Launch → Launch) : (s.updLaunch u f).cycle = s.cycle := rfl
@[simp] theorem State.stage_updLaunch (u : Nat) (f : Launch → Launch) : (s.updLaunch u f).stage = s.stage := rfl
@[simp] theorem State.thirds_updLaunch (u : Nat) (f : Launch → Launch) : (s.updLaunch u f).thirds = s.thirds := rfl
@[simp] theorem State.oracle_updLaunch (u : Nat) (f : Launch → Launch) : (s.updLaunch u f).oracle = s.oracle := rfl
@[simp] theorem State.draws_updLaunch (u : Nat) (f : Launch → Launch) : (s.updLaunch u f).draws = s.draws := rfl
@[simp] theorem State.cur_updLaunch (u : Nat) (f : Launch → Launch) : (s.updLaunch u f).cur = s.cur := rfl
@[simp] theorem State.nextId_updLaunch (u : Nat) (f : Launch → Launch) : (s.updLaunch u f).nextId = s.nextId := rfl
@[simp] theorem State.inputs_updLaunch (u : Nat) (f : Launch → Launch) : (s.updLaunch u f).inputs = s.inputs := rfl
@[simp] theorem State.waits_updLaunch (u : Nat) (f : Launch → Launch) : (s.updLaunch u f).waits = s.waits := rfl
@[simp] theorem State.flight_updLaunch (u : Nat) (f : Launch → Launch) : (s.updLaunch u f).flight = s.flight := rfl
@[simp] theorem State.mem_updLaunch (u : Nat) (f : Launch → Launch) : (s.updLaunch u f).mem = s.mem := rfl
@[simp] theorem State.lines_updLaunch (u : Nat) (f : Launch → Launch) : (s.updLaunch u f).lines = s.lines := rfl
@[simp] theorem State.poison_updLaunch (u : Nat) (f : Launch → Launch) : (s.updLaunch u f).poison = s.poison := rfl
@[simp] theorem State.lineKeys_updLaunch (u : Nat) (f : Launch → Launch) : (s.updLaunch u f).lineKeys = s.lineKeys := rfl
@[simp] theorem State.owners_updLaunch (u : Nat) (f : Launch → Launch) : (s.updLaunch u f).owners = s.owners := rfl
@[simp] theorem State.held_updLaunch (u : Nat) (f : Launch → Launch) : (s.updLaunch u f).held = s.held := rfl
@[simp] theorem State.shadows_updLaunch (u : Nat) (f : Launch → Launch) : (s.updLaunch u f).shadows = s.shadows := rfl
@[simp] theorem State.copies_updLaunch (u : Nat) (f : Launch → Launch) : (s.updLaunch u f).copies = s.copies := rfl
@[simp] theorem State.tlbs_updLaunch (u : Nat) (f : Launch → Launch) : (s.updLaunch u f).tlbs = s.tlbs := rfl
@[simp] theorem State.shared_updLaunch (u : Nat) (f : Launch → Launch) : (s.updLaunch u f).shared = s.shared := rfl
@[simp] theorem State.agers_updLaunch (u : Nat) (f : Launch → Launch) : (s.updLaunch u f).agers = s.agers := rfl
@[simp] theorem State.keys_updLaunch (u : Nat) (f : Launch → Launch) : (s.updLaunch u f).keys = s.keys := rfl
@[simp] theorem State.threads_updLaunch (u : Nat) (f : Launch → Launch) : (s.updLaunch u f).threads = s.threads := rfl
@[simp] theorem State.cores_updLaunch (u : Nat) (f : Launch → Launch) : (s.updLaunch u f).cores = s.cores := rfl
@[simp] theorem State.ctxs_updLaunch (u : Nat) (f : Launch → Launch) : (s.updLaunch u f).ctxs = s.ctxs := rfl
@[simp] theorem State.images_updLaunch (u : Nat) (f : Launch → Launch) : (s.updLaunch u f).images = s.images := rfl
@[simp] theorem State.blocks_updLaunch (u : Nat) (f : Launch → Launch) : (s.updLaunch u f).blocks = s.blocks := rfl
@[simp] theorem State.waiters_updLaunch (u : Nat) (f : Launch → Launch) : (s.updLaunch u f).waiters = s.waiters := rfl
@[simp] theorem State.advances_updLaunch (u : Nat) (f : Launch → Launch) : (s.updLaunch u f).advances = s.advances := rfl
@[simp] theorem State.capped_updLaunch (u : Nat) (f : Launch → Launch) : (s.updLaunch u f).capped = s.capped := rfl
@[simp] theorem State.husks_updLaunch (u : Nat) (f : Launch → Launch) : (s.updLaunch u f).husks = s.husks := rfl
@[simp] theorem State.rings_updLaunch (u : Nat) (f : Launch → Launch) : (s.updLaunch u f).rings = s.rings := rfl
@[simp] theorem State.probe_updLaunch (u : Nat) (f : Launch → Launch) : (s.updLaunch u f).probe = s.probe := rfl
@[simp] theorem State.droopth_updLaunch (u : Nat) (f : Launch → Launch) : (s.updLaunch u f).droopth = s.droopth := rfl
@[simp] theorem State.droopEnd_updLaunch (u : Nat) (f : Launch → Launch) : (s.updLaunch u f).droopEnd = s.droopEnd := rfl
@[simp] theorem State.nextStatic_updLaunch (u : Nat) (f : Launch → Launch) : (s.updLaunch u f).nextStatic = s.nextStatic := rfl
@[simp] theorem State.errors_updLaunch (u : Nat) (f : Launch → Launch) : (s.updLaunch u f).errors = s.errors := rfl
@[simp] theorem State.counts_updLaunch (u : Nat) (f : Launch → Launch) : (s.updLaunch u f).counts = s.counts := rfl
@[simp] theorem State.mgmt_updLaunch (u : Nat) (f : Launch → Launch) : (s.updLaunch u f).mgmt = s.mgmt := rfl
@[simp] theorem State.cmdNext_updLaunch (u : Nat) (f : Launch → Launch) : (s.updLaunch u f).cmdNext = s.cmdNext := rfl
@[simp] theorem State.defers_updLaunch (u : Nat) (f : Launch → Launch) : (s.updLaunch u f).defers = s.defers := rfl
@[simp] theorem State.done_updLaunch (u : Nat) (f : Launch → Launch) : (s.updLaunch u f).done = s.done := rfl
@[simp] theorem State.answers_updLaunch (u : Nat) (f : Launch → Launch) : (s.updLaunch u f).answers = s.answers := rfl
@[simp] theorem State.events_updLaunch (u : Nat) (f : Launch → Launch) : (s.updLaunch u f).events = s.events := rfl
@[simp] theorem State.rmaOpen_updLaunch (u : Nat) (f : Launch → Launch) : (s.updLaunch u f).rmaOpen = s.rmaOpen := rfl
@[simp] theorem State.rmaOut_updLaunch (u : Nat) (f : Launch → Launch) : (s.updLaunch u f).rmaOut = s.rmaOut := rfl
@[simp] theorem State.thread_q_updLaunch (u : Nat) (f : Launch → Launch) (q : TRef) : (s.updLaunch u f).thread? q = s.thread? q := rfl
@[simp] theorem State.agent_q_updLaunch (u : Nat) (f : Launch → Launch) (x y : Nat) : (s.updLaunch u f).agent? x y = s.agent? x y := rfl
@[simp] theorem State.curThread_updLaunch (u : Nat) (f : Launch → Launch)  : (s.updLaunch u f).curThread = s.curThread := rfl
@[simp] theorem State.ctx_q_updLaunch (u : Nat) (f : Launch → Launch) (x : Nat) : (s.updLaunch u f).ctx? x = s.ctx? x := rfl
@[simp] theorem State.ctxD_updLaunch (u : Nat) (f : Launch → Launch) (x : Nat) : (s.updLaunch u f).ctxD x = s.ctxD x := rfl
@[simp] theorem State.core_updLaunch (u : Nat) (f : Launch → Launch) (x : Nat) : (s.updLaunch u f).core x = s.core x := rfl
@[simp] theorem State.husk_updLaunch (u : Nat) (f : Launch → Launch) (x : Nat) : (s.updLaunch u f).husk x = s.husk x := rfl
@[simp] theorem State.image_q_updLaunch (u : Nat) (f : Launch → Launch) (x y : Nat) : (s.updLaunch u f).image? x y = s.image? x y := rfl
@[simp] theorem State.imageAny_q_updLaunch (u : Nat) (f : Launch → Launch) (x y : Nat) : (s.updLaunch u f).imageAny? x y = s.imageAny? x y := rfl
@[simp] theorem State.mcOf_updLaunch (u : Nat) (f : Launch → Launch) (x y : Nat) : (s.updLaunch u f).mcOf x y = s.mcOf x y := rfl
@[simp] theorem State.homeOf_updLaunch (u : Nat) (f : Launch → Launch) (q : TRef) : (s.updLaunch u f).homeOf q = s.homeOf q := rfl
@[simp] theorem State.md_updLaunch (u : Nat) (f : Launch → Launch) (x : Nat) : (s.updLaunch u f).md x = s.md x := rfl
@[simp] theorem State.pois_updLaunch (u : Nat) (f : Launch → Launch) (x : Nat) : (s.updLaunch u f).pois x = s.pois x := rfl
@[simp] theorem State.lineKey_updLaunch (u : Nat) (f : Launch → Launch) (x : Nat) : (s.updLaunch u f).lineKey x = s.lineKey x := rfl
@[simp] theorem State.ownerOf_updLaunch (u : Nat) (f : Launch → Launch) (x : Nat) : (s.updLaunch u f).ownerOf x = s.ownerOf x := rfl
@[simp] theorem State.now_updLaunch (u : Nat) (f : Launch → Launch)  : (s.updLaunch u f).now = s.now := rfl

@[simp] theorem State.cycle_setHusk (h : Husk) : (s.setHusk h).cycle = s.cycle := by unfold State.setHusk; split <;> rfl
@[simp] theorem State.stage_setHusk (h : Husk) : (s.setHusk h).stage = s.stage := by unfold State.setHusk; split <;> rfl
@[simp] theorem State.thirds_setHusk (h : Husk) : (s.setHusk h).thirds = s.thirds := by unfold State.setHusk; split <;> rfl
@[simp] theorem State.oracle_setHusk (h : Husk) : (s.setHusk h).oracle = s.oracle := by unfold State.setHusk; split <;> rfl
@[simp] theorem State.draws_setHusk (h : Husk) : (s.setHusk h).draws = s.draws := by unfold State.setHusk; split <;> rfl
@[simp] theorem State.cur_setHusk (h : Husk) : (s.setHusk h).cur = s.cur := by unfold State.setHusk; split <;> rfl
@[simp] theorem State.nextId_setHusk (h : Husk) : (s.setHusk h).nextId = s.nextId := by unfold State.setHusk; split <;> rfl
@[simp] theorem State.inputs_setHusk (h : Husk) : (s.setHusk h).inputs = s.inputs := by unfold State.setHusk; split <;> rfl
@[simp] theorem State.waits_setHusk (h : Husk) : (s.setHusk h).waits = s.waits := by unfold State.setHusk; split <;> rfl
@[simp] theorem State.flight_setHusk (h : Husk) : (s.setHusk h).flight = s.flight := by unfold State.setHusk; split <;> rfl
@[simp] theorem State.mem_setHusk (h : Husk) : (s.setHusk h).mem = s.mem := by unfold State.setHusk; split <;> rfl
@[simp] theorem State.lines_setHusk (h : Husk) : (s.setHusk h).lines = s.lines := by unfold State.setHusk; split <;> rfl
@[simp] theorem State.poison_setHusk (h : Husk) : (s.setHusk h).poison = s.poison := by unfold State.setHusk; split <;> rfl
@[simp] theorem State.lineKeys_setHusk (h : Husk) : (s.setHusk h).lineKeys = s.lineKeys := by unfold State.setHusk; split <;> rfl
@[simp] theorem State.owners_setHusk (h : Husk) : (s.setHusk h).owners = s.owners := by unfold State.setHusk; split <;> rfl
@[simp] theorem State.held_setHusk (h : Husk) : (s.setHusk h).held = s.held := by unfold State.setHusk; split <;> rfl
@[simp] theorem State.shadows_setHusk (h : Husk) : (s.setHusk h).shadows = s.shadows := by unfold State.setHusk; split <;> rfl
@[simp] theorem State.copies_setHusk (h : Husk) : (s.setHusk h).copies = s.copies := by unfold State.setHusk; split <;> rfl
@[simp] theorem State.tlbs_setHusk (h : Husk) : (s.setHusk h).tlbs = s.tlbs := by unfold State.setHusk; split <;> rfl
@[simp] theorem State.shared_setHusk (h : Husk) : (s.setHusk h).shared = s.shared := by unfold State.setHusk; split <;> rfl
@[simp] theorem State.agers_setHusk (h : Husk) : (s.setHusk h).agers = s.agers := by unfold State.setHusk; split <;> rfl
@[simp] theorem State.keys_setHusk (h : Husk) : (s.setHusk h).keys = s.keys := by unfold State.setHusk; split <;> rfl
@[simp] theorem State.threads_setHusk (h : Husk) : (s.setHusk h).threads = s.threads := by unfold State.setHusk; split <;> rfl
@[simp] theorem State.cores_setHusk (h : Husk) : (s.setHusk h).cores = s.cores := by unfold State.setHusk; split <;> rfl
@[simp] theorem State.ctxs_setHusk (h : Husk) : (s.setHusk h).ctxs = s.ctxs := by unfold State.setHusk; split <;> rfl
@[simp] theorem State.launches_setHusk (h : Husk) : (s.setHusk h).launches = s.launches := by unfold State.setHusk; split <;> rfl
@[simp] theorem State.images_setHusk (h : Husk) : (s.setHusk h).images = s.images := by unfold State.setHusk; split <;> rfl
@[simp] theorem State.blocks_setHusk (h : Husk) : (s.setHusk h).blocks = s.blocks := by unfold State.setHusk; split <;> rfl
@[simp] theorem State.waiters_setHusk (h : Husk) : (s.setHusk h).waiters = s.waiters := by unfold State.setHusk; split <;> rfl
@[simp] theorem State.advances_setHusk (h : Husk) : (s.setHusk h).advances = s.advances := by unfold State.setHusk; split <;> rfl
@[simp] theorem State.capped_setHusk (h : Husk) : (s.setHusk h).capped = s.capped := by unfold State.setHusk; split <;> rfl
@[simp] theorem State.rings_setHusk (h : Husk) : (s.setHusk h).rings = s.rings := by unfold State.setHusk; split <;> rfl
@[simp] theorem State.probe_setHusk (h : Husk) : (s.setHusk h).probe = s.probe := by unfold State.setHusk; split <;> rfl
@[simp] theorem State.droopth_setHusk (h : Husk) : (s.setHusk h).droopth = s.droopth := by unfold State.setHusk; split <;> rfl
@[simp] theorem State.droopEnd_setHusk (h : Husk) : (s.setHusk h).droopEnd = s.droopEnd := by unfold State.setHusk; split <;> rfl
@[simp] theorem State.nextStatic_setHusk (h : Husk) : (s.setHusk h).nextStatic = s.nextStatic := by unfold State.setHusk; split <;> rfl
@[simp] theorem State.errors_setHusk (h : Husk) : (s.setHusk h).errors = s.errors := by unfold State.setHusk; split <;> rfl
@[simp] theorem State.counts_setHusk (h : Husk) : (s.setHusk h).counts = s.counts := by unfold State.setHusk; split <;> rfl
@[simp] theorem State.mgmt_setHusk (h : Husk) : (s.setHusk h).mgmt = s.mgmt := by unfold State.setHusk; split <;> rfl
@[simp] theorem State.cmdNext_setHusk (h : Husk) : (s.setHusk h).cmdNext = s.cmdNext := by unfold State.setHusk; split <;> rfl
@[simp] theorem State.defers_setHusk (h : Husk) : (s.setHusk h).defers = s.defers := by unfold State.setHusk; split <;> rfl
@[simp] theorem State.done_setHusk (h : Husk) : (s.setHusk h).done = s.done := by unfold State.setHusk; split <;> rfl
@[simp] theorem State.answers_setHusk (h : Husk) : (s.setHusk h).answers = s.answers := by unfold State.setHusk; split <;> rfl
@[simp] theorem State.events_setHusk (h : Husk) : (s.setHusk h).events = s.events := by unfold State.setHusk; split <;> rfl
@[simp] theorem State.rmaOpen_setHusk (h : Husk) : (s.setHusk h).rmaOpen = s.rmaOpen := by unfold State.setHusk; split <;> rfl
@[simp] theorem State.rmaOut_setHusk (h : Husk) : (s.setHusk h).rmaOut = s.rmaOut := by unfold State.setHusk; split <;> rfl
@[simp] theorem State.thread_q_setHusk (h : Husk) (q : TRef) : (s.setHusk h).thread? q = s.thread? q := by simp [State.thread?]
@[simp] theorem State.agent_q_setHusk (h : Husk) (x y : Nat) : (s.setHusk h).agent? x y = s.agent? x y := by simp [State.agent?]
@[simp] theorem State.curThread_setHusk (h : Husk)  : (s.setHusk h).curThread = s.curThread := by simp [State.curThread, State.thread?]
@[simp] theorem State.ctx_q_setHusk (h : Husk) (x : Nat) : (s.setHusk h).ctx? x = s.ctx? x := by simp [State.ctx?]
@[simp] theorem State.ctxD_setHusk (h : Husk) (x : Nat) : (s.setHusk h).ctxD x = s.ctxD x := by simp [State.ctxD, State.ctx?]
@[simp] theorem State.core_setHusk (h : Husk) (x : Nat) : (s.setHusk h).core x = s.core x := by simp [State.core]
@[simp] theorem State.launch_q_setHusk (h : Husk) (x : Nat) : (s.setHusk h).launch? x = s.launch? x := by simp [State.launch?]
@[simp] theorem State.image_q_setHusk (h : Husk) (x y : Nat) : (s.setHusk h).image? x y = s.image? x y := by simp [State.image?]
@[simp] theorem State.imageAny_q_setHusk (h : Husk) (x y : Nat) : (s.setHusk h).imageAny? x y = s.imageAny? x y := by simp [State.imageAny?]
@[simp] theorem State.mcOf_setHusk (h : Husk) (x y : Nat) : (s.setHusk h).mcOf x y = s.mcOf x y := by simp [State.mcOf, State.ctx?]
@[simp] theorem State.homeOf_setHusk (h : Husk) (q : TRef) : (s.setHusk h).homeOf q = s.homeOf q := by simp [State.homeOf, State.mcOf, State.ctx?]
@[simp] theorem State.md_setHusk (h : Husk) (x : Nat) : (s.setHusk h).md x = s.md x := by simp [State.md]
@[simp] theorem State.pois_setHusk (h : Husk) (x : Nat) : (s.setHusk h).pois x = s.pois x := by simp [State.pois]
@[simp] theorem State.lineKey_setHusk (h : Husk) (x : Nat) : (s.setHusk h).lineKey x = s.lineKey x := by simp [State.lineKey]
@[simp] theorem State.ownerOf_setHusk (h : Husk) (x : Nat) : (s.setHusk h).ownerOf x = s.ownerOf x := by simp [State.ownerOf]
@[simp] theorem State.now_setHusk (h : Husk)  : (s.setHusk h).now = s.now := by simp [State.now]

@[simp] theorem State.cycle_updImage (a b : Nat) (f : Image → Image) : (s.updImage a b f).cycle = s.cycle := rfl
@[simp] theorem State.stage_updImage (a b : Nat) (f : Image → Image) : (s.updImage a b f).stage = s.stage := rfl
@[simp] theorem State.thirds_updImage (a b : Nat) (f : Image → Image) : (s.updImage a b f).thirds = s.thirds := rfl
@[simp] theorem State.oracle_updImage (a b : Nat) (f : Image → Image) : (s.updImage a b f).oracle = s.oracle := rfl
@[simp] theorem State.draws_updImage (a b : Nat) (f : Image → Image) : (s.updImage a b f).draws = s.draws := rfl
@[simp] theorem State.cur_updImage (a b : Nat) (f : Image → Image) : (s.updImage a b f).cur = s.cur := rfl
@[simp] theorem State.nextId_updImage (a b : Nat) (f : Image → Image) : (s.updImage a b f).nextId = s.nextId := rfl
@[simp] theorem State.inputs_updImage (a b : Nat) (f : Image → Image) : (s.updImage a b f).inputs = s.inputs := rfl
@[simp] theorem State.waits_updImage (a b : Nat) (f : Image → Image) : (s.updImage a b f).waits = s.waits := rfl
@[simp] theorem State.flight_updImage (a b : Nat) (f : Image → Image) : (s.updImage a b f).flight = s.flight := rfl
@[simp] theorem State.mem_updImage (a b : Nat) (f : Image → Image) : (s.updImage a b f).mem = s.mem := rfl
@[simp] theorem State.lines_updImage (a b : Nat) (f : Image → Image) : (s.updImage a b f).lines = s.lines := rfl
@[simp] theorem State.poison_updImage (a b : Nat) (f : Image → Image) : (s.updImage a b f).poison = s.poison := rfl
@[simp] theorem State.lineKeys_updImage (a b : Nat) (f : Image → Image) : (s.updImage a b f).lineKeys = s.lineKeys := rfl
@[simp] theorem State.owners_updImage (a b : Nat) (f : Image → Image) : (s.updImage a b f).owners = s.owners := rfl
@[simp] theorem State.held_updImage (a b : Nat) (f : Image → Image) : (s.updImage a b f).held = s.held := rfl
@[simp] theorem State.shadows_updImage (a b : Nat) (f : Image → Image) : (s.updImage a b f).shadows = s.shadows := rfl
@[simp] theorem State.copies_updImage (a b : Nat) (f : Image → Image) : (s.updImage a b f).copies = s.copies := rfl
@[simp] theorem State.tlbs_updImage (a b : Nat) (f : Image → Image) : (s.updImage a b f).tlbs = s.tlbs := rfl
@[simp] theorem State.shared_updImage (a b : Nat) (f : Image → Image) : (s.updImage a b f).shared = s.shared := rfl
@[simp] theorem State.agers_updImage (a b : Nat) (f : Image → Image) : (s.updImage a b f).agers = s.agers := rfl
@[simp] theorem State.keys_updImage (a b : Nat) (f : Image → Image) : (s.updImage a b f).keys = s.keys := rfl
@[simp] theorem State.threads_updImage (a b : Nat) (f : Image → Image) : (s.updImage a b f).threads = s.threads := rfl
@[simp] theorem State.cores_updImage (a b : Nat) (f : Image → Image) : (s.updImage a b f).cores = s.cores := rfl
@[simp] theorem State.ctxs_updImage (a b : Nat) (f : Image → Image) : (s.updImage a b f).ctxs = s.ctxs := rfl
@[simp] theorem State.launches_updImage (a b : Nat) (f : Image → Image) : (s.updImage a b f).launches = s.launches := rfl
@[simp] theorem State.waiters_updImage (a b : Nat) (f : Image → Image) : (s.updImage a b f).waiters = s.waiters := rfl
@[simp] theorem State.advances_updImage (a b : Nat) (f : Image → Image) : (s.updImage a b f).advances = s.advances := rfl
@[simp] theorem State.capped_updImage (a b : Nat) (f : Image → Image) : (s.updImage a b f).capped = s.capped := rfl
@[simp] theorem State.husks_updImage (a b : Nat) (f : Image → Image) : (s.updImage a b f).husks = s.husks := rfl
@[simp] theorem State.rings_updImage (a b : Nat) (f : Image → Image) : (s.updImage a b f).rings = s.rings := rfl
@[simp] theorem State.probe_updImage (a b : Nat) (f : Image → Image) : (s.updImage a b f).probe = s.probe := rfl
@[simp] theorem State.droopth_updImage (a b : Nat) (f : Image → Image) : (s.updImage a b f).droopth = s.droopth := rfl
@[simp] theorem State.droopEnd_updImage (a b : Nat) (f : Image → Image) : (s.updImage a b f).droopEnd = s.droopEnd := rfl
@[simp] theorem State.nextStatic_updImage (a b : Nat) (f : Image → Image) : (s.updImage a b f).nextStatic = s.nextStatic := rfl
@[simp] theorem State.errors_updImage (a b : Nat) (f : Image → Image) : (s.updImage a b f).errors = s.errors := rfl
@[simp] theorem State.counts_updImage (a b : Nat) (f : Image → Image) : (s.updImage a b f).counts = s.counts := rfl
@[simp] theorem State.mgmt_updImage (a b : Nat) (f : Image → Image) : (s.updImage a b f).mgmt = s.mgmt := rfl
@[simp] theorem State.cmdNext_updImage (a b : Nat) (f : Image → Image) : (s.updImage a b f).cmdNext = s.cmdNext := rfl
@[simp] theorem State.defers_updImage (a b : Nat) (f : Image → Image) : (s.updImage a b f).defers = s.defers := rfl
@[simp] theorem State.done_updImage (a b : Nat) (f : Image → Image) : (s.updImage a b f).done = s.done := rfl
@[simp] theorem State.answers_updImage (a b : Nat) (f : Image → Image) : (s.updImage a b f).answers = s.answers := rfl
@[simp] theorem State.events_updImage (a b : Nat) (f : Image → Image) : (s.updImage a b f).events = s.events := rfl
@[simp] theorem State.rmaOpen_updImage (a b : Nat) (f : Image → Image) : (s.updImage a b f).rmaOpen = s.rmaOpen := rfl
@[simp] theorem State.rmaOut_updImage (a b : Nat) (f : Image → Image) : (s.updImage a b f).rmaOut = s.rmaOut := rfl
@[simp] theorem State.thread_q_updImage (a b : Nat) (f : Image → Image) (q : TRef) : (s.updImage a b f).thread? q = s.thread? q := rfl
@[simp] theorem State.agent_q_updImage (a b : Nat) (f : Image → Image) (x y : Nat) : (s.updImage a b f).agent? x y = s.agent? x y := rfl
@[simp] theorem State.curThread_updImage (a b : Nat) (f : Image → Image)  : (s.updImage a b f).curThread = s.curThread := rfl
@[simp] theorem State.ctx_q_updImage (a b : Nat) (f : Image → Image) (x : Nat) : (s.updImage a b f).ctx? x = s.ctx? x := rfl
@[simp] theorem State.ctxD_updImage (a b : Nat) (f : Image → Image) (x : Nat) : (s.updImage a b f).ctxD x = s.ctxD x := rfl
@[simp] theorem State.core_updImage (a b : Nat) (f : Image → Image) (x : Nat) : (s.updImage a b f).core x = s.core x := rfl
@[simp] theorem State.launch_q_updImage (a b : Nat) (f : Image → Image) (x : Nat) : (s.updImage a b f).launch? x = s.launch? x := rfl
@[simp] theorem State.husk_updImage (a b : Nat) (f : Image → Image) (x : Nat) : (s.updImage a b f).husk x = s.husk x := rfl
@[simp] theorem State.mcOf_updImage (a b : Nat) (f : Image → Image) (x y : Nat) : (s.updImage a b f).mcOf x y = s.mcOf x y := rfl
@[simp] theorem State.homeOf_updImage (a b : Nat) (f : Image → Image) (q : TRef) : (s.updImage a b f).homeOf q = s.homeOf q := rfl
@[simp] theorem State.md_updImage (a b : Nat) (f : Image → Image) (x : Nat) : (s.updImage a b f).md x = s.md x := rfl
@[simp] theorem State.pois_updImage (a b : Nat) (f : Image → Image) (x : Nat) : (s.updImage a b f).pois x = s.pois x := rfl
@[simp] theorem State.lineKey_updImage (a b : Nat) (f : Image → Image) (x : Nat) : (s.updImage a b f).lineKey x = s.lineKey x := rfl
@[simp] theorem State.ownerOf_updImage (a b : Nat) (f : Image → Image) (x : Nat) : (s.updImage a b f).ownerOf x = s.ownerOf x := rfl
@[simp] theorem State.now_updImage (a b : Nat) (f : Image → Image)  : (s.updImage a b f).now = s.now := rfl

@[simp] theorem State.cycle_post (l : List Instr) : (s.post l).cycle = s.cycle := rfl
@[simp] theorem State.stage_post (l : List Instr) : (s.post l).stage = s.stage := rfl
@[simp] theorem State.thirds_post (l : List Instr) : (s.post l).thirds = s.thirds := rfl
@[simp] theorem State.oracle_post (l : List Instr) : (s.post l).oracle = s.oracle := rfl
@[simp] theorem State.draws_post (l : List Instr) : (s.post l).draws = s.draws := rfl
@[simp] theorem State.cur_post (l : List Instr) : (s.post l).cur = s.cur := rfl
@[simp] theorem State.nextId_post (l : List Instr) : (s.post l).nextId = s.nextId := rfl
@[simp] theorem State.inputs_post (l : List Instr) : (s.post l).inputs = s.inputs := rfl
@[simp] theorem State.waits_post (l : List Instr) : (s.post l).waits = s.waits := rfl
@[simp] theorem State.mem_post (l : List Instr) : (s.post l).mem = s.mem := rfl
@[simp] theorem State.lines_post (l : List Instr) : (s.post l).lines = s.lines := rfl
@[simp] theorem State.poison_post (l : List Instr) : (s.post l).poison = s.poison := rfl
@[simp] theorem State.lineKeys_post (l : List Instr) : (s.post l).lineKeys = s.lineKeys := rfl
@[simp] theorem State.owners_post (l : List Instr) : (s.post l).owners = s.owners := rfl
@[simp] theorem State.held_post (l : List Instr) : (s.post l).held = s.held := rfl
@[simp] theorem State.shadows_post (l : List Instr) : (s.post l).shadows = s.shadows := rfl
@[simp] theorem State.copies_post (l : List Instr) : (s.post l).copies = s.copies := rfl
@[simp] theorem State.tlbs_post (l : List Instr) : (s.post l).tlbs = s.tlbs := rfl
@[simp] theorem State.shared_post (l : List Instr) : (s.post l).shared = s.shared := rfl
@[simp] theorem State.agers_post (l : List Instr) : (s.post l).agers = s.agers := rfl
@[simp] theorem State.keys_post (l : List Instr) : (s.post l).keys = s.keys := rfl
@[simp] theorem State.threads_post (l : List Instr) : (s.post l).threads = s.threads := rfl
@[simp] theorem State.cores_post (l : List Instr) : (s.post l).cores = s.cores := rfl
@[simp] theorem State.ctxs_post (l : List Instr) : (s.post l).ctxs = s.ctxs := rfl
@[simp] theorem State.launches_post (l : List Instr) : (s.post l).launches = s.launches := rfl
@[simp] theorem State.images_post (l : List Instr) : (s.post l).images = s.images := rfl
@[simp] theorem State.blocks_post (l : List Instr) : (s.post l).blocks = s.blocks := rfl
@[simp] theorem State.waiters_post (l : List Instr) : (s.post l).waiters = s.waiters := rfl
@[simp] theorem State.advances_post (l : List Instr) : (s.post l).advances = s.advances := rfl
@[simp] theorem State.capped_post (l : List Instr) : (s.post l).capped = s.capped := rfl
@[simp] theorem State.husks_post (l : List Instr) : (s.post l).husks = s.husks := rfl
@[simp] theorem State.rings_post (l : List Instr) : (s.post l).rings = s.rings := rfl
@[simp] theorem State.probe_post (l : List Instr) : (s.post l).probe = s.probe := rfl
@[simp] theorem State.droopth_post (l : List Instr) : (s.post l).droopth = s.droopth := rfl
@[simp] theorem State.droopEnd_post (l : List Instr) : (s.post l).droopEnd = s.droopEnd := rfl
@[simp] theorem State.nextStatic_post (l : List Instr) : (s.post l).nextStatic = s.nextStatic := rfl
@[simp] theorem State.errors_post (l : List Instr) : (s.post l).errors = s.errors := rfl
@[simp] theorem State.counts_post (l : List Instr) : (s.post l).counts = s.counts := rfl
@[simp] theorem State.mgmt_post (l : List Instr) : (s.post l).mgmt = s.mgmt := rfl
@[simp] theorem State.cmdNext_post (l : List Instr) : (s.post l).cmdNext = s.cmdNext := rfl
@[simp] theorem State.defers_post (l : List Instr) : (s.post l).defers = s.defers := rfl
@[simp] theorem State.done_post (l : List Instr) : (s.post l).done = s.done := rfl
@[simp] theorem State.answers_post (l : List Instr) : (s.post l).answers = s.answers := rfl
@[simp] theorem State.events_post (l : List Instr) : (s.post l).events = s.events := rfl
@[simp] theorem State.rmaOpen_post (l : List Instr) : (s.post l).rmaOpen = s.rmaOpen := rfl
@[simp] theorem State.rmaOut_post (l : List Instr) : (s.post l).rmaOut = s.rmaOut := rfl
@[simp] theorem State.thread_q_post (l : List Instr) (q : TRef) : (s.post l).thread? q = s.thread? q := rfl
@[simp] theorem State.agent_q_post (l : List Instr) (x y : Nat) : (s.post l).agent? x y = s.agent? x y := rfl
@[simp] theorem State.curThread_post (l : List Instr)  : (s.post l).curThread = s.curThread := rfl
@[simp] theorem State.ctx_q_post (l : List Instr) (x : Nat) : (s.post l).ctx? x = s.ctx? x := rfl
@[simp] theorem State.ctxD_post (l : List Instr) (x : Nat) : (s.post l).ctxD x = s.ctxD x := rfl
@[simp] theorem State.core_post (l : List Instr) (x : Nat) : (s.post l).core x = s.core x := rfl
@[simp] theorem State.launch_q_post (l : List Instr) (x : Nat) : (s.post l).launch? x = s.launch? x := rfl
@[simp] theorem State.husk_post (l : List Instr) (x : Nat) : (s.post l).husk x = s.husk x := rfl
@[simp] theorem State.image_q_post (l : List Instr) (x y : Nat) : (s.post l).image? x y = s.image? x y := rfl
@[simp] theorem State.imageAny_q_post (l : List Instr) (x y : Nat) : (s.post l).imageAny? x y = s.imageAny? x y := rfl
@[simp] theorem State.mcOf_post (l : List Instr) (x y : Nat) : (s.post l).mcOf x y = s.mcOf x y := rfl
@[simp] theorem State.homeOf_post (l : List Instr) (q : TRef) : (s.post l).homeOf q = s.homeOf q := rfl
@[simp] theorem State.md_post (l : List Instr) (x : Nat) : (s.post l).md x = s.md x := rfl
@[simp] theorem State.pois_post (l : List Instr) (x : Nat) : (s.post l).pois x = s.pois x := rfl
@[simp] theorem State.lineKey_post (l : List Instr) (x : Nat) : (s.post l).lineKey x = s.lineKey x := rfl
@[simp] theorem State.ownerOf_post (l : List Instr) (x : Nat) : (s.post l).ownerOf x = s.ownerOf x := rfl
@[simp] theorem State.now_post (l : List Instr)  : (s.post l).now = s.now := rfl

@[simp] theorem State.cycle_emit (k : Nat) (c : Option Nat) (a b : Nat) (w : Word) : (s.emit k c a b w).cycle = s.cycle := rfl
@[simp] theorem State.stage_emit (k : Nat) (c : Option Nat) (a b : Nat) (w : Word) : (s.emit k c a b w).stage = s.stage := rfl
@[simp] theorem State.thirds_emit (k : Nat) (c : Option Nat) (a b : Nat) (w : Word) : (s.emit k c a b w).thirds = s.thirds := rfl
@[simp] theorem State.oracle_emit (k : Nat) (c : Option Nat) (a b : Nat) (w : Word) : (s.emit k c a b w).oracle = s.oracle := rfl
@[simp] theorem State.draws_emit (k : Nat) (c : Option Nat) (a b : Nat) (w : Word) : (s.emit k c a b w).draws = s.draws := rfl
@[simp] theorem State.cur_emit (k : Nat) (c : Option Nat) (a b : Nat) (w : Word) : (s.emit k c a b w).cur = s.cur := rfl
@[simp] theorem State.nextId_emit (k : Nat) (c : Option Nat) (a b : Nat) (w : Word) : (s.emit k c a b w).nextId = s.nextId := rfl
@[simp] theorem State.inputs_emit (k : Nat) (c : Option Nat) (a b : Nat) (w : Word) : (s.emit k c a b w).inputs = s.inputs := rfl
@[simp] theorem State.waits_emit (k : Nat) (c : Option Nat) (a b : Nat) (w : Word) : (s.emit k c a b w).waits = s.waits := rfl
@[simp] theorem State.flight_emit (k : Nat) (c : Option Nat) (a b : Nat) (w : Word) : (s.emit k c a b w).flight = s.flight := rfl
@[simp] theorem State.mem_emit (k : Nat) (c : Option Nat) (a b : Nat) (w : Word) : (s.emit k c a b w).mem = s.mem := rfl
@[simp] theorem State.lines_emit (k : Nat) (c : Option Nat) (a b : Nat) (w : Word) : (s.emit k c a b w).lines = s.lines := rfl
@[simp] theorem State.poison_emit (k : Nat) (c : Option Nat) (a b : Nat) (w : Word) : (s.emit k c a b w).poison = s.poison := rfl
@[simp] theorem State.lineKeys_emit (k : Nat) (c : Option Nat) (a b : Nat) (w : Word) : (s.emit k c a b w).lineKeys = s.lineKeys := rfl
@[simp] theorem State.owners_emit (k : Nat) (c : Option Nat) (a b : Nat) (w : Word) : (s.emit k c a b w).owners = s.owners := rfl
@[simp] theorem State.held_emit (k : Nat) (c : Option Nat) (a b : Nat) (w : Word) : (s.emit k c a b w).held = s.held := rfl
@[simp] theorem State.shadows_emit (k : Nat) (c : Option Nat) (a b : Nat) (w : Word) : (s.emit k c a b w).shadows = s.shadows := rfl
@[simp] theorem State.copies_emit (k : Nat) (c : Option Nat) (a b : Nat) (w : Word) : (s.emit k c a b w).copies = s.copies := rfl
@[simp] theorem State.tlbs_emit (k : Nat) (c : Option Nat) (a b : Nat) (w : Word) : (s.emit k c a b w).tlbs = s.tlbs := rfl
@[simp] theorem State.shared_emit (k : Nat) (c : Option Nat) (a b : Nat) (w : Word) : (s.emit k c a b w).shared = s.shared := rfl
@[simp] theorem State.agers_emit (k : Nat) (c : Option Nat) (a b : Nat) (w : Word) : (s.emit k c a b w).agers = s.agers := rfl
@[simp] theorem State.keys_emit (k : Nat) (c : Option Nat) (a b : Nat) (w : Word) : (s.emit k c a b w).keys = s.keys := rfl
@[simp] theorem State.threads_emit (k : Nat) (c : Option Nat) (a b : Nat) (w : Word) : (s.emit k c a b w).threads = s.threads := rfl
@[simp] theorem State.cores_emit (k : Nat) (c : Option Nat) (a b : Nat) (w : Word) : (s.emit k c a b w).cores = s.cores := rfl
@[simp] theorem State.ctxs_emit (k : Nat) (c : Option Nat) (a b : Nat) (w : Word) : (s.emit k c a b w).ctxs = s.ctxs := rfl
@[simp] theorem State.launches_emit (k : Nat) (c : Option Nat) (a b : Nat) (w : Word) : (s.emit k c a b w).launches = s.launches := rfl
@[simp] theorem State.images_emit (k : Nat) (c : Option Nat) (a b : Nat) (w : Word) : (s.emit k c a b w).images = s.images := rfl
@[simp] theorem State.blocks_emit (k : Nat) (c : Option Nat) (a b : Nat) (w : Word) : (s.emit k c a b w).blocks = s.blocks := rfl
@[simp] theorem State.waiters_emit (k : Nat) (c : Option Nat) (a b : Nat) (w : Word) : (s.emit k c a b w).waiters = s.waiters := rfl
@[simp] theorem State.advances_emit (k : Nat) (c : Option Nat) (a b : Nat) (w : Word) : (s.emit k c a b w).advances = s.advances := rfl
@[simp] theorem State.capped_emit (k : Nat) (c : Option Nat) (a b : Nat) (w : Word) : (s.emit k c a b w).capped = s.capped := rfl
@[simp] theorem State.husks_emit (k : Nat) (c : Option Nat) (a b : Nat) (w : Word) : (s.emit k c a b w).husks = s.husks := rfl
@[simp] theorem State.rings_emit (k : Nat) (c : Option Nat) (a b : Nat) (w : Word) : (s.emit k c a b w).rings = s.rings := rfl
@[simp] theorem State.probe_emit (k : Nat) (c : Option Nat) (a b : Nat) (w : Word) : (s.emit k c a b w).probe = s.probe := rfl
@[simp] theorem State.droopth_emit (k : Nat) (c : Option Nat) (a b : Nat) (w : Word) : (s.emit k c a b w).droopth = s.droopth := rfl
@[simp] theorem State.droopEnd_emit (k : Nat) (c : Option Nat) (a b : Nat) (w : Word) : (s.emit k c a b w).droopEnd = s.droopEnd := rfl
@[simp] theorem State.nextStatic_emit (k : Nat) (c : Option Nat) (a b : Nat) (w : Word) : (s.emit k c a b w).nextStatic = s.nextStatic := rfl
@[simp] theorem State.errors_emit (k : Nat) (c : Option Nat) (a b : Nat) (w : Word) : (s.emit k c a b w).errors = s.errors := rfl
@[simp] theorem State.counts_emit (k : Nat) (c : Option Nat) (a b : Nat) (w : Word) : (s.emit k c a b w).counts = s.counts := rfl
@[simp] theorem State.mgmt_emit (k : Nat) (c : Option Nat) (a b : Nat) (w : Word) : (s.emit k c a b w).mgmt = s.mgmt := rfl
@[simp] theorem State.cmdNext_emit (k : Nat) (c : Option Nat) (a b : Nat) (w : Word) : (s.emit k c a b w).cmdNext = s.cmdNext := rfl
@[simp] theorem State.defers_emit (k : Nat) (c : Option Nat) (a b : Nat) (w : Word) : (s.emit k c a b w).defers = s.defers := rfl
@[simp] theorem State.done_emit (k : Nat) (c : Option Nat) (a b : Nat) (w : Word) : (s.emit k c a b w).done = s.done := rfl
@[simp] theorem State.answers_emit (k : Nat) (c : Option Nat) (a b : Nat) (w : Word) : (s.emit k c a b w).answers = s.answers := rfl
@[simp] theorem State.rmaOpen_emit (k : Nat) (c : Option Nat) (a b : Nat) (w : Word) : (s.emit k c a b w).rmaOpen = s.rmaOpen := rfl
@[simp] theorem State.rmaOut_emit (k : Nat) (c : Option Nat) (a b : Nat) (w : Word) : (s.emit k c a b w).rmaOut = s.rmaOut := rfl
@[simp] theorem State.thread_q_emit (k : Nat) (c : Option Nat) (a b : Nat) (w : Word) (q : TRef) : (s.emit k c a b w).thread? q = s.thread? q := rfl
@[simp] theorem State.agent_q_emit (k : Nat) (c : Option Nat) (a b : Nat) (w : Word) (x y : Nat) : (s.emit k c a b w).agent? x y = s.agent? x y := rfl
@[simp] theorem State.curThread_emit (k : Nat) (c : Option Nat) (a b : Nat) (w : Word)  : (s.emit k c a b w).curThread = s.curThread := rfl
@[simp] theorem State.ctx_q_emit (k : Nat) (c : Option Nat) (a b : Nat) (w : Word) (x : Nat) : (s.emit k c a b w).ctx? x = s.ctx? x := rfl
@[simp] theorem State.ctxD_emit (k : Nat) (c : Option Nat) (a b : Nat) (w : Word) (x : Nat) : (s.emit k c a b w).ctxD x = s.ctxD x := rfl
@[simp] theorem State.core_emit (k : Nat) (c : Option Nat) (a b : Nat) (w : Word) (x : Nat) : (s.emit k c a b w).core x = s.core x := rfl
@[simp] theorem State.launch_q_emit (k : Nat) (c : Option Nat) (a b : Nat) (w : Word) (x : Nat) : (s.emit k c a b w).launch? x = s.launch? x := rfl
@[simp] theorem State.husk_emit (k : Nat) (c : Option Nat) (a b : Nat) (w : Word) (x : Nat) : (s.emit k c a b w).husk x = s.husk x := rfl
@[simp] theorem State.image_q_emit (k : Nat) (c : Option Nat) (a b : Nat) (w : Word) (x y : Nat) : (s.emit k c a b w).image? x y = s.image? x y := rfl
@[simp] theorem State.imageAny_q_emit (k : Nat) (c : Option Nat) (a b : Nat) (w : Word) (x y : Nat) : (s.emit k c a b w).imageAny? x y = s.imageAny? x y := rfl
@[simp] theorem State.mcOf_emit (k : Nat) (c : Option Nat) (a b : Nat) (w : Word) (x y : Nat) : (s.emit k c a b w).mcOf x y = s.mcOf x y := rfl
@[simp] theorem State.homeOf_emit (k : Nat) (c : Option Nat) (a b : Nat) (w : Word) (q : TRef) : (s.emit k c a b w).homeOf q = s.homeOf q := rfl
@[simp] theorem State.md_emit (k : Nat) (c : Option Nat) (a b : Nat) (w : Word) (x : Nat) : (s.emit k c a b w).md x = s.md x := rfl
@[simp] theorem State.pois_emit (k : Nat) (c : Option Nat) (a b : Nat) (w : Word) (x : Nat) : (s.emit k c a b w).pois x = s.pois x := rfl
@[simp] theorem State.lineKey_emit (k : Nat) (c : Option Nat) (a b : Nat) (w : Word) (x : Nat) : (s.emit k c a b w).lineKey x = s.lineKey x := rfl
@[simp] theorem State.ownerOf_emit (k : Nat) (c : Option Nat) (a b : Nat) (w : Word) (x : Nat) : (s.emit k c a b w).ownerOf x = s.ownerOf x := rfl
@[simp] theorem State.now_emit (k : Nat) (c : Option Nat) (a b : Nat) (w : Word)  : (s.emit k c a b w).now = s.now := rfl

@[simp] theorem State.cycle_setMd (l : Nat) (m : BitVec 64) : (s.setMd l m).cycle = s.cycle := rfl
@[simp] theorem State.stage_setMd (l : Nat) (m : BitVec 64) : (s.setMd l m).stage = s.stage := rfl
@[simp] theorem State.thirds_setMd (l : Nat) (m : BitVec 64) : (s.setMd l m).thirds = s.thirds := rfl
@[simp] theorem State.oracle_setMd (l : Nat) (m : BitVec 64) : (s.setMd l m).oracle = s.oracle := rfl
@[simp] theorem State.draws_setMd (l : Nat) (m : BitVec 64) : (s.setMd l m).draws = s.draws := rfl
@[simp] theorem State.cur_setMd (l : Nat) (m : BitVec 64) : (s.setMd l m).cur = s.cur := rfl
@[simp] theorem State.nextId_setMd (l : Nat) (m : BitVec 64) : (s.setMd l m).nextId = s.nextId := rfl
@[simp] theorem State.inputs_setMd (l : Nat) (m : BitVec 64) : (s.setMd l m).inputs = s.inputs := rfl
@[simp] theorem State.waits_setMd (l : Nat) (m : BitVec 64) : (s.setMd l m).waits = s.waits := rfl
@[simp] theorem State.flight_setMd (l : Nat) (m : BitVec 64) : (s.setMd l m).flight = s.flight := rfl
@[simp] theorem State.mem_setMd (l : Nat) (m : BitVec 64) : (s.setMd l m).mem = s.mem := rfl
@[simp] theorem State.poison_setMd (l : Nat) (m : BitVec 64) : (s.setMd l m).poison = s.poison := rfl
@[simp] theorem State.lineKeys_setMd (l : Nat) (m : BitVec 64) : (s.setMd l m).lineKeys = s.lineKeys := rfl
@[simp] theorem State.owners_setMd (l : Nat) (m : BitVec 64) : (s.setMd l m).owners = s.owners := rfl
@[simp] theorem State.held_setMd (l : Nat) (m : BitVec 64) : (s.setMd l m).held = s.held := rfl
@[simp] theorem State.shadows_setMd (l : Nat) (m : BitVec 64) : (s.setMd l m).shadows = s.shadows := rfl
@[simp] theorem State.copies_setMd (l : Nat) (m : BitVec 64) : (s.setMd l m).copies = s.copies := rfl
@[simp] theorem State.tlbs_setMd (l : Nat) (m : BitVec 64) : (s.setMd l m).tlbs = s.tlbs := rfl
@[simp] theorem State.shared_setMd (l : Nat) (m : BitVec 64) : (s.setMd l m).shared = s.shared := rfl
@[simp] theorem State.agers_setMd (l : Nat) (m : BitVec 64) : (s.setMd l m).agers = s.agers := rfl
@[simp] theorem State.keys_setMd (l : Nat) (m : BitVec 64) : (s.setMd l m).keys = s.keys := rfl
@[simp] theorem State.threads_setMd (l : Nat) (m : BitVec 64) : (s.setMd l m).threads = s.threads := rfl
@[simp] theorem State.cores_setMd (l : Nat) (m : BitVec 64) : (s.setMd l m).cores = s.cores := rfl
@[simp] theorem State.ctxs_setMd (l : Nat) (m : BitVec 64) : (s.setMd l m).ctxs = s.ctxs := rfl
@[simp] theorem State.launches_setMd (l : Nat) (m : BitVec 64) : (s.setMd l m).launches = s.launches := rfl
@[simp] theorem State.images_setMd (l : Nat) (m : BitVec 64) : (s.setMd l m).images = s.images := rfl
@[simp] theorem State.blocks_setMd (l : Nat) (m : BitVec 64) : (s.setMd l m).blocks = s.blocks := rfl
@[simp] theorem State.waiters_setMd (l : Nat) (m : BitVec 64) : (s.setMd l m).waiters = s.waiters := rfl
@[simp] theorem State.advances_setMd (l : Nat) (m : BitVec 64) : (s.setMd l m).advances = s.advances := rfl
@[simp] theorem State.capped_setMd (l : Nat) (m : BitVec 64) : (s.setMd l m).capped = s.capped := rfl
@[simp] theorem State.husks_setMd (l : Nat) (m : BitVec 64) : (s.setMd l m).husks = s.husks := rfl
@[simp] theorem State.rings_setMd (l : Nat) (m : BitVec 64) : (s.setMd l m).rings = s.rings := rfl
@[simp] theorem State.probe_setMd (l : Nat) (m : BitVec 64) : (s.setMd l m).probe = s.probe := rfl
@[simp] theorem State.droopth_setMd (l : Nat) (m : BitVec 64) : (s.setMd l m).droopth = s.droopth := rfl
@[simp] theorem State.droopEnd_setMd (l : Nat) (m : BitVec 64) : (s.setMd l m).droopEnd = s.droopEnd := rfl
@[simp] theorem State.nextStatic_setMd (l : Nat) (m : BitVec 64) : (s.setMd l m).nextStatic = s.nextStatic := rfl
@[simp] theorem State.errors_setMd (l : Nat) (m : BitVec 64) : (s.setMd l m).errors = s.errors := rfl
@[simp] theorem State.counts_setMd (l : Nat) (m : BitVec 64) : (s.setMd l m).counts = s.counts := rfl
@[simp] theorem State.mgmt_setMd (l : Nat) (m : BitVec 64) : (s.setMd l m).mgmt = s.mgmt := rfl
@[simp] theorem State.cmdNext_setMd (l : Nat) (m : BitVec 64) : (s.setMd l m).cmdNext = s.cmdNext := rfl
@[simp] theorem State.defers_setMd (l : Nat) (m : BitVec 64) : (s.setMd l m).defers = s.defers := rfl
@[simp] theorem State.done_setMd (l : Nat) (m : BitVec 64) : (s.setMd l m).done = s.done := rfl
@[simp] theorem State.answers_setMd (l : Nat) (m : BitVec 64) : (s.setMd l m).answers = s.answers := rfl
@[simp] theorem State.events_setMd (l : Nat) (m : BitVec 64) : (s.setMd l m).events = s.events := rfl
@[simp] theorem State.rmaOpen_setMd (l : Nat) (m : BitVec 64) : (s.setMd l m).rmaOpen = s.rmaOpen := rfl
@[simp] theorem State.rmaOut_setMd (l : Nat) (m : BitVec 64) : (s.setMd l m).rmaOut = s.rmaOut := rfl
@[simp] theorem State.thread_q_setMd (l : Nat) (m : BitVec 64) (q : TRef) : (s.setMd l m).thread? q = s.thread? q := rfl
@[simp] theorem State.agent_q_setMd (l : Nat) (m : BitVec 64) (x y : Nat) : (s.setMd l m).agent? x y = s.agent? x y := rfl
@[simp] theorem State.curThread_setMd (l : Nat) (m : BitVec 64)  : (s.setMd l m).curThread = s.curThread := rfl
@[simp] theorem State.ctx_q_setMd (l : Nat) (m : BitVec 64) (x : Nat) : (s.setMd l m).ctx? x = s.ctx? x := rfl
@[simp] theorem State.ctxD_setMd (l : Nat) (m : BitVec 64) (x : Nat) : (s.setMd l m).ctxD x = s.ctxD x := rfl
@[simp] theorem State.core_setMd (l : Nat) (m : BitVec 64) (x : Nat) : (s.setMd l m).core x = s.core x := rfl
@[simp] theorem State.launch_q_setMd (l : Nat) (m : BitVec 64) (x : Nat) : (s.setMd l m).launch? x = s.launch? x := rfl
@[simp] theorem State.husk_setMd (l : Nat) (m : BitVec 64) (x : Nat) : (s.setMd l m).husk x = s.husk x := rfl
@[simp] theorem State.image_q_setMd (l : Nat) (m : BitVec 64) (x y : Nat) : (s.setMd l m).image? x y = s.image? x y := rfl
@[simp] theorem State.imageAny_q_setMd (l : Nat) (m : BitVec 64) (x y : Nat) : (s.setMd l m).imageAny? x y = s.imageAny? x y := rfl
@[simp] theorem State.mcOf_setMd (l : Nat) (m : BitVec 64) (x y : Nat) : (s.setMd l m).mcOf x y = s.mcOf x y := rfl
@[simp] theorem State.homeOf_setMd (l : Nat) (m : BitVec 64) (q : TRef) : (s.setMd l m).homeOf q = s.homeOf q := rfl
@[simp] theorem State.pois_setMd (l : Nat) (m : BitVec 64) (x : Nat) : (s.setMd l m).pois x = s.pois x := rfl
@[simp] theorem State.lineKey_setMd (l : Nat) (m : BitVec 64) (x : Nat) : (s.setMd l m).lineKey x = s.lineKey x := rfl
@[simp] theorem State.ownerOf_setMd (l : Nat) (m : BitVec 64) (x : Nat) : (s.setMd l m).ownerOf x = s.ownerOf x := rfl
@[simp] theorem State.now_setMd (l : Nat) (m : BitVec 64)  : (s.setMd l m).now = s.now := rfl

@[simp] theorem State.cycle_setOwner (l c : Nat) : (s.setOwner l c).cycle = s.cycle := rfl
@[simp] theorem State.stage_setOwner (l c : Nat) : (s.setOwner l c).stage = s.stage := rfl
@[simp] theorem State.thirds_setOwner (l c : Nat) : (s.setOwner l c).thirds = s.thirds := rfl
@[simp] theorem State.oracle_setOwner (l c : Nat) : (s.setOwner l c).oracle = s.oracle := rfl
@[simp] theorem State.draws_setOwner (l c : Nat) : (s.setOwner l c).draws = s.draws := rfl
@[simp] theorem State.cur_setOwner (l c : Nat) : (s.setOwner l c).cur = s.cur := rfl
@[simp] theorem State.nextId_setOwner (l c : Nat) : (s.setOwner l c).nextId = s.nextId := rfl
@[simp] theorem State.inputs_setOwner (l c : Nat) : (s.setOwner l c).inputs = s.inputs := rfl
@[simp] theorem State.waits_setOwner (l c : Nat) : (s.setOwner l c).waits = s.waits := rfl
@[simp] theorem State.flight_setOwner (l c : Nat) : (s.setOwner l c).flight = s.flight := rfl
@[simp] theorem State.mem_setOwner (l c : Nat) : (s.setOwner l c).mem = s.mem := rfl
@[simp] theorem State.lines_setOwner (l c : Nat) : (s.setOwner l c).lines = s.lines := rfl
@[simp] theorem State.poison_setOwner (l c : Nat) : (s.setOwner l c).poison = s.poison := rfl
@[simp] theorem State.lineKeys_setOwner (l c : Nat) : (s.setOwner l c).lineKeys = s.lineKeys := rfl
@[simp] theorem State.held_setOwner (l c : Nat) : (s.setOwner l c).held = s.held := rfl
@[simp] theorem State.shadows_setOwner (l c : Nat) : (s.setOwner l c).shadows = s.shadows := rfl
@[simp] theorem State.copies_setOwner (l c : Nat) : (s.setOwner l c).copies = s.copies := rfl
@[simp] theorem State.tlbs_setOwner (l c : Nat) : (s.setOwner l c).tlbs = s.tlbs := rfl
@[simp] theorem State.shared_setOwner (l c : Nat) : (s.setOwner l c).shared = s.shared := rfl
@[simp] theorem State.agers_setOwner (l c : Nat) : (s.setOwner l c).agers = s.agers := rfl
@[simp] theorem State.keys_setOwner (l c : Nat) : (s.setOwner l c).keys = s.keys := rfl
@[simp] theorem State.threads_setOwner (l c : Nat) : (s.setOwner l c).threads = s.threads := rfl
@[simp] theorem State.cores_setOwner (l c : Nat) : (s.setOwner l c).cores = s.cores := rfl
@[simp] theorem State.ctxs_setOwner (l c : Nat) : (s.setOwner l c).ctxs = s.ctxs := rfl
@[simp] theorem State.launches_setOwner (l c : Nat) : (s.setOwner l c).launches = s.launches := rfl
@[simp] theorem State.images_setOwner (l c : Nat) : (s.setOwner l c).images = s.images := rfl
@[simp] theorem State.blocks_setOwner (l c : Nat) : (s.setOwner l c).blocks = s.blocks := rfl
@[simp] theorem State.waiters_setOwner (l c : Nat) : (s.setOwner l c).waiters = s.waiters := rfl
@[simp] theorem State.advances_setOwner (l c : Nat) : (s.setOwner l c).advances = s.advances := rfl
@[simp] theorem State.capped_setOwner (l c : Nat) : (s.setOwner l c).capped = s.capped := rfl
@[simp] theorem State.husks_setOwner (l c : Nat) : (s.setOwner l c).husks = s.husks := rfl
@[simp] theorem State.rings_setOwner (l c : Nat) : (s.setOwner l c).rings = s.rings := rfl
@[simp] theorem State.probe_setOwner (l c : Nat) : (s.setOwner l c).probe = s.probe := rfl
@[simp] theorem State.droopth_setOwner (l c : Nat) : (s.setOwner l c).droopth = s.droopth := rfl
@[simp] theorem State.droopEnd_setOwner (l c : Nat) : (s.setOwner l c).droopEnd = s.droopEnd := rfl
@[simp] theorem State.nextStatic_setOwner (l c : Nat) : (s.setOwner l c).nextStatic = s.nextStatic := rfl
@[simp] theorem State.errors_setOwner (l c : Nat) : (s.setOwner l c).errors = s.errors := rfl
@[simp] theorem State.counts_setOwner (l c : Nat) : (s.setOwner l c).counts = s.counts := rfl
@[simp] theorem State.mgmt_setOwner (l c : Nat) : (s.setOwner l c).mgmt = s.mgmt := rfl
@[simp] theorem State.cmdNext_setOwner (l c : Nat) : (s.setOwner l c).cmdNext = s.cmdNext := rfl
@[simp] theorem State.defers_setOwner (l c : Nat) : (s.setOwner l c).defers = s.defers := rfl
@[simp] theorem State.done_setOwner (l c : Nat) : (s.setOwner l c).done = s.done := rfl
@[simp] theorem State.answers_setOwner (l c : Nat) : (s.setOwner l c).answers = s.answers := rfl
@[simp] theorem State.events_setOwner (l c : Nat) : (s.setOwner l c).events = s.events := rfl
@[simp] theorem State.rmaOpen_setOwner (l c : Nat) : (s.setOwner l c).rmaOpen = s.rmaOpen := rfl
@[simp] theorem State.rmaOut_setOwner (l c : Nat) : (s.setOwner l c).rmaOut = s.rmaOut := rfl
@[simp] theorem State.thread_q_setOwner (l c : Nat) (q : TRef) : (s.setOwner l c).thread? q = s.thread? q := rfl
@[simp] theorem State.agent_q_setOwner (l c : Nat) (x y : Nat) : (s.setOwner l c).agent? x y = s.agent? x y := rfl
@[simp] theorem State.curThread_setOwner (l c : Nat)  : (s.setOwner l c).curThread = s.curThread := rfl
@[simp] theorem State.ctx_q_setOwner (l c : Nat) (x : Nat) : (s.setOwner l c).ctx? x = s.ctx? x := rfl
@[simp] theorem State.ctxD_setOwner (l c : Nat) (x : Nat) : (s.setOwner l c).ctxD x = s.ctxD x := rfl
@[simp] theorem State.core_setOwner (l c : Nat) (x : Nat) : (s.setOwner l c).core x = s.core x := rfl
@[simp] theorem State.launch_q_setOwner (l c : Nat) (x : Nat) : (s.setOwner l c).launch? x = s.launch? x := rfl
@[simp] theorem State.husk_setOwner (l c : Nat) (x : Nat) : (s.setOwner l c).husk x = s.husk x := rfl
@[simp] theorem State.image_q_setOwner (l c : Nat) (x y : Nat) : (s.setOwner l c).image? x y = s.image? x y := rfl
@[simp] theorem State.imageAny_q_setOwner (l c : Nat) (x y : Nat) : (s.setOwner l c).imageAny? x y = s.imageAny? x y := rfl
@[simp] theorem State.mcOf_setOwner (l c : Nat) (x y : Nat) : (s.setOwner l c).mcOf x y = s.mcOf x y := rfl
@[simp] theorem State.homeOf_setOwner (l c : Nat) (q : TRef) : (s.setOwner l c).homeOf q = s.homeOf q := rfl
@[simp] theorem State.md_setOwner (l c : Nat) (x : Nat) : (s.setOwner l c).md x = s.md x := rfl
@[simp] theorem State.pois_setOwner (l c : Nat) (x : Nat) : (s.setOwner l c).pois x = s.pois x := rfl
@[simp] theorem State.lineKey_setOwner (l c : Nat) (x : Nat) : (s.setOwner l c).lineKey x = s.lineKey x := rfl
@[simp] theorem State.now_setOwner (l c : Nat)  : (s.setOwner l c).now = s.now := rfl

@[simp] theorem State.cycle_wakeOn (c : Nat) (p : WObj → Bool) : (s.wakeOn c p).cycle = s.cycle := rfl
@[simp] theorem State.stage_wakeOn (c : Nat) (p : WObj → Bool) : (s.wakeOn c p).stage = s.stage := rfl
@[simp] theorem State.thirds_wakeOn (c : Nat) (p : WObj → Bool) : (s.wakeOn c p).thirds = s.thirds := rfl
@[simp] theorem State.oracle_wakeOn (c : Nat) (p : WObj → Bool) : (s.wakeOn c p).oracle = s.oracle := rfl
@[simp] theorem State.draws_wakeOn (c : Nat) (p : WObj → Bool) : (s.wakeOn c p).draws = s.draws := rfl
@[simp] theorem State.cur_wakeOn (c : Nat) (p : WObj → Bool) : (s.wakeOn c p).cur = s.cur := rfl
@[simp] theorem State.nextId_wakeOn (c : Nat) (p : WObj → Bool) : (s.wakeOn c p).nextId = s.nextId := rfl
@[simp] theorem State.inputs_wakeOn (c : Nat) (p : WObj → Bool) : (s.wakeOn c p).inputs = s.inputs := rfl
@[simp] theorem State.waits_wakeOn (c : Nat) (p : WObj → Bool) : (s.wakeOn c p).waits = s.waits := rfl
@[simp] theorem State.flight_wakeOn (c : Nat) (p : WObj → Bool) : (s.wakeOn c p).flight = s.flight := rfl
@[simp] theorem State.mem_wakeOn (c : Nat) (p : WObj → Bool) : (s.wakeOn c p).mem = s.mem := rfl
@[simp] theorem State.lines_wakeOn (c : Nat) (p : WObj → Bool) : (s.wakeOn c p).lines = s.lines := rfl
@[simp] theorem State.poison_wakeOn (c : Nat) (p : WObj → Bool) : (s.wakeOn c p).poison = s.poison := rfl
@[simp] theorem State.lineKeys_wakeOn (c : Nat) (p : WObj → Bool) : (s.wakeOn c p).lineKeys = s.lineKeys := rfl
@[simp] theorem State.owners_wakeOn (c : Nat) (p : WObj → Bool) : (s.wakeOn c p).owners = s.owners := rfl
@[simp] theorem State.held_wakeOn (c : Nat) (p : WObj → Bool) : (s.wakeOn c p).held = s.held := rfl
@[simp] theorem State.shadows_wakeOn (c : Nat) (p : WObj → Bool) : (s.wakeOn c p).shadows = s.shadows := rfl
@[simp] theorem State.copies_wakeOn (c : Nat) (p : WObj → Bool) : (s.wakeOn c p).copies = s.copies := rfl
@[simp] theorem State.tlbs_wakeOn (c : Nat) (p : WObj → Bool) : (s.wakeOn c p).tlbs = s.tlbs := rfl
@[simp] theorem State.shared_wakeOn (c : Nat) (p : WObj → Bool) : (s.wakeOn c p).shared = s.shared := rfl
@[simp] theorem State.agers_wakeOn (c : Nat) (p : WObj → Bool) : (s.wakeOn c p).agers = s.agers := rfl
@[simp] theorem State.keys_wakeOn (c : Nat) (p : WObj → Bool) : (s.wakeOn c p).keys = s.keys := rfl
@[simp] theorem State.cores_wakeOn (c : Nat) (p : WObj → Bool) : (s.wakeOn c p).cores = s.cores := rfl
@[simp] theorem State.ctxs_wakeOn (c : Nat) (p : WObj → Bool) : (s.wakeOn c p).ctxs = s.ctxs := rfl
@[simp] theorem State.launches_wakeOn (c : Nat) (p : WObj → Bool) : (s.wakeOn c p).launches = s.launches := rfl
@[simp] theorem State.images_wakeOn (c : Nat) (p : WObj → Bool) : (s.wakeOn c p).images = s.images := rfl
@[simp] theorem State.blocks_wakeOn (c : Nat) (p : WObj → Bool) : (s.wakeOn c p).blocks = s.blocks := rfl
@[simp] theorem State.waiters_wakeOn (c : Nat) (p : WObj → Bool) : (s.wakeOn c p).waiters = s.waiters := rfl
@[simp] theorem State.advances_wakeOn (c : Nat) (p : WObj → Bool) : (s.wakeOn c p).advances = s.advances := rfl
@[simp] theorem State.capped_wakeOn (c : Nat) (p : WObj → Bool) : (s.wakeOn c p).capped = s.capped := rfl
@[simp] theorem State.husks_wakeOn (c : Nat) (p : WObj → Bool) : (s.wakeOn c p).husks = s.husks := rfl
@[simp] theorem State.rings_wakeOn (c : Nat) (p : WObj → Bool) : (s.wakeOn c p).rings = s.rings := rfl
@[simp] theorem State.probe_wakeOn (c : Nat) (p : WObj → Bool) : (s.wakeOn c p).probe = s.probe := rfl
@[simp] theorem State.droopth_wakeOn (c : Nat) (p : WObj → Bool) : (s.wakeOn c p).droopth = s.droopth := rfl
@[simp] theorem State.droopEnd_wakeOn (c : Nat) (p : WObj → Bool) : (s.wakeOn c p).droopEnd = s.droopEnd := rfl
@[simp] theorem State.nextStatic_wakeOn (c : Nat) (p : WObj → Bool) : (s.wakeOn c p).nextStatic = s.nextStatic := rfl
@[simp] theorem State.errors_wakeOn (c : Nat) (p : WObj → Bool) : (s.wakeOn c p).errors = s.errors := rfl
@[simp] theorem State.counts_wakeOn (c : Nat) (p : WObj → Bool) : (s.wakeOn c p).counts = s.counts := rfl
@[simp] theorem State.mgmt_wakeOn (c : Nat) (p : WObj → Bool) : (s.wakeOn c p).mgmt = s.mgmt := rfl
@[simp] theorem State.cmdNext_wakeOn (c : Nat) (p : WObj → Bool) : (s.wakeOn c p).cmdNext = s.cmdNext := rfl
@[simp] theorem State.defers_wakeOn (c : Nat) (p : WObj → Bool) : (s.wakeOn c p).defers = s.defers := rfl
@[simp] theorem State.done_wakeOn (c : Nat) (p : WObj → Bool) : (s.wakeOn c p).done = s.done := rfl
@[simp] theorem State.answers_wakeOn (c : Nat) (p : WObj → Bool) : (s.wakeOn c p).answers = s.answers := rfl
@[simp] theorem State.events_wakeOn (c : Nat) (p : WObj → Bool) : (s.wakeOn c p).events = s.events := rfl
@[simp] theorem State.rmaOpen_wakeOn (c : Nat) (p : WObj → Bool) : (s.wakeOn c p).rmaOpen = s.rmaOpen := rfl
@[simp] theorem State.rmaOut_wakeOn (c : Nat) (p : WObj → Bool) : (s.wakeOn c p).rmaOut = s.rmaOut := rfl
@[simp] theorem State.ctx_q_wakeOn (c : Nat) (p : WObj → Bool) (x : Nat) : (s.wakeOn c p).ctx? x = s.ctx? x := rfl
@[simp] theorem State.ctxD_wakeOn (c : Nat) (p : WObj → Bool) (x : Nat) : (s.wakeOn c p).ctxD x = s.ctxD x := rfl
@[simp] theorem State.core_wakeOn (c : Nat) (p : WObj → Bool) (x : Nat) : (s.wakeOn c p).core x = s.core x := rfl
@[simp] theorem State.launch_q_wakeOn (c : Nat) (p : WObj → Bool) (x : Nat) : (s.wakeOn c p).launch? x = s.launch? x := rfl
@[simp] theorem State.husk_wakeOn (c : Nat) (p : WObj → Bool) (x : Nat) : (s.wakeOn c p).husk x = s.husk x := rfl
@[simp] theorem State.image_q_wakeOn (c : Nat) (p : WObj → Bool) (x y : Nat) : (s.wakeOn c p).image? x y = s.image? x y := rfl
@[simp] theorem State.imageAny_q_wakeOn (c : Nat) (p : WObj → Bool) (x y : Nat) : (s.wakeOn c p).imageAny? x y = s.imageAny? x y := rfl
@[simp] theorem State.mcOf_wakeOn (c : Nat) (p : WObj → Bool) (x y : Nat) : (s.wakeOn c p).mcOf x y = s.mcOf x y := rfl
@[simp] theorem State.homeOf_wakeOn (c : Nat) (p : WObj → Bool) (q : TRef) : (s.wakeOn c p).homeOf q = s.homeOf q := rfl
@[simp] theorem State.md_wakeOn (c : Nat) (p : WObj → Bool) (x : Nat) : (s.wakeOn c p).md x = s.md x := rfl
@[simp] theorem State.pois_wakeOn (c : Nat) (p : WObj → Bool) (x : Nat) : (s.wakeOn c p).pois x = s.pois x := rfl
@[simp] theorem State.lineKey_wakeOn (c : Nat) (p : WObj → Bool) (x : Nat) : (s.wakeOn c p).lineKey x = s.lineKey x := rfl
@[simp] theorem State.ownerOf_wakeOn (c : Nat) (p : WObj → Bool) (x : Nat) : (s.wakeOn c p).ownerOf x = s.ownerOf x := rfl
@[simp] theorem State.now_wakeOn (c : Nat) (p : WObj → Bool)  : (s.wakeOn c p).now = s.now := rfl

@[simp] theorem State.cycle_wakeAll (p : WObj → Bool) : (s.wakeAll p).cycle = s.cycle := rfl
@[simp] theorem State.stage_wakeAll (p : WObj → Bool) : (s.wakeAll p).stage = s.stage := rfl
@[simp] theorem State.thirds_wakeAll (p : WObj → Bool) : (s.wakeAll p).thirds = s.thirds := rfl
@[simp] theorem State.oracle_wakeAll (p : WObj → Bool) : (s.wakeAll p).oracle = s.oracle := rfl
@[simp] theorem State.draws_wakeAll (p : WObj → Bool) : (s.wakeAll p).draws = s.draws := rfl
@[simp] theorem State.cur_wakeAll (p : WObj → Bool) : (s.wakeAll p).cur = s.cur := rfl
@[simp] theorem State.nextId_wakeAll (p : WObj → Bool) : (s.wakeAll p).nextId = s.nextId := rfl
@[simp] theorem State.inputs_wakeAll (p : WObj → Bool) : (s.wakeAll p).inputs = s.inputs := rfl
@[simp] theorem State.waits_wakeAll (p : WObj → Bool) : (s.wakeAll p).waits = s.waits := rfl
@[simp] theorem State.flight_wakeAll (p : WObj → Bool) : (s.wakeAll p).flight = s.flight := rfl
@[simp] theorem State.mem_wakeAll (p : WObj → Bool) : (s.wakeAll p).mem = s.mem := rfl
@[simp] theorem State.lines_wakeAll (p : WObj → Bool) : (s.wakeAll p).lines = s.lines := rfl
@[simp] theorem State.poison_wakeAll (p : WObj → Bool) : (s.wakeAll p).poison = s.poison := rfl
@[simp] theorem State.lineKeys_wakeAll (p : WObj → Bool) : (s.wakeAll p).lineKeys = s.lineKeys := rfl
@[simp] theorem State.owners_wakeAll (p : WObj → Bool) : (s.wakeAll p).owners = s.owners := rfl
@[simp] theorem State.held_wakeAll (p : WObj → Bool) : (s.wakeAll p).held = s.held := rfl
@[simp] theorem State.shadows_wakeAll (p : WObj → Bool) : (s.wakeAll p).shadows = s.shadows := rfl
@[simp] theorem State.copies_wakeAll (p : WObj → Bool) : (s.wakeAll p).copies = s.copies := rfl
@[simp] theorem State.tlbs_wakeAll (p : WObj → Bool) : (s.wakeAll p).tlbs = s.tlbs := rfl
@[simp] theorem State.shared_wakeAll (p : WObj → Bool) : (s.wakeAll p).shared = s.shared := rfl
@[simp] theorem State.agers_wakeAll (p : WObj → Bool) : (s.wakeAll p).agers = s.agers := rfl
@[simp] theorem State.keys_wakeAll (p : WObj → Bool) : (s.wakeAll p).keys = s.keys := rfl
@[simp] theorem State.cores_wakeAll (p : WObj → Bool) : (s.wakeAll p).cores = s.cores := rfl
@[simp] theorem State.ctxs_wakeAll (p : WObj → Bool) : (s.wakeAll p).ctxs = s.ctxs := rfl
@[simp] theorem State.launches_wakeAll (p : WObj → Bool) : (s.wakeAll p).launches = s.launches := rfl
@[simp] theorem State.images_wakeAll (p : WObj → Bool) : (s.wakeAll p).images = s.images := rfl
@[simp] theorem State.blocks_wakeAll (p : WObj → Bool) : (s.wakeAll p).blocks = s.blocks := rfl
@[simp] theorem State.waiters_wakeAll (p : WObj → Bool) : (s.wakeAll p).waiters = s.waiters := rfl
@[simp] theorem State.advances_wakeAll (p : WObj → Bool) : (s.wakeAll p).advances = s.advances := rfl
@[simp] theorem State.capped_wakeAll (p : WObj → Bool) : (s.wakeAll p).capped = s.capped := rfl
@[simp] theorem State.husks_wakeAll (p : WObj → Bool) : (s.wakeAll p).husks = s.husks := rfl
@[simp] theorem State.rings_wakeAll (p : WObj → Bool) : (s.wakeAll p).rings = s.rings := rfl
@[simp] theorem State.probe_wakeAll (p : WObj → Bool) : (s.wakeAll p).probe = s.probe := rfl
@[simp] theorem State.droopth_wakeAll (p : WObj → Bool) : (s.wakeAll p).droopth = s.droopth := rfl
@[simp] theorem State.droopEnd_wakeAll (p : WObj → Bool) : (s.wakeAll p).droopEnd = s.droopEnd := rfl
@[simp] theorem State.nextStatic_wakeAll (p : WObj → Bool) : (s.wakeAll p).nextStatic = s.nextStatic := rfl
@[simp] theorem State.errors_wakeAll (p : WObj → Bool) : (s.wakeAll p).errors = s.errors := rfl
@[simp] theorem State.counts_wakeAll (p : WObj → Bool) : (s.wakeAll p).counts = s.counts := rfl
@[simp] theorem State.mgmt_wakeAll (p : WObj → Bool) : (s.wakeAll p).mgmt = s.mgmt := rfl
@[simp] theorem State.cmdNext_wakeAll (p : WObj → Bool) : (s.wakeAll p).cmdNext = s.cmdNext := rfl
@[simp] theorem State.defers_wakeAll (p : WObj → Bool) : (s.wakeAll p).defers = s.defers := rfl
@[simp] theorem State.done_wakeAll (p : WObj → Bool) : (s.wakeAll p).done = s.done := rfl
@[simp] theorem State.answers_wakeAll (p : WObj → Bool) : (s.wakeAll p).answers = s.answers := rfl
@[simp] theorem State.events_wakeAll (p : WObj → Bool) : (s.wakeAll p).events = s.events := rfl
@[simp] theorem State.rmaOpen_wakeAll (p : WObj → Bool) : (s.wakeAll p).rmaOpen = s.rmaOpen := rfl
@[simp] theorem State.rmaOut_wakeAll (p : WObj → Bool) : (s.wakeAll p).rmaOut = s.rmaOut := rfl
@[simp] theorem State.ctx_q_wakeAll (p : WObj → Bool) (x : Nat) : (s.wakeAll p).ctx? x = s.ctx? x := rfl
@[simp] theorem State.ctxD_wakeAll (p : WObj → Bool) (x : Nat) : (s.wakeAll p).ctxD x = s.ctxD x := rfl
@[simp] theorem State.core_wakeAll (p : WObj → Bool) (x : Nat) : (s.wakeAll p).core x = s.core x := rfl
@[simp] theorem State.launch_q_wakeAll (p : WObj → Bool) (x : Nat) : (s.wakeAll p).launch? x = s.launch? x := rfl
@[simp] theorem State.husk_wakeAll (p : WObj → Bool) (x : Nat) : (s.wakeAll p).husk x = s.husk x := rfl
@[simp] theorem State.image_q_wakeAll (p : WObj → Bool) (x y : Nat) : (s.wakeAll p).image? x y = s.image? x y := rfl
@[simp] theorem State.imageAny_q_wakeAll (p : WObj → Bool) (x y : Nat) : (s.wakeAll p).imageAny? x y = s.imageAny? x y := rfl
@[simp] theorem State.mcOf_wakeAll (p : WObj → Bool) (x y : Nat) : (s.wakeAll p).mcOf x y = s.mcOf x y := rfl
@[simp] theorem State.homeOf_wakeAll (p : WObj → Bool) (q : TRef) : (s.wakeAll p).homeOf q = s.homeOf q := rfl
@[simp] theorem State.md_wakeAll (p : WObj → Bool) (x : Nat) : (s.wakeAll p).md x = s.md x := rfl
@[simp] theorem State.pois_wakeAll (p : WObj → Bool) (x : Nat) : (s.wakeAll p).pois x = s.pois x := rfl
@[simp] theorem State.lineKey_wakeAll (p : WObj → Bool) (x : Nat) : (s.wakeAll p).lineKey x = s.lineKey x := rfl
@[simp] theorem State.ownerOf_wakeAll (p : WObj → Bool) (x : Nat) : (s.wakeAll p).ownerOf x = s.ownerOf x := rfl
@[simp] theorem State.now_wakeAll (p : WObj → Bool)  : (s.wakeAll p).now = s.now := rfl

@[simp] theorem State.cycle_complete (h : Hdr) (n : Nat) (v : Word) : (s.complete h n v).cycle = s.cycle := rfl
@[simp] theorem State.stage_complete (h : Hdr) (n : Nat) (v : Word) : (s.complete h n v).stage = s.stage := rfl
@[simp] theorem State.thirds_complete (h : Hdr) (n : Nat) (v : Word) : (s.complete h n v).thirds = s.thirds := rfl
@[simp] theorem State.oracle_complete (h : Hdr) (n : Nat) (v : Word) : (s.complete h n v).oracle = s.oracle := rfl
@[simp] theorem State.draws_complete (h : Hdr) (n : Nat) (v : Word) : (s.complete h n v).draws = s.draws := rfl
@[simp] theorem State.cur_complete (h : Hdr) (n : Nat) (v : Word) : (s.complete h n v).cur = s.cur := rfl
@[simp] theorem State.nextId_complete (h : Hdr) (n : Nat) (v : Word) : (s.complete h n v).nextId = s.nextId := rfl
@[simp] theorem State.inputs_complete (h : Hdr) (n : Nat) (v : Word) : (s.complete h n v).inputs = s.inputs := rfl
@[simp] theorem State.waits_complete (h : Hdr) (n : Nat) (v : Word) : (s.complete h n v).waits = s.waits := rfl
@[simp] theorem State.flight_complete (h : Hdr) (n : Nat) (v : Word) : (s.complete h n v).flight = s.flight := rfl
@[simp] theorem State.mem_complete (h : Hdr) (n : Nat) (v : Word) : (s.complete h n v).mem = s.mem := rfl
@[simp] theorem State.lines_complete (h : Hdr) (n : Nat) (v : Word) : (s.complete h n v).lines = s.lines := rfl
@[simp] theorem State.poison_complete (h : Hdr) (n : Nat) (v : Word) : (s.complete h n v).poison = s.poison := rfl
@[simp] theorem State.lineKeys_complete (h : Hdr) (n : Nat) (v : Word) : (s.complete h n v).lineKeys = s.lineKeys := rfl
@[simp] theorem State.owners_complete (h : Hdr) (n : Nat) (v : Word) : (s.complete h n v).owners = s.owners := rfl
@[simp] theorem State.held_complete (h : Hdr) (n : Nat) (v : Word) : (s.complete h n v).held = s.held := rfl
@[simp] theorem State.shadows_complete (h : Hdr) (n : Nat) (v : Word) : (s.complete h n v).shadows = s.shadows := rfl
@[simp] theorem State.copies_complete (h : Hdr) (n : Nat) (v : Word) : (s.complete h n v).copies = s.copies := rfl
@[simp] theorem State.tlbs_complete (h : Hdr) (n : Nat) (v : Word) : (s.complete h n v).tlbs = s.tlbs := rfl
@[simp] theorem State.shared_complete (h : Hdr) (n : Nat) (v : Word) : (s.complete h n v).shared = s.shared := rfl
@[simp] theorem State.agers_complete (h : Hdr) (n : Nat) (v : Word) : (s.complete h n v).agers = s.agers := rfl
@[simp] theorem State.keys_complete (h : Hdr) (n : Nat) (v : Word) : (s.complete h n v).keys = s.keys := rfl
@[simp] theorem State.threads_complete (h : Hdr) (n : Nat) (v : Word) : (s.complete h n v).threads = s.threads := rfl
@[simp] theorem State.cores_complete (h : Hdr) (n : Nat) (v : Word) : (s.complete h n v).cores = s.cores := rfl
@[simp] theorem State.ctxs_complete (h : Hdr) (n : Nat) (v : Word) : (s.complete h n v).ctxs = s.ctxs := rfl
@[simp] theorem State.launches_complete (h : Hdr) (n : Nat) (v : Word) : (s.complete h n v).launches = s.launches := rfl
@[simp] theorem State.images_complete (h : Hdr) (n : Nat) (v : Word) : (s.complete h n v).images = s.images := rfl
@[simp] theorem State.blocks_complete (h : Hdr) (n : Nat) (v : Word) : (s.complete h n v).blocks = s.blocks := rfl
@[simp] theorem State.waiters_complete (h : Hdr) (n : Nat) (v : Word) : (s.complete h n v).waiters = s.waiters := rfl
@[simp] theorem State.advances_complete (h : Hdr) (n : Nat) (v : Word) : (s.complete h n v).advances = s.advances := rfl
@[simp] theorem State.capped_complete (h : Hdr) (n : Nat) (v : Word) : (s.complete h n v).capped = s.capped := rfl
@[simp] theorem State.husks_complete (h : Hdr) (n : Nat) (v : Word) : (s.complete h n v).husks = s.husks := rfl
@[simp] theorem State.rings_complete (h : Hdr) (n : Nat) (v : Word) : (s.complete h n v).rings = s.rings := rfl
@[simp] theorem State.probe_complete (h : Hdr) (n : Nat) (v : Word) : (s.complete h n v).probe = s.probe := rfl
@[simp] theorem State.droopth_complete (h : Hdr) (n : Nat) (v : Word) : (s.complete h n v).droopth = s.droopth := rfl
@[simp] theorem State.droopEnd_complete (h : Hdr) (n : Nat) (v : Word) : (s.complete h n v).droopEnd = s.droopEnd := rfl
@[simp] theorem State.nextStatic_complete (h : Hdr) (n : Nat) (v : Word) : (s.complete h n v).nextStatic = s.nextStatic := rfl
@[simp] theorem State.errors_complete (h : Hdr) (n : Nat) (v : Word) : (s.complete h n v).errors = s.errors := rfl
@[simp] theorem State.counts_complete (h : Hdr) (n : Nat) (v : Word) : (s.complete h n v).counts = s.counts := rfl
@[simp] theorem State.mgmt_complete (h : Hdr) (n : Nat) (v : Word) : (s.complete h n v).mgmt = s.mgmt := rfl
@[simp] theorem State.cmdNext_complete (h : Hdr) (n : Nat) (v : Word) : (s.complete h n v).cmdNext = s.cmdNext := rfl
@[simp] theorem State.defers_complete (h : Hdr) (n : Nat) (v : Word) : (s.complete h n v).defers = s.defers := rfl
@[simp] theorem State.events_complete (h : Hdr) (n : Nat) (v : Word) : (s.complete h n v).events = s.events := rfl
@[simp] theorem State.rmaOpen_complete (h : Hdr) (n : Nat) (v : Word) : (s.complete h n v).rmaOpen = s.rmaOpen := rfl
@[simp] theorem State.rmaOut_complete (h : Hdr) (n : Nat) (v : Word) : (s.complete h n v).rmaOut = s.rmaOut := rfl
@[simp] theorem State.thread_q_complete (h : Hdr) (n : Nat) (v : Word) (q : TRef) : (s.complete h n v).thread? q = s.thread? q := rfl
@[simp] theorem State.agent_q_complete (h : Hdr) (n : Nat) (v : Word) (x y : Nat) : (s.complete h n v).agent? x y = s.agent? x y := rfl
@[simp] theorem State.curThread_complete (h : Hdr) (n : Nat) (v : Word)  : (s.complete h n v).curThread = s.curThread := rfl
@[simp] theorem State.ctx_q_complete (h : Hdr) (n : Nat) (v : Word) (x : Nat) : (s.complete h n v).ctx? x = s.ctx? x := rfl
@[simp] theorem State.ctxD_complete (h : Hdr) (n : Nat) (v : Word) (x : Nat) : (s.complete h n v).ctxD x = s.ctxD x := rfl
@[simp] theorem State.core_complete (h : Hdr) (n : Nat) (v : Word) (x : Nat) : (s.complete h n v).core x = s.core x := rfl
@[simp] theorem State.launch_q_complete (h : Hdr) (n : Nat) (v : Word) (x : Nat) : (s.complete h n v).launch? x = s.launch? x := rfl
@[simp] theorem State.husk_complete (h : Hdr) (n : Nat) (v : Word) (x : Nat) : (s.complete h n v).husk x = s.husk x := rfl
@[simp] theorem State.image_q_complete (h : Hdr) (n : Nat) (v : Word) (x y : Nat) : (s.complete h n v).image? x y = s.image? x y := rfl
@[simp] theorem State.imageAny_q_complete (h : Hdr) (n : Nat) (v : Word) (x y : Nat) : (s.complete h n v).imageAny? x y = s.imageAny? x y := rfl
@[simp] theorem State.mcOf_complete (h : Hdr) (n : Nat) (v : Word) (x y : Nat) : (s.complete h n v).mcOf x y = s.mcOf x y := rfl
@[simp] theorem State.homeOf_complete (h : Hdr) (n : Nat) (v : Word) (q : TRef) : (s.complete h n v).homeOf q = s.homeOf q := rfl
@[simp] theorem State.md_complete (h : Hdr) (n : Nat) (v : Word) (x : Nat) : (s.complete h n v).md x = s.md x := rfl
@[simp] theorem State.pois_complete (h : Hdr) (n : Nat) (v : Word) (x : Nat) : (s.complete h n v).pois x = s.pois x := rfl
@[simp] theorem State.lineKey_complete (h : Hdr) (n : Nat) (v : Word) (x : Nat) : (s.complete h n v).lineKey x = s.lineKey x := rfl
@[simp] theorem State.ownerOf_complete (h : Hdr) (n : Nat) (v : Word) (x : Nat) : (s.complete h n v).ownerOf x = s.ownerOf x := rfl
@[simp] theorem State.now_complete (h : Hdr) (n : Nat) (v : Word)  : (s.complete h n v).now = s.now := rfl

@[simp] theorem State.cycle_setPois (l : Nat) (k : BitVec 4) : (s.setPois l k).cycle = s.cycle := rfl
@[simp] theorem State.stage_setPois (l : Nat) (k : BitVec 4) : (s.setPois l k).stage = s.stage := rfl
@[simp] theorem State.thirds_setPois (l : Nat) (k : BitVec 4) : (s.setPois l k).thirds = s.thirds := rfl
@[simp] theorem State.oracle_setPois (l : Nat) (k : BitVec 4) : (s.setPois l k).oracle = s.oracle := rfl
@[simp] theorem State.draws_setPois (l : Nat) (k : BitVec 4) : (s.setPois l k).draws = s.draws := rfl
@[simp] theorem State.cur_setPois (l : Nat) (k : BitVec 4) : (s.setPois l k).cur = s.cur := rfl
@[simp] theorem State.nextId_setPois (l : Nat) (k : BitVec 4) : (s.setPois l k).nextId = s.nextId := rfl
@[simp] theorem State.inputs_setPois (l : Nat) (k : BitVec 4) : (s.setPois l k).inputs = s.inputs := rfl
@[simp] theorem State.waits_setPois (l : Nat) (k : BitVec 4) : (s.setPois l k).waits = s.waits := rfl
@[simp] theorem State.flight_setPois (l : Nat) (k : BitVec 4) : (s.setPois l k).flight = s.flight := rfl
@[simp] theorem State.mem_setPois (l : Nat) (k : BitVec 4) : (s.setPois l k).mem = s.mem := rfl
@[simp] theorem State.lines_setPois (l : Nat) (k : BitVec 4) : (s.setPois l k).lines = s.lines := rfl
@[simp] theorem State.lineKeys_setPois (l : Nat) (k : BitVec 4) : (s.setPois l k).lineKeys = s.lineKeys := rfl
@[simp] theorem State.owners_setPois (l : Nat) (k : BitVec 4) : (s.setPois l k).owners = s.owners := rfl
@[simp] theorem State.held_setPois (l : Nat) (k : BitVec 4) : (s.setPois l k).held = s.held := rfl
@[simp] theorem State.shadows_setPois (l : Nat) (k : BitVec 4) : (s.setPois l k).shadows = s.shadows := rfl
@[simp] theorem State.copies_setPois (l : Nat) (k : BitVec 4) : (s.setPois l k).copies = s.copies := rfl
@[simp] theorem State.tlbs_setPois (l : Nat) (k : BitVec 4) : (s.setPois l k).tlbs = s.tlbs := rfl
@[simp] theorem State.shared_setPois (l : Nat) (k : BitVec 4) : (s.setPois l k).shared = s.shared := rfl
@[simp] theorem State.agers_setPois (l : Nat) (k : BitVec 4) : (s.setPois l k).agers = s.agers := rfl
@[simp] theorem State.keys_setPois (l : Nat) (k : BitVec 4) : (s.setPois l k).keys = s.keys := rfl
@[simp] theorem State.threads_setPois (l : Nat) (k : BitVec 4) : (s.setPois l k).threads = s.threads := rfl
@[simp] theorem State.cores_setPois (l : Nat) (k : BitVec 4) : (s.setPois l k).cores = s.cores := rfl
@[simp] theorem State.ctxs_setPois (l : Nat) (k : BitVec 4) : (s.setPois l k).ctxs = s.ctxs := rfl
@[simp] theorem State.launches_setPois (l : Nat) (k : BitVec 4) : (s.setPois l k).launches = s.launches := rfl
@[simp] theorem State.images_setPois (l : Nat) (k : BitVec 4) : (s.setPois l k).images = s.images := rfl
@[simp] theorem State.blocks_setPois (l : Nat) (k : BitVec 4) : (s.setPois l k).blocks = s.blocks := rfl
@[simp] theorem State.waiters_setPois (l : Nat) (k : BitVec 4) : (s.setPois l k).waiters = s.waiters := rfl
@[simp] theorem State.advances_setPois (l : Nat) (k : BitVec 4) : (s.setPois l k).advances = s.advances := rfl
@[simp] theorem State.capped_setPois (l : Nat) (k : BitVec 4) : (s.setPois l k).capped = s.capped := rfl
@[simp] theorem State.husks_setPois (l : Nat) (k : BitVec 4) : (s.setPois l k).husks = s.husks := rfl
@[simp] theorem State.rings_setPois (l : Nat) (k : BitVec 4) : (s.setPois l k).rings = s.rings := rfl
@[simp] theorem State.probe_setPois (l : Nat) (k : BitVec 4) : (s.setPois l k).probe = s.probe := rfl
@[simp] theorem State.droopth_setPois (l : Nat) (k : BitVec 4) : (s.setPois l k).droopth = s.droopth := rfl
@[simp] theorem State.droopEnd_setPois (l : Nat) (k : BitVec 4) : (s.setPois l k).droopEnd = s.droopEnd := rfl
@[simp] theorem State.nextStatic_setPois (l : Nat) (k : BitVec 4) : (s.setPois l k).nextStatic = s.nextStatic := rfl
@[simp] theorem State.errors_setPois (l : Nat) (k : BitVec 4) : (s.setPois l k).errors = s.errors := rfl
@[simp] theorem State.counts_setPois (l : Nat) (k : BitVec 4) : (s.setPois l k).counts = s.counts := rfl
@[simp] theorem State.mgmt_setPois (l : Nat) (k : BitVec 4) : (s.setPois l k).mgmt = s.mgmt := rfl
@[simp] theorem State.cmdNext_setPois (l : Nat) (k : BitVec 4) : (s.setPois l k).cmdNext = s.cmdNext := rfl
@[simp] theorem State.defers_setPois (l : Nat) (k : BitVec 4) : (s.setPois l k).defers = s.defers := rfl
@[simp] theorem State.done_setPois (l : Nat) (k : BitVec 4) : (s.setPois l k).done = s.done := rfl
@[simp] theorem State.answers_setPois (l : Nat) (k : BitVec 4) : (s.setPois l k).answers = s.answers := rfl
@[simp] theorem State.events_setPois (l : Nat) (k : BitVec 4) : (s.setPois l k).events = s.events := rfl
@[simp] theorem State.rmaOpen_setPois (l : Nat) (k : BitVec 4) : (s.setPois l k).rmaOpen = s.rmaOpen := rfl
@[simp] theorem State.rmaOut_setPois (l : Nat) (k : BitVec 4) : (s.setPois l k).rmaOut = s.rmaOut := rfl
@[simp] theorem State.thread_q_setPois (l : Nat) (k : BitVec 4) (q : TRef) : (s.setPois l k).thread? q = s.thread? q := rfl
@[simp] theorem State.agent_q_setPois (l : Nat) (k : BitVec 4) (x y : Nat) : (s.setPois l k).agent? x y = s.agent? x y := rfl
@[simp] theorem State.curThread_setPois (l : Nat) (k : BitVec 4)  : (s.setPois l k).curThread = s.curThread := rfl
@[simp] theorem State.ctx_q_setPois (l : Nat) (k : BitVec 4) (x : Nat) : (s.setPois l k).ctx? x = s.ctx? x := rfl
@[simp] theorem State.ctxD_setPois (l : Nat) (k : BitVec 4) (x : Nat) : (s.setPois l k).ctxD x = s.ctxD x := rfl
@[simp] theorem State.core_setPois (l : Nat) (k : BitVec 4) (x : Nat) : (s.setPois l k).core x = s.core x := rfl
@[simp] theorem State.launch_q_setPois (l : Nat) (k : BitVec 4) (x : Nat) : (s.setPois l k).launch? x = s.launch? x := rfl
@[simp] theorem State.husk_setPois (l : Nat) (k : BitVec 4) (x : Nat) : (s.setPois l k).husk x = s.husk x := rfl
@[simp] theorem State.image_q_setPois (l : Nat) (k : BitVec 4) (x y : Nat) : (s.setPois l k).image? x y = s.image? x y := rfl
@[simp] theorem State.imageAny_q_setPois (l : Nat) (k : BitVec 4) (x y : Nat) : (s.setPois l k).imageAny? x y = s.imageAny? x y := rfl
@[simp] theorem State.mcOf_setPois (l : Nat) (k : BitVec 4) (x y : Nat) : (s.setPois l k).mcOf x y = s.mcOf x y := rfl
@[simp] theorem State.homeOf_setPois (l : Nat) (k : BitVec 4) (q : TRef) : (s.setPois l k).homeOf q = s.homeOf q := rfl
@[simp] theorem State.md_setPois (l : Nat) (k : BitVec 4) (x : Nat) : (s.setPois l k).md x = s.md x := rfl
@[simp] theorem State.lineKey_setPois (l : Nat) (k : BitVec 4) (x : Nat) : (s.setPois l k).lineKey x = s.lineKey x := rfl
@[simp] theorem State.ownerOf_setPois (l : Nat) (k : BitVec 4) (x : Nat) : (s.setPois l k).ownerOf x = s.ownerOf x := rfl
@[simp] theorem State.now_setPois (l : Nat) (k : BitVec 4)  : (s.setPois l k).now = s.now := rfl

end Sys2Proof.Machine
end

