-- ==== Sys2Proof/Laws/Look.lean ====
section
/-! SUPPORT. What a part of the state is after its own update: threads, cores, contexts, launches, Husks. -/
namespace Sys2Proof.Machine
set_option Elab.async false
open Sys2Proof

/-- The first element that answers a test, after a map that keeps what the test answers. -/
theorem find?_map_keep {α : Type} {p : α → Bool} {g : α → α} (h : ∀ x, p (g x) = p x) (l : List α) :
    (l.map g).find? p = (l.find? p).map g := by
  induction l with
  | nil => rfl
  | cons a l ih => cases e : p a <;> simp [List.find?, h, e, ih]

/-- The first element that answers a test, after a map that changes only it and keeps its answer. -/
theorem find?_map_first {α : Type} {p : α → Bool} {g : α → α} {l : List α} {a : α} (f : l.find? p = some a)
    (h : ∀ x, p x = false → p (g x) = false) (k : p (g a) = true) : (l.map g).find? p = some (g a) := by
  induction l with
  | nil => simp at f
  | cons b l ih =>
    cases e : p b with
    | true => rw [List.find?_cons_of_pos e] at f; cases f; simp [k]
    | false => rw [List.find?_cons_of_neg (by simp [e])] at f; simp [h b e, ih f]

/-- No element answers a test after a map that makes none answer it. -/
theorem find?_map_none {α : Type} {p : α → Bool} {g : α → α} {l : List α} (f : l.find? p = none)
    (h : ∀ x, p x = false → p (g x) = false) : (l.map g).find? p = none := by
  induction l with
  | nil => rfl
  | cons b l ih =>
    cases e : p b with
    | true => simp [e] at f
    | false => rw [List.find?_cons_of_neg (by simp [e])] at f; simp [h b e, ih f]

/-- The first element that answers a test is the same after a map that leaves those that answer it. -/
theorem find?_map_apart {α : Type} {p : α → Bool} {g : α → α} (h : ∀ x, p x = true → g x = x)
    (k : ∀ x, p x = false → p (g x) = false) (l : List α) : (l.map g).find? p = l.find? p := by
  induction l with
  | nil => rfl
  | cons b l ih =>
    cases e : p b with
    | true => rw [List.map_cons, h b e, List.find?_cons_of_pos e, List.find?_cons_of_pos e]
    | false =>
      rw [List.map_cons, List.find?_cons_of_neg (by simp [k b e]), List.find?_cons_of_neg (by simp [e]), ih]

theorem State.thread?_ref {s : State} {r : TRef} {t : Thread} (h : s.thread? r = some t) : t.ref = r := by
  simpa using List.find?_some h

theorem State.thread?_mem {s : State} {r : TRef} {t : Thread} (h : s.thread? r = some t) : t ∈ s.threads :=
  List.mem_of_find?_eq_some h

theorem State.curThread_thread? {s : State} {t : Thread} (h : s.curThread = some t) : s.thread? t.ref = some t := by
  have : t.ref = s.cur := State.thread?_ref h
  rw [this]; exact h

/-- The updated thread is found again (R10). -/
theorem State.thread?_updThread_self {s : State} {r : TRef} {t : Thread} {f : Thread → Thread} (h : s.thread? r = some t)
    (k : (f t).ref = r) : (s.updThread r f).thread? r = some (f t) := by
  have e := State.thread?_ref h
  have := find?_map_first (g := fun x => if x.ref == r then f x else x) h (fun x hx => by simp [hx]) (by simp [e, k])
  simpa [State.thread?, State.updThread, e] using this

theorem State.thread?_updThread_other {s : State} {r q : TRef} {f : Thread → Thread} (n : q ≠ r)
    (k : ∀ x, x.ref = r → (f x).ref = r) : (s.updThread r f).thread? q = s.thread? q := by
  refine find?_map_apart (fun x hx => ?_) (fun x hx => ?_) _
  · have e : x.ref = q := by simpa using hx
    simp [e, n]
  · by_cases e : x.ref = r
    · simp [e, k x e, n.symm]
    · simpa [e] using hx

theorem State.thread?_setThread_self {s : State} {t u : Thread} (h : s.thread? t.ref = some u) :
    (s.setThread t).thread? t.ref = some t := by
  have e := State.thread?_ref h
  have := find?_map_first (g := fun x => if x.ref == t.ref then t else x) h (fun x hx => by simp [hx]) (by simp [e])
  simpa [State.thread?, State.setThread, e] using this

theorem State.thread?_post (s : State) (l : List Instr) (r : TRef) : (s.post l).thread? r = s.thread? r := rfl

@[simp] theorem State.core_id (s : State) (c : Nat) : (s.core c).id = c := by
  unfold State.core
  cases e : s.cores.find? (fun x => x.id == c) with
  | none => rfl
  | some x => simpa using List.find?_some e

theorem State.core_setCore_self (s : State) (c : Core) : (s.setCore c).core c.id = c := by
  unfold State.setCore State.core
  split
  · next h =>
    obtain ⟨x, hx, hc⟩ := List.any_eq_true.mp h
    cases e : s.cores.find? (fun x => x.id == c.id) with
    | none => rw [List.find?_eq_none] at e; exact absurd hc (e x hx)
    | some y =>
      have := find?_map_first (g := fun x => if x.id == c.id then c else x) e (fun x hx => by simp [hx])
        (by have := List.find?_some e; simp at this; simp [this])
      have hy := List.find?_some e
      rw [this, if_pos hy]; rfl
  · next h =>
    have : s.cores.find? (fun x => x.id == c.id) = none := by
      rw [List.find?_eq_none]; intro x hx hc; exact h (List.any_eq_true.mpr ⟨x, hx, hc⟩)
    simp [List.find?_append, this]

theorem State.core_setCore_other (s : State) (c : Core) {d : Nat} (n : d ≠ c.id) : (s.setCore c).core d = s.core d := by
  unfold State.setCore State.core
  split
  · refine congrArg (·.getD (Core.reset d)) (find?_map_apart (fun x hx => ?_) (fun x hx => ?_) _)
    · have e : x.id = d := by simpa using hx
      simp [e, n]
    · by_cases e : x.id = c.id
      · simp [e, n.symm]
      · simpa [e] using hx
  · simp [List.find?_append, n.symm]

theorem State.core_updCore_self {s : State} {i : Nat} {f : Core → Core} (k : (f (s.core i)).id = i) :
    (s.updCore i f).core i = f (s.core i) := by
  have := State.core_setCore_self s (f (s.core i))
  rwa [k] at this

theorem State.core_updCore_other {s : State} {i d : Nat} {f : Core → Core} (k : (f (s.core i)).id = i) (n : d ≠ i) :
    (s.updCore i f).core d = s.core d :=
  State.core_setCore_other s _ (by rwa [k])

theorem State.ctx?_id {s : State} {i : Nat} {c : Ctx} (h : s.ctx? i = some c) : c.id = i := by
  simpa using List.find?_some h

theorem State.ctx?_updCtx_self {s : State} {i : Nat} {c : Ctx} {f : Ctx → Ctx} (h : s.ctx? i = some c) (k : (f c).id = i) :
    (s.updCtx i f).ctx? i = some (f c) := by
  have e := State.ctx?_id h
  have := find?_map_first (g := fun x => if x.id == i then f x else x) h (fun x hx => by simp [hx]) (by simp [e, k])
  simpa [State.ctx?, State.updCtx, e] using this

theorem State.ctx?_updCtx_other {s : State} {i j : Nat} {f : Ctx → Ctx} (n : j ≠ i) (k : ∀ x, x.id = i → (f x).id = i) :
    (s.updCtx i f).ctx? j = s.ctx? j := by
  refine find?_map_apart (fun x hx => ?_) (fun x hx => ?_) _
  · have e : x.id = j := by simpa using hx
    simp [e, n]
  · by_cases e : x.id = i
    · simp [e, k x e, n.symm]
    · simpa [e] using hx

theorem State.launch?_uid {s : State} {u : Nat} {l : Launch} (h : s.launch? u = some l) : l.uid = u := by
  simpa using List.find?_some h

theorem State.launch?_updLaunch_self {s : State} {u : Nat} {l : Launch} {f : Launch → Launch} (h : s.launch? u = some l)
    (k : (f l).uid = u) : (s.updLaunch u f).launch? u = some (f l) := by
  have e := State.launch?_uid h
  have := find?_map_first (g := fun x => if x.uid == u then f x else x) h (fun x hx => by simp [hx]) (by simp [e, k])
  simpa [State.launch?, State.updLaunch, e] using this

@[simp] theorem State.husk_die (s : State) (d : Nat) : (s.husk d).die = d := by
  unfold State.husk
  cases e : s.husks.find? (fun x => x.die == d) with
  | none => rfl
  | some x => simpa using List.find?_some e

theorem State.husk_setHusk_self (s : State) (h : Husk) : (s.setHusk h).husk h.die = h := by
  unfold State.setHusk State.husk
  split
  · next hh =>
    obtain ⟨x, hx, hc⟩ := List.any_eq_true.mp hh
    cases e : s.husks.find? (fun x => x.die == h.die) with
    | none => rw [List.find?_eq_none] at e; exact absurd hc (e x hx)
    | some y =>
      have := find?_map_first (g := fun x => if x.die == h.die then h else x) e (fun x hx => by simp [hx])
        (by have := List.find?_some e; simp at this; simp [this])
      have hy := List.find?_some e
      rw [this, if_pos hy]; rfl
  · next hh =>
    have : s.husks.find? (fun x => x.die == h.die) = none := by
      rw [List.find?_eq_none]; intro x hx hc; exact hh (List.any_eq_true.mpr ⟨x, hx, hc⟩)
    simp [List.find?_append, this]

end Sys2Proof.Machine
end

