-- ==== Sys2Proof/Laws/Memory.lean ====
section
/-! SUPPORT. The sparse tables of the state: what a key reads after one is set, the canonical form kept by every operation over
them, and what the memory operations change (spec 00 R5, 05 R100, R119, R259). -/
namespace Sys2Proof.Machine
set_option Elab.async false
open Sys2Proof

section table
variable {α : Type} [DecidableEq α] {d : α}

theorem tabWf_mono {lo lo' : Nat} (h : lo' ≤ lo) : ∀ {l : List (Nat × α)}, tabWf d lo l = true → tabWf d lo' l = true
  | [], _ => rfl
  | (k, v) :: l, w => by simp [tabWf] at w ⊢; exact ⟨⟨by omega, w.1.2⟩, w.2⟩

theorem tabGet_below : ∀ {lo b : Nat} {l : List (Nat × α)}, tabWf d lo l = true → b < lo → tabGet d l b = d
  | _, _, [], _, _ => rfl
  | lo, b, (k, v) :: l, w, h => by
    simp [tabWf] at w
    have h1 : ¬ b = k := by omega
    have h2 : b < k := by omega
    simp [tabGet, h1, h2]

theorem tabWf_tabSet : ∀ {lo a : Nat} {v : α} {l : List (Nat × α)}, tabWf d lo l = true → lo ≤ a →
    tabWf d lo (tabSet d l a v) = true
  | lo, a, v, [], _, h => by
    by_cases e : v = d
    · simp [tabSet, e, tabWf]
    · simp [tabSet, e, tabWf, h]
  | lo, a, v, (k, x) :: l, w, h => by
    have w' := w
    simp [tabWf] at w'
    obtain ⟨⟨w1, w2⟩, w3⟩ := w'
    unfold tabSet
    by_cases h1 : a < k
    · by_cases e : v = d
      · simpa [h1, e] using w
      · simp only [h1, e, if_true, if_false]
        simp [tabWf, h, e, w2, w3]; omega
    · by_cases h2 : a = k
      · by_cases e : v = d
        · simpa [h1, h2, e] using tabWf_mono (by omega) w3
        · subst h2; simp [e, tabWf, h, w3]
      · simp only [h1, h2, if_false]
        simp only [tabWf, Bool.and_eq_true, decide_eq_true_eq]
        exact ⟨⟨w1, w2⟩, tabWf_tabSet w3 (by omega)⟩

theorem tabGet_tabSet_self : ∀ {lo a : Nat} {v : α} {l : List (Nat × α)}, tabWf d lo l = true →
    tabGet d (tabSet d l a v) a = v
  | _, a, v, [], _ => by
    by_cases e : v = d
    · simp [tabSet, e, tabGet]
    · simp [tabSet, e, tabGet]
  | lo, a, v, (k, x) :: l, w => by
    have w' := w
    simp [tabWf] at w'
    obtain ⟨⟨w1, w2⟩, w3⟩ := w'
    unfold tabSet
    by_cases h1 : a < k
    · have h2 : ¬ a = k := by omega
      by_cases e : v = d
      · simp [h1, e, tabGet, h2]
      · simp [h1, e, tabGet]
    · by_cases h2 : a = k
      · subst h2
        by_cases e : v = d
        · simp [e, tabGet_below w3 (Nat.lt_succ_self a)]
        · simp [e, tabGet]
      · simp only [h1, h2, if_false, tabGet]
        exact tabGet_tabSet_self w3

theorem tabGet_tabSet_other : ∀ {lo a b : Nat} {v : α} {l : List (Nat × α)}, tabWf d lo l = true → b ≠ a →
    tabGet d (tabSet d l a v) b = tabGet d l b
  | _, a, b, v, [], _, n => by
    by_cases e : v = d
    · simp [tabSet, e, tabGet]
    · simp [tabSet, e, tabGet, n]
  | lo, a, b, v, (k, x) :: l, w, n => by
    have w' := w
    simp [tabWf] at w'
    obtain ⟨⟨w1, w2⟩, w3⟩ := w'
    unfold tabSet
    by_cases h1 : a < k
    · by_cases e : v = d
      · simp [h1, e]
      · simp only [h1, e, if_true, if_false]
        by_cases hb : b < a
        · have h3 : ¬ b = k := by omega
          have h4 : b < k := by omega
          rw [tabGet]; simp [n, hb, tabGet, h3, h4]
        · rw [tabGet]; simp [n, hb]
    · by_cases h2 : a = k
      · subst h2
        by_cases e : v = d
        · simp only [e, if_true, tabGet, n, if_false, Nat.lt_irrefl]
          by_cases hb : b < a
          · simp [hb, tabGet_below w3 (show b < a + 1 by omega)]
          · simp [hb]
        · simp [e, tabGet, n]
      · simp only [h1, h2, if_false, tabGet]
        rw [tabGet_tabSet_other w3 n]

theorem tabWf_filter (p : Nat × α → Bool) : ∀ {lo : Nat} {l : List (Nat × α)}, tabWf d lo l = true →
    tabWf d lo (l.filter p) = true
  | _, [], _ => rfl
  | lo, (k, x) :: l, w => by
    simp [tabWf] at w
    obtain ⟨⟨w1, w2⟩, w3⟩ := w
    by_cases e : p (k, x) = true
    · simp [e, tabWf, w1, w2, tabWf_filter p w3]
    · simpa [List.filter_cons, e] using tabWf_mono (by omega) (tabWf_filter p w3)

end table

theorem Memory.wf_write {m : List Host.Cell} {a : Nat} {b : Byte} (h : Memory.wf m = true) :
    Memory.wf (Memory.write m a b) = true := tabWf_tabSet h (Nat.zero_le a)

theorem Memory.read_write_self {m : List Host.Cell} {a : Nat} {b : Byte} (h : Memory.wf m = true) :
    Memory.read (Memory.write m a b) a = b := tabGet_tabSet_self h

theorem Memory.read_write_other {m : List Host.Cell} {a c : Nat} {b : Byte} (h : Memory.wf m = true) (n : c ≠ a) :
    Memory.read (Memory.write m a b) c = Memory.read m c := tabGet_tabSet_other h n

theorem Memory.wf_writeN : ∀ {n a x : Nat} {m : List Host.Cell}, Memory.wf m = true → Memory.wf (Memory.writeN m n a x) = true
  | 0, _, _, _, h => h
  | n + 1, a, x, m, h => by
    unfold Memory.writeN
    exact Memory.wf_writeN (Memory.wf_write h)

theorem Memory.wf_writeBe : ∀ {n a x i be : Nat} {m : List Host.Cell}, Memory.wf m = true →
    Memory.wf (Memory.writeBe m be n a x i) = true
  | 0, _, _, _, _, _, h => h
  | _ + 1, _, _, _, _, _, h => by
    unfold Memory.writeBe
    refine Memory.wf_writeBe ?_
    split
    · exact Memory.wf_write h
    · exact h

/-- A write of n bytes leaves every other byte (R5). -/
theorem Memory.read_writeN_other : ∀ {n a x b : Nat} {m : List Host.Cell}, Memory.wf m = true → (b < a ∨ a + n ≤ b) →
    Memory.read (Memory.writeN m n a x) b = Memory.read m b
  | 0, _, _, _, _, _, _ => rfl
  | n + 1, a, x, b, m, h, o => by
    unfold Memory.writeN
    rw [Memory.read_writeN_other (Memory.wf_write h) (by omega), Memory.read_write_other h (by omega)]

/-- A byte that a write of n bytes wrote (R5). -/
theorem Memory.read_writeN_in : ∀ {n a x i : Nat} {m : List Host.Cell}, Memory.wf m = true → i < n →
    Memory.read (Memory.writeN m n a x) (a + i) = BitVec.ofNat 8 (x / 256 ^ i)
  | 0, _, _, _, _, _, o => by omega
  | n + 1, a, x, 0, m, h, _ => by
    unfold Memory.writeN
    rw [Memory.read_writeN_other (Memory.wf_write h) (by omega)]
    simpa using Memory.read_write_self (b := BitVec.ofNat 8 x) h
  | n + 1, a, x, i + 1, m, h, o => by
    unfold Memory.writeN
    have := Memory.read_writeN_in (n := n) (a := a + 1) (x := x / 256) (i := i) (Memory.wf_write (a := a) (b := BitVec.ofNat 8 x) h)
      (by omega)
    rw [show a + (i + 1) = a + 1 + i by omega, this, Nat.div_div_eq_div_mul, Nat.pow_succ', Nat.mul_comm]

/-- Reading n bytes depends on these alone. -/
theorem Memory.readN_congr : ∀ {n a : Nat} {m m' : List Host.Cell}, (∀ i < n, Memory.read m (a + i) = Memory.read m' (a + i)) →
    Memory.readN m n a = Memory.readN m' n a
  | 0, _, _, _, _ => rfl
  | n + 1, a, m, m', h => by
    unfold Memory.readN
    have h0 := h 0 (by omega)
    rw [Nat.add_zero] at h0
    have e := Memory.readN_congr (n := n) (a := a + 1) (m := m) (m' := m') (fun i hi => by
      have := h (i + 1) (by omega)
      rwa [show a + (i + 1) = a + 1 + i by omega] at this)
    rw [h0, e]

/-- The n bytes just written, read back (R5). -/
theorem Memory.readN_writeN : ∀ {n a x : Nat} {m : List Host.Cell}, Memory.wf m = true →
    Memory.readN (Memory.writeN m n a x) n a = x % 256 ^ n
  | 0, _, _, _, _ => by simp [Memory.readN, Nat.mod_one]
  | n + 1, a, x, m, h => by
    unfold Memory.readN Memory.writeN
    have e := Memory.readN_writeN (n := n) (a := a + 1) (x := x / 256) (Memory.wf_write (a := a) (b := BitVec.ofNat 8 x) h)
    have r : Memory.read (Memory.writeN (Memory.write m a (BitVec.ofNat 8 x)) n (a + 1) (x / 256)) a = BitVec.ofNat 8 x := by
      rw [Memory.read_writeN_other (Memory.wf_write h) (by omega), Memory.read_write_self h]
    rw [e, r, BitVec.toNat_ofNat, show 256 ^ (n + 1) = 256 * 256 ^ n from Nat.pow_succ', Nat.mod_mul]

/-- Reading n bytes apart from a write. -/
theorem Memory.readN_writeN_apart {n k a b x : Nat} {m : List Host.Cell} (h : Memory.wf m = true) (o : b + k ≤ a ∨ a + n ≤ b) :
    Memory.readN (Memory.writeN m n a x) k b = Memory.readN m k b :=
  Memory.readN_congr fun i _ => Memory.read_writeN_other h (by omega)

theorem Memory.readN_lt : ∀ {n a : Nat} {m : List Host.Cell}, Memory.readN m n a < 256 ^ n
  | 0, _, _ => by simp [Memory.readN]
  | n + 1, a, m => by
    unfold Memory.readN
    have h1 := Memory.readN_lt (n := n) (a := a + 1) (m := m)
    have h2 := (Memory.read m a).isLt
    rw [Nat.pow_succ']
    omega

/-! The canonical form of the state's tables. -/

theorem State.reset_canonical : State.reset.Canonical := ⟨rfl, rfl, rfl, rfl, rfl⟩

theorem State.Canonical.setMd {s : State} (c : s.Canonical) (l : Nat) (m : BitVec 64) : (s.setMd l m).Canonical :=
  ⟨c.mem, tabWf_tabSet c.lines (Nat.zero_le l), c.poison, c.lineKeys, c.owners⟩

theorem State.Canonical.setOwner {s : State} (c : s.Canonical) (l i : Nat) : (s.setOwner l i).Canonical :=
  ⟨c.mem, c.lines, c.poison, c.lineKeys, tabWf_tabSet c.owners (Nat.zero_le l)⟩

theorem State.Canonical.setPois {s : State} (c : s.Canonical) (l : Nat) (k : BitVec 4) : (s.setPois l k).Canonical :=
  ⟨c.mem, c.lines, tabWf_tabSet c.poison (Nat.zero_le l), c.lineKeys, c.owners⟩

theorem State.Canonical.write {s : State} (c : s.Canonical) {m : List Host.Cell} {k : List (Nat × Nat)} (hm : Memory.wf m = true)
    (hk : tabWf 0 0 k = true) : ({ s with mem := m, lineKeys := k } : State).Canonical :=
  ⟨hm, c.lines, c.poison, hk, c.owners⟩

theorem State.read_write {s : State} (c : s.Canonical) {n a x b : Nat} {k : List (Nat × Nat)} (o : b < a ∨ a + n ≤ b) :
    Memory.read ({ s with mem := Memory.writeN s.mem n a x, lineKeys := k } : State).mem b = Memory.read s.mem b :=
  Memory.read_writeN_other c.mem o

theorem State.Canonical.rekey {s : State} (c : s.Canonical) (l k : Nat) : (s.rekey l k).Canonical := by
  unfold State.rekey
  split
  · exact c
  · exact c.write (Memory.wf_writeN c.mem) (tabWf_tabSet c.lineKeys (Nat.zero_le l))

theorem State.Canonical.store {s : State} (c : s.Canonical) (a n k x : Nat) : (s.store a n k x).Canonical := by
  have h := c.rekey (lineOf a) k
  unfold State.store
  generalize s.rekey (lineOf a) k = r at h
  exact ⟨Memory.wf_writeN h.mem, h.lines, h.poison, h.lineKeys, h.owners⟩

theorem State.Canonical.storeBe {s : State} (c : s.Canonical) (a n k x : Nat) (be : BitVec 128) : (s.storeBe a n k x be).Canonical := by
  have h := c.rekey (lineOf a) k
  unfold State.storeBe
  generalize s.rekey (lineOf a) k = r at h
  exact ⟨Memory.wf_writeBe h.mem, h.lines, h.poison, h.lineKeys, h.owners⟩

/-- The canonical form says nothing but of the five tables. -/
theorem State.Canonical.of_eq {s t : State} (c : s.Canonical) (m : t.mem = s.mem) (l : t.lines = s.lines)
    (p : t.poison = s.poison) (k : t.lineKeys = s.lineKeys) (o : t.owners = s.owners) : t.Canonical :=
  ⟨by rw [m]; exact c.mem, by rw [l]; exact c.lines, by rw [p]; exact c.poison, by rw [k]; exact c.lineKeys,
   by rw [o]; exact c.owners⟩

theorem State.md_setMd_self {s : State} (c : s.Canonical) (l : Nat) (m : BitVec 64) : (s.setMd l m).md l = m :=
  tabGet_tabSet_self c.lines
theorem State.md_setMd_other {s : State} (c : s.Canonical) {l x : Nat} (n : x ≠ l) (m : BitVec 64) : (s.setMd l m).md x = s.md x :=
  tabGet_tabSet_other c.lines n
theorem State.pois_setPois_self {s : State} (c : s.Canonical) (l : Nat) (k : BitVec 4) : (s.setPois l k).pois l = k :=
  tabGet_tabSet_self c.poison
theorem State.pois_setPois_other {s : State} (c : s.Canonical) {l x : Nat} (n : x ≠ l) (k : BitVec 4) :
    (s.setPois l k).pois x = s.pois x := tabGet_tabSet_other c.poison n

/-- A line written under a key stands under it (R259). -/
theorem State.lineKey_rekey {s : State} (c : s.Canonical) (l k : Nat) : (s.rekey l k).lineKey l = k := by
  unfold State.rekey
  split
  · next h => exact h
  · exact tabGet_tabSet_self c.lineKeys

theorem State.lineKey_rekey_other {s : State} (c : s.Canonical) {l x : Nat} (n : x ≠ l) (k : Nat) :
    (s.rekey l k).lineKey x = s.lineKey x := by
  unfold State.rekey
  split
  · rfl
  · exact tabGet_tabSet_other c.lineKeys n

theorem State.rekey_same {s : State} {l k : Nat} (h : s.lineKey l = k) : s.rekey l k = s := by simp [State.rekey, h]

/-- A store under the line's own key changes its own bytes alone (R5, R259). -/
theorem State.read_store_other {s : State} (c : s.Canonical) {a n k x b : Nat} (h : s.lineKey (lineOf a) = k)
    (o : b < a ∨ a + n ≤ b) : Memory.read (s.store a n k x).mem b = Memory.read s.mem b := by
  unfold State.store
  rw [State.rekey_same h]
  exact Memory.read_writeN_other c.mem o

/-- A store changes no byte outside its own and its line (R259). -/
theorem State.read_store_apart {s : State} (c : s.Canonical) {a n k x b : Nat} (o : b < a ∨ a + n ≤ b)
    (l : lineOf b ≠ lineOf a) : Memory.read (s.store a n k x).mem b = Memory.read s.mem b := by
  unfold State.store
  rw [Memory.read_writeN_other (c.rekey (lineOf a) k).mem o]
  unfold State.rekey
  split
  · rfl
  · refine State.read_write c ?_
    simp only [lineOf] at l ⊢
    omega

/-- The bytes just stored, read back from memory (R5). -/
theorem State.readN_store {s : State} (c : s.Canonical) (a n k x : Nat) :
    Memory.readN (s.store a n k x).mem n a = x % 256 ^ n := by
  have h := c.rekey (lineOf a) k
  unfold State.store
  generalize s.rekey (lineOf a) k = r at h
  exact Memory.readN_writeN h.mem

end Sys2Proof.Machine
end

