-- ==== Sys2Proof/Laws/Ops.lean ====
section
/-! SUPPORT. What the shared operations can do, said once: registers and operands (spec 01 R11-R15), the status register's
fields, which operations leave the five sparse tables of the state alone, and which keep their canonical form. -/
namespace Sys2Proof.Machine
set_option Elab.async false
open Sys2Proof

section Registers

theorem vector_get_set_self {α : Type} {n : Nat} (v : Vector α n) (i : Fin n) (x : α) : (v.set i x).get i = x := by
  show (v.set i x)[i.val] = x
  exact Vector.getElem_set_self _
theorem vector_get_set_other {α : Type} {n : Nat} (v : Vector α n) {i j : Fin n} (h : j ≠ i) (x : α) :
    (v.set i x).get j = v.get j := by
  show (v.set i x)[j.val] = v[j.val]
  exact Vector.getElem_set_ne _ _ fun e => h (Fin.ext e.symm)

variable (t : Thread)

theorem Thread.getG_setG_self (i : Fin 16) (x : Slot 64) : (t.setG i x).getG i = x := vector_get_set_self _ _ _
theorem Thread.getG_setG_other {i j : Fin 16} (n : j ≠ i) (x : Slot 64) : (t.setG i x).getG j = t.getG j :=
  vector_get_set_other _ n _
theorem Thread.getV_setV_self (i : Fin 32) (x : Slot 1024) : (t.setV i x).getV i = x := vector_get_set_self _ _ _
theorem Thread.getV_setV_other {i j : Fin 32} (n : j ≠ i) (x : Slot 1024) : (t.setV i x).getV j = t.getV j :=
  vector_get_set_other _ n _
/-- `k0` stays FULL with all ones (R11). -/
theorem Thread.getK_zero : t.getK 0 = .full 0xFFFFFFFF := rfl
theorem Thread.getK_setK_self {i : Fin 8} (n : i ≠ 0) (x : Slot 32) : (t.setK i x).getK i = x := by
  simp only [Thread.setK, Thread.getK, if_neg n]
  exact vector_get_set_self _ _ _
theorem Thread.getK_setK_other {i j : Fin 8} (n : j ≠ i) (x : Slot 32) : (t.setK i x).getK j = t.getK j := by
  by_cases a : i = 0
  · simp only [Thread.setK, if_pos a]
  · by_cases b : j = 0
    · subst b; rfl
    · simp only [Thread.setK, Thread.getK, if_neg a, if_neg b]
      exact vector_get_set_other _ n _
theorem Thread.getV_setG (i : Fin 16) (x : Slot 64) (j : Fin 32) : (t.setG i x).getV j = t.getV j := rfl
theorem Thread.getK_setG (i : Fin 16) (x : Slot 64) (j : Fin 8) : (t.setG i x).getK j = t.getK j := rfl
theorem Thread.getG_setV (i : Fin 32) (x : Slot 1024) (j : Fin 16) : (t.setV i x).getG j = t.getG j := rfl
theorem Thread.getK_setV (i : Fin 32) (x : Slot 1024) (j : Fin 8) : (t.setV i x).getK j = t.getK j := rfl
theorem Thread.getG_setK (i : Fin 8) (x : Slot 32) (j : Fin 16) : (t.setK i x).getG j = t.getG j := by
  unfold Thread.setK; split <;> rfl
theorem Thread.getV_setK (i : Fin 8) (x : Slot 32) (j : Fin 32) : (t.setK i x).getV j = t.getV j := by
  unfold Thread.setK; split <;> rfl

end Registers

/-- A slot reads as a value exactly when it is FULL (R11-R13). -/
theorem readSlot_ok {w : Nat} {o : Opd} {x : Slot w} {v : BitVec w} : readSlot o x = .ok v ↔ x = .full v := by
  cases x <;> simp [readSlot, poisonTrap]

/-- A `g` source reads exactly when its register is FULL (R13). -/
theorem srcW_g {s : State} {t : Thread} {i : Fin 16} {w : Word} : srcW s t (.g i) = .ok w ↔ t.getG i = .full w := readSlot_ok

/-- A destination can take a word exactly when it is no port, or a port of the context with an empty latch beyond (R15). -/
theorem destReady_ok {s : State} {t : Thread} {o : Opd} :
    destReady s t o = .ok () ↔ ∀ d, o = .port d → s.ownsPorts t = true ∧ s.portFree t d = true := by
  cases o <;> simp [destReady, failWith]
  split
  · simp_all
  · split <;> simp_all

theorem setFld_one (ts : Word) (i : Nat) (h : i < 64) : setFld ts i i 0 = ts &&& ~~~((1 : Word) <<< i) := by
  refine BitVec.eq_of_getLsbD_eq fun j hj => ?_
  rw [getLsbD_setFld ts i i 0 j (Nat.le_refl i), BitVec.getLsbD_and, BitVec.getLsbD_not, BitVec.getLsbD_shiftLeft,
    show (1 : Word) = BitVec.twoPow 64 0 from rfl, BitVec.getLsbD_twoPow]
  by_cases e : j = i
  · subst e
    rw [if_pos ⟨hj, Nat.le_refl _, Nat.le_refl _⟩]
    simp [hj]
  · rw [if_neg fun q => e (Nat.le_antisymm q.2.2 q.2.1)]
    have : j < i ∨ ¬ j - i = 0 := by omega
    rcases this with q | q
    · simp [hj, q]
    · simp [hj, show ¬ 0 = j - i by omega]

/-- In a context that neither records nor replays nothing is logged (R377). -/
theorem State.record_plain {s : State} {c : Nat} {k : RevKey} {a : Nat} {v : Word}
    (h : ∀ x ∈ s.ctxs, x.id = c → x.replay = 0) : s.record c k a v = s := by
  have e : s.ctxs.map (fun x => if x.id == c then if x.replay = 1 then { x with log := x.log ++ [⟨k, a, v, false⟩] } else x else x) = s.ctxs := by
    conv => rhs; rw [← List.map_id s.ctxs]
    refine List.map_congr_left fun x hx => ?_
    by_cases q : x.id = c
    · simp [q, h x hx q]
    · simp [q]
  simp only [State.record, State.updCtx, e]

/-! ## The sparse tables -/

/-- The sparse tables of a state: bytes, metadata, poison marks, keys and owners of lines. -/
def State.tables (s : State) :
    List Host.Cell × List (Nat × BitVec 64) × List (Nat × BitVec 4) × List (Nat × Nat) × List (Nat × Nat) :=
  (s.mem, s.lines, s.poison, s.lineKeys, s.owners)

theorem State.Canonical.of_tables {s u : State} (c : s.Canonical) (e : u.tables = s.tables) : u.Canonical := by
  simp only [State.tables, Prod.mk.injEq] at e
  obtain ⟨a, b, d, f, g⟩ := e
  exact ⟨a ▸ c.mem, b ▸ c.lines, d ▸ c.poison, f ▸ c.lineKeys, g ▸ c.owners⟩

theorem State.tables_foldl {α : Type} {f : State → α → State} (h : ∀ s a, (f s a).tables = s.tables) :
    ∀ (l : List α) (s : State), (l.foldl f s).tables = s.tables
  | [], _ => rfl
  | a :: l, s => (tables_foldl h l (f s a)).trans (h s a)

section Tables
variable (s : State)

@[simp] theorem State.tables_updThread (r : TRef) (f : Thread → Thread) : (s.updThread r f).tables = s.tables := rfl
@[simp] theorem State.tables_setThread (t : Thread) : (s.setThread t).tables = s.tables := rfl
@[simp] theorem State.tables_dropThread (r : TRef) : (s.dropThread r).tables = s.tables := rfl
@[simp] theorem State.tables_updCtx (i : Nat) (f : Ctx → Ctx) : (s.updCtx i f).tables = s.tables := rfl
@[simp] theorem State.tables_setCore (c : Core) : (s.setCore c).tables = s.tables := by unfold State.setCore; split <;> rfl
@[simp] theorem State.tables_updCore (i : Nat) (f : Core → Core) : (s.updCore i f).tables = s.tables := s.tables_setCore _
@[simp] theorem State.tables_updLaunch (u : Nat) (f : Launch → Launch) : (s.updLaunch u f).tables = s.tables := rfl
@[simp] theorem State.tables_setHusk (h : Husk) : (s.setHusk h).tables = s.tables := by unfold State.setHusk; split <;> rfl
@[simp] theorem State.tables_post (l : List Instr) : (s.post l).tables = s.tables := rfl
@[simp] theorem State.tables_updImage (c k : Nat) (f : Image → Image) : (s.updImage c k f).tables = s.tables := rfl
@[simp] theorem State.tables_emit (k : Nat) (c : Option Nat) (a b : Nat) (w : Word) : (s.emit k c a b w).tables = s.tables := rfl
@[simp] theorem State.tables_emitAll (k : Nat) (w : Word) : (s.emitAll k w).tables = s.tables :=
   (State.tables_foldl (fun u (c : Ctx) => u.tables_emit k (some c.id) 0 0 w) _ _).trans rfl
@[simp] theorem State.tables_wakeOn (c : Nat) (p : WObj → Bool) : (s.wakeOn c p).tables = s.tables := rfl
@[simp] theorem State.tables_wakeAll (p : WObj → Bool) : (s.wakeAll p).tables = s.tables := rfl
@[simp] theorem State.tables_wakeBuffer (t : Thread) : (s.wakeBuffer t).tables = s.tables := by
  unfold State.wakeBuffer
  simp only
  split <;> rfl
@[simp] theorem State.tables_emitStop (r : TRef) (n : Nat) (w : Word) : (s.emitStop r n w).tables = s.tables := rfl
@[simp] theorem State.tables_wakePorts : s.wakePorts.tables = s.tables := rfl
@[simp] theorem State.tables_setLatch (m : Nat) (i : Fin 4) (w : Option Word) : (s.setLatch m i w).tables = s.tables :=
  s.tables_updCore m _
@[simp] theorem State.tables_consumeOne (r : TRef) (o : Opd) (m : SrcMod) : (consumeOne s r o m).tables = s.tables := by
  unfold consumeOne
  split
  · simp
  · split <;> rfl
@[simp] theorem State.tables_consumeAB (r : TRef) (f : RForm) (b : Bool) : (consumeAB s r f b).tables = s.tables := by
  unfold consumeAB
  cases b <;> simp
@[simp] theorem State.tables_writeW (r : TRef) (o : Opd) (w : Word) : (writeW s r o w).tables = s.tables := by
  unfold writeW
  split
  · split <;> simp
  · rfl
@[simp] theorem State.tables_writeL (r : TRef) (p : Bool) (o : Opd) (a b : VWord) : (writeL s r p o a b).tables = s.tables := by
  unfold writeL; split <;> rfl
@[simp] theorem State.tables_consumeL (r : TRef) (p : Bool) (o : Opd) (m : SrcMod) : (consumeL s r p o m).tables = s.tables := by
  unfold consumeL; split <;> rfl
@[simp] theorem State.tables_nudge (r : TRef) : (s.nudge r).tables = s.tables := rfl
@[simp] theorem State.tables_deliverTag (r : TRef) (g : Tag) (v : DVal) : (deliverTag s r g v).tables = s.tables := by
  unfold deliverTag; split <;> rfl
@[simp] theorem State.tables_collect (k d o : Nat) (l : List Word) (i : Option Instr) : (s.collect k d o l i).tables = s.tables := by
  unfold State.collect
  repeat' (first | rfl | split)
@[simp] theorem State.tables_trace (t : Thread) (k h : Nat) (pc : Word) : (s.trace t k h pc).tables = s.tables := by
  unfold State.trace
  split <;> simp
@[simp] theorem State.tables_snapAt (n : Nat) (x : SnapSrc) : (s.snapAt n x).tables = s.tables := by
  unfold State.snapAt
  simp only
  repeat' (first | rfl | split)
@[simp] theorem State.tables_snap (x : SnapSrc) : (s.snap x).tables = s.tables := s.tables_snapAt _ _
@[simp] theorem State.tables_reserve (w : Waiter) : (s.reserve w).tables = s.tables := by
  unfold State.reserve
  simp only
  split <;> rfl
@[simp] theorem State.tables_offer (c : Nat) (o : WObj) : (s.offer c o).tables = s.tables :=
  State.tables_foldl State.tables_reserve _ _
@[simp] theorem State.tables_reoffer (c : Nat) (o : WObj) : (s.reoffer c o).tables = s.tables := by
  unfold State.reoffer
  split
  · exact State.tables_foldl State.tables_reserve _ _
  · simp
@[simp] theorem State.tables_endEntry (c a : Nat) (o : WObj) : (s.endEntry c a o).tables = s.tables := rfl
@[simp] theorem State.tables_took (c a : Nat) (o : WObj) : (s.took c a o).tables = s.tables := by simp [State.took]
@[simp] theorem State.tables_without (p : Waiter → Bool) : (s.without p).tables = s.tables := rfl
@[simp] theorem State.tables_dropEntries (r : TRef) : (s.dropEntries r).tables = s.tables :=
  State.tables_foldl (fun u (w : Waiter) => u.tables_reoffer w.ctx w.obj) _ _
@[simp] theorem State.tables_record (c : Nat) (k : RevKey) (a : Nat) (v : Word) : (s.record c k a v).tables = s.tables := rfl
@[simp] theorem State.tables_replayUse (c : Nat) (k : RevKey) : (s.replayUse c k).tables = s.tables := rfl
@[simp] theorem State.tables_served (c : Nat) (k : RevKey) (a : Nat) (v : Word) : (s.served c k a v).tables = s.tables := rfl
@[simp] theorem State.tables_notLogged (r : TRef) : (s.notLogged r).tables = s.tables := by
  unfold State.notLogged; split <;> rfl
@[simp] theorem State.tables_refusal (c a n v : Nat) : (s.refusal c a n v).tables = s.tables := rfl
@[simp] theorem State.tables_unreserve (r : TRef) : (s.unreserve r).tables = s.tables := by
  unfold State.unreserve
  repeat' (first | rfl | split)
  exact (State.tables_wakeBuffer _ _)
@[simp] theorem State.tables_countRefusal (o : WObj) : (s.countRefusal o).tables = s.tables := by
  unfold State.countRefusal
  repeat' (first | rfl | split | exact s.tables_updCore _ _)
@[simp] theorem State.tables_timingAt (r : TRef) (n : Nat) (v : Word) : (s.timingAt r n v).2.tables = s.tables := by
  unfold State.timingAt
  simp only
  split <;> simp
@[simp] theorem State.tables_stopThread (t : Thread) (n : Nat) (pc r : Word) : (s.stopThread t n pc r).tables = s.tables := by
  simp [State.stopThread]
@[simp] theorem State.tables_enter (r : TRef) (o : WObj) (p q : Bool) (n : Nat) (g : Option GuardReq) :
    (s.enter r o p q n g).tables = s.tables := by
  unfold State.enter
  simp only
  split
  · split
    · exact (s.without _).tables_reoffer _ _
    · rfl
  · split
    · split
      · exact (State.tables_reoffer _ _ _).trans rfl
      · rfl
    · rfl
@[simp] theorem State.tables_parkOn (t : Thread) (o : WObj) (c : OC) (n : Nat) : (s.parkOn t o c n).tables = s.tables := by
  unfold State.parkOn
  simp only
  split <;> simp

end Tables

section Canonical
variable {s : State}

theorem State.Canonical.storeWords (c : s.Canonical) (k key : Nat) (ws : List Word) : (s.storeWords k key ws).Canonical := by
  have f : ∀ (l : List (Word × Nat)) (u : State), u.Canonical →
      (l.foldl (fun s p => s.store (k + 8 * p.2) 8 key p.1.toNat) u).Canonical := by
    intro l
    induction l with
    | nil => exact fun _ h => h
    | cons a l ih => exact fun u h => ih _ (h.store _ _ _ _)
  exact ((f _ _ c).setMd _ _).of_tables rfl

theorem State.Canonical.writeRecord (c : s.Canonical) {r : TRef} {h : Nat} {ws : List Word} {u : State}
    (e : s.writeRecord r h ws = some u) : u.Canonical := by
  unfold State.writeRecord at e
  split at e
  · cases e; exact c.storeWords _ _ _
  · cases e

theorem State.Canonical.doubleTrap (c : s.Canonical) (t : Thread) (x : Cause) (i : TrapInfo) (pc res : Word) :
    (s.doubleTrap t x i pc res).Canonical := by
  have g : ((s.writeRecord t.ref 0x40 (recordWords x i pc res t.ts)).getD s).Canonical := by
    cases e : s.writeRecord t.ref 0x40 (recordWords x i pc res t.ts) with
    | none => exact c
    | some u => exact c.writeRecord e
  refine g.of_tables ?_
  unfold State.doubleTrap
  simp only
  split <;> simp

/-- Taking a trap keeps the tables' form, whichever way it ends (R298, R299). -/
theorem State.Canonical.takeTrap (c : s.Canonical) (t : Thread) (x : Cause) (i : TrapInfo) (pc res : Word) (tied : Trapped) :
    (s.takeTrap t x i pc res tied).Canonical := by
  unfold State.takeTrap
  split
  · exact c.doubleTrap _ _ _ _ _
  · split
    · exact c.doubleTrap _ _ _ _ _
    · rename_i u e
      have g := c.writeRecord e
      simp only
      split <;> exact g.of_tables (by simp)

theorem State.Canonical.outcome (c : s.Canonical) (t : Thread) (wd : BitVec 2) (nro : BitVec 16) (oc : OC) (o : WObj) (n : Nat) :
    (s.outcome t wd nro oc o n).Canonical := by
  have u : ((s.unreserve t.ref).countRefusal o).Canonical := c.of_tables (by simp)
  unfold State.outcome
  simp only
  split
  · exact c.of_tables (by simp)
  · split <;> exact c.of_tables (by simp)
  · split <;> exact c.of_tables (by simp)
  · split
    · exact c.of_tables (by simp)
    · exact u.takeTrap _ _ _ _ _ _

theorem State.Canonical.stopped (c : s.Canonical) (t : Thread) (wd : BitVec 2) (nro : BitVec 16) (n : Nat) (e : Stop)
    (h : ∀ u x, e = .seen u x → u.Canonical) : (s.stopped t wd nro n e).Canonical := by
  cases e with
  | seen u x =>
    have g := h u x rfl
    cases x with
    | none => exact g.of_tables rfl
    | some p => exact g.takeTrap _ _ _ _ _ _
  | notReady oc o => exact c.outcome _ _ _ _ _ _
  | trap x i => exact c.takeTrap _ _ _ _ _ _
  | hold => exact c.of_tables rfl

/-- The states that the end of an instruction's body carries. -/
def Done.Canonical : Done → Prop
  | .next s | .jump s _ | .miss s | .trapAfter s _ _ | .settled s => s.Canonical
  | .skip => True

theorem State.Canonical.finish (c : s.Canonical) {d : Done} (h : d.Canonical) (outs : Bool) (hd : Head) (nro : BitVec 16) (r : TRef) :
    (finish s outs hd nro r d).Canonical := by
  cases d with
  | next u => exact State.Canonical.of_tables (s := u) h rfl
  | jump u a => exact State.Canonical.of_tables (s := u) h rfl
  | miss u =>
    unfold Machine.finish
    simp only
    split <;> exact State.Canonical.of_tables (s := u) h rfl
  | trapAfter u x i =>
    unfold Machine.finish
    simp only
    split
    · exact h
    · split
      · exact State.Canonical.of_tables (s := u) h (by simp)
      · refine State.Canonical.takeTrap ?_ _ _ _ _ _ _
        exact State.Canonical.of_tables (s := u) h (by simp)
  | settled u => exact h
  | skip => exact c.of_tables rfl

/-- The states that an instruction's evaluation carries. -/
def Carries : Ev Done → Prop
  | .ok d => d.Canonical
  | .error (.seen u _) => u.Canonical
  | .error _ => True

theorem Carries.seen {e : Stop} (h : Carries (.error e)) : ∀ u x, e = .seen u x → u.Canonical := by
  rintro u x rfl; exact h

theorem State.Canonical.applyEnd (c : s.Canonical) {r : Ev Done} (h : Carries r) (outs : Bool) (hd : Head)
    (nro : BitVec 16) (n : Nat) (t : Thread) : (s.applyEnd outs hd nro n t r).Canonical := by
  cases r with
  | ok d => exact c.finish h _ _ _ _
  | error e => exact c.stopped _ _ _ _ _ h.seen

theorem State.Canonical.replayEnd (c : s.Canonical) {g : State → Thread → Ev Done} {t : Thread} (h : Carries (g s t)) (outs : Bool)
    (hd : Head) (nro : BitVec 16) (n : Nat) (x : Ctx) : (s.replayEnd outs hd nro n t x g).Canonical := by
  have u : (s.replayUse t.ref.ctx (.thread t.ref.agent t.icount)).Canonical := c.of_tables rfl
  have missed : ∀ v w : State, v.Canonical → w.tables = v.tables → (Machine.finish s outs hd nro t.ref (.miss w)).Canonical :=
    fun v w a e => c.finish (d := .miss w) (State.Canonical.of_tables a e) _ _ _ _
  have plain : ∀ r : Ev Done, g s t = r → (s.applyEnd outs hd nro n t r).Canonical := fun r e => c.applyEnd (e ▸ h) _ _ _ _ _
  have stray : ∀ l, ((s.applyEnd outs hd nro n t (g s t)).post l).Canonical := fun l => (plain _ rfl).of_tables rfl
  have impose : ∀ (o : Option (OC × WObj)) (d : State), d.Canonical → ((o.map (fun x =>
      (s.replayUse t.ref.ctx (.thread t.ref.agent t.icount)).outcome t hd.wd nro x.1 x.2 n)).getD d).Canonical := by
    intro o d a
    cases o with
    | none => exact a
    | some x => exact u.outcome _ _ _ _ _ _
  unfold State.replayEnd
  simp only
  split
  · split
    · exact c.stopped _ _ _ _ _ (fun u x e => by cases e)
    · split
      · rename_i v e
        exact missed v _ (by rw [e] at h; exact h) rfl
      · exact plain _ rfl
  · split
    · split
      · rename_i v e
        exact c.finish (d := .next v) (by rw [e] at h; exact h) _ _ _ _
      · exact c
      · exact plain _ rfl
    · split
      · rename_i v e
        split
        · exact missed v _ (by rw [e] at h; exact h) rfl
        · split
          · exact plain _ rfl
          · exact impose _ _ (stray _)
      · rename_i v e
        split
        · split
          · exact missed v _ (by rw [e] at h; exact h) rfl
          · exact stray _
        · split
          · exact plain _ rfl
          · exact impose _ _ (stray _)
      · split
        · exact plain _ rfl
        · exact impose _ _ (stray _)
      · split
        · exact c
        · split
          · exact u.outcome _ _ _ _ _ _
          · exact impose _ _ (stray _)
      all_goals split
      all_goals first | exact plain _ rfl | exact stray _ | exact impose _ _ (plain _ rfl) | exact impose _ _ (stray _)

theorem guardOf_not_seen {t : Thread} {hd : Head} {e : Stop} (h : guardOf t hd = .error e) : ∀ u x, e ≠ .seen u x := by
  rintro u x rfl
  unfold guardOf at h
  cases k : t.getK (Fin.ofNat 8 hd.gk.toNat) <;> rw [k] at h <;> cases h

theorem course_carries {hd : Head} {body : State → Thread → Ev Done} (b : ∀ t, Carries (body s t)) (t : Thread) :
    Carries (course hd body s t) := by
  unfold course
  cases g : guardOf t hd with
  | error e => cases e with
    | seen u x => exact absurd rfl (guardOf_not_seen g u x)
    | _ => exact trivial
  | ok v => cases v with
    | true => exact b t
    | false => exact trivial

/-- An instruction keeps the tables' form if its body does. -/
theorem issueAt_canonical {outs : Bool} {hd : Head} {nro : BitVec 16} {n : Nat} {body : State → Thread → Ev Done} {u : State}
    (c : s.Canonical) (b : ∀ t, Carries (body s t)) (e : issueAt outs hd nro n body s = .next u) : u.Canonical := by
  unfold issueAt at e
  split at e
  · cases e
  · simp only at e
    split at e
    · cases e; exact c.replayEnd (course_carries b _) _ _ _ _ _
    · cases e; exact c.applyEnd (course_carries b _) _ _ _ _ _

end Canonical

/-! ## Tables that are moved or copied -/

section Move
variable {α : Type} [DecidableEq α] {d : α}

theorem tabWf_foldl_tabSet (g : Nat × α → Nat) : ∀ (l : List (Nat × α)) {m : List (Nat × α)}, tabWf d 0 m = true →
    tabWf d 0 (l.foldl (fun m p => tabSet d m (g p) p.2) m) = true
  | [], _, h => h
  | _ :: l, _, h => tabWf_foldl_tabSet g l (tabWf_tabSet h (Nat.zero_le _))

theorem tabWf_moveTab {l : List (Nat × α)} (h : tabWf d 0 l = true) (a n b : Nat) : tabWf d 0 (moveTab d l a n b) = true :=
  tabWf_foldl_tabSet (fun p => p.1 - a + b) _ (tabWf_filter _ h)

theorem tabWf_copyTab {l : List (Nat × α)} (h : tabWf d 0 l = true) (a n b : Nat) : tabWf d 0 (copyTab d l a n b) = true :=
  tabWf_foldl_tabSet (fun p => p.1 - a + b) _ (tabWf_filter _ h)

end Move

theorem State.Canonical.moveShare {s : State} (c : s.Canonical) (a n b : Nat) : (s.moveShare a n b).Canonical :=
  ⟨tabWf_moveTab c.mem _ _ _, tabWf_moveTab c.lines _ _ _, tabWf_moveTab c.poison _ _ _, tabWf_moveTab c.lineKeys _ _ _,
    tabWf_moveTab c.owners _ _ _⟩

theorem State.Canonical.clearBytes {s : State} (c : s.Canonical) (a n : Nat) : (s.clearBytes a n).Canonical :=
  ⟨tabWf_filter _ c.mem, tabWf_filter _ c.lines, tabWf_filter _ c.poison, tabWf_filter _ c.lineKeys, tabWf_filter _ c.owners⟩

theorem State.Canonical.copyShare {s : State} (c : s.Canonical) (a n b : Nat) : (s.copyShare a n b).Canonical :=
  ⟨tabWf_copyTab c.mem _ _ _, c.lines, c.poison, c.lineKeys, c.owners⟩

theorem State.Canonical.writeImage {s : State} (c : s.Canonical) (a n : Nat) (l : List Area) :
    (s.writeImage a n l).Canonical := by
  have f : ∀ (l : List Area) (m : List Host.Cell), Memory.wf m = true →
      Memory.wf (l.foldl (fun m x => Memory.writeN m x.2.1 (a + x.1) x.2.2) m) = true := by
    intro l
    induction l with
    | nil => exact fun _ h => h
    | cons x l ih => exact fun m h => ih _ (Memory.wf_writeN h)
  have k := c.clearBytes a n
  exact ⟨f _ _ k.mem, k.lines, k.poison, k.lineKeys, k.owners⟩

/-! ## Where threads start, and what the host changes in a block -/

/-- A start has a free thread context, and the log has room for it (R204, R377). -/
theorem startTid_free {s : State} {ctx cc i : Nat} {k : RevKey} (h : startTid s ctx cc k = some i) :
    i ∈ freeTids s ctx cc ∧ (s.ctxD ctx).logFull = false := by
  have sub : ∀ j, j ∈ (if (s.ctxD ctx).logFull then [] else freeTids s ctx cc) →
      j ∈ freeTids s ctx cc ∧ (s.ctxD ctx).logFull = false := by
    intro j m
    cases f : (s.ctxD ctx).logFull with
    | true => rw [f] at m; cases m
    | false => rw [f] at m; exact ⟨m, rfl⟩
  refine sub i ?_
  unfold startTid at h
  generalize (if (s.ctxD ctx).logFull then [] else freeTids s ctx cc) = l at h ⊢
  cases r : s.replayNext ctx k with
  | none => rw [r] at h; exact List.mem_of_getElem? h
  | some e =>
    rw [r] at h
    by_cases b : (l.contains (e.val.toNat % 16) && startTurn s ctx k e.val.toNat) = true
    · have h := (if_pos b).symm.trans h
      cases h
      exact List.elem_iff.mp (Bool.and_eq_true_iff.mp b).1
    · exact absurd ((if_neg b).symm.trans h) (fun x => by cases x)

/-- A block that the host has left alone changes nothing (R375). -/
theorem edited_same (was t : Thread) : edited was was t = t := by
  have e : ∀ {α : Type} {n : Nat} (x : Vector α n), Vector.ofFn (fun i => x.get i) = x := by
    intro α n x
    ext i h
    rw [Vector.getElem_ofFn]
    rfl
  unfold edited
  simp only [if_true]
  rw [e, e, e, e, e, e]

/-- A register that the host has changed is as it left it; another is the thread's (R375). -/
theorem edited_getG (was now t : Thread) (i : Fin 16) :
    (edited was now t).getG i = if now.getG i = was.getG i then t.getG i else now.getG i := by
  show (edited was now t).g[i.val] = _
  unfold edited
  simp only
  rw [Vector.getElem_ofFn]
  rfl

end Sys2Proof.Machine
end

