-- ==== Sys2Proof/Laws/PerInstr.lean ====
section
/-! SUPPORT. The family RoundTrip, one lemma per constructor: an accepted instruction's word decodes to it (spec 02 R32,
R40-R44, R49-R51). -/
namespace Sys2Proof.Laws
set_option Elab.async false
open Sys2Proof

/-- Decoding an instruction's own word gives it back. -/
def RoundTrip.Statement (i : Instr) : Prop := ∀ w, encode i = some w → i.WellFormed → decodeWord w = .ok i

/-- A word that parses to an accepted instruction decodes to it. -/
theorem RoundTrip.of_parse {i : Instr} {v : Word} (e : encode i = some v) (p : parse v = some i) : RoundTrip.Statement i := by
  intro w h c
  obtain rfl : v = w := by simpa [e] using h
  have c : Machine.check i = none := c
  simp [decodeWord, p, c]

/-- A row that is no word. -/
theorem RoundTrip.of_none {i : Instr} (e : encode i = none) : RoundTrip.Statement i := by
  intro w h _
  simp [e] at h

theorem RoundTrip.add (f : RForm) : RoundTrip.Statement (.add f) :=
  of_parse rfl (by simp [parse, row_encR, col_encR, row0, rformOf_encR])
theorem RoundTrip.sub (f : RForm) : RoundTrip.Statement (.sub f) :=
  of_parse rfl (by simp [parse, row_encR, col_encR, row0, rformOf_encR])
theorem RoundTrip.mul (f : RForm) : RoundTrip.Statement (.mul f) :=
  of_parse rfl (by simp [parse, row_encR, col_encR, row0, rformOf_encR])
theorem RoundTrip.mulh (f : RForm) : RoundTrip.Statement (.mulh f) :=
  of_parse rfl (by simp [parse, row_encR, col_encR, row0, rformOf_encR])
theorem RoundTrip.mulhu (f : RForm) : RoundTrip.Statement (.mulhu f) :=
  of_parse rfl (by simp [parse, row_encR, col_encR, row0, rformOf_encR])
theorem RoundTrip.div (f : RForm) : RoundTrip.Statement (.div f) :=
  of_parse rfl (by simp [parse, row_encR, col_encR, row0, rformOf_encR])
theorem RoundTrip.divu (f : RForm) : RoundTrip.Statement (.divu f) :=
  of_parse rfl (by simp [parse, row_encR, col_encR, row0, rformOf_encR])
theorem RoundTrip.rem (f : RForm) : RoundTrip.Statement (.rem f) :=
  of_parse rfl (by simp [parse, row_encR, col_encR, row0, rformOf_encR])
theorem RoundTrip.remu (f : RForm) : RoundTrip.Statement (.remu f) :=
  of_parse rfl (by simp [parse, row_encR, col_encR, row0, rformOf_encR])
theorem RoundTrip.and (f : RForm) : RoundTrip.Statement (.and f) :=
  of_parse rfl (by simp [parse, row_encR, col_encR, row0, rformOf_encR])
theorem RoundTrip.or (f : RForm) : RoundTrip.Statement (.or f) :=
  of_parse rfl (by simp [parse, row_encR, col_encR, row0, rformOf_encR])
theorem RoundTrip.xor (f : RForm) : RoundTrip.Statement (.xor f) :=
  of_parse rfl (by simp [parse, row_encR, col_encR, row0, rformOf_encR])
theorem RoundTrip.andn (f : RForm) : RoundTrip.Statement (.andn f) :=
  of_parse rfl (by simp [parse, row_encR, col_encR, row0, rformOf_encR])
theorem RoundTrip.shl (f : RForm) : RoundTrip.Statement (.shl f) :=
  of_parse rfl (by simp [parse, row_encR, col_encR, row0, rformOf_encR])
theorem RoundTrip.shr (f : RForm) : RoundTrip.Statement (.shr f) :=
  of_parse rfl (by simp [parse, row_encR, col_encR, row0, rformOf_encR])
theorem RoundTrip.sar (f : RForm) : RoundTrip.Statement (.sar f) :=
  of_parse rfl (by simp [parse, row_encR, col_encR, row1, rformOf_encR])
theorem RoundTrip.rot (f : RForm) : RoundTrip.Statement (.rot f) :=
  of_parse rfl (by simp [parse, row_encR, col_encR, row1, rformOf_encR])
theorem RoundTrip.min (f : RForm) : RoundTrip.Statement (.min f) :=
  of_parse rfl (by simp [parse, row_encR, col_encR, row1, rformOf_encR])
theorem RoundTrip.max (f : RForm) : RoundTrip.Statement (.max f) :=
  of_parse rfl (by simp [parse, row_encR, col_encR, row1, rformOf_encR])
theorem RoundTrip.minu (f : RForm) : RoundTrip.Statement (.minu f) :=
  of_parse rfl (by simp [parse, row_encR, col_encR, row1, rformOf_encR])
theorem RoundTrip.maxu (f : RForm) : RoundTrip.Statement (.maxu f) :=
  of_parse rfl (by simp [parse, row_encR, col_encR, row1, rformOf_encR])
theorem RoundTrip.clz (f : RForm) : RoundTrip.Statement (.clz f) :=
  of_parse rfl (by simp [parse, row_encR, col_encR, row1, rformOf_encR])
theorem RoundTrip.ctz (f : RForm) : RoundTrip.Statement (.ctz f) :=
  of_parse rfl (by simp [parse, row_encR, col_encR, row1, rformOf_encR])
theorem RoundTrip.popc (f : RForm) : RoundTrip.Statement (.popc f) :=
  of_parse rfl (by simp [parse, row_encR, col_encR, row1, rformOf_encR])
theorem RoundTrip.bfx (f : RForm) : RoundTrip.Statement (.bfx f) :=
  of_parse rfl (by simp [parse, row_encR, col_encR, row1, rformOf_encR])
theorem RoundTrip.bfxu (f : RForm) : RoundTrip.Statement (.bfxu f) :=
  of_parse rfl (by simp [parse, row_encR, col_encR, row1, rformOf_encR])
theorem RoundTrip.bfi (f : RForm) : RoundTrip.Statement (.bfi f) :=
  of_parse rfl (by simp [parse, row_encR, col_encR, row1, rformOf_encR])
theorem RoundTrip.sel (f : RForm) : RoundTrip.Statement (.sel f) :=
  of_parse rfl (by simp [parse, row_encR, col_encR, row1, rformOf_encR])
theorem RoundTrip.cmp (f : RForm) : RoundTrip.Statement (.cmp f) :=
  of_parse rfl (by simp [parse, row_encR, col_encR, row1, rformOf_encR])
theorem RoundTrip.cmpi (f : IForm) : RoundTrip.Statement (.cmpi f) :=
  of_parse rfl (by simp [parse, row_encI, col_encI, row1, iformOf_encI])
theorem RoundTrip.kand (f : RForm) : RoundTrip.Statement (.kand f) :=
  of_parse rfl (by simp [parse, row_encR, col_encR, row1, rformOf_encR])
theorem RoundTrip.kor (f : RForm) : RoundTrip.Statement (.kor f) :=
  of_parse rfl (by simp [parse, row_encR, col_encR, row2, rformOf_encR])
theorem RoundTrip.kxor (f : RForm) : RoundTrip.Statement (.kxor f) :=
  of_parse rfl (by simp [parse, row_encR, col_encR, row2, rformOf_encR])
theorem RoundTrip.knot (f : RForm) : RoundTrip.Statement (.knot f) :=
  of_parse rfl (by simp [parse, row_encR, col_encR, row2, rformOf_encR])
theorem RoundTrip.kmov (f : RForm) : RoundTrip.Statement (.kmov f) :=
  of_parse rfl (by simp [parse, row_encR, col_encR, row2, rformOf_encR])
theorem RoundTrip.kany (f : RForm) : RoundTrip.Statement (.kany f) :=
  of_parse rfl (by simp [parse, row_encR, col_encR, row2, rformOf_encR])
theorem RoundTrip.kall (f : RForm) : RoundTrip.Statement (.kall f) :=
  of_parse rfl (by simp [parse, row_encR, col_encR, row2, rformOf_encR])
theorem RoundTrip.kset (f : RForm) : RoundTrip.Statement (.kset f) :=
  of_parse rfl (by simp [parse, row_encR, col_encR, row2, rformOf_encR])
theorem RoundTrip.kget (f : RForm) : RoundTrip.Statement (.kget f) :=
  of_parse rfl (by simp [parse, row_encR, col_encR, row2, rformOf_encR])
theorem RoundTrip.mov (f : RForm) : RoundTrip.Statement (.mov f) :=
  of_parse rfl (by simp [parse, row_encR, col_encR, row2, rformOf_encR])
theorem RoundTrip.movf (f : RForm) : RoundTrip.Statement (.movf f) :=
  of_parse rfl (by simp [parse, row_encR, col_encR, row2, rformOf_encR])
theorem RoundTrip.rst (f : RForm) : RoundTrip.Statement (.rst f) :=
  of_parse rfl (by simp [parse, row_encR, col_encR, row2, rformOf_encR])
theorem RoundTrip.rclr (f : RForm) : RoundTrip.Statement (.rclr f) :=
  of_parse rfl (by simp [parse, row_encR, col_encR, row2, rformOf_encR])
theorem RoundTrip.addi (f : IForm) : RoundTrip.Statement (.addi f) :=
  of_parse rfl (by simp [parse, row_encI, col_encI, row2, iformOf_encI])
theorem RoundTrip.andi (f : IForm) : RoundTrip.Statement (.andi f) :=
  of_parse rfl (by simp [parse, row_encI, col_encI, row2, iformOf_encI])
theorem RoundTrip.ori (f : IForm) : RoundTrip.Statement (.ori f) :=
  of_parse rfl (by simp [parse, row_encI, col_encI, row2, iformOf_encI])
theorem RoundTrip.xori (f : IForm) : RoundTrip.Statement (.xori f) :=
  of_parse rfl (by simp [parse, row_encI, col_encI, row2, iformOf_encI])
theorem RoundTrip.shli (f : IForm) : RoundTrip.Statement (.shli f) :=
  of_parse rfl (by simp [parse, row_encI, col_encI, row3, iformOf_encI])
theorem RoundTrip.shri (f : IForm) : RoundTrip.Statement (.shri f) :=
  of_parse rfl (by simp [parse, row_encI, col_encI, row3, iformOf_encI])
theorem RoundTrip.sari (f : IForm) : RoundTrip.Statement (.sari f) :=
  of_parse rfl (by simp [parse, row_encI, col_encI, row3, iformOf_encI])
theorem RoundTrip.movi (f : IForm) : RoundTrip.Statement (.movi f) :=
  of_parse rfl (by simp [parse, row_encI, col_encI, row3, iformOf_encI])
theorem RoundTrip.movh (f : IForm) : RoundTrip.Statement (.movh f) :=
  of_parse rfl (by simp [parse, row_encI, col_encI, row3, iformOf_encI])
theorem RoundTrip.adr (f : IForm) : RoundTrip.Statement (.adr f) :=
  of_parse rfl (by simp [parse, row_encI, col_encI, row3, iformOf_encI])
theorem RoundTrip.br (f : BForm) : RoundTrip.Statement (.br f) :=
  of_parse rfl (by simp [parse, row_encB, col_encB, row3, bformOf_encB])
theorem RoundTrip.bri (f : RForm) : RoundTrip.Statement (.bri f) :=
  of_parse rfl (by simp [parse, row_encR, col_encR, row3, rformOf_encR])
theorem RoundTrip.call (f : BForm) : RoundTrip.Statement (.call f) :=
  of_parse rfl (by simp [parse, row_encB, col_encB, row3, bformOf_encB])
theorem RoundTrip.calli (f : RForm) : RoundTrip.Statement (.calli f) :=
  of_parse rfl (by simp [parse, row_encR, col_encR, row3, rformOf_encR])
theorem RoundTrip.ret (f : RForm) : RoundTrip.Statement (.ret f) :=
  of_parse rfl (by simp [parse, row_encR, col_encR, row3, rformOf_encR])
theorem RoundTrip.rasclr (f : RForm) : RoundTrip.Statement (.rasclr f) :=
  of_parse rfl (by simp [parse, row_encR, col_encR, row3, rformOf_encR])
theorem RoundTrip.loop (f : BForm) : RoundTrip.Statement (.loop f) :=
  of_parse rfl (by simp [parse, row_encB, col_encB, row3, bformOf_encB])
theorem RoundTrip.loopi (f : BForm) : RoundTrip.Statement (.loopi f) :=
  of_parse rfl (by simp [parse, row_encB, col_encB, row3, bformOf_encB])
theorem RoundTrip.exit (f : RForm) : RoundTrip.Statement (.exit f) :=
  of_parse rfl (by simp [parse, row_encR, col_encR, row3, rformOf_encR])
theorem RoundTrip.yield (f : RForm) : RoundTrip.Statement (.yield f) :=
  of_parse rfl (by simp [parse, row_encR, col_encR, row3, rformOf_encR])
theorem RoundTrip.park (f : RForm) : RoundTrip.Statement (.park f) :=
  of_parse rfl (by simp [parse, row_encR, col_encR, row4, rformOf_encR])
theorem RoundTrip.nop (f : RForm) : RoundTrip.Statement (.nop f) :=
  of_parse rfl (by simp [parse, row_encR, col_encR, row4, rformOf_encR])
theorem RoundTrip.trap (f : RForm) : RoundTrip.Statement (.trap f) :=
  of_parse rfl (by simp [parse, row_encR, col_encR, row4, rformOf_encR])
theorem RoundTrip.eret (f : RForm) : RoundTrip.Statement (.eret f) :=
  of_parse rfl (by simp [parse, row_encR, col_encR, row4, rformOf_encR])
theorem RoundTrip.rply (f : RForm) : RoundTrip.Statement (.rply f) :=
  of_parse rfl (by simp [parse, row_encR, col_encR, row4, rformOf_encR])
theorem RoundTrip.mfs (f : RForm) : RoundTrip.Statement (.mfs f) :=
  of_parse rfl (by simp [parse, row_encR, col_encR, row4, rformOf_encR])
theorem RoundTrip.mts (f : RForm) : RoundTrip.Statement (.mts f) :=
  of_parse rfl (by simp [parse, row_encR, col_encR, row4, rformOf_encR])
theorem RoundTrip.tstamp (f : RForm) : RoundTrip.Statement (.tstamp f) :=
  of_parse rfl (by simp [parse, row_encR, col_encR, row4, rformOf_encR])
theorem RoundTrip.brk (f : RForm) : RoundTrip.Statement (.brk f) :=
  of_parse rfl (by simp [parse, row_encR, col_encR, row4, rformOf_encR])
theorem RoundTrip.ld (f : MForm) : RoundTrip.Statement (.ld f) :=
  of_parse rfl (by simp [parse, row_encM, col_encM, row5, mformOf_encM])
theorem RoundTrip.ldx (f : MForm) : RoundTrip.Statement (.ldx f) :=
  of_parse rfl (by simp [parse, row_encM, col_encM, row5, mformOf_encM])
theorem RoundTrip.st (f : MForm) : RoundTrip.Statement (.st f) :=
  of_parse rfl (by simp [parse, row_encM, col_encM, row5, mformOf_encM])
theorem RoundTrip.stx (f : MForm) : RoundTrip.Statement (.stx f) :=
  of_parse rfl (by simp [parse, row_encM, col_encM, row5, mformOf_encM])
theorem RoundTrip.pfh (f : MForm) : RoundTrip.Statement (.pfh f) :=
  of_parse rfl (by simp [parse, row_encM, col_encM, row5, mformOf_encM])
theorem RoundTrip.fence (f : RForm) : RoundTrip.Statement (.fence f) :=
  of_parse rfl (by simp [parse, row_encR, col_encR, row5, rformOf_encR])
theorem RoundTrip.amo (f : MForm) : RoundTrip.Statement (.amo f) :=
  of_parse rfl (by simp [parse, row_encM, col_encM, row5, mformOf_encM])
theorem RoundTrip.cas (f : MForm) : RoundTrip.Statement (.cas f) :=
  of_parse rfl (by simp [parse, row_encM, col_encM, row5, mformOf_encM])
theorem RoundTrip.red (f : MForm) : RoundTrip.Statement (.red f) :=
  of_parse rfl (by simp [parse, row_encM, col_encM, row5, mformOf_encM])
theorem RoundTrip.fred (f : MForm) : RoundTrip.Statement (.fred f) :=
  of_parse rfl (by simp [parse, row_encM, col_encM, row5, mformOf_encM])
theorem RoundTrip.gacq (f : EForm) : RoundTrip.Statement (.gacq f) :=
  of_parse rfl (by simp [parse, row_encE, col_encE, row5, eformOf_encE])
theorem RoundTrip.grel (f : EForm) : RoundTrip.Statement (.grel f) :=
  of_parse rfl (by simp [parse, row_encE, col_encE, row5, eformOf_encE])
theorem RoundTrip.ghand (f : EForm) : RoundTrip.Statement (.ghand f) :=
  of_parse rfl (by simp [parse, row_encE, col_encE, row5, eformOf_encE])
theorem RoundTrip.gpub (f : EForm) : RoundTrip.Statement (.gpub f) :=
  of_parse rfl (by simp [parse, row_encE, col_encE, row5, eformOf_encE])
theorem RoundTrip.gbind (f : EForm) : RoundTrip.Statement (.gbind f) :=
  of_parse rfl (by simp [parse, row_encE, col_encE, row5, eformOf_encE])
theorem RoundTrip.gstat (f : EForm) : RoundTrip.Statement (.gstat f) :=
  of_parse rfl (by simp [parse, row_encE, col_encE, row5, eformOf_encE])
theorem RoundTrip.vld (f : MForm) : RoundTrip.Statement (.vld f) :=
  of_parse rfl (by simp [parse, row_encM, col_encM, row6, mformOf_encM])
theorem RoundTrip.vst (f : MForm) : RoundTrip.Statement (.vst f) :=
  of_parse rfl (by simp [parse, row_encM, col_encM, row6, mformOf_encM])
theorem RoundTrip.vlds (f : MForm) : RoundTrip.Statement (.vlds f) :=
  of_parse rfl (by simp [parse, row_encM, col_encM, row6, mformOf_encM])
theorem RoundTrip.vsts (f : MForm) : RoundTrip.Statement (.vsts f) :=
  of_parse rfl (by simp [parse, row_encM, col_encM, row6, mformOf_encM])
theorem RoundTrip.vgth (f : MForm) : RoundTrip.Statement (.vgth f) :=
  of_parse rfl (by simp [parse, row_encM, col_encM, row6, mformOf_encM])
theorem RoundTrip.vsct (f : MForm) : RoundTrip.Statement (.vsct f) :=
  of_parse rfl (by simp [parse, row_encM, col_encM, row6, mformOf_encM])
theorem RoundTrip.vldt (f : MForm) : RoundTrip.Statement (.vldt f) :=
  of_parse rfl (by simp [parse, row_encM, col_encM, row6, mformOf_encM])
theorem RoundTrip.vbc (f : RForm) : RoundTrip.Statement (.vbc f) :=
  of_parse rfl (by simp [parse, row_encR, col_encR, row6, rformOf_encR])
theorem RoundTrip.vext (f : RForm) : RoundTrip.Statement (.vext f) :=
  of_parse rfl (by simp [parse, row_encR, col_encR, row6, rformOf_encR])
theorem RoundTrip.vins (f : RForm) : RoundTrip.Statement (.vins f) :=
  of_parse rfl (by simp [parse, row_encR, col_encR, row6, rformOf_encR])
theorem RoundTrip.viota (f : RForm) : RoundTrip.Statement (.viota f) :=
  of_parse rfl (by simp [parse, row_encR, col_encR, row6, rformOf_encR])
theorem RoundTrip.vadd (f : RForm) : RoundTrip.Statement (.vadd f) :=
  of_parse rfl (by simp [parse, row_encR, col_encR, row7, rformOf_encR])
theorem RoundTrip.vsub (f : RForm) : RoundTrip.Statement (.vsub f) :=
  of_parse rfl (by simp [parse, row_encR, col_encR, row7, rformOf_encR])
theorem RoundTrip.vmul (f : RForm) : RoundTrip.Statement (.vmul f) :=
  of_parse rfl (by simp [parse, row_encR, col_encR, row7, rformOf_encR])
theorem RoundTrip.vmulh (f : RForm) : RoundTrip.Statement (.vmulh f) :=
  of_parse rfl (by simp [parse, row_encR, col_encR, row7, rformOf_encR])
theorem RoundTrip.vmad (f : RForm) : RoundTrip.Statement (.vmad f) :=
  of_parse rfl (by simp [parse, row_encR, col_encR, row7, rformOf_encR])
theorem RoundTrip.vwad (f : RForm) : RoundTrip.Statement (.vwad f) :=
  of_parse rfl (by simp [parse, row_encR, col_encR, row7, rformOf_encR])
theorem RoundTrip.vand (f : RForm) : RoundTrip.Statement (.vand f) :=
  of_parse rfl (by simp [parse, row_encR, col_encR, row7, rformOf_encR])
theorem RoundTrip.vor (f : RForm) : RoundTrip.Statement (.vor f) :=
  of_parse rfl (by simp [parse, row_encR, col_encR, row7, rformOf_encR])
theorem RoundTrip.vxor (f : RForm) : RoundTrip.Statement (.vxor f) :=
  of_parse rfl (by simp [parse, row_encR, col_encR, row7, rformOf_encR])
theorem RoundTrip.vshl (f : RForm) : RoundTrip.Statement (.vshl f) :=
  of_parse rfl (by simp [parse, row_encR, col_encR, row7, rformOf_encR])
theorem RoundTrip.vshr (f : RForm) : RoundTrip.Statement (.vshr f) :=
  of_parse rfl (by simp [parse, row_encR, col_encR, row7, rformOf_encR])
theorem RoundTrip.vsar (f : RForm) : RoundTrip.Statement (.vsar f) :=
  of_parse rfl (by simp [parse, row_encR, col_encR, row7, rformOf_encR])
theorem RoundTrip.vmin (f : RForm) : RoundTrip.Statement (.vmin f) :=
  of_parse rfl (by simp [parse, row_encR, col_encR, row7, rformOf_encR])
theorem RoundTrip.vmax (f : RForm) : RoundTrip.Statement (.vmax f) :=
  of_parse rfl (by simp [parse, row_encR, col_encR, row7, rformOf_encR])
theorem RoundTrip.vminu (f : RForm) : RoundTrip.Statement (.vminu f) :=
  of_parse rfl (by simp [parse, row_encR, col_encR, row7, rformOf_encR])
theorem RoundTrip.vmaxu (f : RForm) : RoundTrip.Statement (.vmaxu f) :=
  of_parse rfl (by simp [parse, row_encR, col_encR, row7, rformOf_encR])
theorem RoundTrip.vabs (f : RForm) : RoundTrip.Statement (.vabs f) :=
  of_parse rfl (by simp [parse, row_encR, col_encR, row8, rformOf_encR])
theorem RoundTrip.vcmp (f : RForm) : RoundTrip.Statement (.vcmp f) :=
  of_parse rfl (by simp [parse, row_encR, col_encR, row8, rformOf_encR])
theorem RoundTrip.vsel (f : RForm) : RoundTrip.Statement (.vsel f) :=
  of_parse rfl (by simp [parse, row_encR, col_encR, row8, rformOf_encR])
theorem RoundTrip.vscan (f : RForm) : RoundTrip.Statement (.vscan f) :=
  of_parse rfl (by simp [parse, row_encR, col_encR, row8, rformOf_encR])
theorem RoundTrip.vred (f : RForm) : RoundTrip.Statement (.vred f) :=
  of_parse rfl (by simp [parse, row_encR, col_encR, row8, rformOf_encR])
theorem RoundTrip.vperm (f : RForm) : RoundTrip.Statement (.vperm f) :=
  of_parse rfl (by simp [parse, row_encR, col_encR, row8, rformOf_encR])
theorem RoundTrip.vfadd (f : RForm) : RoundTrip.Statement (.vfadd f) :=
  of_parse rfl (by simp [parse, row_encR, col_encR, row8, rformOf_encR])
theorem RoundTrip.vfsub (f : RForm) : RoundTrip.Statement (.vfsub f) :=
  of_parse rfl (by simp [parse, row_encR, col_encR, row8, rformOf_encR])
theorem RoundTrip.vfmul (f : RForm) : RoundTrip.Statement (.vfmul f) :=
  of_parse rfl (by simp [parse, row_encR, col_encR, row8, rformOf_encR])
theorem RoundTrip.vfma (f : RForm) : RoundTrip.Statement (.vfma f) :=
  of_parse rfl (by simp [parse, row_encR, col_encR, row8, rformOf_encR])
theorem RoundTrip.vfmin (f : RForm) : RoundTrip.Statement (.vfmin f) :=
  of_parse rfl (by simp [parse, row_encR, col_encR, row8, rformOf_encR])
theorem RoundTrip.vfmax (f : RForm) : RoundTrip.Statement (.vfmax f) :=
  of_parse rfl (by simp [parse, row_encR, col_encR, row8, rformOf_encR])
theorem RoundTrip.vfdiv (f : RForm) : RoundTrip.Statement (.vfdiv f) :=
  of_parse rfl (by simp [parse, row_encR, col_encR, row8, rformOf_encR])
theorem RoundTrip.vfsqrt (f : RForm) : RoundTrip.Statement (.vfsqrt f) :=
  of_parse rfl (by simp [parse, row_encR, col_encR, row8, rformOf_encR])
theorem RoundTrip.vfrcp (f : RForm) : RoundTrip.Statement (.vfrcp f) :=
  of_parse rfl (by simp [parse, row_encR, col_encR, row9, rformOf_encR])
theorem RoundTrip.vfrsq (f : RForm) : RoundTrip.Statement (.vfrsq f) :=
  of_parse rfl (by simp [parse, row_encR, col_encR, row9, rformOf_encR])
theorem RoundTrip.vfexp2 (f : RForm) : RoundTrip.Statement (.vfexp2 f) :=
  of_parse rfl (by simp [parse, row_encR, col_encR, row9, rformOf_encR])
theorem RoundTrip.vflog2 (f : RForm) : RoundTrip.Statement (.vflog2 f) :=
  of_parse rfl (by simp [parse, row_encR, col_encR, row9, rformOf_encR])
theorem RoundTrip.vftanh (f : RForm) : RoundTrip.Statement (.vftanh f) :=
  of_parse rfl (by simp [parse, row_encR, col_encR, row9, rformOf_encR])
theorem RoundTrip.vfcmp (f : RForm) : RoundTrip.Statement (.vfcmp f) :=
  of_parse rfl (by simp [parse, row_encR, col_encR, row9, rformOf_encR])
theorem RoundTrip.vfscan (f : RForm) : RoundTrip.Statement (.vfscan f) :=
  of_parse rfl (by simp [parse, row_encR, col_encR, row9, rformOf_encR])
theorem RoundTrip.vfred (f : RForm) : RoundTrip.Statement (.vfred f) :=
  of_parse rfl (by simp [parse, row_encR, col_encR, row9, rformOf_encR])
theorem RoundTrip.vfcvt (f : RForm) : RoundTrip.Statement (.vfcvt f) :=
  of_parse rfl (by simp [parse, row_encR, col_encR, row9, rformOf_encR])
theorem RoundTrip.vmxq (f : RForm) : RoundTrip.Statement (.vmxq f) :=
  of_parse rfl (by simp [parse, row_encR, col_encR, row9, rformOf_encR])
theorem RoundTrip.vmxd (f : RForm) : RoundTrip.Statement (.vmxd f) :=
  of_parse rfl (by simp [parse, row_encR, col_encR, row9, rformOf_encR])
theorem RoundTrip.pclm (f : EForm) : RoundTrip.Statement (.pclm f) :=
  of_parse rfl (by simp [parse, row_encE, col_encE, rowA, eformOf_encE])
theorem RoundTrip.prel (f : EForm) : RoundTrip.Statement (.prel f) :=
  of_parse rfl (by simp [parse, row_encE, col_encE, rowA, eformOf_encE])
theorem RoundTrip.pld (f : EForm) : RoundTrip.Statement (.pld f) :=
  of_parse rfl (by simp [parse, row_encE, col_encE, rowA, eformOf_encE])
theorem RoundTrip.pldt (f : EForm) : RoundTrip.Statement (.pldt f) :=
  of_parse rfl (by simp [parse, row_encE, col_encE, rowA, eformOf_encE])
theorem RoundTrip.aclm (f : EForm) : RoundTrip.Statement (.aclm f) :=
  of_parse rfl (by simp [parse, row_encE, col_encE, rowA, eformOf_encE])
theorem RoundTrip.arel (f : EForm) : RoundTrip.Statement (.arel f) :=
  of_parse rfl (by simp [parse, row_encE, col_encE, rowA, eformOf_encE])
theorem RoundTrip.azero (f : EForm) : RoundTrip.Statement (.azero f) :=
  of_parse rfl (by simp [parse, row_encE, col_encE, rowA, eformOf_encE])
theorem RoundTrip.mma (f : EForm) : RoundTrip.Statement (.mma f) :=
  of_parse rfl (by simp [parse, row_encE, col_encE, rowA, eformOf_encE])
theorem RoundTrip.drn (f : EForm) : RoundTrip.Statement (.drn f) :=
  of_parse rfl (by simp [parse, row_encE, col_encE, rowA, eformOf_encE])
theorem RoundTrip.drnm (f : EForm) : RoundTrip.Statement (.drnm f) :=
  of_parse rfl (by simp [parse, row_encE, col_encE, rowA, eformOf_encE])
theorem RoundTrip.atbl (f : EForm) : RoundTrip.Statement (.atbl f) :=
  of_parse rfl (by simp [parse, row_encE, col_encE, rowA, eformOf_encE])
theorem RoundTrip.mstat (f : EForm) : RoundTrip.Statement (.mstat f) :=
  of_parse rfl (by simp [parse, row_encE, col_encE, rowA, eformOf_encE])
theorem RoundTrip.send (f : EForm) : RoundTrip.Statement (.send f) :=
  of_parse rfl (by simp [parse, row_encE, col_encE, rowB, eformOf_encE])
theorem RoundTrip.rput (f : EForm) : RoundTrip.Statement (.rput f) :=
  of_parse rfl (by simp [parse, row_encE, col_encE, rowB, eformOf_encE])
theorem RoundTrip.qinit (f : EForm) : RoundTrip.Statement (.qinit f) :=
  of_parse rfl (by simp [parse, row_encE, col_encE, rowB, eformOf_encE])
theorem RoundTrip.qpush (f : EForm) : RoundTrip.Statement (.qpush f) :=
  of_parse rfl (by simp [parse, row_encE, col_encE, rowB, eformOf_encE])
theorem RoundTrip.qpop (f : EForm) : RoundTrip.Statement (.qpop f) :=
  of_parse rfl (by simp [parse, row_encE, col_encE, rowB, eformOf_encE])
theorem RoundTrip.qlen (f : EForm) : RoundTrip.Statement (.qlen f) :=
  of_parse rfl (by simp [parse, row_encE, col_encE, rowB, eformOf_encE])
theorem RoundTrip.barv (f : EForm) : RoundTrip.Statement (.barv f) :=
  of_parse rfl (by simp [parse, row_encE, col_encE, rowB, eformOf_encE])
theorem RoundTrip.bart (f : EForm) : RoundTrip.Statement (.bart f) :=
  of_parse rfl (by simp [parse, row_encE, col_encE, rowB, eformOf_encE])
theorem RoundTrip.cpy (f : EForm) : RoundTrip.Statement (.cpy f) :=
  of_parse rfl (by simp [parse, row_encE, col_encE, rowB, eformOf_encE])
theorem RoundTrip.cpy2 (f : EForm) : RoundTrip.Statement (.cpy2 f) :=
  of_parse rfl (by simp [parse, row_encE, col_encE, rowB, eformOf_encE])
theorem RoundTrip.waitc (f : EForm) : RoundTrip.Statement (.waitc f) :=
  of_parse rfl (by simp [parse, row_encE, col_encE, rowB, eformOf_encE])
theorem RoundTrip.carm (f : EForm) : RoundTrip.Statement (.carm f) :=
  of_parse rfl (by simp [parse, row_encE, col_encE, rowB, eformOf_encE])
theorem RoundTrip.cset (f : EForm) : RoundTrip.Statement (.cset f) :=
  of_parse rfl (by simp [parse, row_encE, col_encE, rowB, eformOf_encE])
theorem RoundTrip.trig (f : EForm) : RoundTrip.Statement (.trig f) :=
  of_parse rfl (by simp [parse, row_encE, col_encE, rowB, eformOf_encE])
theorem RoundTrip.wdep (f : EForm) : RoundTrip.Statement (.wdep f) :=
  of_parse rfl (by simp [parse, row_encE, col_encE, rowB, eformOf_encE])
theorem RoundTrip.lnch (f : EForm) : RoundTrip.Statement (.lnch f) :=
  of_parse rfl (by simp [parse, row_encE, col_encE, rowB, eformOf_encE])
theorem RoundTrip.wake (f : EForm) : RoundTrip.Statement (.wake f) :=
  of_parse rfl (by simp [parse, row_encE, col_encE, rowC, eformOf_encE])
theorem RoundTrip.migr (f : EForm) : RoundTrip.Statement (.migr f) :=
  of_parse rfl (by simp [parse, row_encE, col_encE, rowC, eformOf_encE])
theorem RoundTrip.hopen (f : EForm) : RoundTrip.Statement (.hopen f) :=
  of_parse rfl (by simp [parse, row_encE, col_encE, rowC, eformOf_encE])
theorem RoundTrip.hput (f : EForm) : RoundTrip.Statement (.hput f) :=
  of_parse rfl (by simp [parse, row_encE, col_encE, rowC, eformOf_encE])
theorem RoundTrip.hclose (f : EForm) : RoundTrip.Statement (.hclose f) :=
  of_parse rfl (by simp [parse, row_encE, col_encE, rowC, eformOf_encE])
theorem RoundTrip.hstat (f : EForm) : RoundTrip.Statement (.hstat f) :=
  of_parse rfl (by simp [parse, row_encE, col_encE, rowC, eformOf_encE])
theorem RoundTrip.hcfg (f : EForm) : RoundTrip.Statement (.hcfg f) :=
  of_parse rfl (by simp [parse, row_encE, col_encE, rowC, eformOf_encE])
theorem RoundTrip.kend : RoundTrip.Statement .kend := of_parse rfl rfl
theorem RoundTrip.illegalInstruction (r : Reject) : RoundTrip.Statement (.illegalInstruction r) := of_none rfl
theorem RoundTrip.taggedDelivery (d : Delivery) : RoundTrip.Statement (.taggedDelivery d) := of_none rfl
theorem RoundTrip.untaggedDeposit (d : Deposit) : RoundTrip.Statement (.untaggedDeposit d) := of_none rfl
theorem RoundTrip.depositLatchLand (core : Nat) : RoundTrip.Statement (.depositLatchLand core) := of_none rfl
theorem RoundTrip.messageLeftCore (core : Nat) : RoundTrip.Statement (.messageLeftCore core) := of_none rfl
theorem RoundTrip.acknowledgement (k : Sink) (data : Option (BitVec 1024)) (pois : Option Word) : RoundTrip.Statement (.acknowledgement k data pois) := of_none rfl
theorem RoundTrip.fetchLineArrival (t : TRef) : RoundTrip.Statement (.fetchLineArrival t) := of_none rfl
theorem RoundTrip.pageWalk (a : Access) : RoundTrip.Statement (.pageWalk a) := of_none rfl
theorem RoundTrip.accessAtHome (a : Access) : RoundTrip.Statement (.accessAtHome a) := of_none rfl
theorem RoundTrip.fredClose (ctx : Nat) (guarded : Bool) (bd : Nat) : RoundTrip.Statement (.fredClose ctx guarded bd) := of_none rfl
theorem RoundTrip.guardRequestAtHome (r : GuardReq) : RoundTrip.Statement (.guardRequestAtHome r) := of_none rfl
theorem RoundTrip.guardReply (r : GuardRep) : RoundTrip.Statement (.guardReply r) := of_none rfl
theorem RoundTrip.reservationExpiry (id : Nat) : RoundTrip.Statement (.reservationExpiry id) := of_none rfl
theorem RoundTrip.ticketExpiry (id : Nat) : RoundTrip.Statement (.ticketExpiry id) := of_none rfl
theorem RoundTrip.routerAccept (core : Nat) : RoundTrip.Statement (.routerAccept core) := of_none rfl
theorem RoundTrip.remoteQueueOp (q : QReq) : RoundTrip.Statement (.remoteQueueOp q) := of_none rfl
theorem RoundTrip.messageArrival (m : Msg) : RoundTrip.Statement (.messageArrival m) := of_none rfl
theorem RoundTrip.messageStartFromBuffer (core idx : Nat) : RoundTrip.Statement (.messageStartFromBuffer core idx) := of_none rfl
theorem RoundTrip.pipArrival (p : Pip) : RoundTrip.Statement (.pipArrival p) := of_none rfl
theorem RoundTrip.barrierArrivalAtAgent (ctx launch level : Nat) (path : List Nat) (exited : Bool) : RoundTrip.Statement (.barrierArrivalAtAgent ctx launch level path exited) := of_none rfl
theorem RoundTrip.clockCapRelease (idx : Nat) : RoundTrip.Statement (.clockCapRelease idx) := of_none rfl
theorem RoundTrip.agerVisit (line : Nat) : RoundTrip.Statement (.agerVisit line) := of_none rfl
theorem RoundTrip.counterIncrement (ctx core n : Nat) : RoundTrip.Statement (.counterIncrement ctx core n) := of_none rfl
theorem RoundTrip.counterFire (core n : Nat) : RoundTrip.Statement (.counterFire core n) := of_none rfl
theorem RoundTrip.matrixCommandStart (core ctx : Nat) : RoundTrip.Statement (.matrixCommandStart core ctx) := of_none rfl
theorem RoundTrip.transferCommandStart (core ctx : Nat) : RoundTrip.Statement (.transferCommandStart core ctx) := of_none rfl
theorem RoundTrip.podLoadComplete (id : Nat) : RoundTrip.Statement (.podLoadComplete id) := of_none rfl
theorem RoundTrip.mmaComplete (id : Nat) : RoundTrip.Statement (.mmaComplete id) := of_none rfl
theorem RoundTrip.atblComplete (id : Nat) : RoundTrip.Statement (.atblComplete id) := of_none rfl
theorem RoundTrip.drainComplete (id : Nat) : RoundTrip.Statement (.drainComplete id) := of_none rfl
theorem RoundTrip.drnmRow (id : Nat) : RoundTrip.Statement (.drnmRow id) := of_none rfl
theorem RoundTrip.commandFault (id unit : Nat) (f : FaultInfo) : RoundTrip.Statement (.commandFault id unit f) := of_none rfl
theorem RoundTrip.copyPieceAtStreamer (id : Nat) : RoundTrip.Statement (.copyPieceAtStreamer id) := of_none rfl
theorem RoundTrip.copyPacketWrite (p : Packet) : RoundTrip.Statement (.copyPacketWrite p) := of_none rfl
theorem RoundTrip.huskOpen (r : HOpen) : RoundTrip.Statement (.huskOpen r) := of_none rfl
theorem RoundTrip.huskArrival (l : HLine) : RoundTrip.Statement (.huskArrival l) := of_none rfl
theorem RoundTrip.huskDeadline (die slot : Nat) : RoundTrip.Statement (.huskDeadline die slot) := of_none rfl
theorem RoundTrip.huskRelease (die slot : Nat) : RoundTrip.Statement (.huskRelease die slot) := of_none rfl
theorem RoundTrip.huskNotify (die slot : Nat) : RoundTrip.Statement (.huskNotify die slot) := of_none rfl
theorem RoundTrip.wakeForward (ctx launch core pos : Nat) : RoundTrip.Statement (.wakeForward ctx launch core pos) := of_none rfl
theorem RoundTrip.threadStart (ctx launch linear : Nat) : RoundTrip.Statement (.threadStart ctx launch linear) := of_none rfl
theorem RoundTrip.launchRootStart (ctx queue : Nat) : RoundTrip.Statement (.launchRootStart ctx queue) := of_none rfl
theorem RoundTrip.faultReply (t : TRef) (acc unit : Nat) (f : FaultInfo) : RoundTrip.Statement (.faultReply t acc unit f) := of_none rfl
theorem RoundTrip.takeTrap (t : TRef) : RoundTrip.Statement (.takeTrap t) := of_none rfl
theorem RoundTrip.evictionRequest (ctx core region : Nat) : RoundTrip.Statement (.evictionRequest ctx core region) := of_none rfl
theorem RoundTrip.imageComplete (ctx core : Nat) : RoundTrip.Statement (.imageComplete ctx core) := of_none rfl
theorem RoundTrip.resumption (ctx core region : Nat) : RoundTrip.Statement (.resumption ctx core region) := of_none rfl
theorem RoundTrip.addressComparatorStop (t : TRef) (n : Nat) : RoundTrip.Statement (.addressComparatorStop t n) := of_none rfl
theorem RoundTrip.acornPulse : RoundTrip.Statement (.acornPulse) := of_none rfl
theorem RoundTrip.snapshotTrigger (src : SnapSrc) : RoundTrip.Statement (.snapshotTrigger src) := of_none rfl
theorem RoundTrip.externalTrigger : RoundTrip.Statement (.externalTrigger) := of_none rfl
theorem RoundTrip.snapshotLatch : RoundTrip.Statement (.snapshotLatch) := of_none rfl
theorem RoundTrip.ringTickPlacement (die : Nat) : RoundTrip.Statement (.ringTickPlacement die) := of_none rfl
theorem RoundTrip.replayMismatch (t : TRef) (entry : Nat) : RoundTrip.Statement (.replayMismatch t entry) := of_none rfl
theorem RoundTrip.softError (s : Storage) (correctable : Bool) : RoundTrip.Statement (.softError s correctable) := of_none rfl
theorem RoundTrip.droopAlarm : RoundTrip.Statement (.droopAlarm) := of_none rfl
theorem RoundTrip.droopWindowEnd : RoundTrip.Statement (.droopWindowEnd) := of_none rfl
theorem RoundTrip.energyStaticTick : RoundTrip.Statement (.energyStaticTick) := of_none rfl
theorem RoundTrip.lockLeaseExpiry : RoundTrip.Statement (.lockLeaseExpiry) := of_none rfl
theorem RoundTrip.boot : RoundTrip.Statement (.boot) := of_none rfl
theorem RoundTrip.pldmSensorRead (id : Nat) : RoundTrip.Statement (.pldmSensorRead id) := of_none rfl
theorem RoundTrip.pldmFirmwareUpdate (slotB : Bool) (image : Nat) : RoundTrip.Statement (.pldmFirmwareUpdate slotB image) := of_none rfl
theorem RoundTrip.spdmGetMeasurements (nonce : Nat) : RoundTrip.Statement (.spdmGetMeasurements nonce) := of_none rfl
theorem RoundTrip.sidebandLockRequest : RoundTrip.Statement (.sidebandLockRequest) := of_none rfl
theorem RoundTrip.rmaWrite (ctx port va : Nat) (len : Nat) (data : Nat) (seq : Nat) : RoundTrip.Statement (.rmaWrite ctx port va len data seq) := of_none rfl
theorem RoundTrip.rmaRead (ctx port va : Nat) (len : Nat) (seq : Nat) : RoundTrip.Statement (.rmaRead ctx port va len seq) := of_none rfl
theorem RoundTrip.unsupportedOperation (ctx seq : Nat) : RoundTrip.Statement (.unsupportedOperation ctx seq) := of_none rfl
theorem RoundTrip.launch : RoundTrip.Statement (.launch h record) := of_none rfl
theorem RoundTrip.linkupd (h : Hdr) (entry : Nat) (addr : Word) : RoundTrip.Statement (.linkupd h entry addr) := of_none rfl
theorem RoundTrip.linkacq (h : Hdr) : RoundTrip.Statement (.linkacq h) := of_none rfl
theorem RoundTrip.ctxnew (h : Hdr) (num tfb gbase gsize link evAddr evEp : Nat) : RoundTrip.Statement (.ctxnew h num tfb gbase gsize link evAddr evEp) := of_none rfl
theorem RoundTrip.ctxdel (h : Hdr) : RoundTrip.Statement (.ctxdel h) := of_none rfl
theorem RoundTrip.ptroot (h : Hdr) (addr : Nat) : RoundTrip.Statement (.ptroot h addr) := of_none rfl
theorem RoundTrip.inval (h : Hdr) (va len : Nat) : RoundTrip.Statement (.inval h va len) := of_none rfl
theorem RoundTrip.coremap (h : Hdr) (cc mc : Nat) : RoundTrip.Statement (.coremap h cc mc) := of_none rfl
theorem RoundTrip.reside (h : Hdr) (mc slot mask base units : Nat) : RoundTrip.Statement (.reside h mc slot mask base units) := of_none rfl
theorem RoundTrip.slottbl (h : Hdr) (mc : Nat) (entries : List (BitVec 4)) : RoundTrip.Statement (.slottbl h mc entries) := of_none rfl
theorem RoundTrip.gscope (h : Hdr) (first last scope c0 c1 : Nat) : RoundTrip.Statement (.gscope h first last scope c0 c1) := of_none rfl
theorem RoundTrip.qstub (h : Hdr) (queue : Nat) (entry : Word) (die : Nat) : RoundTrip.Statement (.qstub h queue entry die) := of_none rfl
theorem RoundTrip.ring : RoundTrip.Statement (.ring h kind die base k head) := of_none rfl
theorem RoundTrip.spill (h : Hdr) (page : Nat) : RoundTrip.Statement (.spill h page) := of_none rfl
theorem RoundTrip.remote : RoundTrip.Statement (.remote h idx peer ep key) := of_none rfl
theorem RoundTrip.key (h : Hdr) (slot wrapped : Nat) : RoundTrip.Statement (.key h slot wrapped) := of_none rfl
theorem RoundTrip.cntr (h : Hdr) (mc : Nat) (mask : BitVec 64) : RoundTrip.Statement (.cntr h mc mask) := of_none rfl
theorem RoundTrip.portown (h : Hdr) (mc owner : Nat) : RoundTrip.Statement (.portown h mc owner) := of_none rfl
theorem RoundTrip.hceil (h : Hdr) (die ceil : Nat) : RoundTrip.Statement (.hceil h die ceil) := of_none rfl
theorem RoundTrip.preempt (h : Hdr) (cores : List Nat) (region : Nat) : RoundTrip.Statement (.preempt h cores region) := of_none rfl
theorem RoundTrip.resume (h : Hdr) (cores : List Nat) (region : Nat) : RoundTrip.Statement (.resume h cores region) := of_none rfl
theorem RoundTrip.thrres (h : Hdr) (cc tid : Nat) (addr : Word) : RoundTrip.Statement (.thrres h cc tid addr) := of_none rfl
theorem RoundTrip.thrend (h : Hdr) (cc tid : Nat) : RoundTrip.Statement (.thrend h cc tid) := of_none rfl
theorem RoundTrip.hgacq (h : Hdr) (guard : Nat) (excl : Bool) (port : Nat) : RoundTrip.Statement (.hgacq h guard excl port) := of_none rfl
theorem RoundTrip.hgrel (h : Hdr) (guard port : Nat) : RoundTrip.Statement (.hgrel h guard port) := of_none rfl
theorem RoundTrip.debugDbg (h : Hdr) (on : Bool) : RoundTrip.Statement (.debugDbg h on) := of_none rfl
theorem RoundTrip.debugAddrm (h : Hdr) (n : Nat) (val : Word) : RoundTrip.Statement (.debugAddrm h n val) := of_none rfl
theorem RoundTrip.debugStopAll (h : Hdr) : RoundTrip.Statement (.debugStopAll h) := of_none rfl
theorem RoundTrip.debugTraceMask (h : Hdr) (mask : BitVec 8) : RoundTrip.Statement (.debugTraceMask h mask) := of_none rfl
theorem RoundTrip.snapControl (h : Hdr) (val : Word) : RoundTrip.Statement (.snapControl h val) := of_none rfl
theorem RoundTrip.snapHostTrigger (h : Hdr) : RoundTrip.Statement (.snapHostTrigger h) := of_none rfl
theorem RoundTrip.snapPulsep (h : Hdr) (val : Nat) : RoundTrip.Statement (.snapPulsep h val) := of_none rfl
theorem RoundTrip.replay : RoundTrip.Statement (.replay h mode page) := of_none rfl
theorem RoundTrip.droop : RoundTrip.Statement (.droop h val) := of_none rfl
theorem RoundTrip.mlock (h : Hdr) : RoundTrip.Statement (.mlock h) := of_none rfl
theorem RoundTrip.mreset (h : Hdr) : RoundTrip.Statement (.mreset h) := of_none rfl
theorem RoundTrip.fwupd (h : Hdr) (addr len : Nat) (slotB : Bool) : RoundTrip.Statement (.fwupd h addr len slotB) := of_none rfl
theorem RoundTrip.stepclr (h : Hdr) (n : Nat) : RoundTrip.Statement (.stepclr h n) := of_none rfl
theorem RoundTrip.sensor (h : Hdr) (id : Nat) : RoundTrip.Statement (.sensor h id) := of_none rfl
theorem RoundTrip.liveDump (h : Hdr) (region : Nat) : RoundTrip.Statement (.liveDump h region) := of_none rfl
theorem RoundTrip.unknownOperation (h : Hdr) (op : Nat) : RoundTrip.Statement (.unknownOperation h op) := of_none rfl
theorem RoundTrip.sidebandReset : RoundTrip.Statement (.sidebandReset) := of_none rfl
theorem RoundTrip.sidebandStepClear (n : Nat) : RoundTrip.Statement (.sidebandStepClear n) := of_none rfl
theorem RoundTrip.portLinkChange (port : Nat) (up : Bool) : RoundTrip.Statement (.portLinkChange port up) := of_none rfl
theorem RoundTrip.hostFreesMemory (base len : Nat) : RoundTrip.Statement (.hostFreesMemory base len) := of_none rfl

end Sys2Proof.Laws
end

