-- ==== Sys2Proof/Tests/Slice0.lean ====
section
/-! SUPPORT. The model's own tests: words written out from the encodings of spec 02 decode to their instructions, ill-formed
terms are refused, the examples of spec 03 to 09 give the results stated there, and for every obligation that has
hypotheses a state and operands that meet them (`meets_<obligation>`). Every expected result stands in the spec. -/

namespace Sys2Proof.Tests
set_option Elab.async false
open Sys2Proof Sys2Proof.Machine Sys2Proof.Slice0

/-- The value of a result, and d of a failure. -/
def val {ε α : Type} (d : α) : Except ε α → α
  | .ok a => a
  | .error _ => d
/-- A result. -/
def isOk {ε α : Type} : Except ε α → Bool
  | .ok _ => true
  | .error _ => false
theorem ok_val {ε α : Type} {d : α} {x : Except ε α} (h : isOk x = true) : x = .ok (val d x) := by
  cases x with
  | ok => rfl
  | error => cases h
theorem ok_unit {ε : Type} {x : Except ε Unit} (h : isOk x = true) : x = .ok () := by
  cases x with
  | ok => rfl
  | error => cases h
/-- The result a. -/
def okIs {ε α : Type} [DecidableEq α] (a : α) : Except ε α → Bool
  | .ok b => b == a
  | .error _ => false
theorem ok_eq {ε α : Type} [DecidableEq α] {a : α} {x : Except ε α} (h : okIs a x = true) : x = .ok a := by
  cases x with
  | ok => simp [okIs] at h; rw [h]
  | error => cases h
theorem ok_pair {ε α β : Type} {d : α × β} {x : Except ε (α × β)} (h : isOk x = true) : x = .ok ((val d x).1, (val d x).2) := by
  cases x with
  | ok => rfl
  | error => cases h
/-- The current thread of a state. -/
def cT (s : State) : Thread := s.curThread.getD (placedThread s)
theorem goes {s : State} {h : Head} (e : s.curThread = some (cT s) ∧ (match (cT s).getK (Fin.ofNat 8 h.gk.toNat) with
    | .full k => k.getLsbD 0 == (h.gn == 0#1)
    | _ => false) = true ∧ ∀ c ∈ s.ctxs, c.id = (cT s).ref.ctx → c.replay = 0) : Goes s (cT s) h := by
  refine ⟨e.1, ?_, e.2.2⟩
  have g := e.2.1
  cases q : (cT s).getK (Fin.ofNat 8 h.gk.toNat) with
  | full k =>
    rw [q] at g
    exact ⟨k, rfl, eq_of_beq g⟩
  | _ =>
    rw [q] at g
    cases g
theorem accessGoes {s : State} {t : Thread} {a : Word} {n : Nat} {w f : Bool}
    (e : t.acq = none ∧ t.pend = [] ∧ cmdsQuiet s t = true ∧ isOk (addrGate s t a n w {}) = true ∧ isOk (routerGate s t a.toNat) = true) :
    AccessGoes s t a n w f := ⟨e.1, fun _ => ⟨e.2.1, e.2.2.1⟩, ok_unit e.2.2.2.1, ok_unit e.2.2.2.2⟩
theorem storeGoes {s : State} {t : Thread} {a : Word} {n : Nat} (e : t.acq = none ∧ isOk (addrGate s t a n true {}) = true) :
    StoreGoes s t a n := ⟨e.1, ok_unit e.2⟩
theorem sendsNow {s : State} {t : Thread} {dst : Nat} (e : outboxRoom s t = true ∧ (s.core (s.homeOf t.ref)).refusing = false ∧
    evicting s t.ref.ctx dst = false ∧ t.pend = [] ∧ cmdsQuiet s t = true) : SendsNow s t dst := ⟨e.1, e.2.1, e.2.2.1, e.2.2.2⟩
theorem mayAcquire {s : State} {t : Thread} {a : Word} (e : a.extractLsb' 22 42 = 0 ∧ guardOfWord a < (s.ctxD t.ref.ctx).gsize ∧
    (s.ctxD t.ref.ctx).inScope (guardOfWord a) (t.ref.agent / 16) = true ∧
    (holdOn t.holds (guardOfWord a) = none ∧ guardOfWord a ∉ t.acquiring) ∧ holdsTaken s t < 8 ∧
    isOk (guardRouter s t) = true) : MayAcquire s t a :=
  ⟨e.1, e.2.1, e.2.2.1, e.2.2.2.1, e.2.2.2.2.1, ok_unit e.2.2.2.2.2⟩
theorem compoundGoes {s : State} {t : Thread} {us : List (Nat × Word × BitVec 32)}
    (e : t.acq = none ∧ us.all (fun u => isOk (routerGate s t u.2.1.toNat)) = true) : CompoundGoes s t us :=
  ⟨e.1, fun u h => ok_unit (List.all_eq_true.mp e.2 u h)⟩
theorem podUsable {s : State} {t : Thread} {n : Nat}
    (e : ((s.core (s.homeOf t.ref)).pod n).st ≠ .free ∧ ((s.core (s.homeOf t.ref)).pod n).owner = some t.ref.ctx ∧
      relQueued (queueOf false (s.core (s.homeOf t.ref)) t.ref.ctx) (.pod n) = false) : PodUsable s t n := ⟨e.1, e.2.1, e.2.2⟩
theorem accUsable {s : State} {t : Thread} {n : Nat}
    (e : ((s.core (s.homeOf t.ref)).acc n).st ≠ .free ∧ ((s.core (s.homeOf t.ref)).acc n).owner = some t.ref.ctx ∧
      relQueued (queueOf false (s.core (s.homeOf t.ref)) t.ref.ctx) (.acc n) = false) : AccUsable s t n := ⟨e.1, e.2.1, e.2.2⟩
theorem canonical {s : State} (e : Memory.wf s.mem = true ∧ tabWf 0 0 s.lines = true ∧ tabWf 0 0 s.poison = true ∧
    tabWf 0 0 s.lineKeys = true ∧ tabWf 0 0 s.owners = true) : s.Canonical := ⟨e.1, e.2.1, e.2.2.1, e.2.2.2.1, e.2.2.2.2⟩
theorem distinct {s : State} (e : (s.cores.map (·.id)).Nodup ∧ (∀ c ∈ s.cores, (c.mq.map (·.ctx)).Nodup) ∧
    (∀ c ∈ s.cores, (c.tq.map (·.ctx)).Nodup) ∧ ∀ im ∈ s.images, (∀ q ∈ im.state.mq ++ im.state.tq, q.ctx = im.ctx) ∧
      im.state.mq.length ≤ 1 ∧ im.state.tq.length ≤ 1) : s.Distinct := ⟨e.1, e.2.1, e.2.2.1, e.2.2.2⟩
/-- An object that is not poisoned. -/
def podClean : PodSt → Bool
  | .pois _ => false
  | _ => true
theorem not_pois {p : PodSt} (h : podClean p = true) (w : Word) : p ≠ .pois w := by
  rintro rfl
  cases h
theorem cleanPods_of {c : Core} {n pa pb : Nat} (e : podClean (c.acc n).st = true ∧ podClean (c.pod pa).st = true ∧
    podClean (c.pod pb).st = true) : cleanPods c n pa pb := ⟨not_pois e.1, not_pois e.2.1, not_pois e.2.2⟩

/-- An operation: D is register 1, A and B are registers 2 and 3; the guard is K0. -/
def H : Head := ⟨0, 0, 0, 1, 2, 3⟩
/-- The same on vectors. -/
def HV : Head := ⟨0, 0, 0, 17, 18, 19⟩
/-- A word of format R on registers. -/
def R0 : RForm := { H with ma := 0, mb := 0, fn := 0, nro := 0 }
/-- A word of format R on vector registers. -/
def RV : RForm := { HV with ma := 0, mb := 0, fn := 0, nro := 0 }
/-- A word of format I. -/
def I0 : IForm := { H with imm := 5 }
/-- A word of format M. -/
def M0 : MForm := { H with sz := 0, ext := 0, dsp := 0, nro := 0 }
/-- A word of format B. -/
def B0 : BForm := { H with off := 1 }
/-- A word of format E. -/
def E0 : EForm := { H with fn := 0, opv := 0, opk := 0, fl := 0, nro := 0 }
/-- The thread of the smallest running machine. -/
def r0 : TRef := ⟨0, 0, 0⟩
/-- A thread on one core of one context, with an address of the core's scratchpad in register 2 and one in register 15. -/
def W : State :=
  let s : State := { State.reset.withFetchWord 64 0 with cur := r0 }
  let s := s.updCtx 0 (fun c => { c with gsize := 16, tfb := ownBase + 0x6000 })
  s.updThread r0 (fun t => ((t.setG 2 (.full (BitVec.ofNat 64 (ownBase + 0x1000)))).setG 15 (.full (BitVec.ofNat 64 (ownBase + 0x2000)))))
/-- The machine with registers of its thread set. -/
def wr (l : List (Opd × Nat)) (s : State) : State :=
  s.updThread r0 (fun t => l.foldl (fun t p => t.setFull p.1 (BitVec.ofNat 1024 p.2)) t)
/-- The machine with a thread changed. -/
def wt (f : Thread → Thread) (s : State) : State := s.updThread r0 f
/-- The machine with its core changed. -/
def wc (f : Core → Core) (s : State) : State := s.updCore 0 f
/-- The machine with its context changed. -/
def wx (f : Ctx → Ctx) (s : State) : State := s.updCtx 0 f
/-- An operand that is no vector register. -/
def notV : Opd → Bool
  | .v _ => false
  | _ => true
theorem ne_v {o : Opd} (h : notV o = true) (i : Fin 32) : o ≠ .v i := by
  rintro rfl
  cases h
/-- A record of zeros. -/
def noRecord : Record := ⟨{}, 0, 0, 0, 0, 0, 0⟩
/-- A thread in its handler, with its record in its scratchpad. -/
def HW : State := wt (fun t => { t with ts := 0x800, trp := BitVec.ofNat 64 (ownBase + 0x3000) }) W
/-- A load of eight bytes that has been sent. -/
def loadOne : Pending := mkPending 0 0 { tag := 0x1001, reg := 1, sz := 3, kind := 1, acc := true } (BitVec.ofNat 64 (ownBase + 0x1000)) 0 0 [] [mkTag 1 1] (.scalar false 8) none
/-- A thread in its handler, with a record of that load. -/
def HA : State :=
  let c : CauseWord := { tag := 0x1001, reg := 1, sz := 3, kind := 1, acc := true }
  wt (fun t => { t with trapped := .access loadOne })
    ((HW.store (Config.scratchKey + 0x3000) 8 0 (c.word 1).toNat).store (Config.scratchKey + 0x3020) 8 0 (ownBase + 0x1000))
/-- The machine with no lane selected by K1. -/
def WK : State := wr [(.k 1, 0)] W
/-- The machine with 8 in register 4. -/
def WM : State := wr [(.g 4, 8)] W
/-- A word of format M on vector registers. -/
def MV : MForm := { HV with sz := 0, ext := 0, dsp := 0, nro := 0 }
/-- A thread in its handler with a mode word in register 2. -/
def WX : State := wx (fun c => { c with mode := 0x100 }) (wr [(.g 2, 0x100)] HW)
/-- A word of format R whose function field is 4. -/
def R4 : RForm := { R0 with fn := 4 }
/-- The machine with guard 3's number in register 2. -/
def WG : State := wr [(.g 2, 3)] W
/-- The same, its thread holding the guard. -/
def WH : State := wt (fun t => { t with holds := [⟨3, true, 0⟩] }) WG
/-- A second thread of the core. -/
def mate : Thread := newThread W ⟨0, 1, 1⟩ ⟨none, [], 0, 0, 0, [], [], 0, false, 0, 0, 0, 0⟩ (BitVec.ofNat 64 ownBase) []
/-- The same with a second thread, its number in register 3. -/
def WH2 : State := let s : State := wr [(.g 3, 1)] WH; { s with threads := s.threads ++ [mate] }
/-- A request of guard 3. -/
def gr (who : GWho) (op : GOp) : GuardReq := ⟨0, 3, 0, who, op, none, none, 0, 0, false, false, 0⟩
/-- The machine with guard 3 held exclusively by agent 1. -/
def WX3 : State := wx (fun c => { c with guards := [(3, ⟨true, 1, 0, 0⟩)] }) W
/-- A thread whose acquire waits for its reply. -/
def WQ : State := wt (fun t => { t with run := .waiting .reply, pend := [pendingGuard] }) W
where pendingGuard : Pending := mkPending 0 0 {} 0 0 0 [] [] .none (some (.gacq E0))
/-- An entry of a thread in the list of guard 3. -/
def entry : Waiter := ⟨7, .guard 3, 0, r0, 0, false, false, 0, 0, some 0, none⟩
/-- A machine with that entry. -/
def WE : State := { W with waiters := [entry], capped := [.acornPulse] }
/-- An operation with the outcome predicate K1. -/
def EO : EForm := { E0 with opv := 1, opk := 1 }
/-- An operand that is no port. -/
def notPort : Opd → Bool
  | .port _ => false
  | _ => true
theorem ne_port {o : Opd} (h : notPort o = true) (d : Dir) : o ≠ .port d := by
  rintro rfl
  cases h
/-- The machine with a page of HBM mapped, readable and writable, at 0x2000000. -/
def WP : State := wx (fun c => { c with root := some 0 }) ((W.store 0 8 0 0x20001).store 0x20008 8 0 0x2000042)
/-- An access of the thread. -/
def acc (k : AKind) (va size : Nat) : Access :=
  { mkAccess W (cT W) k va size 0x1234 0 0 5 0 with st := ⟨[], none, none, [], [], false, false, some 0⟩ }
/-- Where the scratchpad's byte 0x1000 lies. -/
def spot : Nat := Config.scratchKey + 0x1000
/-- The machine with that line PUBLISHED. -/
def WL : State := W.setMd (spot / 128) (mkMd 3 false 0 0 0 0)
/-- The machine with a sent store that is not acknowledged. -/
def sentStore : Pending := mkPending 5 0 { kind := 2 } 0 0 0 [acc .write (ownBase + 0x1000) 8] [] .none none
/-- The machine with a sent load that is not acknowledged. -/
def sentLoad : Pending :=
  mkPending 5 0 { kind := 1 } 0 0 0 [acc .read (ownBase + 0x1000) 8] [mkTag 1 1] (.scalar true 8) none
/-- The thread with a store sent and a handler. -/
def WS : State := wt (fun t => { t with pend := [sentStore], fam := { t.fam with handler := 0x1000 } }) W
/-- The thread with a load sent. -/
def WA : State := wt (fun t => { t.setPend (.g 1) (mkTag 1 1) with pend := [sentLoad], seqs := [1] }) W
/-- A protection fault. -/
def fault1 : FaultInfo := ⟨.protection, 0, 0, 0, false⟩
/-- The machine with a fault held for its store. -/
def WF : State := wt (fun t => { t with pend := [{ sentStore with fault := some (0, fault1) }] }) WS
/-- A deposit for register 1 of the thread. -/
def dep : Deposit := ⟨0, 0, .g 1, 7, some (r0, mkTag 5 1), 0⟩
/-- The machine with register 1 EMPTY and a deposit for it in the latch. -/
def WD : State := wc (fun c => { c with depLatch := [dep], outbox := [.acornPulse], refusing := true }) (wt (fun t => t.setEmpty (.g 1)) W)
/-- The failure e. -/
def errIs {ε α : Type} [DecidableEq ε] (e : ε) : Except ε α → Bool
  | .ok _ => false
  | .error f => f == e
theorem err_eq {ε α : Type} [DecidableEq ε] {e : ε} {x : Except ε α} (h : errIs e x = true) : x = .error e := by
  cases x with
  | ok => cases h
  | error => simp [errIs] at h; rw [h]
/-- The machine with every Pod and accumulator FULL. -/
def WM4 : State := wc (fun c => { c with
  pods := Vector.replicate 16 ⟨.full, some 0, some (1, false), [], []⟩, accs := Vector.replicate 4 ⟨.full, some 0, 1, []⟩ }) W
/-- A command of the thread. -/
def cmd (op : CmdOp) : Cmd :=
  ⟨9, r0, op, 0, 0, ⟨[], none, none, [], [], false, false, some 0⟩, ⟨none, [], 0, 0, 0, [], [], 0, false, 0, 0, 0, 0⟩, [], .open_, some (mkTag 3 1), 1⟩
/-- A started command. -/
def begun (op : CmdOp) (stage pos : Nat) : Started := ⟨cmd op, [], [], [], [], none, stage, pos, []⟩
/-- The matrix queue with one command waiting. -/
def WC (c : Cmd) : State := wc (fun x => { x with mq := [⟨0, 0, [c], [], []⟩] }) WM4
/-- The queue of one kind with one command started. -/
def qS (x : Started) : CmdQueue := ⟨0, 0, [], [x], []⟩
/-- The core with one command at its matrix engine. -/
def WB (x : Started) : State := wc (fun c => { c with mq := [qS x] }) WM4
/-- The machine with a queue of four words at the thread's register 2, one item in it. -/
def theQueue : Queue := ⟨0x1000, 0, 0, 4, 0, [(7, false)], none⟩
/-- The core with a queue that holds an item. -/
def WZ : State := wc (fun c => { c with queues := [theQueue] }) W
/-- The family of a thread of launch 4, of one level. -/
def fam4 : Family := ⟨some 4, [0], 0, 0, 1, [0], [2], 0, true, 0, 0, 0, 0⟩
/-- A launch of two threads, the first in place. -/
def launch4 : Launch := ⟨4, 0, none, 0, 0, 0, false, [2], [0], [([0], 0, 0), ([1], 0, 1)], [], [], [], [], fam4, 0, 0, 0, 0, 0, 0, none, false⟩
/-- The machine with that launch. -/
def WLa : State :=
  let s : State := wt (fun t => { t with fam := fam4 }) W
  { s with launches := [launch4] }
/-- The machine with register 2 naming core 0 and a message's entry 0 in register 3. -/
def WN : State := wr [(.g 2, 0)] W
/-- A message. -/
def msg : Msg := ⟨0, 0, 0, [7], false, ⟨none, [], 0, 0, 0, [], [], 0, false, 0, 0, 0, 0⟩, .counter 0⟩
/-- A counter that is armed, of the context. -/
def armed : Counter := ⟨5, some ⟨0, 3, fam4, 0⟩, some 0⟩
/-- The core with armed counters and a message in its inbox. -/
def WCn : State := wc (fun c => { c with counters := Vector.replicate 64 armed, inbox := [msg] }) WN
/-- A word of format E whose function field is 1. -/
def ES : EForm := { E0 with fn := 1 }
/-- Words stored in the scratchpad from an offset. -/
def put (off : Nat) (l : List (Nat × Nat)) (s : State) : State :=
  l.foldl (fun s p => s.store (Config.scratchKey + off + p.1) 8 0 p.2) s
/-- The machine with a posted launch record of one level and one thread at register 2. -/
def WRec : State := put 0x1000 [(0x08, 0), (0x10, 8), (0x40, 1), (0x90, 0x50001)] (wx (fun c => { c with mode := 0x100 }) W)
/-- The same in a launch whose thread may wake the record. -/
def WWake : State :=
  let s : State := wx (fun c => { c with queues := [⟨0, 0, 0, 0, 0, [], none⟩] }) (wt (fun t => { t with
    fam := fam4, wakeRight := some (BitVec.ofNat 64 (globalBase + 0x1000)) }) WRec)
  { s with launches := [{ launch4 with queue := some 0 }] }
/-- The machine with a launch posted on its queue. -/
def WPost : State := wx (fun c => { c with queues := [⟨0, 0, 0, 0, 0, [(0x1000, 0)], none⟩] }) W
/-- A Pip. -/
def pip : Pip := pipOf (cT W) 0
/-- An image of core 0. -/
def image0 : Image := ⟨0, 0, 0x100000, false, [], Core.reset 0, [], [], none⟩
/-- The machine with core 0 being evicted, and evicted. -/
def WEv (c : Bool) : State := { W with images := [{ image0 with complete := c }] }
/-- A copy of 128 bytes between two places. -/
def copy1 (j : Option (Nat × Nat)) : CmdOp := .cpy (BitVec.ofNat 64 (ownBase + 0x1000)) (BitVec.ofNat 64 (ownBase + 0x3000)) 512 1 0 0 j false
/-- The transfer queue with a command waiting, or started. -/
def WTc (c : Cmd) : State := wc (fun x => { x with tq := [⟨0, 0, [c], [], []⟩] }) W
/-- The core with one command at its transfer engine. -/
def WTs (x : Started) : State := wc (fun c => { c with tq := [qS x] }) W
/-- A descriptor: one position, 128 elements of four bytes, notification of counter 0. -/
def desc : List Word := [0, 0x20108, 0, 0, 0, 0, 0, 0, 0, 1000, 0, 0, 0, 0, 0, 0]
/-- A slot. -/
def hslot : HSlot := ⟨0, 1, .open_, 0, desc, [], 0, 0, 0, [], 0, 0, false, [], 0, none, 0, false⟩
/-- The machine with a slot in die 0 and its handle in register 2. -/
def WHu (x : HSlot) : State :=
  let s : State := wr [(.g 2, 0x10000)] W
  { s with husks := [⟨0, [x], 1, 0⟩] }
/-- The machine whose thread waits for a Husk's reply. -/
def WHo : State :=
  let s := wt (fun t => { t with run := .waiting .reply, pend := [mkPending 5 0 {} 0 0 0 [] [] .none (some (.hopen E0))] }) WCn
  wx (fun c => { c with quota := [(0, 4)], ceil := [(0, 4)] }) s
/-- A second core of the context. -/
def wc1 (s : State) : State :=
  { s with cores := s.cores ++ [{ Core.reset 1 with residents := [⟨0, 0, 0xFFFF, 0, Config.scratchSize, 0⟩] }] }
/-- A word of format E with its first flag. -/
def EF : EForm := { E0 with fl := 1 }
/-- An operation whose D is register 4. -/
def ED : EForm := { E0 with d := 4 }
/-- A started copy that counts. -/
def cp : Started := begun (copy1 (some (0, 0))) 0 0
/-- What the reads of a started copy's first packet come to. -/
def readsOf (x : Started) (s : State) : State × PacketReads :=
  let j := (nextByte x.cmd.op x.doneUnits (copyFuel x.cmd.op) x.pos).getD 0
  readRuns x.cmd (nextPieces x j) (s.updStarted 9 (fun x => { x with pos := j })) ⟨[], none, []⟩
/-- The same of the copy that counts. -/
def cpRead : State × PacketReads := readsOf cp (WTs cp)
/-- Its first packet. -/
def packet : Packet := ⟨9, (ownBase + 0x3000) / 256, cpRead.2.got, none, false, none⟩
/-- What its write comes to. -/
def cpWrite : State × List CopyRun × Option FaultInfo × List (Nat × List Word) := writeRuns cp.cmd (joinRuns packet.runs) (WTs cp) [] []
theorem write_ok {x : State × List CopyRun × Option FaultInfo × List (Nat × List Word)}
    (h : x.2.2.1.isNone = true ∧ x.2.2.2.isEmpty = true) : x = (x.1, x.2.1, none, []) := by
  rcases x with ⟨a, b, _ | c, _ | ⟨d, l⟩⟩
  · rfl
  · cases h.2
  · cases h.1
  · cases h.1
/-- The same with its last packet written. -/
def cpDone : Started := { cp with doneUnits := [(ownBase + 0x3000) / 256, (ownBase + 0x3000) / 256 + 1] }
/-- The header of the command endpoint's next message, and of the first message of the context's queue 0. -/
def hdr : Hdr := ⟨0xFFFF, 0, 0⟩
/-- The header of a host command. -/
def hdr0 : Hdr := ⟨0, 0, 0⟩
/-- The machine with a thread that is stopped, or halted. -/
def WSt : State := wt (fun t => { t with run := .stopped 4 }) W
/-- A stopped thread with its block in a live dump. -/
def WStB : State := { WSt with blocks := [(0x2000, cT WSt)] }
/-- The thread halted. -/
def WHt : State := wt (fun t => { t with run := .halted }) W
/-- The machine with a port agent holding guard 3. -/
def WPh : State := wx (fun c => { c with portHolds := [(0xF0000, ⟨3, true, 0⟩)] }) W
/-- The machine with its lock held by the side band. -/
def lk : Lock := ⟨true, 5, 0, none, false⟩
/-- A booted machine that holds the management lock. -/
def WLk : State := { W with mgmt := { W.mgmt with lock := some lk, step := 3 } }
/-- The machine with its snapshot armed. -/
def WSn : State := { W with probe := { W.probe with snapctl := 0x8B } }
/-- The machine with its snapshot armed: the latch is due at the tick of now's triggers, or of earlier ones; not armed. -/
def WSj : State := { WSn with probe := { WSn.probe with latchAt := some 16 } }
/-- The latch due before. -/
def WSk : State := { WSn with probe := { WSn.probe with latchAt := some 15 } }
/-- Not armed. -/
def WSm : State := { W with probe := { W.probe with snapctl := 0x08 } }
/-- A latch that is due. -/
def WSa : State := { W with probe := { W.probe with snapctl := 0x02, latchAt := some 0 } }
/-- The machine with a race ring that has a record to place. -/
def ring1 : Ring := ⟨0, 0, 0x1000000, 6, 0, 0, 0, false, [(0, 0, [1], [])]⟩
/-- A machine with a sample ring. -/
def WRi : State := { W with rings := [ring1], thirds := 30 }
/-- The machine with an old GUARDED line. -/
def WAg : State :=
  wx (fun c => { c with guards := [(3, ⟨false, 0, 0x9000, 0⟩)] }) ((W.setMd (spot / 128) (mkMd 2 false 0 0 3 0)).setOwner (spot / 128) 1)
/-- A thread at the end of the loops whose bits ts has, with their counts. -/
def lT (ts : Word) (n0 n1 : BitVec 32) : Thread :=
  let t := cT W
  { t with ts := ts, lc := (t.lc.set 0 n0).set 1 n1, le := (t.le.set 0 t.pc).set 1 t.pc }
/-- The machine with a state in which the next step issues its word. -/
def WI : State := State.reset.withFetchWord 64 (0x400 * 2 ^ 48)
/-- The machine whose thread has a handler. -/
def WTr : State := wt (fun t => { t with fam := { t.fam with handler := 0x1000 } }) W
/-- The machine whose context owns its core's ports, with a word in the north latch. -/
def WPo : State := wc (fun c => { c with portOwner := some 0, latch := c.latch.set 0 (some 7), latch0 := c.latch0.set 0 (some 7) }) W
/-- The machine with its lock held by the host, and by the side band. -/
def WHl : State := { W with mgmt := { W.mgmt with lock := some ⟨false, 5, 0, none, false⟩ } }
/-- The state that an outcome gives. -/
def nextOf (d : State) : Out → State
  | .next s => s
  | _ => d
/-- A next state. -/
def isNext : Out → Bool
  | .next _ => true
  | _ => false
theorem next_eq {d : State} {o : Out} (h : isNext o = true) : o = .next (nextOf d o) := by
  cases o with
  | next => rfl
  | _ => cases h
/-- The word of an addition, and one that is no instruction's. -/
def addWord : Word := (encode (.add R0)).getD 0
/-- A word whose operation code is none of the table's. -/
def noWord : Word := 0xFF00000000000000
/-- A machine whose next step issues a word. -/
def WIs (w : Word) : State := State.reset.withFetchWord 64 w.toNat
/-- The same, its thread at its segment's bound, or at a line that is not fetched. -/
def WIb : State := (WIs addWord).updThread r0 (fun t => { t with bySeq := true, fam := { t.fam with bound := t.pc } })
/-- The placed machine with its PC past its code. -/
def WIm : State := (WIs addWord).updThread r0 (fun t => { t with pc := 0x2000000 })
/-- The thread of a machine. -/
def tI (s : State) : Thread := (s.thread? r0).getD (placedThread s)
theorem some_of {α : Type} {d : α} {x : Option α} (h : x.isSome = true) : x = some (x.getD d) := by
  cases x with
  | some => rfl
  | none => cases h
theorem none_of {α : Type} {x : Option α} (h : x.isNone = true) : x = none := by
  cases x with
  | none => rfl
  | some => cases h
/-- A mover that does nothing. -/
def noMover : Mover := .plain .acornPulse
/-- The machine past the issues of its cycle, with an event to come. -/
def WNo : State := { W with stage := 1 }
/-- The same, its draw ending the cycle. -/
def WEnd : State := { WNo with oracle := { WNo.oracle with elapse := true } }
/-- The machine whose core's latch of deposits is full, with one to come for a register that is not EMPTY. -/
def WDf : State := wc (fun c => { c with depLatch := List.replicate 8 dep }) W
/-- The machine whose core's inbound buffer is full of messages. -/
def WIn : State := wc (fun c => { c with inbox := List.replicate 16 msg }) W
/-- The launch of two threads, its first to start by a message. -/
def subMsg : Msg := { msg with origin := .subLaunch, fam := { fam4 with path := [1], linear := 1 } }
/-- The same with both members at their end. -/
def WLx : State := { WLa with launches := [{ launch4 with exits := [(0, 0), (1, 0)] }] }
/-- A copy of 128 bytes from a place that is poisoned. -/
def cpP : State := (WTs cp).setPois (spot / 128) 1
/-- The machine with a live dump begun. -/
def WDu : State := { W with images := [{ image0 with dump := some 0 }] }
/-- A request to a Husk of the thread that waits. -/
def ask (k : HAsk) : HOpen := ⟨r0, 5, 0, desc, false, false, k⟩
/-- A thread that waits for a Husk's answer, its slot open. -/
def WHa : State := { WHo with husks := [⟨0, [hslot], 1, 0⟩], threads := (wt (fun t => t.setFull (.g 2) 0x10000) WHo).threads }
/-- A thread in its handler, with a record of a matrix command. -/
def HC : State :=
  let c : CauseWord := { reg := 60, kind := 9, acc := true }
  wc (fun x => { x with mq := [⟨0, 0, [], [begun (.prel 0) 0 0], []⟩] })
    (wt (fun t => { t with trapped := .command 9 }) (HW.store (Config.scratchKey + 0x3000) 8 0 (c.word 1).toNat))
/-- The machine whose first comparator has the placed word's address. -/
def WCm : State := wx (fun c => { c with dbg := true, addrm := c.addrm.set 0 (BitVec.ofNat 64 (ownBase + 1)) }) (WIs addWord)
/-- The machine whose thread has a misaligned PC. -/
def WPc : State := wt (fun t => { t with pc := BitVec.ofNat 64 (ownBase + 4) }) (WIs addWord)
/-- The machine before whose issues a ticket's end is due. -/
def WTk : State := { W with waiters := [⟨7, .guard 3, 0, r0, 0, false, false, 0, 0, none, none⟩], cycle := 600 }
/-- The machine whose thread has a fault to take, in its turn. -/
def WTd : State := (WIs addWord).updThread r0 (fun t => { t with
  pend := [{ sentStore with fault := some (0, fault1) }], fam := { t.fam with handler := 0x1000 } })
/-- The machine whose thread goes on after a fence wait. -/
def WGo : State := { (WIs addWord).updThread r0 (fun t => { t with run := .waiting .over }) with stage := 1 }
/-- The machine at a boot step whose entry shows failure. -/
def WBt (n : Nat) : State := { W with mgmt := { W.mgmt with step := n, record := List.replicate 7 (1, 1, 1) } }
/-- The machine at a boot step that nothing has tried. -/
def WBn (n : Nat) : State := { W with mgmt := { W.mgmt with step := n } }
/-- The machine with guard 3 held shared by one agent. -/
def WS3 : State := wx (fun c => { c with guards := [(3, ⟨false, 0, 0, 1⟩)] }) W
/-- The machine with guard 3 held exclusively by its thread, its core having a second one. -/
def WX2 : State := wx (fun c => { c with guards := [(3, ⟨true, 0, 0, 0⟩)] }) WH2
/-- The machine with an empty queue. -/
def WZe : State := wc (fun c => { c with queues := [{ theQueue with items := [] }] }) W

/-- Words of spec 02's encodings decode to their instructions: scalar. -/
theorem test_decode_scalar :
    decodeWord 0x015451875410FFFC = .ok (.add ⟨⟨2, 1, 1, 5, 6, 7⟩, 1, 1, 0x410, 0xFFFC⟩)
    ∧ decodeWord 0x025451875410FFFC = .ok (.sub ⟨⟨2, 1, 1, 5, 6, 7⟩, 1, 1, 0x410, 0xFFFC⟩)
    ∧ decodeWord 0x035451875400FFFC = .ok (.mul ⟨⟨2, 1, 1, 5, 6, 7⟩, 1, 1, 0x400, 0xFFFC⟩)
    ∧ decodeWord 0x045451875400FFFC = .ok (.mulh ⟨⟨2, 1, 1, 5, 6, 7⟩, 1, 1, 0x400, 0xFFFC⟩)
    ∧ decodeWord 0x055451875400FFFC = .ok (.mulhu ⟨⟨2, 1, 1, 5, 6, 7⟩, 1, 1, 0x400, 0xFFFC⟩)
    ∧ decodeWord 0x065451875400FFFC = .ok (.div ⟨⟨2, 1, 1, 5, 6, 7⟩, 1, 1, 0x400, 0xFFFC⟩)
    ∧ decodeWord 0x075451875400FFFC = .ok (.divu ⟨⟨2, 1, 1, 5, 6, 7⟩, 1, 1, 0x400, 0xFFFC⟩)
    ∧ decodeWord 0x085451875400FFFC = .ok (.rem ⟨⟨2, 1, 1, 5, 6, 7⟩, 1, 1, 0x400, 0xFFFC⟩)
    ∧ decodeWord 0x095451875400FFFC = .ok (.remu ⟨⟨2, 1, 1, 5, 6, 7⟩, 1, 1, 0x400, 0xFFFC⟩)
    ∧ decodeWord 0x0A5451875400FFFC = .ok (.and ⟨⟨2, 1, 1, 5, 6, 7⟩, 1, 1, 0x400, 0xFFFC⟩)
    ∧ decodeWord 0x0B5451875400FFFC = .ok (.or ⟨⟨2, 1, 1, 5, 6, 7⟩, 1, 1, 0x400, 0xFFFC⟩)
    ∧ decodeWord 0x0C5451875400FFFC = .ok (.xor ⟨⟨2, 1, 1, 5, 6, 7⟩, 1, 1, 0x400, 0xFFFC⟩)
    ∧ decodeWord 0x0D5451875400FFFC = .ok (.andn ⟨⟨2, 1, 1, 5, 6, 7⟩, 1, 1, 0x400, 0xFFFC⟩)
    ∧ decodeWord 0x0E5451875400FFFC = .ok (.shl ⟨⟨2, 1, 1, 5, 6, 7⟩, 1, 1, 0x400, 0xFFFC⟩)
    ∧ decodeWord 0x0F5451875400FFFC = .ok (.shr ⟨⟨2, 1, 1, 5, 6, 7⟩, 1, 1, 0x400, 0xFFFC⟩)
    ∧ decodeWord 0x105451875400FFFC = .ok (.sar ⟨⟨2, 1, 1, 5, 6, 7⟩, 1, 1, 0x400, 0xFFFC⟩)
    ∧ decodeWord 0x115451875400FFFC = .ok (.rot ⟨⟨2, 1, 1, 5, 6, 7⟩, 1, 1, 0x400, 0xFFFC⟩)
    ∧ decodeWord 0x125451875400FFFC = .ok (.min ⟨⟨2, 1, 1, 5, 6, 7⟩, 1, 1, 0x400, 0xFFFC⟩)
    ∧ decodeWord 0x135451875400FFFC = .ok (.max ⟨⟨2, 1, 1, 5, 6, 7⟩, 1, 1, 0x400, 0xFFFC⟩)
    ∧ decodeWord 0x145451875400FFFC = .ok (.minu ⟨⟨2, 1, 1, 5, 6, 7⟩, 1, 1, 0x400, 0xFFFC⟩)
    ∧ decodeWord 0x155451875400FFFC = .ok (.maxu ⟨⟨2, 1, 1, 5, 6, 7⟩, 1, 1, 0x400, 0xFFFC⟩)
    ∧ decodeWord 0x165451804400FFFC = .ok (.clz ⟨⟨2, 1, 1, 5, 6, 0⟩, 1, 0, 0x400, 0xFFFC⟩)
    ∧ decodeWord 0x175451804400FFFC = .ok (.ctz ⟨⟨2, 1, 1, 5, 6, 0⟩, 1, 0, 0x400, 0xFFFC⟩)
    ∧ decodeWord 0x185451804400FFFC = .ok (.popc ⟨⟨2, 1, 1, 5, 6, 0⟩, 1, 0, 0x400, 0xFFFC⟩)
    ∧ decodeWord 0x195451875400FFFC = .ok (.bfx ⟨⟨2, 1, 1, 5, 6, 7⟩, 1, 1, 0x400, 0xFFFC⟩)
    ∧ decodeWord 0x1A5451875400FFFC = .ok (.bfxu ⟨⟨2, 1, 1, 5, 6, 7⟩, 1, 1, 0x400, 0xFFFC⟩)
    ∧ decodeWord 0x1B5451875400FFFC = .ok (.bfi ⟨⟨2, 1, 1, 5, 6, 7⟩, 1, 1, 0x400, 0xFFFC⟩)
    ∧ decodeWord 0x1C5451875003FFFC = .ok (.sel ⟨⟨2, 1, 1, 5, 6, 7⟩, 1, 1, 3, 0xFFFC⟩) := by
  repeat' constructor

/-- Words of spec 02's encodings decode to their instructions: compare and predicate. -/
theorem test_decode_compare_and_predicate :
    decodeWord 0x1D54518754C0FFFC = .ok (.cmp ⟨⟨2, 1, 1, 5, 6, 7⟩, 1, 1, 0x4C0, 0xFFFC⟩)
    ∧ decodeWord 0x1E5C51878000000C = .ok (.cmpi ⟨⟨2, 1, 3, 5, 6, 7⟩, 0x8000000C⟩)
    ∧ decodeWord 0x1F573D355000FFFC = .ok (.kand ⟨⟨2, 1, 1, 51, 52, 53⟩, 1, 1, 0, 0xFFFC⟩)
    ∧ decodeWord 0x20573D355000FFFC = .ok (.kor ⟨⟨2, 1, 1, 51, 52, 53⟩, 1, 1, 0, 0xFFFC⟩)
    ∧ decodeWord 0x21573D355000FFFC = .ok (.kxor ⟨⟨2, 1, 1, 51, 52, 53⟩, 1, 1, 0, 0xFFFC⟩)
    ∧ decodeWord 0x22573D004000FFFC = .ok (.knot ⟨⟨2, 1, 1, 51, 52, 0⟩, 1, 0, 0, 0xFFFC⟩)
    ∧ decodeWord 0x23545D004000FFFC = .ok (.kmov ⟨⟨2, 1, 1, 5, 52, 0⟩, 1, 0, 0, 0xFFFC⟩)
    ∧ decodeWord 0x24545D355000FFFC = .ok (.kany ⟨⟨2, 1, 1, 5, 52, 53⟩, 1, 1, 0, 0xFFFC⟩)
    ∧ decodeWord 0x25545D355000FFFC = .ok (.kall ⟨⟨2, 1, 1, 5, 52, 53⟩, 1, 1, 0, 0xFFFC⟩)
    ∧ decodeWord 0x265731875000FFFC = .ok (.kset ⟨⟨2, 1, 1, 51, 6, 7⟩, 1, 1, 0, 0xFFFC⟩)
    ∧ decodeWord 0x27545D075000FFFC = .ok (.kget ⟨⟨2, 1, 1, 5, 52, 7⟩, 1, 1, 0, 0xFFFC⟩) := by
  repeat' constructor

/-- Words of spec 02's encodings decode to their instructions: register state and immediate. -/
theorem test_decode_register_state_and_immediate :
    decodeWord 0x285451804000FFFC = .ok (.mov ⟨⟨2, 1, 1, 5, 6, 0⟩, 1, 0, 0, 0xFFFC⟩)
    ∧ decodeWord 0x2950518000000000 = .ok (.movf ⟨⟨2, 1, 0, 5, 6, 0⟩, 0, 0, 0, 0⟩)
    ∧ decodeWord 0x2A50518000000000 = .ok (.rst ⟨⟨2, 1, 0, 5, 6, 0⟩, 0, 0, 0, 0⟩)
    ∧ decodeWord 0x2B50500000000000 = .ok (.rclr ⟨⟨2, 1, 0, 5, 0, 0⟩, 0, 0, 0, 0⟩)
    ∧ decodeWord 0x2C5C51808000000C = .ok (.addi ⟨⟨2, 1, 3, 5, 6, 0⟩, 0x8000000C⟩)
    ∧ decodeWord 0x2D5C51808000000C = .ok (.andi ⟨⟨2, 1, 3, 5, 6, 0⟩, 0x8000000C⟩)
    ∧ decodeWord 0x2E5C51808000000C = .ok (.ori ⟨⟨2, 1, 3, 5, 6, 0⟩, 0x8000000C⟩)
    ∧ decodeWord 0x2F5C51808000000C = .ok (.xori ⟨⟨2, 1, 3, 5, 6, 0⟩, 0x8000000C⟩)
    ∧ decodeWord 0x305C51800000002C = .ok (.shli ⟨⟨2, 1, 3, 5, 6, 0⟩, 44⟩)
    ∧ decodeWord 0x315C51800000002C = .ok (.shri ⟨⟨2, 1, 3, 5, 6, 0⟩, 44⟩)
    ∧ decodeWord 0x325C51800000002C = .ok (.sari ⟨⟨2, 1, 3, 5, 6, 0⟩, 44⟩)
    ∧ decodeWord 0x335C50008000000C = .ok (.movi ⟨⟨2, 1, 3, 5, 0, 0⟩, 0x8000000C⟩)
    ∧ decodeWord 0x345C51808000000C = .ok (.movh ⟨⟨2, 1, 3, 5, 6, 0⟩, 0x8000000C⟩)
    ∧ decodeWord 0x355C50008000000C = .ok (.adr ⟨⟨2, 1, 3, 5, 0, 0⟩, 0x8000000C⟩) := by
  repeat' constructor

/-- Words of spec 02's encodings decode to their instructions: control. -/
theorem test_decode_control :
    decodeWord 0x365C0000FFFFFFFD = .ok (.br ⟨⟨2, 1, 3, 0, 0, 0⟩, 0xFFFFFFFD⟩)
    ∧ decodeWord 0x375401804000FFFC = .ok (.bri ⟨⟨2, 1, 1, 0, 6, 0⟩, 1, 0, 0, 0xFFFC⟩)
    ∧ decodeWord 0x385C0000FFFFFFFD = .ok (.call ⟨⟨2, 1, 3, 0, 0, 0⟩, 0xFFFFFFFD⟩)
    ∧ decodeWord 0x395401870513FFFC = .ok (.calli ⟨⟨2, 1, 1, 0, 6, 7⟩, 0, 0, 0x513, 0xFFFC⟩)
    ∧ decodeWord 0x3A5400000000FFFC = .ok (.ret ⟨⟨2, 1, 1, 0, 0, 0⟩, 0, 0, 0, 0xFFFC⟩)
    ∧ decodeWord 0x3B50000000000000 = .ok (.rasclr ⟨⟨2, 1, 0, 0, 0, 0⟩, 0, 0, 0, 0⟩)
    ∧ decodeWord 0x3C5C018000000005 = .ok (.loop ⟨⟨2, 1, 3, 0, 6, 0⟩, 5⟩)
    ∧ decodeWord 0x3D5C018700000005 = .ok (.loopi ⟨⟨2, 1, 3, 0, 6, 7⟩, 5⟩)
    ∧ decodeWord 0x3E5401800000FFFC = .ok (.exit ⟨⟨2, 1, 1, 0, 6, 0⟩, 0, 0, 0, 0xFFFC⟩)
    ∧ decodeWord 0x3F5400000000FFFC = .ok (.yield ⟨⟨2, 1, 1, 0, 0, 0⟩, 0, 0, 0, 0xFFFC⟩)
    ∧ decodeWord 0x4050018000000000 = .ok (.park ⟨⟨2, 1, 0, 0, 6, 0⟩, 0, 0, 0, 0⟩)
    ∧ decodeWord 0x4150000000000000 = .ok (.nop ⟨⟨2, 1, 0, 0, 0, 0⟩, 0, 0, 0, 0⟩)
    ∧ decodeWord 0x425401800513FFFC = .ok (.trap ⟨⟨2, 1, 1, 0, 6, 0⟩, 0, 0, 0x513, 0xFFFC⟩)
    ∧ decodeWord 0x435400000000FFFC = .ok (.eret ⟨⟨2, 1, 1, 0, 0, 0⟩, 0, 0, 0, 0xFFFC⟩)
    ∧ decodeWord 0x445400000000FFFC = .ok (.rply ⟨⟨2, 1, 1, 0, 0, 0⟩, 0, 0, 0, 0xFFFC⟩)
    ∧ decodeWord 0x455450000043FFFC = .ok (.mfs ⟨⟨2, 1, 1, 5, 0, 0⟩, 0, 0, 0x43, 0xFFFC⟩)
    ∧ decodeWord 0x465401804008FFFC = .ok (.mts ⟨⟨2, 1, 1, 0, 6, 0⟩, 1, 0, 8, 0xFFFC⟩)
    ∧ decodeWord 0x475450000000FFFC = .ok (.tstamp ⟨⟨2, 1, 1, 5, 0, 0⟩, 0, 0, 0, 0xFFFC⟩)
    ∧ decodeWord 0x485400000513FFFC = .ok (.brk ⟨⟨2, 1, 1, 0, 0, 0⟩, 0, 0, 0x513, 0xFFFC⟩) := by
  repeat' constructor

/-- Words of spec 02's encodings decode to their instructions: memory. -/
theorem test_decode_memory :
    decodeWord 0x50545180C7FEFFFC = .ok (.ld ⟨⟨2, 1, 1, 5, 6, 0⟩, 3, 3, 0x1FE, 0xFFFC⟩)
    ∧ decodeWord 0x51545187C7FEFFFC = .ok (.ldx ⟨⟨2, 1, 1, 5, 6, 7⟩, 3, 3, 0x1FE, 0xFFFC⟩)
    ∧ decodeWord 0x52540187C5FEFFFC = .ok (.st ⟨⟨2, 1, 1, 0, 6, 7⟩, 3, 2, 0x1FE, 0xFFFC⟩)
    ∧ decodeWord 0x53545187C5FEFFFC = .ok (.stx ⟨⟨2, 1, 1, 5, 6, 7⟩, 3, 2, 0x1FE, 0xFFFC⟩)
    ∧ decodeWord 0x54500180C3FE0000 = .ok (.pfh ⟨⟨2, 1, 0, 0, 6, 0⟩, 3, 1, 0x1FE, 0⟩)
    ∧ decodeWord 0x5550000000000000 = .ok (.fence ⟨⟨2, 1, 0, 0, 0, 0⟩, 0, 0, 0, 0⟩)
    ∧ decodeWord 0x56545187EFFEFFFC = .ok (.amo ⟨⟨2, 1, 1, 5, 6, 7⟩, 3, 23, 0x1FE, 0xFFFC⟩)
    ∧ decodeWord 0x57545187E1FEFFFC = .ok (.cas ⟨⟨2, 1, 1, 5, 6, 7⟩, 3, 16, 0x1FE, 0xFFFC⟩)
    ∧ decodeWord 0x58540187EFFEFFFC = .ok (.red ⟨⟨2, 1, 1, 0, 6, 7⟩, 3, 23, 0x1FE, 0xFFFC⟩)
    ∧ decodeWord 0x5954018785FEFFFC = .ok (.fred ⟨⟨2, 1, 1, 0, 6, 7⟩, 2, 2, 0x1FE, 0xFFFC⟩) := by
  repeat' constructor

/-- Words of spec 02's encodings decode to their instructions: guard. -/
theorem test_decode_guard :
    decodeWord 0x5A54518000B3FFFC = .ok (.gacq ⟨⟨2, 1, 1, 5, 6, 0⟩, 0, 1, 3, 3, 0xFFFC⟩)
    ∧ decodeWord 0x5B5401800000FFFC = .ok (.grel ⟨⟨2, 1, 1, 0, 6, 0⟩, 0, 0, 0, 0, 0xFFFC⟩)
    ∧ decodeWord 0x5C54018700B0FFFC = .ok (.ghand ⟨⟨2, 1, 1, 0, 6, 7⟩, 0, 1, 3, 0, 0xFFFC⟩)
    ∧ decodeWord 0x5D5401870005FFFC = .ok (.gpub ⟨⟨2, 1, 1, 0, 6, 7⟩, 0, 0, 0, 5, 0xFFFC⟩)
    ∧ decodeWord 0x5E5401800000FFFC = .ok (.gbind ⟨⟨2, 1, 1, 0, 6, 0⟩, 0, 0, 0, 0, 0xFFFC⟩)
    ∧ decodeWord 0x5F5451800000FFFC = .ok (.gstat ⟨⟨2, 1, 1, 5, 6, 0⟩, 0, 0, 0, 0, 0xFFFC⟩) := by
  repeat' constructor

/-- Words of spec 02's encodings decode to their instructions: vector memory and lane. -/
theorem test_decode_vector_memory_and_lane :
    decodeWord 0x6055518087FEFFFC = .ok (.vld ⟨⟨2, 1, 1, 21, 6, 0⟩, 2, 3, 0x1FE, 0xFFFC⟩)
    ∧ decodeWord 0x6154019787FEFFFC = .ok (.vst ⟨⟨2, 1, 1, 0, 6, 23⟩, 2, 3, 0x1FE, 0xFFFC⟩)
    ∧ decodeWord 0x6255518787FEFFFC = .ok (.vlds ⟨⟨2, 1, 1, 21, 6, 7⟩, 2, 3, 0x1FE, 0xFFFC⟩)
    ∧ decodeWord 0x6354519787FEFFFC = .ok (.vsts ⟨⟨2, 1, 1, 5, 6, 23⟩, 2, 3, 0x1FE, 0xFFFC⟩)
    ∧ decodeWord 0x6455519787FEFFFC = .ok (.vgth ⟨⟨2, 1, 1, 21, 6, 23⟩, 2, 3, 0x1FE, 0xFFFC⟩)
    ∧ decodeWord 0x6555519787FEFFFC = .ok (.vsct ⟨⟨2, 1, 1, 21, 6, 23⟩, 2, 3, 0x1FE, 0xFFFC⟩)
    ∧ decodeWord 0x6655518781FEFFFC = .ok (.vldt ⟨⟨2, 1, 1, 21, 6, 7⟩, 2, 0, 0x1FE, 0xFFFC⟩)
    ∧ decodeWord 0x675551804003FFFC = .ok (.vbc ⟨⟨2, 1, 1, 21, 6, 0⟩, 1, 0, 3, 0xFFFC⟩)
    ∧ decodeWord 0x685455875400FFFC = .ok (.vext ⟨⟨2, 1, 1, 5, 22, 7⟩, 1, 1, 0x400, 0xFFFC⟩)
    ∧ decodeWord 0x695551875000FFFC = .ok (.vins ⟨⟨2, 1, 1, 21, 6, 7⟩, 1, 1, 0, 0xFFFC⟩)
    ∧ decodeWord 0x6A5551804003FFFC = .ok (.viota ⟨⟨2, 1, 1, 21, 6, 0⟩, 1, 0, 3, 0xFFFC⟩) := by
  repeat' constructor

/-- Words of spec 02's encodings decode to their instructions: vector integer. -/
theorem test_decode_vector_integer :
    decodeWord 0x705555975003FFFC = .ok (.vadd ⟨⟨2, 1, 1, 21, 22, 23⟩, 1, 1, 3, 0xFFFC⟩)
    ∧ decodeWord 0x715555975003FFFC = .ok (.vsub ⟨⟨2, 1, 1, 21, 22, 23⟩, 1, 1, 3, 0xFFFC⟩)
    ∧ decodeWord 0x725555975003FFFC = .ok (.vmul ⟨⟨2, 1, 1, 21, 22, 23⟩, 1, 1, 3, 0xFFFC⟩)
    ∧ decodeWord 0x735555975003FFFC = .ok (.vmulh ⟨⟨2, 1, 1, 21, 22, 23⟩, 1, 1, 3, 0xFFFC⟩)
    ∧ decodeWord 0x745555975003FFFC = .ok (.vmad ⟨⟨2, 1, 1, 21, 22, 23⟩, 1, 1, 3, 0xFFFC⟩)
    ∧ decodeWord 0x755545970408FFFC = .ok (.vwad ⟨⟨2, 1, 1, 20, 22, 23⟩, 0, 0, 0x408, 0xFFFC⟩)
    ∧ decodeWord 0x765555975003FFFC = .ok (.vand ⟨⟨2, 1, 1, 21, 22, 23⟩, 1, 1, 3, 0xFFFC⟩)
    ∧ decodeWord 0x775555975003FFFC = .ok (.vor ⟨⟨2, 1, 1, 21, 22, 23⟩, 1, 1, 3, 0xFFFC⟩)
    ∧ decodeWord 0x785555975003FFFC = .ok (.vxor ⟨⟨2, 1, 1, 21, 22, 23⟩, 1, 1, 3, 0xFFFC⟩)
    ∧ decodeWord 0x795555975003FFFC = .ok (.vshl ⟨⟨2, 1, 1, 21, 22, 23⟩, 1, 1, 3, 0xFFFC⟩)
    ∧ decodeWord 0x7A5555975003FFFC = .ok (.vshr ⟨⟨2, 1, 1, 21, 22, 23⟩, 1, 1, 3, 0xFFFC⟩)
    ∧ decodeWord 0x7B5555975003FFFC = .ok (.vsar ⟨⟨2, 1, 1, 21, 22, 23⟩, 1, 1, 3, 0xFFFC⟩)
    ∧ decodeWord 0x7C5555975003FFFC = .ok (.vmin ⟨⟨2, 1, 1, 21, 22, 23⟩, 1, 1, 3, 0xFFFC⟩)
    ∧ decodeWord 0x7D5555975003FFFC = .ok (.vmax ⟨⟨2, 1, 1, 21, 22, 23⟩, 1, 1, 3, 0xFFFC⟩)
    ∧ decodeWord 0x7E5555975003FFFC = .ok (.vminu ⟨⟨2, 1, 1, 21, 22, 23⟩, 1, 1, 3, 0xFFFC⟩)
    ∧ decodeWord 0x7F5555975003FFFC = .ok (.vmaxu ⟨⟨2, 1, 1, 21, 22, 23⟩, 1, 1, 3, 0xFFFC⟩)
    ∧ decodeWord 0x805555804003FFFC = .ok (.vabs ⟨⟨2, 1, 1, 21, 22, 0⟩, 1, 0, 3, 0xFFFC⟩)
    ∧ decodeWord 0x8157359750C3FFFC = .ok (.vcmp ⟨⟨2, 1, 1, 51, 22, 23⟩, 1, 1, 0xC3, 0xFFFC⟩)
    ∧ decodeWord 0x825555975003FFFC = .ok (.vsel ⟨⟨2, 1, 1, 21, 22, 23⟩, 1, 1, 3, 0xFFFC⟩)
    ∧ decodeWord 0x835555804003FFFC = .ok (.vscan ⟨⟨2, 1, 1, 21, 22, 0⟩, 1, 0, 3, 0xFFFC⟩)
    ∧ decodeWord 0x84545580440BFFFC = .ok (.vred ⟨⟨2, 1, 1, 5, 22, 0⟩, 1, 0, 0x40B, 0xFFFC⟩)
    ∧ decodeWord 0x855555975003FFFC = .ok (.vperm ⟨⟨2, 1, 1, 21, 22, 23⟩, 1, 1, 3, 0xFFFC⟩) := by
  repeat' constructor

/-- Words of spec 02's encodings decode to their instructions: vector float. -/
theorem test_decode_vector_float :
    decodeWord 0x885555975410FFFC = .ok (.vfadd ⟨⟨2, 1, 1, 21, 22, 23⟩, 1, 1, 0x410, 0xFFFC⟩)
    ∧ decodeWord 0x895555975410FFFC = .ok (.vfsub ⟨⟨2, 1, 1, 21, 22, 23⟩, 1, 1, 0x410, 0xFFFC⟩)
    ∧ decodeWord 0x8A5555975410FFFC = .ok (.vfmul ⟨⟨2, 1, 1, 21, 22, 23⟩, 1, 1, 0x410, 0xFFFC⟩)
    ∧ decodeWord 0x8B5555975410FFFC = .ok (.vfma ⟨⟨2, 1, 1, 21, 22, 23⟩, 1, 1, 0x410, 0xFFFC⟩)
    ∧ decodeWord 0x8C5555975400FFFC = .ok (.vfmin ⟨⟨2, 1, 1, 21, 22, 23⟩, 1, 1, 0x400, 0xFFFC⟩)
    ∧ decodeWord 0x8D5555975400FFFC = .ok (.vfmax ⟨⟨2, 1, 1, 21, 22, 23⟩, 1, 1, 0x400, 0xFFFC⟩)
    ∧ decodeWord 0x8E5555975410FFFC = .ok (.vfdiv ⟨⟨2, 1, 1, 21, 22, 23⟩, 1, 1, 0x410, 0xFFFC⟩)
    ∧ decodeWord 0x8F5555804410FFFC = .ok (.vfsqrt ⟨⟨2, 1, 1, 21, 22, 0⟩, 1, 0, 0x410, 0xFFFC⟩)
    ∧ decodeWord 0x905555804410FFFC = .ok (.vfrcp ⟨⟨2, 1, 1, 21, 22, 0⟩, 1, 0, 0x410, 0xFFFC⟩)
    ∧ decodeWord 0x915555804410FFFC = .ok (.vfrsq ⟨⟨2, 1, 1, 21, 22, 0⟩, 1, 0, 0x410, 0xFFFC⟩)
    ∧ decodeWord 0x925555804400FFFC = .ok (.vfexp2 ⟨⟨2, 1, 1, 21, 22, 0⟩, 1, 0, 0x400, 0xFFFC⟩)
    ∧ decodeWord 0x935555804400FFFC = .ok (.vflog2 ⟨⟨2, 1, 1, 21, 22, 0⟩, 1, 0, 0x400, 0xFFFC⟩)
    ∧ decodeWord 0x945555804400FFFC = .ok (.vftanh ⟨⟨2, 1, 1, 21, 22, 0⟩, 1, 0, 0x400, 0xFFFC⟩)
    ∧ decodeWord 0x9557359750C3FFFC = .ok (.vfcmp ⟨⟨2, 1, 1, 51, 22, 23⟩, 1, 1, 0xC3, 0xFFFC⟩)
    ∧ decodeWord 0x965555804400FFFC = .ok (.vfscan ⟨⟨2, 1, 1, 21, 22, 0⟩, 1, 0, 0x400, 0xFFFC⟩)
    ∧ decodeWord 0x975455804400FFFC = .ok (.vfred ⟨⟨2, 1, 1, 5, 22, 0⟩, 1, 0, 0x400, 0xFFFC⟩)
    ∧ decodeWord 0x985555804513FFFC = .ok (.vfcvt ⟨⟨2, 1, 1, 21, 22, 0⟩, 1, 0, 0x513, 0xFFFC⟩)
    ∧ decodeWord 0x9955558040C3FFFC = .ok (.vmxq ⟨⟨2, 1, 1, 21, 22, 0⟩, 1, 0, 0xC3, 0xFFFC⟩)
    ∧ decodeWord 0x9A5555804513FFFC = .ok (.vmxd ⟨⟨2, 1, 1, 21, 22, 0⟩, 1, 0, 0x513, 0xFFFC⟩) := by
  repeat' constructor

/-- Words of spec 02's encodings decode to their instructions: matrix. -/
theorem test_decode_matrix :
    decodeWord 0xA05400005000FFFC = .ok (.pclm ⟨⟨2, 1, 1, 0, 0, 0⟩, 0x50, 0, 0, 0, 0xFFFC⟩)
    ∧ decodeWord 0xA15400005000FFFC = .ok (.prel ⟨⟨2, 1, 1, 0, 0, 0⟩, 0x50, 0, 0, 0, 0xFFFC⟩)
    ∧ decodeWord 0xA25401873501FFFC = .ok (.pld ⟨⟨2, 1, 1, 0, 6, 7⟩, 53, 0, 0, 1, 0xFFFC⟩)
    ∧ decodeWord 0xA3540187B200FFFC = .ok (.pldt ⟨⟨2, 1, 1, 0, 6, 7⟩, 0xB2, 0, 0, 0, 0xFFFC⟩)
    ∧ decodeWord 0xA4540000000DFFFC = .ok (.aclm ⟨⟨2, 1, 1, 0, 0, 0⟩, 0, 0, 0, 13, 0xFFFC⟩)
    ∧ decodeWord 0xA55400000008FFFC = .ok (.arel ⟨⟨2, 1, 1, 0, 0, 0⟩, 0, 0, 0, 8, 0xFFFC⟩)
    ∧ decodeWord 0xA65400000008FFFC = .ok (.azero ⟨⟨2, 1, 1, 0, 0, 0⟩, 0, 0, 0, 8, 0xFFFC⟩)
    ∧ decodeWord 0xA7540000B208FFFC = .ok (.mma ⟨⟨2, 1, 1, 0, 0, 0⟩, 0xB2, 0, 0, 8, 0xFFFC⟩)
    ∧ decodeWord 0xA8545187350DFFFC = .ok (.drn ⟨⟨2, 1, 1, 5, 6, 7⟩, 53, 0, 0, 13, 0xFFFC⟩)
    ∧ decodeWord 0xA9545187000DFFFC = .ok (.drnm ⟨⟨2, 1, 1, 5, 6, 7⟩, 0, 0, 0, 13, 0xFFFC⟩)
    ∧ decodeWord 0xAA5401800000FFFC = .ok (.atbl ⟨⟨2, 1, 1, 0, 6, 0⟩, 0, 0, 0, 0, 0xFFFC⟩)
    ∧ decodeWord 0xAB50500000010000 = .ok (.mstat ⟨⟨2, 1, 0, 5, 0, 0⟩, 0, 0, 0, 1, 0⟩) := by
  repeat' constructor

/-- Words of spec 02's encodings decode to their instructions: messaging and engine. -/
theorem test_decode_messaging_and_engine :
    decodeWord 0xB05451870501FFFC = .ok (.send ⟨⟨2, 1, 1, 5, 6, 7⟩, 5, 0, 0, 1, 0xFFFC⟩)
    ∧ decodeWord 0xB154018700B0FFFC = .ok (.rput ⟨⟨2, 1, 1, 0, 6, 7⟩, 0, 1, 3, 0, 0xFFFC⟩)
    ∧ decodeWord 0xB25401870000FFFC = .ok (.qinit ⟨⟨2, 1, 1, 0, 6, 7⟩, 0, 0, 0, 0, 0xFFFC⟩)
    ∧ decodeWord 0xB354018700B0FFFC = .ok (.qpush ⟨⟨2, 1, 1, 0, 6, 7⟩, 0, 1, 3, 0, 0xFFFC⟩)
    ∧ decodeWord 0xB454518000B0FFFC = .ok (.qpop ⟨⟨2, 1, 1, 5, 6, 0⟩, 0, 1, 3, 0, 0xFFFC⟩)
    ∧ decodeWord 0xB55451800000FFFC = .ok (.qlen ⟨⟨2, 1, 1, 5, 6, 0⟩, 0, 0, 0, 0, 0xFFFC⟩)
    ∧ decodeWord 0xB65450000500FFFC = .ok (.barv ⟨⟨2, 1, 1, 5, 0, 0⟩, 5, 0, 0, 0, 0xFFFC⟩)
    ∧ decodeWord 0xB75400000500FFFC = .ok (.bart ⟨⟨2, 1, 1, 0, 0, 0⟩, 5, 0, 0, 0, 0xFFFC⟩)
    ∧ decodeWord 0xB85451873501FFFC = .ok (.cpy ⟨⟨2, 1, 1, 5, 6, 7⟩, 53, 0, 0, 1, 0xFFFC⟩)
    ∧ decodeWord 0xB95451873501FFFC = .ok (.cpy2 ⟨⟨2, 1, 1, 5, 6, 7⟩, 53, 0, 0, 1, 0xFFFC⟩)
    ∧ decodeWord 0xBA5401803500FFFC = .ok (.waitc ⟨⟨2, 1, 1, 0, 6, 0⟩, 53, 0, 0, 0, 0xFFFC⟩)
    ∧ decodeWord 0xBB50018735000000 = .ok (.carm ⟨⟨2, 1, 0, 0, 6, 7⟩, 53, 0, 0, 0, 0⟩)
    ∧ decodeWord 0xBC50018035000000 = .ok (.cset ⟨⟨2, 1, 0, 0, 6, 0⟩, 53, 0, 0, 0, 0⟩)
    ∧ decodeWord 0xBD50000005000000 = .ok (.trig ⟨⟨2, 1, 0, 0, 0, 0⟩, 5, 0, 0, 0, 0⟩)
    ∧ decodeWord 0xBE5400000500FFFC = .ok (.wdep ⟨⟨2, 1, 1, 0, 0, 0⟩, 5, 0, 0, 0, 0xFFFC⟩)
    ∧ decodeWord 0xBF5401803501FFFC = .ok (.lnch ⟨⟨2, 1, 1, 0, 6, 0⟩, 53, 0, 0, 1, 0xFFFC⟩)
    ∧ decodeWord 0xC05401800000FFFC = .ok (.wake ⟨⟨2, 1, 1, 0, 6, 0⟩, 0, 0, 0, 0, 0xFFFC⟩)
    ∧ decodeWord 0xC15401800000FFFC = .ok (.migr ⟨⟨2, 1, 1, 0, 6, 0⟩, 0, 0, 0, 0, 0xFFFC⟩)
    ∧ decodeWord 0xC85451800000FFFC = .ok (.hopen ⟨⟨2, 1, 1, 5, 6, 0⟩, 0, 0, 0, 0, 0xFFFC⟩)
    ∧ decodeWord 0xC95451870000FFFC = .ok (.hput ⟨⟨2, 1, 1, 5, 6, 7⟩, 0, 0, 0, 0, 0xFFFC⟩)
    ∧ decodeWord 0xCA50518000000000 = .ok (.hclose ⟨⟨2, 1, 0, 5, 6, 0⟩, 0, 0, 0, 0, 0⟩)
    ∧ decodeWord 0xCB50518000010000 = .ok (.hstat ⟨⟨2, 1, 0, 5, 6, 0⟩, 0, 0, 0, 1, 0⟩)
    ∧ decodeWord 0xCC50518000000000 = .ok (.hcfg ⟨⟨2, 1, 0, 5, 6, 0⟩, 0, 0, 0, 0, 0⟩) := by
  repeat' constructor

/-- The checks of the formats (R34, R35, R37, R39-R44) refuse an ill-formed term each. -/
theorem test_refused_fields :
    check (.add ⟨⟨0, 1, 0, 1, 2, 3⟩, 0, 0, 0, 0⟩) = some .reservedEncoding
    ∧ check (.nop ⟨⟨0, 0, 1, 0, 0, 0⟩, 0, 0, 0, 0⟩) = some .reservedEncoding
    ∧ check (.add ⟨⟨0, 0, 0, 1, 2, 3⟩, 0, 0, 0, 8⟩) = some .reservedEncoding
    ∧ check (.clz ⟨⟨0, 0, 0, 1, 2, 3⟩, 0, 0, 0, 0⟩) = some .reservedEncoding
    ∧ check (.add ⟨⟨0, 0, 0, 1, 2, 3⟩, 3, 0, 0, 0⟩) = some .reservedEncoding
    ∧ check (.add ⟨⟨0, 0, 0, 1, 2, 3⟩, 0, 3, 0, 0⟩) = some .reservedEncoding
    ∧ check (.clz ⟨⟨0, 0, 0, 1, 2, 0⟩, 0, 1, 0, 0⟩) = some .reservedEncoding
    ∧ check (.add ⟨⟨0, 0, 0, 17, 2, 3⟩, 0, 0, 0, 0⟩) = some .illegalOperand
    ∧ check (.add ⟨⟨0, 0, 0, 1, 17, 3⟩, 0, 0, 0, 0⟩) = some .illegalOperand
    ∧ check (.add ⟨⟨0, 0, 0, 1, 2, 49⟩, 0, 0, 0, 0⟩) = some .illegalOperand
    ∧ check (.add ⟨⟨0, 0, 0, 1, 60, 3⟩, 1, 0, 0, 0⟩) = some .illegalOperand
    ∧ check (.add ⟨⟨0, 0, 0, 1, 2, 3⟩, 0, 2, 0, 0⟩) = some .illegalOperand
    ∧ check (.addi ⟨⟨0, 0, 1, 1, 2, 0⟩, 0x0⟩) = some .reservedEncoding
    ∧ check (.addi ⟨⟨0, 0, 0, 1, 2, 3⟩, 0x0⟩) = some .reservedEncoding
    ∧ check (.addi ⟨⟨0, 0, 0, 17, 2, 0⟩, 0x0⟩) = some .illegalOperand
    ∧ check (.movi ⟨⟨0, 0, 0, 1, 2, 0⟩, 0x0⟩) = some .reservedEncoding
    ∧ check (.ld ⟨⟨0, 0, 0, 1, 2, 3⟩, 0, 0, 0, 0⟩) = some .reservedEncoding
    ∧ check (.ld ⟨⟨0, 0, 0, 17, 2, 0⟩, 0, 0, 0, 0⟩) = some .illegalOperand
    ∧ check (.pfh ⟨⟨0, 0, 2, 0, 2, 0⟩, 3, 0, 0, 0⟩) = some .reservedEncoding
    ∧ check (.ld ⟨⟨0, 0, 0, 1, 2, 0⟩, 0, 0, 0, 8⟩) = some .reservedEncoding
    ∧ check (.br ⟨⟨0, 0, 1, 0, 0, 0⟩, 0x1⟩) = some .reservedEncoding
    ∧ check (.br ⟨⟨0, 0, 0, 1, 0, 0⟩, 0x1⟩) = some .reservedEncoding
    ∧ check (.loop ⟨⟨0, 0, 0, 0, 17, 0⟩, 0x1⟩) = some .illegalOperand
    ∧ check (.gacq ⟨⟨0, 0, 0, 1, 2, 0⟩, 0x0, 0, 1, 0, 0⟩) = some .reservedEncoding
    ∧ check (.gacq ⟨⟨0, 0, 0, 1, 2, 0⟩, 0x0, 1, 0, 0, 0⟩) = some .illegalOperand
    ∧ check (.grel ⟨⟨0, 0, 0, 0, 2, 0⟩, 0x0, 1, 1, 0, 0⟩) = some .illegalOperand
    ∧ check (.trig ⟨⟨0, 0, 1, 0, 0, 0⟩, 0x0, 0, 0, 0, 0⟩) = some .reservedEncoding
    ∧ check (.grel ⟨⟨0, 0, 0, 0, 49, 0⟩, 0x0, 0, 0, 0, 0⟩) = some .illegalOperand := by
  decide +kernel

/-- The entries of spec 03 (R53-R71) refuse an ill-formed term each. -/
theorem test_refused_scalar :
    check (.mul ⟨⟨0, 0, 0, 1, 2, 3⟩, 0, 0, 0x10, 0⟩) = some .reservedEncoding
    ∧ check (.add ⟨⟨0, 0, 0, 1, 2, 3⟩, 0, 0, 0x30, 0⟩) = some .reservedEncoding
    ∧ check (.clz ⟨⟨0, 0, 0, 1, 2, 0⟩, 0, 0, 1, 0⟩) = some .reservedEncoding
    ∧ check (.bfi ⟨⟨0, 0, 0, 56, 2, 3⟩, 0, 0, 0, 0⟩) = some .illegalOperand
    ∧ check (.sel ⟨⟨0, 0, 0, 1, 2, 3⟩, 0, 0, 0x400, 0⟩) = some .illegalOperand
    ∧ check (.sel ⟨⟨0, 0, 0, 1, 2, 3⟩, 0, 0, 8, 0⟩) = some .reservedEncoding
    ∧ check (.cmp ⟨⟨0, 0, 0, 49, 2, 3⟩, 0, 0, 0x280, 0⟩) = some .reservedEncoding
    ∧ check (.cmpi ⟨⟨0, 0, 0, 49, 2, 10⟩, 0x0⟩) = some .reservedEncoding
    ∧ check (.kand ⟨⟨0, 0, 0, 1, 49, 50⟩, 0, 0, 0, 0⟩) = some .illegalOperand
    ∧ check (.kmov ⟨⟨0, 0, 0, 1, 2, 0⟩, 0, 0, 0, 0⟩) = some .illegalOperand
    ∧ check (.knot ⟨⟨0, 0, 0, 49, 50, 0⟩, 0, 0, 1, 0⟩) = some .reservedEncoding
    ∧ check (.kany ⟨⟨0, 0, 0, 60, 49, 50⟩, 0, 0, 0, 0⟩) = some .illegalOperand
    ∧ check (.kset ⟨⟨0, 0, 0, 49, 50, 2⟩, 0, 0, 0, 0⟩) = some .illegalOperand
    ∧ check (.kget ⟨⟨0, 0, 0, 49, 50, 2⟩, 0, 0, 0, 0⟩) = some .illegalOperand
    ∧ check (.mov ⟨⟨0, 0, 0, 1, 17, 0⟩, 0, 0, 0, 0⟩) = some .illegalOperand
    ∧ check (.mov ⟨⟨0, 0, 0, 49, 50, 0⟩, 2, 0, 1, 0⟩) = some .reservedEncoding
    ∧ check (.movf ⟨⟨0, 0, 0, 1, 17, 0⟩, 0, 0, 0, 0⟩) = some .illegalOperand
    ∧ check (.rst ⟨⟨0, 0, 0, 17, 1, 0⟩, 0, 0, 0, 0⟩) = some .illegalOperand
    ∧ check (.rclr ⟨⟨0, 0, 0, 60, 0, 0⟩, 0, 0, 0, 0⟩) = some .illegalOperand
    ∧ check (.shli ⟨⟨0, 0, 0, 1, 2, 0⟩, 0x40⟩) = some .reservedEncoding
    ∧ check (.movi ⟨⟨0, 0, 0, 17, 0, 0⟩, 0x0⟩) = some .illegalOperand
    ∧ check (.adr ⟨⟨0, 0, 0, 49, 0, 0⟩, 0x0⟩) = some .illegalOperand := by
  decide +kernel

/-- The entries of spec 04 (R77-R97) refuse an ill-formed term each. -/
theorem test_refused_control :
    check (.bri ⟨⟨0, 0, 0, 0, 60, 0⟩, 0, 0, 0, 0⟩) = some .illegalOperand
    ∧ check (.calli ⟨⟨0, 0, 0, 0, 1, 49⟩, 0, 0, 0, 0⟩) = some .illegalOperand
    ∧ check (.ret ⟨⟨0, 0, 0, 0, 0, 0⟩, 0, 0, 1, 0⟩) = some .reservedEncoding
    ∧ check (.loop ⟨⟨0, 0, 0, 2, 1, 0⟩, 0x1⟩) = some .reservedEncoding
    ∧ check (.loop ⟨⟨0, 0, 0, 0, 1, 0⟩, 0x0⟩) = some .reservedEncoding
    ∧ check (.loopi ⟨⟨0, 0, 0, 0, 0, 0⟩, 0x80000000⟩) = some .reservedEncoding
    ∧ check (.exit ⟨⟨0, 0, 0, 0, 49, 0⟩, 0, 0, 0, 0⟩) = some .illegalOperand
    ∧ check (.park ⟨⟨0, 0, 0, 0, 60, 0⟩, 0, 0, 0, 0⟩) = some .illegalOperand
    ∧ check (.trap ⟨⟨0, 0, 0, 0, 17, 0⟩, 0, 0, 0, 0⟩) = some .illegalOperand
    ∧ check (.brk ⟨⟨0, 0, 0, 0, 1, 0⟩, 0, 0, 0, 0⟩) = some .reservedEncoding
    ∧ check (.mfs ⟨⟨0, 0, 0, 1, 0, 0⟩, 0, 0, 6, 0⟩) = some .reservedEncoding
    ∧ check (.mts ⟨⟨0, 0, 0, 0, 1, 0⟩, 0, 0, 0x50, 0⟩) = some .reservedEncoding
    ∧ check (.mts ⟨⟨0, 0, 0, 0, 1, 0⟩, 0, 0, 1, 0⟩) = some .illegalOperand
    ∧ check (.tstamp ⟨⟨0, 0, 0, 60, 0, 0⟩, 0, 0, 0, 0⟩) = some .illegalOperand := by
  decide +kernel

/-- The entries of spec 05 (R105-R131) refuse an ill-formed term each. -/
theorem test_refused_memory :
    check (.ld ⟨⟨0, 0, 0, 1, 2, 0⟩, 0, 4, 0, 0⟩) = some .reservedEncoding
    ∧ check (.st ⟨⟨0, 0, 0, 0, 2, 3⟩, 0, 1, 0, 0⟩) = some .reservedEncoding
    ∧ check (.stx ⟨⟨0, 0, 0, 17, 2, 3⟩, 0, 0, 0, 0⟩) = some .illegalOperand
    ∧ check (.pfh ⟨⟨0, 0, 0, 0, 2, 0⟩, 2, 0, 0, 0⟩) = some .reservedEncoding
    ∧ check (.amo ⟨⟨0, 0, 0, 1, 2, 3⟩, 2, 9, 0, 0⟩) = some .reservedEncoding
    ∧ check (.amo ⟨⟨0, 0, 0, 1, 2, 3⟩, 1, 0, 0, 0⟩) = some .illegalOperand
    ∧ check (.cas ⟨⟨0, 0, 0, 1, 2, 3⟩, 2, 1, 0, 0⟩) = some .reservedEncoding
    ∧ check (.red ⟨⟨0, 0, 0, 0, 2, 3⟩, 2, 8, 0, 0⟩) = some .reservedEncoding
    ∧ check (.fred ⟨⟨0, 0, 0, 0, 2, 3⟩, 2, 3, 0, 0⟩) = some .reservedEncoding
    ∧ check (.fred ⟨⟨0, 0, 0, 0, 2, 3⟩, 3, 0, 0, 0⟩) = some .illegalOperand
    ∧ check (.gacq ⟨⟨0, 0, 0, 1, 2, 0⟩, 0x0, 0, 0, 4, 0⟩) = some .reservedEncoding
    ∧ check (.ghand ⟨⟨0, 0, 0, 0, 2, 60⟩, 0x0, 0, 0, 0, 0⟩) = some .illegalOperand
    ∧ check (.gpub ⟨⟨0, 0, 0, 0, 2, 3⟩, 0x0, 0, 0, 6, 0⟩) = some .reservedEncoding
    ∧ check (.gbind ⟨⟨0, 0, 0, 0, 2, 0⟩, 0x0, 0, 0, 1, 0⟩) = some .reservedEncoding
    ∧ check (.gstat ⟨⟨0, 0, 0, 60, 2, 0⟩, 0x0, 0, 0, 0, 0⟩) = some .illegalOperand := by
  decide +kernel

/-- The entries of spec 07 (R155-R174) refuse an ill-formed term each. -/
theorem test_refused_vector :
    check (.vld ⟨⟨0, 0, 0, 17, 2, 0⟩, 3, 0, 0, 0⟩) = some .reservedEncoding
    ∧ check (.vst ⟨⟨0, 0, 0, 0, 2, 17⟩, 2, 8, 0, 0⟩) = some .reservedEncoding
    ∧ check (.vlds ⟨⟨0, 0, 0, 17, 2, 18⟩, 2, 0, 0, 0⟩) = some .illegalOperand
    ∧ check (.vsts ⟨⟨0, 0, 0, 18, 2, 17⟩, 2, 0, 0, 0⟩) = some .illegalOperand
    ∧ check (.vgth ⟨⟨0, 0, 0, 17, 2, 18⟩, 2, 16, 0, 0⟩) = some .reservedEncoding
    ∧ check (.vldt ⟨⟨0, 0, 0, 41, 2, 3⟩, 2, 0, 0, 0⟩) = some .illegalOperand
    ∧ check (.vbc ⟨⟨0, 0, 0, 17, 2, 0⟩, 0, 0, 8, 0⟩) = some .reservedEncoding
    ∧ check (.vbc ⟨⟨0, 0, 0, 17, 2, 0⟩, 0, 0, 0x400, 0⟩) = some .illegalOperand
    ∧ check (.vext ⟨⟨0, 0, 0, 1, 18, 2⟩, 0, 0, 0x408, 0⟩) = some .illegalOperand
    ∧ check (.vins ⟨⟨0, 0, 0, 17, 2, 3⟩, 0, 0, 1, 0⟩) = some .reservedEncoding
    ∧ check (.vadd ⟨⟨0, 0, 0, 17, 18, 19⟩, 0, 0, 0x30, 0⟩) = some .reservedEncoding
    ∧ check (.vadd ⟨⟨0, 0, 0, 16, 19, 18⟩, 0, 0, 0x400, 0⟩) = some .illegalOperand
    ∧ check (.vmul ⟨⟨0, 0, 0, 17, 18, 19⟩, 0, 0, 8, 0⟩) = some .reservedEncoding
    ∧ check (.vmulh ⟨⟨0, 0, 0, 17, 18, 19⟩, 0, 0, 0x10, 0⟩) = some .reservedEncoding
    ∧ check (.vwad ⟨⟨0, 0, 0, 16, 18, 19⟩, 0, 0, 0, 0⟩) = some .illegalOperand
    ∧ check (.vabs ⟨⟨0, 0, 0, 17, 18, 0⟩, 0, 0, 0x20, 0⟩) = some .reservedEncoding
    ∧ check (.vcmp ⟨⟨0, 0, 0, 49, 17, 18⟩, 0, 0, 0x280, 0⟩) = some .reservedEncoding
    ∧ check (.vsel ⟨⟨0, 0, 0, 17, 18, 49⟩, 0, 0, 0, 0⟩) = some .illegalOperand
    ∧ check (.vscan ⟨⟨0, 0, 0, 17, 18, 0⟩, 0, 0, 0x40, 0⟩) = some .reservedEncoding
    ∧ check (.vred ⟨⟨0, 0, 0, 17, 18, 0⟩, 0, 0, 0, 0⟩) = some .illegalOperand
    ∧ check (.vperm ⟨⟨0, 0, 0, 17, 18, 19⟩, 0, 0, 0x800, 0⟩) = some .reservedEncoding
    ∧ check (.vfadd ⟨⟨0, 0, 0, 17, 18, 19⟩, 0, 0, 0xc00, 0⟩) = some .reservedEncoding
    ∧ check (.vfmin ⟨⟨0, 0, 0, 17, 18, 19⟩, 0, 0, 0x10, 0⟩) = some .reservedEncoding
    ∧ check (.vfsqrt ⟨⟨0, 0, 0, 17, 18, 0⟩, 0, 0, 8, 0⟩) = some .reservedEncoding
    ∧ check (.vfexp2 ⟨⟨0, 0, 0, 17, 18, 0⟩, 0, 0, 0x10, 0⟩) = some .reservedEncoding
    ∧ check (.vfcmp ⟨⟨0, 0, 0, 49, 17, 18⟩, 0, 0, 0x100, 0⟩) = some .reservedEncoding
    ∧ check (.vfcmp ⟨⟨0, 0, 0, 49, 17, 18⟩, 0, 0, 0x400, 0⟩) = some .illegalOperand
    ∧ check (.vfscan ⟨⟨0, 0, 0, 17, 18, 0⟩, 0, 0, 0xc0, 0⟩) = some .reservedEncoding
    ∧ check (.vfred ⟨⟨0, 0, 0, 17, 18, 0⟩, 0, 0, 0, 0⟩) = some .illegalOperand
    ∧ check (.vfcvt ⟨⟨0, 0, 0, 17, 18, 0⟩, 0, 0, 0x2c0, 0⟩) = some .reservedEncoding
    ∧ check (.vfcvt ⟨⟨0, 0, 0, 17, 18, 0⟩, 0, 0, 0x140, 0⟩) = some .illegalOperand
    ∧ check (.vmxq ⟨⟨0, 0, 0, 17, 18, 0⟩, 0, 0, 0x4c0, 0⟩) = some .illegalOperand
    ∧ check (.vmxd ⟨⟨0, 0, 0, 17, 18, 0⟩, 0, 0, 0x40, 0⟩) = some .illegalOperand := by
  decide +kernel

/-- The entries of spec 08 and 09 (R176-R222, R226-R231) refuse an ill-formed term each. -/
theorem test_refused_engine :
    check (.pclm ⟨⟨0, 0, 0, 0, 0, 0⟩, 0x1, 0, 0, 0, 0⟩) = some .reservedEncoding
    ∧ check (.pld ⟨⟨0, 0, 0, 0, 1, 2⟩, 0xb, 0, 0, 0, 0⟩) = some .reservedEncoding
    ∧ check (.pld ⟨⟨0, 0, 0, 0, 1, 2⟩, 0x0, 0, 0, 0, 0⟩) = some .illegalOperand
    ∧ check (.pldt ⟨⟨0, 0, 0, 0, 1, 2⟩, 0x1, 0, 0, 1, 0⟩) = some .reservedEncoding
    ∧ check (.aclm ⟨⟨0, 0, 0, 0, 0, 0⟩, 0x0, 0, 0, 3, 0⟩) = some .reservedEncoding
    ∧ check (.azero ⟨⟨0, 0, 0, 0, 0, 0⟩, 0x0, 0, 0, 1, 0⟩) = some .reservedEncoding
    ∧ check (.mma ⟨⟨0, 0, 0, 0, 0, 0⟩, 0x0, 0, 0, 1, 0⟩) = some .reservedEncoding
    ∧ check (.drn ⟨⟨0, 0, 0, 60, 1, 2⟩, 0x10, 0, 0, 0, 0⟩) = some .illegalOperand
    ∧ check (.drn ⟨⟨0, 0, 0, 60, 1, 60⟩, 0x80, 0, 0, 0, 0⟩) = some .illegalOperand
    ∧ check (.drnm ⟨⟨0, 0, 0, 60, 1, 2⟩, 0x1, 0, 0, 0, 0⟩) = some .reservedEncoding
    ∧ check (.atbl ⟨⟨0, 0, 0, 0, 1, 0⟩, 0x0, 0, 0, 1, 0⟩) = some .reservedEncoding
    ∧ check (.mstat ⟨⟨0, 0, 0, 1, 0, 0⟩, 0x0, 0, 0, 2, 0⟩) = some .reservedEncoding
    ∧ check (.send ⟨⟨0, 0, 0, 1, 2, 3⟩, 0x11, 0, 0, 0, 0⟩) = some .reservedEncoding
    ∧ check (.send ⟨⟨0, 0, 0, 10, 2, 3⟩, 0x7, 0, 0, 0, 0⟩) = some .illegalOperand
    ∧ check (.send ⟨⟨0, 0, 0, 1, 2, 3⟩, 0x0, 0, 0, 0, 0⟩) = some .reservedEncoding
    ∧ check (.rput ⟨⟨0, 0, 0, 0, 1, 49⟩, 0x0, 0, 0, 0, 0⟩) = some .illegalOperand
    ∧ check (.qinit ⟨⟨0, 0, 0, 0, 1, 2⟩, 0x1, 0, 0, 0, 0⟩) = some .reservedEncoding
    ∧ check (.qpush ⟨⟨0, 0, 0, 0, 1, 2⟩, 0x0, 0, 0, 1, 0⟩) = some .reservedEncoding
    ∧ check (.qpop ⟨⟨0, 0, 0, 49, 1, 0⟩, 0x0, 0, 0, 0, 0⟩) = some .illegalOperand
    ∧ check (.qlen ⟨⟨0, 0, 0, 60, 1, 0⟩, 0x0, 0, 0, 0, 0⟩) = some .illegalOperand
    ∧ check (.barv ⟨⟨0, 0, 0, 60, 0, 0⟩, 0x8, 0, 0, 0, 0⟩) = some .reservedEncoding
    ∧ check (.bart ⟨⟨0, 0, 0, 0, 0, 0⟩, 0x0, 0, 0, 1, 0⟩) = some .reservedEncoding
    ∧ check (.cpy ⟨⟨0, 0, 0, 1, 2, 3⟩, 0x1, 0, 0, 0, 0⟩) = some .reservedEncoding
    ∧ check (.cpy2 ⟨⟨0, 0, 0, 15, 2, 3⟩, 0x0, 0, 0, 0, 0⟩) = some .illegalOperand
    ∧ check (.waitc ⟨⟨0, 0, 0, 0, 1, 0⟩, 0x40, 0, 0, 0, 0⟩) = some .reservedEncoding
    ∧ check (.carm ⟨⟨0, 0, 0, 0, 60, 2⟩, 0x0, 0, 0, 0, 0⟩) = some .illegalOperand
    ∧ check (.cset ⟨⟨0, 0, 0, 0, 1, 0⟩, 0x0, 0, 0, 1, 0⟩) = some .reservedEncoding
    ∧ check (.trig ⟨⟨0, 0, 0, 0, 0, 0⟩, 0x8, 0, 0, 0, 0⟩) = some .reservedEncoding
    ∧ check (.wdep ⟨⟨0, 0, 0, 0, 0, 0⟩, 0x8, 0, 0, 0, 0⟩) = some .reservedEncoding
    ∧ check (.lnch ⟨⟨0, 0, 0, 0, 1, 0⟩, 0x1, 0, 0, 0, 0⟩) = none
    ∧ check (.lnch ⟨⟨0, 0, 0, 0, 1, 0⟩, 0x40, 0, 0, 0, 0⟩) = some .reservedEncoding
    ∧ check (.wake ⟨⟨0, 0, 0, 0, 1, 0⟩, 0x0, 0, 0, 1, 0⟩) = some .reservedEncoding
    ∧ check (.migr ⟨⟨0, 0, 0, 0, 60, 0⟩, 0x0, 0, 0, 0, 0⟩) = some .illegalOperand
    ∧ check (.hopen ⟨⟨0, 0, 0, 60, 1, 0⟩, 0x0, 0, 0, 0, 0⟩) = some .illegalOperand
    ∧ check (.hput ⟨⟨0, 0, 0, 1, 60, 2⟩, 0x0, 0, 0, 0, 0⟩) = some .illegalOperand
    ∧ check (.hclose ⟨⟨0, 0, 0, 60, 1, 0⟩, 0x0, 0, 0, 1, 0⟩) = some .reservedEncoding
    ∧ check (.hstat ⟨⟨0, 0, 0, 1, 2, 0⟩, 0x0, 0, 0, 2, 0⟩) = some .reservedEncoding
    ∧ check (.hcfg ⟨⟨0, 0, 0, 49, 1, 0⟩, 0x0, 0, 0, 0, 0⟩) = some .illegalOperand := by
  decide +kernel

/-- A general register of the thread after an instruction. -/
def gAfter (i : Instr) (s : State) (r : Fin 16) : Option (Slot 64) :=
  match exec i s with
  | .next s' => (s'.thread? r0).map (fun t => t.getG r)
  | _ => none
/-- A vector register of the thread after an instruction. -/
def vAfter (i : Instr) (s : State) (r : Fin 32) : Option (Slot 1024) :=
  match exec i s with
  | .next s' => (s'.thread? r0).map (fun t => t.getV r)
  | _ => none
/-- The thread's PC, status and course after an instruction. -/
def courseAfter (i : Instr) (s : State) : Option (Word × Word × Run) :=
  match exec i s with
  | .next s' => (s'.thread? r0).map (fun t => (t.pc, t.ts, t.run))
  | _ => none
/-- Registers 3 and 4 set. -/
def ab (a b : Nat) : State := wr [(.g 3, a), (.g 4, b)] W
/-- An R word `op g5, g3, g4` with a function field. -/
def r5 (fn : BitVec 12) : RForm := ⟨⟨0, 0, 0, 5, 3, 4⟩, 0, 0, fn, 0⟩
/-- An R word `op g5, g3`. -/
def u5 (fn : BitVec 12) : RForm := ⟨⟨0, 0, 0, 5, 3, 0⟩, 0, 0, fn, 0⟩

/-- The table of examples of spec 03, after R61. -/
theorem test_scalar_examples_add_sub :
    gAfter (.add (r5 0x400)) (ab 0x7FFFFFFF 1) 5 = some (.full 0xFFFFFFFF80000000)
    ∧ gAfter (.add (r5 0x410)) (ab 0x7FFFFFFF 1) 5 = some (.full 0x7FFFFFFF)
    ∧ gAfter (.add (r5 0x420)) (ab 0x7FFFFFFF 1) 5 = some (.full 0x80000000)
    ∧ gAfter (.sub (r5 0x020)) (ab 3 5) 5 = some (.full 0) := by
  decide +kernel
/-- The same table: division and products. -/
theorem test_scalar_examples_mul_div :
    gAfter (.div (r5 0x400)) (ab 0xFFFFFFFF80000000 0xFFFFFFFFFFFFFFFF) 5 = some (.full 0xFFFFFFFF80000000)
    ∧ gAfter (.divu (r5 0)) (ab 7 0) 5 = some (.full 0xFFFFFFFFFFFFFFFF)
    ∧ gAfter (.rem (r5 0)) (ab 0xFFFFFFFFFFFFFFF9 2) 5 = some (.full 0xFFFFFFFFFFFFFFFF)
    ∧ gAfter (.mulh (r5 0)) (ab 0x8000000000000000 2) 5 = some (.full 0xFFFFFFFFFFFFFFFF)
    ∧ gAfter (.mulhu (r5 0)) (ab 0x8000000000000000 2) 5 = some (.full 1) := by
  decide +kernel
/-- The same table: shifts, counts and fields. -/
theorem test_scalar_examples_shift_field :
    gAfter (.sar (r5 0x800)) (ab 0x8000 40) 5 = some (.full 0xFFFFFFFFFFFFFFFF)
    ∧ gAfter (.rot (r5 0xC00)) (ab 0x81 9) 5 = some (.full 0xC0)
    ∧ gAfter (.clz (u5 0x400)) (ab 0xFFFFFFFF00000000 0) 5 = some (.full 32)
    ∧ gAfter (.bfx (r5 0)) (ab 0xABCD 0x0804) 5 = some (.full 0xFFFFFFFFFFFFFFBC)
    ∧ gAfter (.bfxu (r5 0)) (ab 0xABCD 0x0804) 5 = some (.full 0xBC) := by
  decide +kernel
/-- Spec 03: `movi g1, 0x12345678` and `movh g1, g1, 0x9ABCDEF0` leave 0x9ABCDEF012345678. -/
theorem test_movh :
    gAfter (.movh ⟨⟨0, 0, 0, 1, 1, 0⟩, 0x9ABCDEF0⟩) (wr [(.g 1, 0x12345678)] W) 1 = some (.full 0x9ABCDEF012345678) := by
  decide +kernel
/-- R13: a source that is consumed is EMPTY after, and may be the destination too. -/
theorem test_consume :
    gAfter (.add ⟨⟨0, 0, 0, 5, 3, 4⟩, 1, 0, 0, 0⟩) (ab 3 4) 3 = some .empty
    ∧ gAfter (.add ⟨⟨0, 0, 0, 3, 3, 4⟩, 1, 0, 0, 0⟩) (ab 3 4) 3 = some (.full 7) := by
  decide +kernel
/-- R12: a guard that fails leaves the instruction without effect, and the PC goes on. -/
theorem test_guard_fails :
    gAfter (.add ⟨⟨1, 0, 0, 5, 3, 4⟩, 0, 0, 0, 0⟩) (wr [(.k 1, 2)] (ab 3 4)) 5 = some (.full 0)
    ∧ courseAfter (.add ⟨⟨1, 0, 0, 5, 3, 4⟩, 0, 0, 0, 0⟩) (wr [(.k 1, 2)] (ab 3 4)) =
      some (BitVec.ofNat 64 (ownBase + 8), 0, .ready) := by
  decide +kernel
/-- R21, R36: under BRANCH a source that is EMPTY sends the thread NRO words away, NR set, OC EMPTY (3). -/
theorem test_branch_disposition :
    courseAfter (.add ⟨⟨0, 0, 1, 5, 3, 4⟩, 0, 0, 0, 4⟩) (wt (fun t => t.setEmpty (.g 3)) W) =
      some (BitVec.ofNat 64 (ownBase + 32), 0x3001, .ready) := by
  decide +kernel
/-- R78: `(k1) br top` with an offset of -3. -/
theorem test_br :
    courseAfter (.br ⟨⟨1, 0, 0, 0, 0, 0⟩, 0xFFFFFFFD⟩) (wr [(.k 1, 1)] W) =
      some (BitVec.ofNat 64 (ownBase - 24), 0, .ready) := by
  decide +kernel
/-- R84, R85: a count of 0 skips the body. -/
theorem test_loopi_zero :
    courseAfter (.loopi ⟨⟨0, 0, 0, 0, 0, 0⟩, 2⟩) W = some (BitVec.ofNat 64 (ownBase + 24), 0, .ready) := by
  decide +kernel
/-- R106: a load leaves its destination PEND with a tag of class 1, and the thread goes on. -/
theorem test_ld :
    (match gAfter (.ld ⟨⟨0, 0, 0, 1, 2, 0⟩, 3, 0, 0, 0⟩) W 1 with
      | some (.pend t) => t >>> 12 == 1
      | _ => false) = true := by
  decide +kernel
/-- R102: a load of eight bytes at an address that is not a multiple of 8 takes the alignment trap; without a handler the
thread halts (R298). -/
theorem test_ld_misaligned :
    (courseAfter (.ld ⟨⟨0, 0, 0, 1, 2, 0⟩, 3, 0, 0, 0⟩) (wr [(.g 2, ownBase + 4)] W)).map (·.2.2) = some .halted := by
  decide +kernel
/-- R208: a pop of the queue's one item, and a pop of the empty queue under BRANCH. -/
theorem test_qpop :
    gAfter (.qpop ⟨⟨0, 0, 1, 1, 2, 0⟩, 0, 0, 0, 0, 0xFFFC⟩) WZ 1 = some (.full 7)
    ∧ courseAfter (.qpop ⟨⟨0, 0, 1, 1, 2, 0⟩, 0, 0, 0, 0, 0xFFFC⟩) (wc (fun c => { c with queues := [{ theQueue with items := [] }] }) W) =
      some (BitVec.ofNat 64 (ownBase - 32), 0x3001, .ready) := by
  decide +kernel
/-- R166: `vadd` on two registers of lanes, lane 1 left out by the mask, is 0 there. -/
theorem test_vadd_masked :
    vAfter (.vadd ⟨⟨0, 0, 0, 17, 18, 19⟩, 0, 0, 2, 0⟩) (wr [(.v 2, 0x0000000200000001), (.v 3, 0x00000005FFFFFFFF), (.k 2, 1)] W) 1 =
      some (.full 0) := by
  decide +kernel
/-- The first example of spec 06, after R145: four lanes quantised into MXFP4. -/
theorem test_vmxq_mxfp4 :
    vAfter (.vmxq ⟨⟨0, 0, 0, 20, 17, 0⟩, 0, 0, 0x1C0, 0⟩)
      (wr [(.v 1, 0x40500000 + 0xBF400000 * 2 ^ 32 + 0x41400000 * 2 ^ 64 + 0x3E800000 * 2 ^ 96)] W) 4 =
      some (.full (0x793 + 0x80 * 2 ^ 128)) := by
  decide +kernel
/-- The example of spec 06 after R150: 2^24 and thirty-one ones reduce to 16,777,246. -/
theorem test_vfred_tree :
    gAfter (.vfred ⟨⟨0, 0, 0, 2, 17, 0⟩, 0, 0, 0, 0⟩)
      (wr [(.v 1, 0x4B800000 + 0x3F800000 * (List.range 31).foldl (fun a i => a + 2 ^ (32 * (i + 1))) 0)] W) 2 =
      some (.full 0x4B80000F) := by
  decide +kernel
/-- R94: outside a handler `eret` takes the protection fault; without a handler's address the thread halts. -/
theorem test_eret_outside : (courseAfter (.eret R0) W).map (·.2.2) = some .halted := by
  decide +kernel
/-- R92, R298: `trap` enters the handler: H set, LA clear, the PC at the handler's entry. -/
theorem test_trap_entry : courseAfter (.trap R0) WTr = some (0x1000, 0x800, .ready) := by
  decide +kernel
/-- R24: `mfs g2, lc0` reads the loop counter. -/
theorem test_mfs_lc0 :
    gAfter (.mfs ⟨⟨0, 0, 0, 2, 0, 0⟩, 0, 0, 8, 0⟩) (wt (fun t => { t with lc := t.lc.set 0 77 }) W) 2 = some (.full 77) := by
  decide +kernel
/-- A step at reset is the first of the boot (R387), and with a word placed it runs the word. -/
theorem test_steps :
    (match step State.reset with
      | .next s => s.mgmt.step
      | _ => 0) = 2
    ∧ (match step (WIs addWord) with
      | .next s => (s.thread? r0).map (fun t => (t.icount, t.pc))
      | _ => none) = some (1, BitVec.ofNat 64 (ownBase + 8)) := by
  decide +kernel
/-- `Obligations.TransfersRun`: the reads of a packet that meet a poisoned line. -/
theorem meets_TransfersRun_poisoned :
    (readsOf cp cpP).2.recs = [] ∧ (match (readsOf cp cpP).2.stop with
      | some (.poison _) => true
      | _ => false) = true := by
  decide +kernel
/-- A launch of one instance of two threads. -/
def launch2 : Launch := { launch4 with ext := [1, 2], dom := [0, 1], placed := [([0, 0], 0, 0), ([0, 1], 0, 1)] }
/-- `Obligations.BarriersAndDependences`: an arrival that is not the last, and one that is. -/
theorem meets_BarriersAndDependences_arrivals :
    ({ launch2 with arrivals := [(0, [0], 0)] } : Launch).full [0] = false
    ∧ ({ launch2 with arrivals := [(0, [0], 1), (0, [0], 0)] } : Launch).full [0] = true
    ∧ ({ WLa with launches := [{ launch2 with arrivals := [(0, [0], 1), (0, [0], 0)] }] } : State).phaseCapOk
      { launch2 with arrivals := [(0, [0], 1), (0, [0], 0)] } [0] = true := by
  decide +kernel

/-- `Obligations.ScalarTwoSourceResult`: a state and operands that meet the hypotheses of the statement. -/
theorem meets_ScalarTwoSourceResult :
    ∃ (i : Instr) (f : RForm) (op : Word → Word → Word) (s : State) (t : Thread) (a : Word) (b : Word), (twoSource i =
      some (f, op)) ∧ (Goes s t f.toHead) ∧ srcW s t f.A = .ok a ∧ srcW s t f.B = .ok b ∧ destReady s t f.D = .ok () :=
  ⟨.sub R0, R0, _, W, cT W, val 0 (srcW W (cT W) R0.A), val 0 (srcW W (cT W) R0.B), rfl, goes (by decide +kernel),
    ok_val (by decide +kernel), ok_val (by decide +kernel), ok_unit (by decide +kernel)⟩

/-- `Obligations.ScalarOneAndThreeSourceResult`: a state and operands that meet the hypotheses of each clause. -/
theorem meets_ScalarOneAndThreeSourceResult :
    (∃ (i : Instr) (f : RForm) (op : Word → Word) (s : State) (t : Thread) (a : Word), (oneSource i = some (f, op)) ∧
      (Goes s t f.toHead) ∧ srcW s t f.A = .ok a ∧ destReady s t f.D = .ok ())
    ∧ (∃ (f : RForm) (s : State) (t : Thread) (a : Word) (b : Word) (d : Word), (Goes s t f.toHead) ∧ srcW s t f.A = .ok a ∧
      srcW s t f.B = .ok b ∧ srcW s t f.D = .ok d)
    ∧ (∃ (f : RForm) (s : State) (t : Thread) (a : Word) (b : Word) (k : BitVec 32), (Goes s t f.toHead) ∧ srcW s t f.A =
      .ok a ∧ srcW s t f.B = .ok b ∧ t.getK f.msk = .full k ∧ destReady s t f.D = .ok ()) :=
  ⟨⟨.clz R0, R0, _, W, cT W, val 0 (srcW W (cT W) R0.A), rfl, goes (by decide +kernel), ok_val (by decide +kernel),
    ok_unit (by decide +kernel)⟩,
   ⟨R0, W, cT W, val 0 (srcW W (cT W) R0.A), val 0 (srcW W (cT W) R0.B), val 0 (srcW W (cT W) R0.D), goes
    (by decide +kernel), ok_val (by decide +kernel), ok_val (by decide +kernel), ok_val (by decide +kernel)⟩,
   ⟨R0, W, cT W, val 0 (srcW W (cT W) R0.A), val 0 (srcW W (cT W) R0.B), 0xFFFFFFFF, goes (by decide +kernel), ok_val
    (by decide +kernel), ok_val (by decide +kernel), by decide +kernel, ok_unit (by decide +kernel)⟩⟩

/-- `Obligations.ImmediateResult`: a state and operands that meet the hypotheses of each clause. -/
theorem meets_ImmediateResult :
    (∃ (i : Instr) (f : IForm) (op : Word → Word) (s : State) (t : Thread) (a : Word), (immediate i = some (f, op)) ∧
      (Goes s t f.toHead) ∧ srcW s t f.A = .ok a ∧ destReady s t f.D = .ok ())
    ∧ (∃ (f : IForm) (s : State) (t : Thread), (Goes s t f.toHead) ∧ destReady s t f.D = .ok ())
    ∧ (∃ (f : IForm) (s : State) (t : Thread), (Goes s t f.toHead) ∧ destReady s t f.D = .ok ()) :=
  ⟨⟨.addi I0, I0, _, W, cT W, val 0 (srcW W (cT W) I0.A), rfl, goes (by decide +kernel), ok_val (by decide +kernel),
    ok_unit (by decide +kernel)⟩,
   ⟨I0, W, cT W, goes (by decide +kernel), ok_unit (by decide +kernel)⟩,
   ⟨I0, W, cT W, goes (by decide +kernel), ok_unit (by decide +kernel)⟩⟩

/-- `Obligations.RegisterMovesResult`: a state and operands that meet the hypotheses of each clause. -/
theorem meets_RegisterMovesResult :
    (∃ (f : RForm) (s : State) (t : Thread) (a : Word), (Goes s t f.toHead) ∧ (SrcMod.ofCode f.ma ≠ .move) ∧ (∀ i, f.A ≠
      .v i) ∧ srcW s t f.A = .ok a ∧ destReady s t f.D = .ok ())
    ∧ (∃ (f : RForm) (s : State) (t : Thread) (i : Fin 32) (v : BitVec 1024), (Goes s t f.toHead) ∧ (SrcMod.ofCode f.ma ≠
      .move) ∧ f.A = .v i ∧ t.getV i = .full v)
    ∧ (∃ (f : RForm) (s : State) (t : Thread), (Goes s t f.toHead) ∧ SrcMod.ofCode f.ma = .move ∧ (f.D ≠ f.A) ∧ (codeOf t
      f.A ≠ 1) ∧ (Instr.WellFormed (.mov f)))
    ∧ (∃ (f : RForm) (s : State) (t : Thread), (Goes s t f.toHead) ∧ SrcMod.ofCode f.ma = .move ∧ f.D = f.A ∧ (codeOf t f.A
      ≠ 1))
    ∧ (∃ (f : RForm) (s : State) (t : Thread), (Goes s t f.toHead) ∧ (f.D ≠ f.A))
    ∧ (∃ (f : RForm) (s : State) (t : Thread), (Goes s t f.toHead) ∧ f.D = f.A)
    ∧ (∃ (f : RForm) (s : State) (t : Thread), (Goes s t f.toHead))
    ∧ (∃ (f : RForm) (s : State) (t : Thread) (x : Word), (Goes s t f.toHead) ∧
      (match f.A with | .g i => x = statusWord (t.getG i) | .v i => x = statusWord (t.getV i) | .k i => x = statusWord (t.getK i) | .port d => s.ownsPorts t = true ∧ x = (if (s.portWord t d).isSome then 0 else 1) | _ => x = 0))
    ∧ (∃ (f : RForm) (s : State) (t : Thread) (d : Dir), (Goes s t f.toHead) ∧ f.A = .port d ∧ s.ownsPorts t = false) :=
  ⟨⟨R0, W, cT W, val 0 (srcW W (cT W) R0.A), goes (by decide +kernel), by decide +kernel, ne_v rfl, ok_val
    (by decide +kernel), ok_unit (by decide +kernel)⟩,
   ⟨RV, W, cT W, 2, 0, goes (by decide +kernel), by decide +kernel⟩,
   ⟨{ R0 with ma := 2, b := 0 }, W, cT W, goes (by decide +kernel), by decide +kernel⟩,
   ⟨{ R0 with ma := 2, a := 1 }, W, cT W, goes (by decide +kernel), by decide +kernel⟩,
   ⟨R0, W, cT W, goes (by decide +kernel), by decide +kernel⟩,
   ⟨{ R0 with a := 1 }, W, cT W, goes (by decide +kernel), by decide +kernel⟩,
   ⟨R0, W, cT W, goes (by decide +kernel)⟩,
   ⟨R0, W, cT W, statusWord ((cT W).getG 2), goes (by decide +kernel), rfl⟩,
   ⟨{ R0 with a := 56 }, W, cT W, .n, goes (by decide +kernel), by decide +kernel⟩⟩

/-- `Obligations.BranchResult`: a state and operands that meet the hypotheses of each clause. -/
theorem meets_BranchResult :
    (∃ (f : BForm) (s : State) (t : Thread), (Goes s t f.toHead))
    ∧ (∃ (f : RForm) (s : State) (t : Thread) (a : Word), (Goes s t f.toHead) ∧ srcW s t f.A = .ok a ∧ (Target a))
    ∧ (∃ (f : RForm) (s : State) (t : Thread) (a : Word), (Goes s t f.toHead) ∧ srcW s t f.A = .ok a ∧ (¬Target a)) :=
  ⟨⟨B0, W, cT W, goes (by decide +kernel)⟩,
   ⟨R0, W, cT W, val 0 (srcW W (cT W) R0.A), goes (by decide +kernel), ok_val (by decide +kernel),
    by unfold Target; decide +kernel⟩,
   ⟨R0, wr [(.g 2, 4)] W, cT (wr [(.g 2, 4)] W), val 0 (srcW (wr [(.g 2, 4)] W) (cT (wr [(.g 2, 4)] W)) R0.A), goes
    (by decide +kernel), ok_val (by decide +kernel), by unfold Target; decide +kernel⟩⟩

/-- `Obligations.CallReturnResult`: a state and operands that meet the hypotheses of each clause. -/
theorem meets_CallReturnResult :
    (∃ (f : BForm) (s : State) (t : Thread) (sp : BitVec 64), (Goes s t f.toHead) ∧ t.getG 15 = .full sp ∧ (StoreGoes s t
      (sp - 8) 8))
    ∧ (∃ (f : RForm) (s : State) (s1 : State) (t : Thread) (a : Word) (b : Word) (sp : BitVec 64) (target : Word), (Goes s t
      f.toHead) ∧ srcW s t f.A = .ok a ∧ srcW s t f.B = .ok b ∧ t.getG 15 = .full sp ∧ (loadWait s t (a + 8 * (b +
      f.fn.setWidth 64)) true = .ok (target, s1)) ∧ (Target target) ∧ (StoreGoes s1 t (sp - 8) 8) ∧ (routerGate s1 t (sp -
      8).toNat = .ok ()))
    ∧ (∃ (f : RForm) (s : State) (t : Thread) (sp : BitVec 64) (target : Word) (l : List Word), (Goes s t f.toHead) ∧ t.getG
      15 = .full sp ∧ (t.ras = target :: l) ∧ (Target target))
    ∧ (∃ (f : RForm) (s : State) (s1 : State) (t : Thread) (sp : BitVec 64) (target : Word), (Goes s t f.toHead) ∧ t.getG 15
      = .full sp ∧ (t.ras = []) ∧ (loadWait s t sp false = .ok (target, s1)) ∧ (Target target)) :=
  ⟨⟨B0, W, cT W, BitVec.ofNat 64 (ownBase + 0x2000), goes (by decide +kernel), by decide +kernel, storeGoes
    (by decide +kernel)⟩,
   ⟨R0, W, (val (0, W) (loadWait W (cT W) (val 0 (srcW W (cT W) R0.A) + 8 * (val 0 (srcW W (cT W) R0.B) + R0.fn.setWidth
    64)) true)).2, cT W, val 0 (srcW W (cT W) R0.A), val 0 (srcW W (cT W) R0.B), BitVec.ofNat 64 (ownBase + 0x2000), (val
    (0, W) (loadWait W (cT W) (val 0 (srcW W (cT W) R0.A) + 8 * (val 0 (srcW W (cT W) R0.B) + R0.fn.setWidth 64))
    true)).1, goes (by decide +kernel), ok_val (by decide +kernel), ok_val (by decide +kernel), by decide +kernel, ok_pair
    (d := (0, W)) (by decide +kernel), by unfold Target; decide +kernel, storeGoes (by decide +kernel), ok_unit
    (by decide +kernel)⟩,
   ⟨R0, wt (fun t => { t with ras := [0] }) W, cT (wt (fun t => { t with ras := [0] }) W), BitVec.ofNat 64 (ownBase +
    0x2000), 0, [], goes (by decide +kernel), by decide +kernel, by decide +kernel, by unfold Target; decide +kernel⟩,
   ⟨R0, W, (val (0, W) (loadWait W (cT W) (BitVec.ofNat 64 (ownBase + 0x2000)) false)).2, cT W, BitVec.ofNat 64 (ownBase
    + 0x2000), (val (0, W) (loadWait W (cT W) (BitVec.ofNat 64 (ownBase + 0x2000)) false)).1, goes (by decide +kernel),
    by decide +kernel, by decide +kernel, ok_pair (d := (0, W)) (by decide +kernel), by unfold Target; decide +kernel⟩⟩

/-- `Obligations.LoopResult`: a state and operands that meet the hypotheses of each clause. -/
theorem meets_LoopResult :
    (∃ (f : BForm) (s : State) (t : Thread) (a : Word), (Goes s t f.toHead) ∧ srcW s t f.A = .ok a)
    ∧ (∃ (f : BForm) (s : State) (t : Thread), (Goes s t f.toHead)) :=
  ⟨⟨B0, W, cT W, val 0 (srcW W (cT W) B0.A), goes (by decide +kernel), ok_val (by decide +kernel)⟩,
   ⟨B0, W, cT W, goes (by decide +kernel)⟩⟩

/-- `Obligations.PauseResult`: a state and operands that meet the hypotheses of each clause. -/
theorem meets_PauseResult :
    (∃ (f : RForm) (s : State) (t : Thread), (Goes s t f.toHead))
    ∧ (∃ (f : MForm) (s : State) (t : Thread) (a : Word), (Goes s t f.toHead) ∧ srcW s t f.A = .ok a)
    ∧ (∃ (f : RForm) (s : State) (t : Thread), (Goes s t f.toHead) ∧ (codeOf t f.A = 0 ∨ codeOf t f.A = 3))
    ∧ (∃ (f : RForm) (s : State) (t : Thread), (Goes s t f.toHead) ∧ (t.pend = []) ∧ cmdsQuiet s t = true)
    ∧ (∃ (f : RForm) (s : State) (t : Thread), (Goes s t f.toHead))
    ∧ (∃ (f : RForm) (s : State) (t : Thread), (Goes s t f.toHead)) :=
  ⟨⟨R0, W, cT W, goes (by decide +kernel)⟩,
   ⟨M0, W, cT W, val 0 (srcW W (cT W) M0.A), goes (by decide +kernel), ok_val (by decide +kernel)⟩,
   ⟨R0, W, cT W, goes (by decide +kernel), by decide +kernel⟩,
   ⟨R0, W, cT W, goes (by decide +kernel), by decide +kernel⟩,
   ⟨R0, W, cT W, goes (by decide +kernel)⟩,
   ⟨R0, W, cT W, goes (by decide +kernel)⟩⟩

/-- `Obligations.SpecialRegisterResult`: a state and operands that meet the hypotheses of each clause. -/
theorem meets_SpecialRegisterResult :
    (∃ (f : RForm) (s : State) (t : Thread), (Goes s t f.toHead))
    ∧ (∃ (f : RForm) (s : State) (t : Thread), (Goes s t f.toHead))
    ∧ (∃ (f : RForm) (s : State) (t : Thread) (a : Word), (Goes s t f.toHead) ∧ srcW s t f.A = .ok a ∧ ((loopWritten
      f.fn.toNat a t).isSome))
    ∧ (∃ (f : RForm) (s : State) (t : Thread) (a : Word), (Goes s t f.toHead) ∧ srcW s t f.A = .ok a ∧ f.fn = 0)
    ∧ (∃ (f : RForm) (s : State) (t : Thread) (a : Word), (Goes s t f.toHead) ∧ srcW s t f.A = .ok a ∧ f.fn = 4 ∧
      t.ts.getLsbD 11 = true ∧ a.getLsbD 1 = false ∧ a.extractLsb' 8 4 = (s.ctxD t.ref.ctx).mode.extractLsb' 8 4 ∧
      a.extractLsb' 4 2 = (s.ctxD t.ref.ctx).mode.extractLsb' 4 2) :=
  ⟨⟨R0, W, cT W, goes (by decide +kernel)⟩,
   ⟨R0, W, cT W, goes (by decide +kernel)⟩,
   ⟨{ R0 with fn := 8 }, W, cT W, val 0 (srcW W (cT W) ({ R0 with fn := 8 }).A), goes (by decide +kernel), ok_val
    (by decide +kernel), by decide +kernel⟩,
   ⟨R0, W, cT W, val 0 (srcW W (cT W) R0.A), goes (by decide +kernel), ok_val (by decide +kernel), by decide +kernel⟩,
   ⟨R4, WX, cT WX, 0x100, goes (by decide +kernel), ok_eq (by decide +kernel), by decide +kernel⟩⟩

/-- `Obligations.SoftTrapResult`: a state and operands that meet the hypotheses of each clause. -/
theorem meets_SoftTrapResult :
    (∃ (f : RForm) (s : State) (t : Thread) (a : Word), (Goes s t f.toHead) ∧ srcW s t f.A = .ok a)
    ∧ (∃ (f : RForm) (s : State) (t : Thread), (Goes s t f.toHead) ∧ (s.ctxD t.ref.ctx).dbg = false)
    ∧ (∃ (f : RForm) (s : State) (t : Thread), (Goes s t f.toHead) ∧ (s.ctxD t.ref.ctx).dbg = true)
    ∧ (∃ (s : State) (t : Thread), s.curThread = some t)
    ∧ (∃ (s : State) (t : Thread), s.curThread = some t) :=
  ⟨⟨R0, W, cT W, val 0 (srcW W (cT W) R0.A), goes (by decide +kernel), ok_val (by decide +kernel)⟩,
   ⟨R0, W, cT W, goes (by decide +kernel), by decide +kernel⟩,
   ⟨R0, wx (fun c => { c with dbg := true }) W, cT (wx (fun c => { c with dbg := true }) W), goes (by decide +kernel),
    by decide +kernel⟩,
   ⟨W, cT W, by decide +kernel⟩,
   ⟨W, cT W, by decide +kernel⟩⟩

/-- `Obligations.HandlerAndThreadEnds`: a state and operands that meet the hypotheses of each clause. -/
theorem meets_HandlerAndThreadEnds :
    (∃ (f : RForm) (s : State) (s1 : State) (t : Thread) (r : Record), (Goes s t f.toHead) ∧ t.ts.getLsbD 11 = true ∧
      (readRecordAt s t = .ok (r, s1)) ∧ (Target r.resume))
    ∧ (∃ (f : RForm) (s : State) (s1 : State) (t : Thread) (r : Record), (Goes s t f.toHead) ∧ t.ts.getLsbD 11 = true ∧
      (readRecordAt s t = .ok (r, s1)) ∧ (Target r.resume) ∧ r.cause.acc = false)
    ∧ (∃ (f : RForm) (s : State) (s1 : State) (t : Thread) (r : Record) (p : Pending) (q : Pending), (Goes s t f.toHead) ∧
      t.ts.getLsbD 11 = true ∧ (readRecordAt s t = .ok (r, s1)) ∧ (Target r.resume) ∧ r.cause.acc = true ∧ t.trapped =
      .access p ∧ replayGate s1 t r.cause = .ok () ∧ replayed s1.fresh.2 t r p s1.fresh.1 = .ok q)
    ∧ (∃ (f : RForm) (s : State) (s1 : State) (t : Thread) (r : Record) (id : Nat), (Goes s t f.toHead) ∧ t.ts.getLsbD 11 =
      true ∧ (readRecordAt s t = .ok (r, s1)) ∧ (Target r.resume) ∧ r.cause.acc = true ∧ t.trapped = .command id ∧
      replayGate s1 t r.cause = .ok () ∧ cmdKind s1 id = some r.cause.kind)
    ∧ (∃ (f : RForm) (s : State) (t : Thread), (Goes s t f.toHead) ∧ t.ts.getLsbD 11 = false)
    ∧ (∃ (f : RForm) (s : State) (t : Thread) (w : Word), (Goes s t f.toHead) ∧ srcW s t f.A = .ok w ∧ (t.pend = []) ∧
      cmdsQuiet s t = true) :=
  ⟨⟨R0, HW, (val (noRecord, W) (readRecordAt HW (cT HW))).2, cT HW, (val (noRecord, W) (readRecordAt HW (cT HW))).1, goes
    (by decide +kernel), by decide +kernel, ok_pair (d := (noRecord, W)) (by decide +kernel),
    by unfold Target; decide +kernel⟩,
   ⟨R0, HW, (val (noRecord, W) (readRecordAt HW (cT HW))).2, cT HW, (val (noRecord, W) (readRecordAt HW (cT HW))).1, goes
    (by decide +kernel), by decide +kernel, ok_pair (d := (noRecord, W)) (by decide +kernel),
    by unfold Target; decide +kernel, by decide +kernel⟩,
   ⟨R0, HA, (val (noRecord, W) (readRecordAt HA (cT HA))).2, cT HA, (val (noRecord, W) (readRecordAt HA (cT HA))).1,
    loadOne, (val loadOne (replayed (val (noRecord, W) (readRecordAt HA (cT HA))).2.fresh.2 (cT HA) (val (noRecord, W)
    (readRecordAt HA (cT HA))).1 loadOne (val (noRecord, W) (readRecordAt HA (cT HA))).2.fresh.1)), goes
    (by decide +kernel), by decide +kernel, ok_pair (d := (noRecord, W)) (by decide +kernel),
    by unfold Target; decide +kernel, by decide +kernel, by decide +kernel, ok_unit (by decide +kernel), ok_val
    (by decide +kernel)⟩,
   ⟨R0, HC, (val (noRecord, W) (readRecordAt HC (cT HC))).2, cT HC, (val (noRecord, W) (readRecordAt HC (cT HC))).1, 9,
    goes (by decide +kernel), by decide +kernel, ok_pair (d := (noRecord, W)) (by decide +kernel),
    by unfold Target; decide +kernel, by decide +kernel, by decide +kernel, ok_unit (by decide +kernel),
    by decide +kernel⟩,
   ⟨R0, W, cT W, goes (by decide +kernel), by decide +kernel⟩,
   ⟨R0, W, cT W, val 0 (srcW W (cT W) R0.A), goes (by decide +kernel), ok_val (by decide +kernel), by decide +kernel⟩⟩

/-- `Obligations.LoadGoesOut`: a state and operands that meet the hypotheses of each clause. -/
theorem meets_LoadGoesOut :
    (∃ (f : MForm) (s : State) (t : Thread) (a : Word) (n : Nat), (Goes s t f.toHead) ∧ srcW s t f.A = .ok a ∧ freeSeq s t
      1 = some n ∧ (AccessGoes s t (scaledAddress f a 0) (2 ^ f.sz.toNat) false (f.ext.getLsbD 1)))
    ∧ (∃ (f : MForm) (s : State) (t : Thread) (a : Word) (b : Word) (n : Nat), (Goes s t f.toHead) ∧ srcW s t f.A = .ok a ∧
      srcW s t f.B = .ok b ∧ freeSeq s t 1 = some n ∧ (AccessGoes s t (scaledAddress f a b) (2 ^ f.sz.toNat) false
      (f.ext.getLsbD 1))) :=
  ⟨⟨M0, W, cT W, val 0 (srcW W (cT W) M0.A), (freeSeq W (cT W) 1).getD 0, goes (by decide +kernel), ok_val
    (by decide +kernel), by decide +kernel, accessGoes (by decide +kernel)⟩,
   ⟨M0, W, cT W, val 0 (srcW W (cT W) M0.A), val 0 (srcW W (cT W) M0.B), (freeSeq W (cT W) 1).getD 0, goes
    (by decide +kernel), ok_val (by decide +kernel), ok_val (by decide +kernel), by decide +kernel, accessGoes
    (by decide +kernel)⟩⟩

/-- `Obligations.StoreGoesOut`: a state and operands that meet the hypotheses of each clause. -/
theorem meets_StoreGoesOut :
    (∃ (f : MForm) (s : State) (t : Thread) (a : Word) (b : Word), (Goes s t f.toHead) ∧ srcW s t f.A = .ok a ∧ srcW s t
      f.B = .ok b ∧ (AccessGoes s t (scaledAddress f a 0) (2 ^ f.sz.toNat) true (f.ext.getLsbD 1)))
    ∧ (∃ (f : MForm) (s : State) (t : Thread) (a : Word) (b : Word), (Goes s t f.toHead) ∧ srcW s t f.A = .ok a ∧ srcW s t
      f.B = .ok b ∧ (addrGate s t (scaledAddress f a 0) (2 ^ f.sz.toNat) true {} = .ok ()) ∧ t.acq = none ∧ f.ext.getLsbD 1
      = true ∧ (t.pend ≠ [] ∨ cmdsQuiet s t = false))
    ∧ (∃ (f : MForm) (s : State) (t : Thread) (a : Word) (b : Word) (d : Word), (Goes s t f.toHead) ∧ srcW s t f.A = .ok a ∧
      srcW s t f.B = .ok b ∧ srcW s t f.D = .ok d ∧ (AccessGoes s t (scaledAddress f a d) (2 ^ f.sz.toNat) true
      (f.ext.getLsbD 1))) :=
  ⟨⟨M0, W, cT W, val 0 (srcW W (cT W) M0.A), val 0 (srcW W (cT W) M0.B), goes (by decide +kernel), ok_val
    (by decide +kernel), ok_val (by decide +kernel), accessGoes (by decide +kernel)⟩,
   ⟨{ M0 with ext := 2 }, WS, cT WS, val 0 (srcW WS (cT WS) ({ M0 with ext := 2 }).A), val 0 (srcW WS (cT WS)
    ({ M0 with ext := 2 }).B), goes (by decide +kernel), ok_val (by decide +kernel), ok_val (by decide +kernel), ok_unit
    (by decide +kernel), by decide +kernel⟩,
   ⟨M0, W, cT W, val 0 (srcW W (cT W) M0.A), val 0 (srcW W (cT W) M0.B), val 0 (srcW W (cT W) M0.D), goes
    (by decide +kernel), ok_val (by decide +kernel), ok_val (by decide +kernel), ok_val (by decide +kernel), accessGoes
    (by decide +kernel)⟩⟩

/-- `Obligations.AtomicGoesOut`: a state and operands that meet the hypotheses of each clause. -/
theorem meets_AtomicGoesOut :
    (∃ (f : MForm) (s : State) (t : Thread) (a : Word) (b : Word) (n : Nat), (Goes s t f.toHead) ∧ srcW s t f.A = .ok a ∧
      srcW s t f.B = .ok b ∧ freeSeq s t 1 = some n ∧ ((f.ext.extractLsb' 0 4).toNat < 9) ∧ (AccessGoes s t (scaledAddress f
      a 0) (2 ^ f.sz.toNat) true (f.ext.getLsbD 4)))
    ∧ (∃ (f : MForm) (s : State) (t : Thread) (a : Word) (b : Word) (d : Word) (n : Nat), (Goes s t f.toHead) ∧ srcW s t f.A
      = .ok a ∧ srcW s t f.B = .ok b ∧ srcW s t f.D = .ok d ∧ freeSeq s t 1 = some n ∧ (AccessGoes s t (scaledAddress f a 0)
      (2 ^ f.sz.toNat) true (f.ext.getLsbD 4)))
    ∧ (∃ (f : MForm) (s : State) (t : Thread) (a : Word) (b : Word), (Goes s t f.toHead) ∧ srcW s t f.A = .ok a ∧ srcW s t
      f.B = .ok b ∧ ((f.ext.extractLsb' 0 4).toNat < 8) ∧ (AccessGoes s t (scaledAddress f a 0) (2 ^ f.sz.toNat) true
      (f.ext.getLsbD 4)))
    ∧ (∃ (f : MForm) (s : State) (t : Thread) (a : Word) (b : Word), (Goes s t f.toHead) ∧ srcW s t f.A = .ok a ∧ srcW s t
      f.B = .ok b ∧ ((f.ext.extractLsb' 0 2).toNat < 3) ∧ (AccessGoes s t (scaledAddress f a 0) (2 ^ f.sz.toNat) true
      false)) :=
  ⟨⟨M0, W, cT W, val 0 (srcW W (cT W) M0.A), val 0 (srcW W (cT W) M0.B), (freeSeq W (cT W) 1).getD 0, goes
    (by decide +kernel), ok_val (by decide +kernel), ok_val (by decide +kernel), by decide +kernel, by decide +kernel,
    accessGoes (by decide +kernel)⟩,
   ⟨M0, W, cT W, val 0 (srcW W (cT W) M0.A), val 0 (srcW W (cT W) M0.B), val 0 (srcW W (cT W) M0.D), (freeSeq W (cT W)
    1).getD 0, goes (by decide +kernel), ok_val (by decide +kernel), ok_val (by decide +kernel), ok_val
    (by decide +kernel), by decide +kernel, accessGoes (by decide +kernel)⟩,
   ⟨M0, W, cT W, val 0 (srcW W (cT W) M0.A), val 0 (srcW W (cT W) M0.B), goes (by decide +kernel), ok_val
    (by decide +kernel), ok_val (by decide +kernel), by decide +kernel, accessGoes (by decide +kernel)⟩,
   ⟨M0, W, cT W, val 0 (srcW W (cT W) M0.A), val 0 (srcW W (cT W) M0.B), goes (by decide +kernel), ok_val
    (by decide +kernel), ok_val (by decide +kernel), by decide +kernel, accessGoes (by decide +kernel)⟩⟩

/-- `Obligations.LineAccessGoesOut`: a state and operands that meet the hypotheses of each clause. -/
theorem meets_LineAccessGoesOut :
    (∃ (f : MForm) (s : State) (t : Thread) (a : Word) (k : BitVec 32) (n : Nat) (i : Fin 32), (Goes s t f.toHead) ∧ f.D =
      .v i ∧ srcW s t f.A = .ok a ∧ t.getK f.msk = .full k ∧ (k ≠ 0) ∧ freeSeq s t 1 = some n ∧ (AccessGoes s t
      (vectorAddress f a) 128 false false))
    ∧ (∃ (f : MForm) (s : State) (t : Thread) (a : Word) (b : VWord) (k : BitVec 32), (Goes s t f.toHead) ∧ srcW s t f.A =
      .ok a ∧ srcV t f.B = .ok b ∧ t.getK f.msk = .full k ∧ (k ≠ 0) ∧ (AccessGoes s t (vectorAddress f a) 128 true false))
    ∧ (∃ (f : MForm) (s : State) (t : Thread) (a : Word), (Goes s t f.toHead) ∧ srcW s t f.A = .ok a ∧ t.getK f.msk = .full
      0 ∧ ((vectorAddress f a).toNat % 128 = 0))
    ∧ (∃ (f : MForm) (s : State) (t : Thread) (a : Word) (b : VWord), (Goes s t f.toHead) ∧ srcW s t f.A = .ok a ∧ srcV t
      f.B = .ok b ∧ t.getK f.msk = .full 0 ∧ ((vectorAddress f a).toNat % 128 = 0)) :=
  ⟨⟨{ MV with a := 2 }, W, cT W, val 0 (srcW W (cT W) ({ MV with a := 2 }).A), 0xFFFFFFFF, (freeSeq W (cT W) 1).getD 0,
    1, goes (by decide +kernel), by decide +kernel, ok_val (by decide +kernel), by decide +kernel, by decide +kernel,
    by decide +kernel, accessGoes (by decide +kernel)⟩,
   ⟨{ MV with a := 2 }, W, cT W, val 0 (srcW W (cT W) ({ MV with a := 2 }).A), val 0 (srcV (cT W)
    ({ MV with a := 2 }).B), 0xFFFFFFFF, goes (by decide +kernel), ok_val (by decide +kernel), ok_val (by decide +kernel),
    by decide +kernel, by decide +kernel, accessGoes (by decide +kernel)⟩,
   ⟨{ MV with a := 2, ext := 1 }, WK, cT WK, val 0 (srcW WK (cT WK) ({ MV with a := 2, ext := 1 }).A), goes
    (by decide +kernel), ok_val (by decide +kernel), by decide +kernel⟩,
   ⟨{ MV with a := 2, ext := 1 }, WK, cT WK, val 0 (srcW WK (cT WK) ({ MV with a := 2, ext := 1 }).A), val 0 (srcV (cT
    WK) ({ MV with a := 2, ext := 1 }).B), goes (by decide +kernel), ok_val (by decide +kernel), ok_val
    (by decide +kernel), by decide +kernel⟩⟩

/-- `Obligations.CompoundGoesOut`: a state and operands that meet the hypotheses of each clause. -/
theorem meets_CompoundGoesOut :
    (∃ (f : MForm) (s : State) (t : Thread) (a : Word) (b : Word) (k : BitVec 32) (n : Nat) (i : Fin 32), (Goes s t
      f.toHead) ∧ f.D = .v i ∧ srcW s t f.A = .ok a ∧ srcW s t f.B = .ok b ∧ t.getK f.msk = .full k ∧ (k ≠ 0) ∧
      ((vectorAddress f a).toNat % 4 = 0) ∧ (b.toNat % 4 = 0) ∧ freeSeq s t 1 = some n ∧
      let us := (lanesIn k).map (fun i => (i, vectorAddress f a + BitVec.ofNat 64 i * b, 0)); (CompoundGoes s t us))
    ∧ (∃ (f : MForm) (s : State) (t : Thread) (a : Word) (b : VWord) (d : Word) (k : BitVec 32), (Goes s t f.toHead) ∧ srcW
      s t f.A = .ok a ∧ srcV t f.B = .ok b ∧ srcW s t f.D = .ok d ∧ t.getK f.msk = .full k ∧ (k ≠ 0) ∧ ((vectorAddress f
      a).toNat % 4 = 0) ∧ (d.toNat % 4 = 0) ∧
      let us := highestOnly ((lanesIn k).map (fun i => (i, vectorAddress f a + BitVec.ofNat 64 i * d, lane b i)));
      (CompoundGoes s t us))
    ∧ (∃ (f : MForm) (s : State) (t : Thread) (a : Word) (b : VWord) (m : BitVec 64) (n : Nat) (i : Fin 32), (Goes s t
      f.toHead) ∧ f.D = .v i ∧ srcW s t f.A = .ok a ∧ srcV t f.B = .ok b ∧ t.getG (Fin.ofNat 16 (f.ext.extractLsb' 0
      4).toNat) = .full m ∧ ((vectorAddress f a).toNat % 4 = 0) ∧ freeSeq s t 1 = some n ∧
      let us := ((List.range 32).filter (fun i => decide ((lane b i).toNat < m.toNat))).map (fun i => (i, vectorAddress f a + 4 * (lane b i).setWidth 64, 0));
      (us ≠ []) ∧ (CompoundGoes s t us))
    ∧ (∃ (f : MForm) (s : State) (t : Thread) (a : Word) (b : VWord) (d : VWord) (m : BitVec 64), (Goes s t f.toHead) ∧ srcW
      s t f.A = .ok a ∧ srcV t f.B = .ok b ∧ srcV t f.D = .ok d ∧ t.getG (Fin.ofNat 16 (f.ext.extractLsb' 0 4).toNat) =
      .full m ∧ ((vectorAddress f a).toNat % 4 = 0) ∧
      let us := highestOnly (((List.range 32).filter (fun i => decide ((lane d i).toNat < m.toNat))).map (fun i => (i, vectorAddress f a + 4 * (lane d i).setWidth 64, lane b i)));
      (us ≠ []) ∧ (CompoundGoes s t us))
    ∧ (∃ (f : MForm) (s : State) (t : Thread) (a : Word) (b : Word) (n : Nat) (i : Fin 32), (Goes s t f.toHead) ∧ f.D = .v i
      ∧ srcW s t f.A = .ok a ∧ srcW s t f.B = .ok b ∧ ((vectorAddress f a).toNat % 32 = 0) ∧ (b.toNat % 32 = 0) ∧ freeSeq s
      t 8 = some n ∧ let us := (List.range 32).map (fun j => (j, vectorAddress f a + BitVec.ofNat 64 j * b, 0));
      (CompoundGoes s t us)) :=
  ⟨⟨{ MV with a := 2, b := 3 }, W, cT W, val 0 (srcW W (cT W) ({ MV with a := 2, b := 3 }).A), val 0 (srcW W (cT W)
    ({ MV with a := 2, b := 3 }).B), 0xFFFFFFFF, (freeSeq W (cT W) 1).getD 0, 1, goes (by decide +kernel),
    by decide +kernel, ok_val (by decide +kernel), ok_val (by decide +kernel), by decide +kernel, by decide +kernel,
    by decide +kernel, by decide +kernel, by decide +kernel, compoundGoes (by decide +kernel)⟩,
   ⟨{ MV with a := 2, d := 3 }, W, cT W, val 0 (srcW W (cT W) ({ MV with a := 2, d := 3 }).A), val 0 (srcV (cT W)
    ({ MV with a := 2, d := 3 }).B), val 0 (srcW W (cT W) ({ MV with a := 2, d := 3 }).D), 0xFFFFFFFF, goes
    (by decide +kernel), ok_val (by decide +kernel), ok_val (by decide +kernel), ok_val (by decide +kernel),
    by decide +kernel, by decide +kernel, by decide +kernel, by decide +kernel, compoundGoes (by decide +kernel)⟩,
   ⟨{ MV with a := 2, ext := 4 }, WM, cT WM, val 0 (srcW WM (cT WM) ({ MV with a := 2, ext := 4 }).A), val 0 (srcV (cT
    WM) ({ MV with a := 2, ext := 4 }).B), 8, (freeSeq WM (cT WM) 1).getD 0, 1, goes (by decide +kernel),
    by decide +kernel, ok_val (by decide +kernel), ok_val (by decide +kernel), by decide +kernel, by decide +kernel,
    by decide +kernel, by decide +kernel, compoundGoes (by decide +kernel)⟩,
   ⟨{ MV with a := 2, ext := 4 }, WM, cT WM, val 0 (srcW WM (cT WM) ({ MV with a := 2, ext := 4 }).A), val 0 (srcV (cT
    WM) ({ MV with a := 2, ext := 4 }).B), val 0 (srcV (cT WM) ({ MV with a := 2, ext := 4 }).D), 8, goes
    (by decide +kernel), ok_val (by decide +kernel), ok_val (by decide +kernel), ok_val (by decide +kernel),
    by decide +kernel, by decide +kernel, by decide +kernel, compoundGoes (by decide +kernel)⟩,
   ⟨{ MV with a := 2, b := 3 }, W, cT W, val 0 (srcW W (cT W) ({ MV with a := 2, b := 3 }).A), val 0 (srcW W (cT W)
    ({ MV with a := 2, b := 3 }).B), (freeSeq W (cT W) 8).getD 0, 1, goes (by decide +kernel), by decide +kernel, ok_val
    (by decide +kernel), ok_val (by decide +kernel), by decide +kernel, by decide +kernel, by decide +kernel, compoundGoes
    (by decide +kernel)⟩⟩

/-- `Obligations.GuardAcquireGoesOut`: a state and operands that meet the hypotheses of each clause. -/
theorem meets_GuardAcquireGoesOut :
    (∃ (f : EForm) (s : State) (t : Thread) (a : Word), (Goes s t f.toHead) ∧ srcW s t f.A = .ok a ∧ (MayAcquire s t a) ∧
      f.opv = 0)
    ∧ (∃ (f : EForm) (s : State) (t : Thread) (a : Word) (n : Nat) (i : Fin 16), (Goes s t f.toHead) ∧ srcW s t f.A = .ok a
      ∧ (MayAcquire s t a) ∧ f.opv = 1 ∧ f.D = .g i ∧ freeSeq s t 2 = some n ∧ (Fin.ofNat 8 f.opk.toNat ≠ 0))
    ∧ (∃ (f : EForm) (s : State) (t : Thread) (a : Word) (n : Nat), (Goes s t f.toHead) ∧ srcW s t f.A = .ok a ∧
      (guardOfWord a < (s.ctxD t.ref.ctx).gsize) ∧ guardRouter s t = .ok () ∧ freeSeq s t 1 = some n) :=
  ⟨⟨E0, WG, cT WG, val 0 (srcW WG (cT WG) E0.A), goes (by decide +kernel), ok_val (by decide +kernel), mayAcquire
    (by decide +kernel), by decide +kernel⟩,
   ⟨EO, WG, cT WG, val 0 (srcW WG (cT WG) EO.A), (freeSeq WG (cT WG) 2).getD 0, 1, goes (by decide +kernel), ok_val
    (by decide +kernel), mayAcquire (by decide +kernel), by decide +kernel⟩,
   ⟨E0, WG, cT WG, val 0 (srcW WG (cT WG) E0.A), (freeSeq WG (cT WG) 1).getD 0, goes (by decide +kernel), ok_val
    (by decide +kernel), by decide +kernel, ok_unit (by decide +kernel), by decide +kernel⟩⟩

/-- `Obligations.GuardUseGoesOut`: a state and operands that meet the hypotheses of each clause. -/
theorem meets_GuardUseGoesOut :
    (∃ (f : EForm) (s : State) (t : Thread) (a : Word) (h : Hold), (Goes s t f.toHead) ∧ srcW s t f.A = .ok a ∧ (t.pend =
      []) ∧ cmdsQuiet s t = true ∧ holdOn t.holds (guardOfWord a) = some h ∧ (h.excl = true → s.capOk t.ref.ctx true
      (guardOfWord a) = true) ∧ guardRouter s t = .ok ())
    ∧ (∃ (f : EForm) (s : State) (t : Thread) (a : Word) (b : Word) (h : Hold), (Goes s t f.toHead) ∧ srcW s t f.A = .ok a ∧
      srcW s t f.B = .ok b ∧ (t.pend = []) ∧ cmdsQuiet s t = true ∧ holdOn t.holds (guardOfWord a) = some h ∧ h.excl = true
      ∧ f.opv = 0 ∧ ((b.extractLsb' 0 20).toNat ≠ t.ref.agent) ∧ ((engineOf (t.ref.agent / 16) (b.extractLsb' 0
      20).toNat).isSome) ∧ guardRouter s t = .ok ())
    ∧ (∃ (f : EForm) (s : State) (t : Thread) (a : Word) (b : Word) (h : Hold) (x : Thread), (Goes s t f.toHead) ∧ srcW s t
      f.A = .ok a ∧ srcW s t f.B = .ok b ∧ (t.pend = []) ∧ cmdsQuiet s t = true ∧ holdOn t.holds (guardOfWord a) = some h ∧
      h.excl = true ∧ f.opv = 0 ∧ ((b.extractLsb' 0 20).toNat < 0x80000) ∧ ((b.extractLsb' 0 20).toNat ≠ t.ref.agent) ∧
      ((b.extractLsb' 0 20).toNat / 16 = t.ref.agent / 16) ∧ ((s.ctxD t.ref.ctx).has (t.ref.agent / 16) = true) ∧ ((s.ctxD
      t.ref.ctx).inScope (guardOfWord a) (t.ref.agent / 16) = true) ∧ (s.agent? t.ref.ctx (b.extractLsb' 0 20).toNat = some
      x) ∧ canTake s t.ref.ctx t.ref.agent (.handSlot (guardOfWord a) (b.extractLsb' 0 20).toNat) = true ∧ guardRouter s t =
      .ok ())
    ∧ (∃ (f : EForm) (s : State) (t : Thread), (Goes s t f.toHead) ∧ f.A = .zr)
    ∧ (∃ (f : EForm) (s : State) (t : Thread) (a : Word) (h : Hold), (Goes s t f.toHead) ∧ (f.A ≠ .zr) ∧ srcW s t f.A = .ok
      a ∧ holdOn t.holds (guardOfWord a) = some h)
    ∧ (∃ (f : EForm) (s : State) (t : Thread) (a : Word) (b : Word), (Goes s t f.toHead) ∧ srcW s t f.A = .ok a ∧ srcW s t
      f.B = .ok b ∧ (a.toNat % 128 = 0) ∧ (b.toNat % 128 = 0) ∧ (b ≠ 0) ∧ (t.pend = []) ∧ cmdsQuiet s t = true ∧ routerGate
      s t a.toNat = .ok ()) :=
  ⟨⟨E0, WH, cT WH, val 0 (srcW WH (cT WH) E0.A), ⟨3, true, 0⟩, goes (by decide +kernel), ok_val (by decide +kernel),
    by decide +kernel, by decide +kernel, by decide +kernel, by decide +kernel, ok_unit (by decide +kernel)⟩,
   ⟨E0, wr [(.g 3, 0x80002)] WH, cT (wr [(.g 3, 0x80002)] WH), val 0 (srcW (wr [(.g 3, 0x80002)] WH) (cT (wr [(.g 3,
    0x80002)] WH)) E0.A), val 0 (srcW (wr [(.g 3, 0x80002)] WH) (cT (wr [(.g 3, 0x80002)] WH)) E0.B), ⟨3, true, 0⟩, goes
    (by decide +kernel), ok_val (by decide +kernel), ok_val (by decide +kernel), by decide +kernel, by decide +kernel,
    by decide +kernel, by decide +kernel, by decide +kernel, ⟨by decide +kernel, by decide +kernel, ok_unit
    (by decide +kernel)⟩⟩,
   ⟨E0, WH2, cT WH2, val 0 (srcW WH2 (cT WH2) E0.A), val 0 (srcW WH2 (cT WH2) E0.B), ⟨3, true, 0⟩, mate, goes
    (by decide +kernel), ok_val (by decide +kernel), ok_val (by decide +kernel), by decide +kernel, by decide +kernel,
    by decide +kernel, by decide +kernel, by decide +kernel, ⟨by decide +kernel, by decide +kernel, by decide +kernel,
    by decide +kernel, by decide +kernel, by decide +kernel, ⟨by decide +kernel, ok_unit (by decide +kernel)⟩⟩⟩,
   ⟨{ E0 with a := 60 }, W, cT W, goes (by decide +kernel), by decide +kernel⟩,
   ⟨E0, WH, cT WH, val 0 (srcW WH (cT WH) E0.A), ⟨3, true, 0⟩, goes (by decide +kernel), by decide +kernel, ok_val
    (by decide +kernel), by decide +kernel⟩,
   ⟨E0, wr [(.g 3, 128)] W, cT (wr [(.g 3, 128)] W), val 0 (srcW (wr [(.g 3, 128)] W) (cT (wr [(.g 3, 128)] W)) E0.A),
    val 0 (srcW (wr [(.g 3, 128)] W) (cT (wr [(.g 3, 128)] W)) E0.B), goes (by decide +kernel), ok_val
    (by decide +kernel), ok_val (by decide +kernel), by decide +kernel, by decide +kernel, by decide +kernel,
    by decide +kernel, by decide +kernel, ok_unit (by decide +kernel)⟩⟩

/-- `Obligations.GuardHomeAndReply`: a state and operands that meet the hypotheses of each clause. -/
theorem meets_GuardHomeAndReply :
    (∃ (s : State) (c : Ctx) (r : GuardReq) (b : Bool), (s.ctx? r.ctx = some c) ∧ r.op = .acquire true b ∧ (guardIn s
      r.ctx r.idx).isFree = true ∧ (∀ w ∈ s.waiters, w.on r.ctx (.guard r.idx) = false) ∧ s.mustRefuse r.ctx r.agent r.n =
      false)
    ∧ (∃ (s : State) (r : GuardReq) (b : Bool) (t : TRef), r.op = .acquire true b ∧ r.who = .thread t ∧ (guardIn s r.ctx
      r.idx).isFree = false ∧ r.parks = false ∧ r.tickets = false)
    ∧ (∃ (s : State) (c : Ctx) (r : GuardReq), (s.ctx? r.ctx = some c) ∧ r.op = .release ∧ (guardIn s r.ctx r.idx).excl =
      true ∧ s.heldOf r.ctx true r.idx = false ∧ s.capOk r.ctx true r.idx = true)
    ∧ (∃ (s : State) (c : Ctx) (r : GuardReq) (b : Bool), (s.ctx? r.ctx = some c) ∧ r.op = .acquire false b ∧ (guardIn s
      r.ctx r.idx).excl = false ∧ (∀ w ∈ s.waiters, w.on r.ctx (.guard r.idx) = false) ∧ s.mustRefuse r.ctx r.agent r.n =
      false)
    ∧ (∃ (s : State) (c : Ctx) (r : GuardReq), (s.ctx? r.ctx = some c) ∧ r.op = .release ∧ (guardIn s r.ctx r.idx).excl =
      false)
    ∧ (∃ (s : State) (c : Ctx) (r : GuardReq) (t : TRef) (target : Nat) (x : Thread), (s.ctx? r.ctx = some c) ∧ r.op =
      .handTo target ∧ r.who = .thread t ∧ s.capOk r.ctx true r.idx = true ∧ (engineOf (t.agent / 16) target = none) ∧
      (c.inScope r.idx (target / 16) = true) ∧ (s.agent? r.ctx target = some x) ∧ handRoom s r x = true ∧ s.mustRefuse r.ctx
      r.agent r.n = false)
    ∧ (∃ (s : State) (c : Ctx) (r : GuardReq) (t : TRef) (target : Nat) (e : Nat) (x : Thread), (s.ctx? r.ctx = some c) ∧
      r.op = .handTo target ∧ r.who = .thread t ∧ s.capOk r.ctx true r.idx = true ∧ (engineOf (t.agent / 16) target = some
      e) ∧ (s.thread? t = some x))
    ∧ (∃ (r : GuardReq), r.op = .stat)
    ∧ (∃ (s : State) (t : Thread) (rep : GuardRep) (f : EForm) (p : Pending) (x : Bool) (b : Bool), rep.req.who = .thread
      t.ref ∧ (s.thread? t.ref = some t) ∧ rep.req.op = .acquire x b ∧ (t.pend.find? (fun p => p.id == rep.req.acc) = some
      p) ∧ p.req = some (.gacq f) ∧ rep.granted = true ∧ (∀ d, f.D ≠ .port d))
    ∧ (∃ (rep : GuardRep) (die : Nat) (slot : Nat) (x : Bool) (b : Bool), rep.req.who = .husk die slot ∧ rep.req.op =
      .acquire x b)
    ∧ (∃ (rep : GuardRep) (q : Nat) (n : Nat), rep.req.who = .port q n)
    ∧ (∃ (rep : GuardRep) (t : TRef) (n : Nat), rep.req.who = .engine t n) :=
  ⟨⟨W, W.ctxD 0, gr (.thread r0) (.acquire true false), false, by decide +kernel⟩,
   ⟨WX3, gr (.thread r0) (.acquire true false), false, r0, by decide +kernel⟩,
   ⟨WX3, WX3.ctxD 0, gr (.thread r0) .release, by decide +kernel⟩,
   ⟨W, W.ctxD 0, gr (.thread r0) (.acquire false false), false, by decide +kernel⟩,
   ⟨WS3, WS3.ctxD 0, gr (.thread r0) .release, by decide +kernel⟩,
   ⟨WX2, WX2.ctxD 0, gr (.thread r0) (.handTo 1), r0, 1, mate, by decide +kernel⟩,
   ⟨WX3, WX3.ctxD 0, gr (.thread r0) (.handTo 0x80002), r0, 0x80002, 2, cT WX3, by decide +kernel⟩,
   ⟨gr (.thread r0) .stat, by decide +kernel⟩,
   ⟨WQ, cT WQ, ⟨gr (.thread r0) (.acquire true false), true, 5, 0⟩, E0, WQ.pendingGuard, true, false, by decide +kernel,
    by decide +kernel, by decide +kernel, by decide +kernel, rfl, by decide +kernel, ne_port rfl⟩,
   ⟨⟨gr (.husk 0 0) (.acquire true false), true, 5, 0⟩, 0, 0, true, false, by decide +kernel⟩,
   ⟨⟨gr (.port 1 2) .release, true, 5, 0⟩, 1, 2, by decide +kernel⟩,
   ⟨⟨gr (.engine r0 2) .release, true, 5, 0⟩, r0, 2, by decide +kernel⟩⟩

/-- `Obligations.WaitingListEvents`: a state and operands that meet the hypotheses of each clause. -/
theorem meets_WaitingListEvents :
    (∃ (s : State) (id : Nat) (w : Waiter), (s.waiters.find? (fun w => w.id == id) = some w))
    ∧ (∃ (s : State) (id : Nat) (w : Waiter), (s.waiters.find? (fun w => w.id == id) = some w))
    ∧ (∃ (s : State) (idx : Nat) (i : Instr), (s.capped[idx]? = some i)) :=
  ⟨⟨WE, 7, entry, by decide +kernel⟩,
   ⟨WE, 7, entry, by decide +kernel⟩,
   ⟨WE, 0, .acornPulse, by decide +kernel⟩⟩

/-- `Obligations.VectorIntegerResult`: a state and operands that meet the hypotheses of the statement. -/
theorem meets_VectorIntegerResult :
    ∃ (i : Instr) (f : RForm) (sh : VecShape) (op : (w : Nat) → BitVec w → BitVec w → BitVec w → BitVec w) (s : State) (t
      : Thread) (a : VWord × VWord) (b : VWord × VWord) (d : VWord × VWord) (k : KWord), (laneTable i = some (f, sh, op)) ∧
      (Goes s t f.toHead) ∧ (VecReads f sh t a b d k) :=
  ⟨.vadd RV, RV, {}, _, W, cT W, val (0, 0) (srcL (cT W) (paired RV && true) RV.A), val (0, 0) (srcL (cT W) (paired RV
    && true) RV.B), (0, 0), 0xFFFFFFFF, rfl, goes (by decide +kernel), ⟨ok_val (by decide +kernel), ok_val
    (by decide +kernel), rfl, by decide +kernel⟩⟩

/-- `Obligations.LaneMoveResult`: a state and operands that meet the hypotheses of each clause. -/
theorem meets_LaneMoveResult :
    (∃ (f : RForm) (s : State) (t : Thread) (a : Word) (k : BitVec 32), (Goes s t f.toHead) ∧ srcW s t f.A = .ok a ∧
      t.getK f.msk = .full k)
    ∧ (∃ (f : RForm) (s : State) (t : Thread) (a : Word) (k : BitVec 32), (Goes s t f.toHead) ∧ srcW s t f.A = .ok a ∧
      t.getK f.msk = .full k)
    ∧ (∃ (f : RForm) (s : State) (t : Thread) (a : VWord × VWord) (b : Word), (Goes s t f.toHead) ∧ srcL t (paired f) f.A =
      .ok a ∧ srcW s t f.B = .ok b)
    ∧ (∃ (f : RForm) (s : State) (t : Thread) (a : Word) (b : Word) (d : VWord × VWord), (Goes s t f.toHead) ∧ srcW s t f.A
      = .ok a ∧ srcW s t f.B = .ok b ∧ srcL t (paired f) f.D = .ok d) :=
  ⟨⟨{ RV with a := 2 }, W, cT W, val 0 (srcW W (cT W) ({ RV with a := 2 }).A), 0xFFFFFFFF, goes (by decide +kernel),
    ok_val (by decide +kernel), by decide +kernel⟩,
   ⟨{ RV with a := 2 }, W, cT W, val 0 (srcW W (cT W) ({ RV with a := 2 }).A), 0xFFFFFFFF, goes (by decide +kernel),
    ok_val (by decide +kernel), by decide +kernel⟩,
   ⟨{ RV with d := 1, b := 3 }, W, cT W, val (0,0) (srcL (cT W) (paired ({ RV with d := 1, b := 3 }))
    ({ RV with d := 1, b := 3 }).A), val 0 (srcW W (cT W) ({ RV with d := 1, b := 3 }).B), goes (by decide +kernel),
    ok_val (by decide +kernel), ok_val (by decide +kernel)⟩,
   ⟨{ RV with a := 2, b := 3 }, W, cT W, val 0 (srcW W (cT W) ({ RV with a := 2, b := 3 }).A), val 0 (srcW W (cT W)
    ({ RV with a := 2, b := 3 }).B), val (0,0) (srcL (cT W) (paired ({ RV with a := 2, b := 3 }))
    ({ RV with a := 2, b := 3 }).D), goes (by decide +kernel), ok_val (by decide +kernel), ok_val (by decide +kernel),
    ok_val (by decide +kernel)⟩⟩

/-- `Obligations.IntegerScanResult`: a state and operands that meet the hypotheses of each clause. -/
theorem meets_IntegerScanResult :
    (∃ (f : RForm) (s : State) (t : Thread) (a : VWord × VWord) (k : BitVec 32), (Goes s t f.toHead) ∧ srcL t (paired f)
      f.A = .ok a ∧ t.getK f.msk = .full k)
    ∧ (∃ (f : RForm) (s : State) (t : Thread) (a : VWord × VWord) (k : BitVec 32), (Goes s t f.toHead) ∧ srcL t (paired f)
      f.A = .ok a ∧ t.getK f.msk = .full k) :=
  ⟨⟨RV, W, cT W, val (0,0) (srcL (cT W) (paired RV) RV.A), 0xFFFFFFFF, goes (by decide +kernel), ok_val
    (by decide +kernel), by decide +kernel⟩,
   ⟨RV, W, cT W, val (0,0) (srcL (cT W) (paired RV) RV.A), 0xFFFFFFFF, goes (by decide +kernel), ok_val
    (by decide +kernel), by decide +kernel⟩⟩

/-- `Obligations.LaneChoiceResult`: a state and operands that meet the hypotheses of each clause. -/
theorem meets_LaneChoiceResult :
    (∃ (f : RForm) (s : State) (t : Thread) (a : VWord × VWord) (b : VWord × VWord) (k : KWord), (Goes s t f.toHead) ∧
      (VecReads f {} t a b (0, 0) k))
    ∧ (∃ (f : RForm) (s : State) (t : Thread) (a : VWord × VWord) (b : VWord × VWord) (k : KWord), (Goes s t f.toHead) ∧
      (VecReads f {} t a b (0, 0) k))
    ∧ (∃ (f : RForm) (s : State) (t : Thread) (a : VWord × VWord) (b : VWord × VWord) (k : KWord), (Goes s t f.toHead) ∧
      (VecReads f {} t a b (0, 0) k))
    ∧ (∃ (f : RForm) (s : State) (t : Thread) (a : VWord × VWord) (b : VWord × VWord) (k : KWord), (Goes s t f.toHead) ∧
      (VecReads f { pairB := false } t a b (0, 0) k)) :=
  ⟨⟨RV, W, cT W, val (0, 0) (srcL (cT W) (paired RV && true) RV.A), val (0, 0) (srcL (cT W) (paired RV && true) RV.B),
    0xFFFFFFFF, goes (by decide +kernel), ⟨ok_val (by decide +kernel), ok_val (by decide +kernel), rfl,
    by decide +kernel⟩⟩,
   ⟨RV, W, cT W, val (0, 0) (srcL (cT W) (paired RV && true) RV.A), val (0, 0) (srcL (cT W) (paired RV && true) RV.B),
    0xFFFFFFFF, goes (by decide +kernel), ⟨ok_val (by decide +kernel), ok_val (by decide +kernel), rfl,
    by decide +kernel⟩⟩,
   ⟨RV, W, cT W, val (0, 0) (srcL (cT W) (paired RV && true) RV.A), val (0, 0) (srcL (cT W) (paired RV && true) RV.B),
    0xFFFFFFFF, goes (by decide +kernel), ⟨ok_val (by decide +kernel), ok_val (by decide +kernel), rfl,
    by decide +kernel⟩⟩,
   ⟨RV, W, cT W, val (0, 0) (srcL (cT W) (paired RV && true) RV.A), val (0, 0) (srcL (cT W) (paired RV && false) RV.B),
    0xFFFFFFFF, goes (by decide +kernel), ⟨ok_val (by decide +kernel), ok_val (by decide +kernel), rfl,
    by decide +kernel⟩⟩⟩

/-- `Obligations.FloatResult`: a state and operands that meet the hypotheses of the statement. -/
theorem meets_FloatResult :
    ∃ (i : Instr) (f : RForm) (sh : VecShape) (op : XR → XR → XR → XR) (s : State) (t : Thread) (a : VWord × VWord) (b :
      VWord × VWord) (d : VWord × VWord) (k : KWord), (floatTable i = some (f, sh, op)) ∧ (typeOf f < 3) ∧ (Goes s t
      f.toHead) ∧ (VecReads (unpaired f) sh t a b d k) :=
  ⟨.vfadd RV, RV, {}, _, W, cT W, val (0, 0) (srcL (cT W) (paired (unpaired RV) && true) RV.A), val (0, 0) (srcL (cT W)
    (paired (unpaired RV) && true) RV.B), (0, 0), 0xFFFFFFFF, rfl, by decide +kernel, goes (by decide +kernel), ⟨ok_val
    (by decide +kernel), ok_val (by decide +kernel), rfl, by decide +kernel⟩⟩

/-- `Obligations.FloatScanAndConversionResult`: a state and operands that meet the hypotheses of each clause. -/
theorem meets_FloatScanAndConversionResult :
    (∃ (f : RForm) (s : State) (t : Thread) (a : VWord) (k : BitVec 32), (Goes s t f.toHead) ∧ (typeOf f < 3) ∧ srcV t f.A
      = .ok a ∧ t.getK f.msk = .full k)
    ∧ (∃ (f : RForm) (s : State) (t : Thread) (a : VWord) (k : BitVec 32), (Goes s t f.toHead) ∧ (typeOf f < 3) ∧ srcV t f.A
      = .ok a ∧ t.getK f.msk = .full k)
    ∧ (∃ (f : RForm) (s : State) (t : Thread) (a : VWord) (k : BitVec 32), (Goes s t f.toHead) ∧ srcV t f.A = .ok a ∧ t.getK
      f.msk = .full k)
    ∧ (∃ (f : RForm) (s : State) (t : Thread) (a : VWord) (k : BitVec 32), (Goes s t f.toHead) ∧ srcV t f.A = .ok a ∧ t.getK
      f.msk = .full k)
    ∧ (∃ (f : RForm) (s : State) (t : Thread) (a : VWord) (k : BitVec 32), (Goes s t f.toHead) ∧ srcV t f.A = .ok a ∧ t.getK
      f.msk = .full k) :=
  ⟨⟨RV, W, cT W, val 0 (srcV (cT W) RV.A), 0xFFFFFFFF, goes (by decide +kernel), by decide +kernel, ok_val
    (by decide +kernel), by decide +kernel⟩,
   ⟨RV, W, cT W, val 0 (srcV (cT W) RV.A), 0xFFFFFFFF, goes (by decide +kernel), by decide +kernel, ok_val
    (by decide +kernel), by decide +kernel⟩,
   ⟨RV, W, cT W, val 0 (srcV (cT W) RV.A), 0xFFFFFFFF, goes (by decide +kernel), ok_val (by decide +kernel),
    by decide +kernel⟩,
   ⟨RV, W, cT W, val 0 (srcV (cT W) RV.A), 0xFFFFFFFF, goes (by decide +kernel), ok_val (by decide +kernel),
    by decide +kernel⟩,
   ⟨RV, W, cT W, val 0 (srcV (cT W) RV.A), 0xFFFFFFFF, goes (by decide +kernel), ok_val (by decide +kernel),
    by decide +kernel⟩⟩

/-- `Obligations.DeliveriesLand`: a state and operands that meet the hypotheses of each clause. -/
theorem meets_DeliveriesLand :
    (∃ (s : State) (d : Delivery) (t : Thread) (o : Opd) (w : BitVec 1024), landsIn s d.t = false ∧ (s.thread? d.t = some
      t) ∧ t.holderOf d.tag = some o ∧ d.val = .val w)
    ∧ (∃ (s : State) (d : Delivery) (t : Thread), landsIn s d.t = false ∧ (s.thread? d.t = some t) ∧ t.holderOf d.tag =
      none)
    ∧ (∃ (s : State) (d : Deposit) (t : Thread), ((s.image? d.ctx (d.agent / 16)).isNone) ∧ (s.agent? d.ctx d.agent = some
      t) ∧ isEmpty t d.reg = true ∧ (∀ x ∈ (s.core (s.homeOf t.ref)).depLatch, ¬(x.ctx = d.ctx ∧ x.agent = d.agent ∧ x.reg =
      d.reg)))
    ∧ (∃ (s : State) (d : Deposit) (t : Thread), ((s.image? d.ctx (d.agent / 16)).isNone) ∧ (s.agent? d.ctx d.agent = some
      t) ∧ isEmpty t d.reg = false ∧ ((s.core (s.homeOf t.ref)).depLatch.length < 8))
    ∧ (∃ (s : State) (d : Deposit) (t : Thread), ((s.image? d.ctx (d.agent / 16)).isNone) ∧ (s.agent? d.ctx d.agent = some
      t) ∧ isEmpty t d.reg = false ∧ (8 ≤ (s.core (s.homeOf t.ref)).depLatch.length))
    ∧ (∃ (s : State) (d : Deposit) (r : TRef) (tag : Tag), ((s.image? d.ctx (d.agent / 16)).isNone) ∧ (s.agent? d.ctx
      d.agent = none) ∧ (d.pred = some (r, tag)))
    ∧ (∃ (s : State) (c : Nat) (i : Nat) (d : Deposit) (t : Thread), (latchReady s (s.core c) = some (i, d, t))) :=
  ⟨⟨WA, ⟨r0, mkTag 1 1, .val 9, some 5⟩, cT WA, .g 1, 9, by decide +kernel⟩,
   ⟨WA, ⟨r0, mkTag 1 2, .val 9, some 5⟩, cT WA, by decide +kernel⟩,
   ⟨wt (fun t => t.setEmpty (.g 1)) W, dep, cT (wt (fun t => t.setEmpty (.g 1)) W), by decide +kernel⟩,
   ⟨W, dep, cT W, by decide +kernel⟩,
   ⟨WDf, dep, cT WDf, by decide +kernel⟩,
   ⟨W, { dep with agent := 3 }, r0, mkTag 5 1, by decide +kernel⟩,
   ⟨WD, 0, 0, dep, cT WD, by decide +kernel⟩⟩

/-- `Obligations.AcknowledgementsArrive`: a state and operands that meet the hypotheses of each clause. -/
theorem meets_AcknowledgementsArrive :
    (∃ (s : State) (r : TRef) (acc : Nat) (unit : Nat) (d : Option (BitVec 1024)) (w : Option Word) (t : Thread) (p :
      Pending), landsIn s r = false ∧ (s.thread? r = some t) ∧ (t.pend.find? (fun p => p.id == acc) = some p) ∧ (p.tags =
      []) ∧ (settleUnit p unit d w).allDone = true)
    ∧ (∃ (s : State) (r : TRef) (acc : Nat) (d : BitVec 1024) (t : Thread) (p : Pending) (tag : Tag) (sx : Bool) (size :
      Nat), landsIn s r = false ∧ (s.thread? r = some t) ∧ (t.pend.find? (fun p => p.id == acc) = some p) ∧ (p.tags = [tag])
      ∧ p.asm = .scalar sx size ∧ (1 ≤ size) ∧ (p.got = []) ∧ (p.pois = []) ∧ (settleUnit p 0 (some d) none).allDone = true)
    ∧ (∃ (s : State) (r : TRef) (t : Thread), (s.thread? r = some t) ∧ t.run = .waiting .fetch)
    ∧ (∃ (s : State) (c : Nat) (t : Thread) (oc : OC), (t ∈ s.threads) ∧ t.run = .parked (.router c) oc)
    ∧ (∃ (s : State) (c : Nat) (i : Instr) (l : List Instr), ((s.core c).outbox = i :: l)) :=
  ⟨⟨WS, r0, 5, 0, none, none, cT WS, sentStore, by decide +kernel⟩,
   ⟨WA, r0, 5, 9, cT WA, sentLoad, mkTag 1 1, true, 8, by decide +kernel⟩,
   ⟨wt (fun t => { t with run := .waiting .fetch }) W, r0, cT (wt (fun t => { t with run := .waiting .fetch }) W),
    by decide +kernel⟩,
   ⟨wt (fun t => { t with run := .parked (.router 0) .retry }) WD, 0, cT (wt (fun t =>
    { t with run := .parked (.router 0) .retry }) WD), .retry, by decide +kernel⟩,
   ⟨WD, 0, .acornPulse, [], by decide +kernel⟩⟩

/-- `Obligations.HomeServesAccess`: a state and operands that meet the hypotheses of each clause. -/
theorem meets_HomeServesAccess :
    (∃ (s : State) (a : Access) (k : Nat) (key : Nat) (r : TRef) (acc : Nat) (u : Nat) (t : Thread), (placeOf s a = some
      (k, key)) ∧ (Unprotected s a k) ∧ a.kind = .read ∧ (checkHome s a (s.md (lineOf k)) ≠ .fail) ∧ s.pois (lineOf k) = 0 ∧
      a.sink = .thread r acc u ∧ (s.threadAny? r = some t))
    ∧ (∃ (s : State) (a : Access) (k : Nat) (key : Nat), (s.Canonical) ∧ (placeOf s a = some (k, key)) ∧ (Unprotected s a k)
      ∧ a.kind = .write ∧ (1 ≤ a.size) ∧ (a.size < 128) ∧ (k % 128 + a.size ≤ 128) ∧ s.lineKey (lineOf k) = key ∧ checkHome
      s a (s.md (lineOf k)) = .pass)
    ∧ (∃ (s : State) (a : Access) (k : Nat) (key : Nat) (op : AOp), (s.Canonical) ∧ (placeOf s a = some (k, key)) ∧
      (Unprotected s a k) ∧ a.kind = .amo op ∧ (k % 128 + a.size ≤ 128) ∧ (1 ≤ a.size) ∧ (a.size ≤ 8) ∧ s.lineKey (lineOf k)
      = key ∧ s.pois (lineOf k) = 0 ∧ checkHome s a (s.md (lineOf k)) = .pass)
    ∧ (∃ (s : State) (a : Access) (k : Nat) (key : Nat) (r : TRef) (acc : Nat) (u : Nat), (placeOf s a = some (k, key)) ∧
      (Unprotected s a k) ∧ checkHome s a (s.md (lineOf k)) = .fail ∧ a.st.report = false ∧ a.sink = .thread r acc u ∧
      a.kind = .write) :=
  ⟨⟨W, acc .read (ownBase + 0x1000) 8, spot, 0, r0, 5, 0, cT W, by decide +kernel, by unfold Unprotected; decide +kernel,
    by decide +kernel⟩,
   ⟨W, acc .write (ownBase + 0x1000) 8, spot, 0, canonical (by decide +kernel), by decide +kernel,
    by unfold Unprotected; decide +kernel, by decide +kernel⟩,
   ⟨W, acc (.amo .add) (ownBase + 0x1000) 8, spot, 0, .add, canonical (by decide +kernel), by decide +kernel,
    by unfold Unprotected; decide +kernel, by decide +kernel⟩,
   ⟨WL, acc .write (ownBase + 0x1000) 8, spot, 0, r0, 5, 0, by decide +kernel, by unfold Unprotected; decide +kernel,
    by decide +kernel⟩⟩

/-- `Obligations.FaultsAreTaken`: a state and operands that meet the hypotheses of each clause. -/
theorem meets_FaultsAreTaken :
    (∃ (s : State) (a : Access) (x : Xlat), (s.translate (s.mcOf a.ctx a.core) a.ctx a.va (a.kind != .read) true = .ok x))
    ∧ (∃ (s : State) (a : Access) (f : FaultInfo) (r : TRef) (acc : Nat) (u : Nat), (s.translate (s.mcOf a.ctx a.core) a.ctx
      a.va (a.kind != .read) true = .error f) ∧ a.sink = .thread r acc u ∧ ((s.image? a.ctx a.core).isNone))
    ∧ (∃ (s : State) (r : TRef) (acc : Nat) (t : Thread) (p : Pending), landsIn s r = false ∧ (s.thread? r = some t) ∧ (p ∈
      t.pend) ∧ p.id = acc ∧ p.fault = none)
    ∧ (∃ (s : State) (r : TRef) (t : Thread) (p : Pending) (f : FaultInfo) (k : Nat) (key : Nat), (s.Canonical) ∧ (s.thread?
      r = some t) ∧ dueOf s t = .access p f ∧ t.h = false ∧ (t.fam.handler ≠ 0) ∧ (k % 128 = 0) ∧ (spotOf s r.ctx (r.agent /
      16) ((s.ctxD r.ctx).tfb + r.agent * 128) true true = .ok (.at_ k key)) ∧ (s.lineKey (k / 128) = key))
    ∧ (∃ (s : State) (r : TRef) (t : Thread), (s.thread? r = some t) ∧ dueOf s t = .fetch)
    ∧ (∃ (s : State) (r : TRef) (t : Thread), (s.thread? r = some t) ∧ dueOf s t = .target) :=
  ⟨⟨WP, acc .read 0x2000010 8, val ⟨0, 0, 0, 0, false⟩ (WP.translate (WP.mcOf 0 0) 0 0x2000010 false true), ok_val
    (by decide +kernel)⟩,
   ⟨W, acc .read 0x2000010 8, ⟨.translation, 0x2000010, 0, 1, false⟩, r0, 5, 0, err_eq (by decide +kernel),
    by decide +kernel⟩,
   ⟨WS, r0, 5, cT WS, sentStore, by decide +kernel⟩,
   ⟨WF, r0, cT WF, { sentStore with fault := some (0, fault1) }, fault1, Config.scratchKey + 0x6000, 0, canonical
    (by decide +kernel), by decide +kernel, by decide +kernel, by decide +kernel, by decide +kernel, by decide +kernel,
    ok_eq (by decide +kernel), by decide +kernel⟩,
   ⟨wt (fun t => { t with pc := BitVec.ofNat 64 (ownBase + 0x1000) }) W, r0, cT (wt (fun t =>
    { t with pc := BitVec.ofNat 64 (ownBase + 0x1000) }) W), by decide +kernel⟩,
   ⟨WPc, r0, cT WPc, by decide +kernel⟩⟩

/-- `Obligations.MatrixCommandsAreQueued`: a state and operands that meet the hypotheses of each clause. -/
theorem meets_MatrixCommandsAreQueued :
    (∃ (f : EForm) (s : State) (t : Thread), (Goes s t f.toHead) ∧ (Appends s t false) ∧ (PodUsable s t f.hi))
    ∧ (∃ (f : EForm) (s : State) (t : Thread), (Goes s t f.toHead) ∧ (Appends s t false) ∧ (AccUsable s t f.an))
    ∧ (∃ (f : EForm) (s : State) (t : Thread) (a : Word) (b : Word), (Goes s t f.toHead) ∧ (Appends s t false) ∧ (PodUsable
      s t f.hi) ∧ srcW s t f.A = .ok a ∧ srcW s t f.B = .ok b ∧ (f.lo = 1 ∨ f.lo = 2 → a.toNat % 2 = 0 ∧ b.toNat % 2 = 0))
    ∧ (∃ (f : EForm) (s : State) (t : Thread), (Goes s t f.toHead) ∧ (Appends s t false) ∧ (AccUsable s t f.an) ∧ (PodUsable
      s t f.hi) ∧ (PodUsable s t f.lo) ∧ mmaPair (fmtAt s (s.homeOf t.ref) t.ref.ctx f.hi) (fmtAt s (s.homeOf t.ref)
      t.ref.ctx f.lo) = true ∧ (f.flag 1 = true → ((s.core (s.homeOf t.ref)).acc f.an).mode ≠ 0))
    ∧ (∃ (f : EForm) (s : State) (t : Thread) (a : Word) (b : Word), (Goes s t f.toHead) ∧ (Appends s t false) ∧ (AccUsable
      s t f.an) ∧ srcW s t f.A = .ok a ∧ srcW s t f.B = .ok b ∧ ((∃ i, f.D = .g i) → (freeSeq s t 1).isSome))
    ∧ (∃ (f : EForm) (s : State) (t : Thread) (a : Word) (b : Word), (Goes s t f.toHead) ∧ (Appends s t false) ∧ (AccUsable
      s t f.an) ∧ srcW s t f.A = .ok a ∧ srcW s t f.B = .ok b ∧ ((∃ i, f.D = .g i) → (freeSeq s t 1).isSome) ∧ (Target a))
    ∧ (∃ (f : EForm) (s : State) (t : Thread) (a : Word), (Goes s t f.toHead) ∧ (Appends s t false) ∧ srcW s t f.A = .ok a ∧
      (a.toNat % 16 = 0)) :=
  ⟨⟨E0, WM4, cT WM4, goes (by decide +kernel), by unfold Appends; decide +kernel, podUsable (by decide +kernel)⟩,
   ⟨E0, WM4, cT WM4, goes (by decide +kernel), by unfold Appends; decide +kernel, accUsable (by decide +kernel)⟩,
   ⟨E0, WM4, cT WM4, val 0 (srcW WM4 (cT WM4) E0.A), val 0 (srcW WM4 (cT WM4) E0.B), goes (by decide +kernel),
    by unfold Appends; decide +kernel, podUsable (by decide +kernel), ok_val (by decide +kernel), ok_val
    (by decide +kernel), by decide +kernel⟩,
   ⟨E0, WM4, cT WM4, goes (by decide +kernel), by unfold Appends; decide +kernel, accUsable (by decide +kernel),
    podUsable (by decide +kernel), podUsable (by decide +kernel), by decide +kernel⟩,
   ⟨E0, WM4, cT WM4, val 0 (srcW WM4 (cT WM4) E0.A), val 0 (srcW WM4 (cT WM4) E0.B), goes (by decide +kernel),
    by unfold Appends; decide +kernel, accUsable (by decide +kernel), ok_val (by decide +kernel), ok_val
    (by decide +kernel), fun _ => by decide +kernel⟩,
   ⟨E0, WM4, cT WM4, val 0 (srcW WM4 (cT WM4) E0.A), val 0 (srcW WM4 (cT WM4) E0.B), goes (by decide +kernel),
    by unfold Appends; decide +kernel, accUsable (by decide +kernel), ok_val (by decide +kernel), ok_val
    (by decide +kernel), fun _ => by decide +kernel, by unfold Target; decide +kernel⟩,
   ⟨E0, WM4, cT WM4, val 0 (srcW WM4 (cT WM4) E0.A), goes (by decide +kernel), by unfold Appends; decide +kernel, ok_val
    (by decide +kernel), by decide +kernel⟩⟩

/-- `Obligations.MatrixObjectsClaimed`: a state and operands that meet the hypotheses of each clause. -/
theorem meets_MatrixObjectsClaimed :
    (∃ (f : EForm) (s : State) (t : Thread), (Goes s t f.toHead) ∧ canTake s t.ref.ctx t.ref.agent (.pod (s.homeOf t.ref)
      f.hi) = true)
    ∧ (∃ (f : EForm) (s : State) (t : Thread), (Goes s t f.toHead) ∧ canTake s t.ref.ctx t.ref.agent (.accum (s.homeOf
      t.ref) f.an) = true ∧ (f.fl.extractLsb' 0 2 = 0 ∨ (s.ctxD t.ref.ctx).mode.extractLsb' 4 2 ≠ 0))
    ∧ (∃ (f : EForm) (s : State) (t : Thread), (Goes s t f.toHead) ∧ f.fl.getLsbD 0 = false)
    ∧ (∃ (f : EForm) (s : State) (t : Thread), (Goes s t f.toHead) ∧ f.fl.getLsbD 0 = true) :=
  ⟨⟨E0, W, cT W, goes (by decide +kernel), by decide +kernel⟩,
   ⟨E0, W, cT W, goes (by decide +kernel), by decide +kernel⟩,
   ⟨E0, W, cT W, goes (by decide +kernel), by decide +kernel⟩,
   ⟨{ E0 with fl := 1 }, W, cT W, goes (by decide +kernel), by decide +kernel⟩⟩

/-- `Obligations.MatrixCommandStarts`: a state and operands that meet the hypotheses of each clause. -/
theorem meets_MatrixCommandStarts :
    (∃ (s : State) (mc : Nat) (ctx : Nat) (c : Cmd) (n : Nat), (matrixHead s mc ctx = some (c, .start)) ∧ c.op = .prel n)
    ∧ (∃ (s : State) (mc : Nat) (ctx : Nat) (c : Cmd) (n : Nat), (matrixHead s mc ctx = some (c, .start)) ∧ c.op = .arel n)
    ∧ (∃ (s : State) (mc : Nat) (ctx : Nat) (c : Cmd) (n : Nat), (matrixHead s mc ctx = some (c, .start)) ∧ c.op = .azero n)
    ∧ (∃ (s : State) (mc : Nat) (ctx : Nat) (c : Cmd), (matrixHead s mc ctx = some (c, .start)) ∧ c.t.ctx = ctx ∧ (∃ n f a
      b, (∃ mx, c.op = .pld n f mx a b) ∨ c.op = .pldt n f a b))
    ∧ (∃ (s : State) (mc : Nat) (ctx : Nat) (c : Cmd) (a : Word), (matrixHead s mc ctx = some (c, .start)) ∧ c.t.ctx = ctx ∧
      c.op = .atbl a)
    ∧ (∃ (s : State) (mc : Nat) (ctx : Nat) (c : Cmd) (n : Nat) (pa : Nat) (pb : Nat) (h : Bool), (matrixHead s mc ctx =
      some (c, .start)) ∧ c.t.ctx = ctx ∧ c.op = .mma n pa pb h)
    ∧ (∃ (s : State) (mc : Nat) (ctx : Nat) (c : Cmd) (n : Nat) (h : Bool) (act : Bool) (rq : Bool) (mx : Bool) (zc : Bool)
      (f : Nat) (a : Word) (b : Word), (s.Distinct) ∧ (matrixHead s mc ctx = some (c, .start)) ∧ c.t.ctx = ctx ∧ (s.started?
      c.id = none) ∧ (∀ w, ((s.core mc).acc n).st ≠ .pois w) ∧ c.op = .drn n h false act rq mx zc f a b ∧ (RowsAligned
      ((s.core mc).profile ctx) rq mx f a))
    ∧ (∃ (s : State) (mc : Nat) (ctx : Nat) (c : Cmd) (n : Nat) (h : Bool) (act : Bool) (zc : Bool) (a : Word) (b : Word),
      (s.Distinct) ∧ (matrixHead s mc ctx = some (c, .start)) ∧ c.t.ctx = ctx ∧ (s.started? c.id = none) ∧ (∀ w, ((s.core
      mc).acc n).st ≠ .pois w) ∧ c.op = .drnm n h false act zc a b)
    ∧ (∃ (s : State) (mc : Nat) (ctx : Nat) (c : Cmd) (n : Nat) (b : Word), (s.Distinct) ∧ (matrixHead s mc ctx = some (c,
      .start)) ∧ c.t.ctx = ctx ∧ (s.started? c.id = none) ∧ (∀ w, ((s.core mc).acc n).st ≠ .pois w) ∧ (b.toNat % 4 = 0) ∧
      ((∃ h act rq mx zc f a, c.op = .drn n h true act rq mx zc f a b) ∨ ∃ h act zc a, c.op = .drnm n h true act zc a b))
    ∧ (∃ (s : State) (mc : Nat) (ctx : Nat) (c : Cmd), (matrixHead s mc ctx = some (c, .discard))) :=
  ⟨⟨WC (cmd (.prel 0)), 0, 0, cmd (.prel 0), 0, by decide +kernel⟩,
   ⟨WC (cmd (.arel 0)), 0, 0, cmd (.arel 0), 0, by decide +kernel⟩,
   ⟨WC (cmd (.azero 0)), 0, 0, cmd (.azero 0), 0, by decide +kernel⟩,
   ⟨WC (cmd (.pld 0 1 false 0 32)), 0, 0, cmd (.pld 0 1 false 0 32), by decide +kernel, by decide +kernel, ⟨0, 1, 0, 32,
    .inl ⟨false, rfl⟩⟩⟩,
   ⟨WC (cmd (.atbl 0)), 0, 0, cmd (.atbl 0), 0, by decide +kernel⟩,
   ⟨WC (cmd (.mma 0 0 1 false)), 0, 0, cmd (.mma 0 0 1 false), 0, 0, 1, false, by decide +kernel⟩,
   ⟨WC (cmd (.drn 0 false false false false false false 0 0 0)), 0, 0, cmd (.drn 0 false false false false false false 0
    0 0), 0, false, false, false, false, false, 0, 0, 0, distinct (by decide +kernel), by decide +kernel,
    by decide +kernel, by decide +kernel, (fun w h => by cases h), by decide +kernel, (fun _ => by decide +kernel)⟩,
   ⟨WC (cmd (.drnm 0 false false false false 0 0)), 0, 0, cmd (.drnm 0 false false false false 0 0), 0, false, false,
    false, 0, 0, distinct (by decide +kernel), by decide +kernel, by decide +kernel, by decide +kernel, (fun w h => by
    cases h), by decide +kernel⟩,
   ⟨WC (cmd (.drn 0 false true false false false false 0 0 0)), 0, 0, cmd (.drn 0 false true false false false false 0 0
    0), 0, 0, distinct (by decide +kernel), by decide +kernel, by decide +kernel, by decide +kernel, (fun w h => by cases
    h), by decide +kernel, .inl ⟨false, false, false, false, false, 0, 0, rfl⟩⟩,
   ⟨WC { cmd (.azero 0) with guard := .fails }, 0, 0, { cmd (.azero 0) with guard := .fails }, by decide +kernel⟩⟩

/-- `Obligations.MatrixCommandsComplete`: a state and operands that meet the hypotheses of each clause. -/
theorem meets_MatrixCommandsComplete :
    (∃ (s : State) (id : Nat) (p : CmdPlace) (x : Started) (n : Nat) (f : Nat) (mx : Bool) (a : Word) (b : Word),
      (s.Distinct) ∧ (s.started? id = some (p, x)) ∧ x.cmd.op = .pld n f mx a b)
    ∧ (∃ (s : State) (id : Nat) (p : CmdPlace) (x : Started) (n : Nat) (f : Nat) (a : Word) (b : Word), (s.Distinct) ∧
      (s.started? id = some (p, x)) ∧ x.cmd.op = .pldt n f a b)
    ∧ (∃ (s : State) (id : Nat) (p : CmdPlace) (x : Started) (n : Nat) (pa : Nat) (pb : Nat) (h : Bool), (s.started? id =
      some (p, x)) ∧ x.cmd.op = .mma n pa pb h ∧ (cleanPods (s.core p.mc) n pa pb) ∧ mmaPair ((s.core p.mc).pod pa).fmt
      ((s.core p.mc).pod pb).fmt = true)
    ∧ (∃ (s : State) (id : Nat) (p : CmdPlace) (x : Started) (a : Word), (s.started? id = some (p, x)) ∧ x.cmd.op = .atbl a
      ∧ (x.pois = []) ∧ profileOk (profileOf (x.bytesOf soleUnit)) = true)
    ∧ (∃ (s : State) (id : Nat) (p : CmdPlace) (x : Started) (g : Tag) (n : Nat) (h : Bool) (bias : Bool) (act : Bool) (rq :
      Bool) (mx : Bool) (zc : Bool) (f : Nat) (a : Word) (b : Word), (s.Distinct) ∧ (s.started? id = some (p, x)) ∧ x.cmd.op
      = .drn n h bias act rq mx zc f a b ∧ (x.pois = []) ∧ x.cmd.dest = some g)
    ∧ (∃ (s : State) (id : Nat) (p : CmdPlace) (x : Started) (n : Nat) (h : Bool) (act : Bool) (rq : Bool) (mx : Bool) (zc :
      Bool) (f : Nat) (a : Word) (b : Word) (part : Nat) (data : BitVec 1024), (s.Distinct) ∧ (s.started? id = some (p, x))
      ∧ x.cmd.op = .drn n h true act rq mx zc f a b ∧ x.stage = 0 ∧ x.fault = none ∧ (x.pois = []) ∧ (x.doneUnits = []) ∧
      (RowsAligned ((s.core p.mc).profile p.q.ctx) rq mx f a) ∧
      let x1 := { x with got := x.got ++ [(soleUnit, part, data)] }; x1.allDone = true)
    ∧ (∃ (s : State) (id : Nat) (p : CmdPlace) (x : Started) (n : Nat) (h : Bool) (act : Bool) (zc : Bool) (a : Word) (b :
      Word) (part : Nat) (data : BitVec 1024), (s.Distinct) ∧ (s.started? id = some (p, x)) ∧ x.cmd.op = .drnm n h true act
      zc a b ∧ x.fault = none ∧ (x.pois = []) ∧ let x1 := { x with got := x.got ++ [(soleUnit, part, data)] }; x1.allDone =
      true)
    ∧ (∃ (s : State) (id : Nat) (p : CmdPlace) (x : Started) (n : Nat) (h : Bool) (b : Bool) (act : Bool) (zc : Bool) (a :
      Word) (c : Word), (s.started? id = some (p, x)) ∧ x.cmd.op = .drnm n h b act zc a c ∧ x.stage = 1 ∧ (x.pos < 31) ∧
      (x.pos ∉ x.doneUnits) ∧ rowRoom s (rowMsg x a) = true)
    ∧ (∃ (s : State) (id : Nat) (p : CmdPlace) (x : Started), (s.Distinct) ∧ (s.started? id = some (p, x)) ∧ ((s.thread?
      x.cmd.t).isSome)) :=
  ⟨⟨WB (begun (.pld 0 1 false 0 32) 0 0), 9, ⟨0, false, qS (begun (.pld 0 1 false 0 32) 0 0)⟩, begun (.pld 0 1 false 0
    32) 0 0, 0, 1, false, 0, 32, distinct (by decide +kernel), by decide +kernel⟩,
   ⟨WB (begun (.pldt 0 1 0 32) 0 0), 9, ⟨0, false, qS (begun (.pldt 0 1 0 32) 0 0)⟩, begun (.pldt 0 1 0 32) 0 0, 0, 1, 0,
    32, distinct (by decide +kernel), by decide +kernel⟩,
   ⟨WB (begun (.mma 0 0 1 false) 0 0), 9, ⟨0, false, qS (begun (.mma 0 0 1 false) 0 0)⟩, begun (.mma 0 0 1 false) 0 0, 0,
    0, 1, false, by decide +kernel, by decide +kernel, cleanPods_of (by decide +kernel), by decide +kernel⟩,
   ⟨WB (begun (.atbl 0) 0 0), 9, ⟨0, false, qS (begun (.atbl 0) 0 0)⟩, begun (.atbl 0) 0 0, 0, by decide +kernel⟩,
   ⟨WB (begun (.drn 0 false false false false false false 0 0 0) 0 0), 9, ⟨0, false, qS (begun (.drn 0 false false false
    false false false 0 0 0) 0 0)⟩, begun (.drn 0 false false false false false false 0 0 0) 0 0, mkTag 3 1, 0, false,
    false, false, false, false, false, 0, 0, 0, distinct (by decide +kernel), by decide +kernel⟩,
   ⟨WB (begun (.drn 0 false true false false false false 0 0 0) 0 0), 9, ⟨0, false, qS (begun (.drn 0 false true false
    false false false 0 0 0) 0 0)⟩, begun (.drn 0 false true false false false false 0 0 0) 0 0, 0, false, false, false,
    false, false, 0, 0, 0, 0, 0, distinct (by decide +kernel), by decide +kernel, by decide +kernel, by decide +kernel,
    by decide +kernel, by decide +kernel, ⟨by decide +kernel, (fun _ => by decide +kernel), by decide +kernel⟩⟩,
   ⟨WB (begun (.drnm 0 false true false false 0 0) 0 0), 9, ⟨0, false, qS (begun (.drnm 0 false true false false 0 0) 0
    0)⟩, begun (.drnm 0 false true false false 0 0) 0 0, 0, false, false, false, 0, 0, 0, 0, distinct (by decide +kernel),
    by decide +kernel, by decide +kernel, by decide +kernel, by decide +kernel, by decide +kernel⟩,
   ⟨WB (begun (.drnm 0 false false false false 0 0) 1 3), 9, ⟨0, false, qS (begun (.drnm 0 false false false false 0 0) 1
    3)⟩, begun (.drnm 0 false false false false 0 0) 1 3, 0, false, false, false, false, 0, 0, by decide +kernel⟩,
   ⟨WB (begun (.atbl 0) 0 0), 9, ⟨0, false, qS (begun (.atbl 0) 0 0)⟩, begun (.atbl 0) 0 0, distinct (by decide +kernel),
    by decide +kernel⟩⟩

/-- `Obligations.MessagesSent`: a state and operands that meet the hypotheses of each clause. -/
theorem meets_MessagesSent :
    (∃ (f : EForm) (s : State) (t : Thread) (a : Word) (b : Word) (ws : List Word), (Goes s t f.toHead) ∧ (SendsNow s t
      a.toNat) ∧ srcW s t f.A = .ok a ∧ srcW s t f.B = .ok b ∧ ws.length = (f.fn.extractLsb' 0 5).toNat ∧ (∀ i < ws.length,
      srcW s t (.g (Fin.ofNat 16 (f.d.toNat + i))) = .ok (ws.getD i 0)) ∧ a.extractLsb' 11 53 = 0 ∧ (s.ctxD t.ref.ctx).has
      a.toNat = true ∧ (Target b))
    ∧ (∃ (f : EForm) (s : State) (t : Thread) (a : Word) (b : Word) (i : Opd), (Goes s t f.toHead) ∧ (SendsNow s t
      ((a.extractLsb' 0 20).toNat / 16)) ∧ srcW s t f.A = .ok a ∧ srcW s t f.B = .ok b ∧ f.opv = 0 ∧ a.extractLsb' 26 38 = 0
      ∧ (((a.extractLsb' 20 6).toNat < 16 ∧ i = .g (Fin.ofNat 16 (a.extractLsb' 20 6).toNat)) ∨ (49 ≤ (a.extractLsb' 20
      6).toNat ∧ (a.extractLsb' 20 6).toNat ≤ 55 ∧ i = .k (Fin.ofNat 8 ((a.extractLsb' 20 6).toNat - 48)))))
    ∧ (∃ (f : EForm) (s : State) (t : Thread) (a : Word) (b : Word) (n : Nat), (Goes s t f.toHead) ∧ (SendsNow s t
      ((a.extractLsb' 0 20).toNat / 16)) ∧ srcW s t f.A = .ok a ∧ srcW s t f.B = .ok b ∧ f.opv = 1 ∧ (Fin.ofNat 8
      f.opk.toNat ≠ 0) ∧ a.extractLsb' 26 38 = 0 ∧ ((a.extractLsb' 20 6).toNat < 16) ∧ freeSeq s t 1 = some n)
    ∧ (∃ (s : State) (m : Msg) (tid : Nat), ((s.image? m.ctx m.core).isNone) ∧ behindOthers (s.core (s.mcOf m.ctx m.core)) m
      = false ∧ msgTid s m = some tid ∧ (m.origin ≠ .subLaunch) ∧ (∀ p, m.origin ≠ .pip p) ∧ (m.payload.length ≤ 16))
    ∧ (∃ (s : State) (m : Msg) (tid : Nat) (uid : Nat) (l : Launch), ((s.image? m.ctx m.core).isNone) ∧ behindOthers (s.core
      (s.mcOf m.ctx m.core)) m = false ∧ msgTid s m = some tid ∧ m.origin = .subLaunch ∧ m.fam.launch = some uid ∧
      (s.launch? uid = some l))
    ∧ (∃ (s : State) (m : Msg), ((s.image? m.ctx m.core).isNone) ∧ (behindOthers (s.core (s.mcOf m.ctx m.core)) m = true ∨
      msgTid s m = none) ∧ inboxRoom (s.core (s.mcOf m.ctx m.core)) m.reply = true)
    ∧ (∃ (s : State) (m : Msg), ((s.image? m.ctx m.core).isNone) ∧ (behindOthers (s.core (s.mcOf m.ctx m.core)) m = true ∨
      msgTid s m = none) ∧ inboxRoom (s.core (s.mcOf m.ctx m.core)) m.reply = false)
    ∧ (∃ (s : State) (c : Nat) (i : Nat) (m : Msg) (tid : Nat), ((s.core c).inbox[i]? = some m) ∧ msgTid s m = some tid ∧
      (m.origin ≠ .subLaunch) ∧ (∀ p, m.origin ≠ .pip p) ∧ (m.payload.length ≤ 16)) :=
  ⟨⟨ES, WN, cT WN, val 0 (srcW WN (cT WN) ES.A), val 0 (srcW WN (cT WN) ES.B), [0], goes (by decide +kernel), sendsNow
    (by decide +kernel), ok_val (by decide +kernel), ok_val (by decide +kernel), by decide +kernel, fun i h =>
    by have e : i = 0 := (by simpa using h); subst e; exact ok_eq (by decide +kernel), by decide +kernel,
    by decide +kernel, by unfold Target; decide +kernel⟩,
   ⟨E0, WN, cT WN, val 0 (srcW WN (cT WN) E0.A), val 0 (srcW WN (cT WN) E0.B), .g 0, goes (by decide +kernel), sendsNow
    (by decide +kernel), ok_val (by decide +kernel), ok_val (by decide +kernel), by decide +kernel, by decide +kernel,
    .inl (by decide +kernel)⟩,
   ⟨EO, WN, cT WN, val 0 (srcW WN (cT WN) EO.A), val 0 (srcW WN (cT WN) EO.B), (freeSeq WN (cT WN) 1).getD 0, goes
    (by decide +kernel), sendsNow (by decide +kernel), ok_val (by decide +kernel), ok_val (by decide +kernel),
    by decide +kernel⟩,
   ⟨W, msg, 1, by decide +kernel, by decide +kernel, by decide +kernel, by decide, (fun p h => by cases h),
    by decide +kernel⟩,
   ⟨WLa, subMsg, 1, 4, launch4, by decide +kernel⟩,
   ⟨wc (fun c => { c with residents := [⟨0, 0, 0, 0, 0, 0⟩] }) W, msg, by decide +kernel⟩,
   ⟨WIn, msg, by decide +kernel⟩,
   ⟨WCn, 0, 0, msg, 1, by decide +kernel, by decide +kernel, by decide, (fun p h => by cases h), by decide +kernel⟩⟩

/-- `Obligations.QueueOperations`: a state and operands that meet the hypotheses of each clause. -/
theorem meets_QueueOperations :
    (∃ (f : EForm) (s : State) (t : Thread) (a : Word) (b : Word) (off : Nat) (r : Resident) (i : Nat), (Goes s t
      f.toHead) ∧ srcW s t f.A = .ok a ∧ srcW s t f.B = .ok b ∧ (NamesQueue t a (t.ref.agent / 16) off) ∧ (b ≠ 0) ∧ (b.toNat
      ≤ 256) ∧ ((s.core (s.homeOf t.ref)).resident? t.ref.ctx = some r) ∧ (off + 16 + 8 * b.toNat ≤ r.size) ∧ (∀ q ∈ (s.core
      (s.homeOf t.ref)).queues, q.ctx = t.ref.ctx → q.off + 16 + 8 * q.cap ≤ off ∨ off + 16 + 8 * b.toNat ≤ q.off) ∧ (i <
      32) ∧ (∀ q ∈ (s.core (s.homeOf t.ref)).queues, q.qid ≠ i) ∧ (∀ j < i, ∃ q ∈ (s.core (s.homeOf t.ref)).queues, q.qid =
      j))
    ∧ (∃ (f : EForm) (s : State) (t : Thread) (a : Word) (off : Nat) (q : Queue), (Goes s t f.toHead) ∧ srcW s t f.A = .ok a
      ∧ srcW s t f.B = .ok 0 ∧ (NamesQueue t a (t.ref.agent / 16) off) ∧ (s.image? t.ref.ctx (t.ref.agent / 16) = none) ∧
      (s.queue? t.ref.ctx (t.ref.agent / 16) off = some q))
    ∧ (∃ (f : EForm) (s : State) (t : Thread) (a : Word) (b : Word) (off : Nat) (q : Queue), (Goes s t f.toHead) ∧ srcW s t
      f.A = .ok a ∧ srcW s t f.B = .ok b ∧ (NamesQueue t a (t.ref.agent / 16) off) ∧ (s.queue? t.ref.ctx (t.ref.agent / 16)
      off = some q) ∧ (canTake s t.ref.ctx t.ref.agent (.queue (t.ref.agent / 16) off true) = true))
    ∧ (∃ (f : EForm) (s : State) (t : Thread) (a : Word) (off : Nat) (q : Queue) (w : Word × Bool) (l : List (Word × Bool))
      (i : Fin 16), (Goes s t f.toHead) ∧ srcW s t f.A = .ok a ∧ (NamesQueue t a (t.ref.agent / 16) off) ∧ f.D = .g i ∧
      (s.queue? t.ref.ctx (t.ref.agent / 16) off = some q) ∧ (q.items = w :: l) ∧ (canTake s t.ref.ctx t.ref.agent (.queue
      (t.ref.agent / 16) off false) = true))
    ∧ (∃ (f : EForm) (s : State) (t : Thread) (a : Word) (off : Nat) (q : Queue), (Goes s t f.toHead) ∧ srcW s t f.A = .ok a
      ∧ (NamesQueue t a (t.ref.agent / 16) off) ∧ f.opv = 0 ∧ (s.queue? t.ref.ctx (t.ref.agent / 16) off = some q) ∧
      (canTake s t.ref.ctx t.ref.agent (.queue (t.ref.agent / 16) off false) = false))
    ∧ (∃ (f : EForm) (s : State) (t : Thread) (a : Word) (off : Nat) (q : Queue) (i : Fin 16), (Goes s t f.toHead) ∧ srcW s
      t f.A = .ok a ∧ (NamesQueue t a (t.ref.agent / 16) off) ∧ f.D = .g i ∧ (s.queue? t.ref.ctx (t.ref.agent / 16) off =
      some q))
    ∧ (∃ (f : EForm) (s : State) (t : Thread) (a : Word) (b : Word) (cc : Nat) (off : Nat) (n : Nat), (Goes s t f.toHead) ∧
      srcW s t f.A = .ok a ∧ srcW s t f.B = .ok b ∧ (NamesQueue t a cc off) ∧ (cc ≠ t.ref.agent / 16) ∧ f.opv = 1 ∧
      (Fin.ofNat 8 f.opk.toNat ≠ 0) ∧ t.acq = none ∧ (t.pend = []) ∧ cmdsQuiet s t = true ∧ routerGate s t a.toNat = .ok ()
      ∧ freeSeq s t 1 = some n)
    ∧ (∃ (s : State) (q : QReq) (x : Queue) (v : Word) (tag : Tag), (s.queue? q.t.ctx q.core q.off = some x) ∧ q.kind =
      .push v ∧ q.pred = some tag ∧ q.dest = none ∧ canTake s q.t.ctx q.t.agent (.queue q.core q.off true) = true ∧
      s.mustRefuse q.t.ctx q.t.agent q.n = false)
    ∧ (∃ (f : EForm) (s : State) (t : Thread) (a : Word) (cc : Nat) (off : Nat) (n : Nat) (i : Fin 16), (Goes s t f.toHead)
      ∧ srcW s t f.A = .ok a ∧ (NamesQueue t a cc off) ∧ (cc ≠ t.ref.agent / 16) ∧ f.D = .g i ∧ f.opv = 1 ∧ (Fin.ofNat 8
      f.opk.toNat ≠ 0) ∧ t.acq = none ∧ (t.pend = []) ∧ cmdsQuiet s t = true ∧ routerGate s t a.toNat = .ok () ∧ freeSeq s t
      2 = some n)
    ∧ (∃ (f : EForm) (s : State) (t : Thread) (a : Word) (cc : Nat) (off : Nat) (n : Nat) (i : Fin 16), (Goes s t f.toHead)
      ∧ srcW s t f.A = .ok a ∧ (NamesQueue t a cc off) ∧ (cc ≠ t.ref.agent / 16) ∧ f.D = .g i ∧ f.opv = 0 ∧ t.acq = none ∧
      routerGate s t a.toNat = .ok () ∧ freeSeq s t 1 = some n)
    ∧ (∃ (s : State) (q : QReq) (x : Queue) (w : Word × Bool) (l : List (Word × Bool)), (s.queue? q.t.ctx q.core q.off =
      some x) ∧ q.kind = .pop ∧ (x.items = w :: l) ∧ canTake s q.t.ctx q.t.agent (.queue q.core q.off false) = true ∧
      s.mustRefuse q.t.ctx q.t.agent q.n = false)
    ∧ (∃ (s : State) (q : QReq) (x : Queue), (s.queue? q.t.ctx q.core q.off = some x) ∧ q.kind = .len ∧ s.mustRefuse q.t.ctx
      q.t.agent q.n = false)
    ∧ (∃ (s : State) (q : QReq) (x : Queue) (code : Nat) (full : Bool), (s.queue? q.t.ctx q.core q.off = some x) ∧ ((∃ v,
      q.kind = .push v) ∧ code = 2 ∧ full = true ∨ q.kind = .pop ∧ code = 3 ∧ full = false) ∧ canTake s q.t.ctx q.t.agent
      (.queue q.core q.off full) = false)
    ∧ (∃ (s : State) (q : QReq), (s.queue? q.t.ctx q.core q.off = none)) :=
  ⟨⟨E0, wr [(.g 3, 4)] W, cT (wr [(.g 3, 4)] W), val 0 (srcW (wr [(.g 3, 4)] W) (cT (wr [(.g 3, 4)] W)) E0.A), val 0
    (srcW (wr [(.g 3, 4)] W) (cT (wr [(.g 3, 4)] W)) E0.B), 0x1000, ⟨0, 0, 0xFFFF, 0, Config.scratchSize, 0⟩, 0, goes
    (by decide +kernel), ok_val (by decide +kernel), ok_val (by decide +kernel), ⟨by decide +kernel, by decide +kernel,
    by decide +kernel⟩, by decide +kernel⟩,
   ⟨E0, WZ, cT WZ, val 0 (srcW WZ (cT WZ) E0.A), 0x1000, theQueue, goes (by decide +kernel), ok_val (by decide +kernel),
    ok_eq (by decide +kernel), ⟨by decide +kernel, by decide +kernel, by decide +kernel⟩, by decide +kernel⟩,
   ⟨E0, WZ, cT WZ, val 0 (srcW WZ (cT WZ) E0.A), val 0 (srcW WZ (cT WZ) E0.B), 0x1000, theQueue, goes
    (by decide +kernel), ok_val (by decide +kernel), ok_val (by decide +kernel), ⟨by decide +kernel, by decide +kernel,
    by decide +kernel⟩, by decide +kernel⟩,
   ⟨E0, WZ, cT WZ, val 0 (srcW WZ (cT WZ) E0.A), 0x1000, theQueue, (7, false), [], 1, goes (by decide +kernel), ok_val
    (by decide +kernel), ⟨by decide +kernel, by decide +kernel, by decide +kernel⟩, by decide +kernel⟩,
   ⟨E0, wc (fun c => { c with queues := [{ theQueue with items := [] }] }) W, cT (wc (fun c =>
    { c with queues := [{ theQueue with items := [] }] }) W), val 0 (srcW (wc (fun c =>
    { c with queues := [{ theQueue with items := [] }] }) W) (cT (wc (fun c =>
    { c with queues := [{ theQueue with items := [] }] }) W)) E0.A), 0x1000, { theQueue with items := [] }, goes
    (by decide +kernel), ok_val (by decide +kernel), ⟨by decide +kernel, by decide +kernel, by decide +kernel⟩,
    by decide +kernel⟩,
   ⟨E0, WZ, cT WZ, val 0 (srcW WZ (cT WZ) E0.A), 0x1000, theQueue, 1, goes (by decide +kernel), ok_val
    (by decide +kernel), ⟨by decide +kernel, by decide +kernel, by decide +kernel⟩, by decide +kernel⟩,
   ⟨EO, wr [(.g 2, globalBase + 0x101000)] W, cT (wr [(.g 2, globalBase + 0x101000)] W), val 0 (srcW (wr [(.g 2,
    globalBase + 0x101000)] W) (cT (wr [(.g 2, globalBase + 0x101000)] W)) EO.A), val 0 (srcW (wr [(.g 2, globalBase +
    0x101000)] W) (cT (wr [(.g 2, globalBase + 0x101000)] W)) EO.B), 1, 0x1000, (freeSeq (wr [(.g 2, globalBase +
    0x101000)] W) (cT (wr [(.g 2, globalBase + 0x101000)] W)) 1).getD 0, goes (by decide +kernel), ok_val
    (by decide +kernel), ok_val (by decide +kernel), ⟨by decide +kernel, by decide +kernel, by decide +kernel⟩,
    by decide +kernel, by decide +kernel, by decide +kernel, by decide +kernel, by decide +kernel, ⟨by decide +kernel,
    ok_unit (by decide +kernel), by decide +kernel⟩⟩,
   ⟨WZ, ⟨r0, 0, 0x1000, .push 3, some (mkTag 5 1), none, 5, 0⟩, theQueue, 3, mkTag 5 1, by decide +kernel⟩,
   ⟨EO, wr [(.g 2, globalBase + 0x101000)] W, cT (wr [(.g 2, globalBase + 0x101000)] W), val 0 (srcW (wr [(.g 2,
    globalBase + 0x101000)] W) (cT (wr [(.g 2, globalBase + 0x101000)] W)) EO.A), 1, 0x1000, (freeSeq (wr [(.g 2,
    globalBase + 0x101000)] W) (cT (wr [(.g 2, globalBase + 0x101000)] W)) 2).getD 0, 1, goes (by decide +kernel), ok_val
    (by decide +kernel), ⟨by decide +kernel, by decide +kernel, by decide +kernel⟩, by decide +kernel, by decide +kernel,
    by decide +kernel, by decide +kernel, by decide +kernel, ⟨by decide +kernel, by decide +kernel, ok_unit
    (by decide +kernel), by decide +kernel⟩⟩,
   ⟨E0, wr [(.g 2, globalBase + 0x101000)] W, cT (wr [(.g 2, globalBase + 0x101000)] W), val 0 (srcW (wr [(.g 2,
    globalBase + 0x101000)] W) (cT (wr [(.g 2, globalBase + 0x101000)] W)) E0.A), 1, 0x1000, (freeSeq (wr [(.g 2,
    globalBase + 0x101000)] W) (cT (wr [(.g 2, globalBase + 0x101000)] W)) 1).getD 0, 1, goes (by decide +kernel), ok_val
    (by decide +kernel), ⟨by decide +kernel, by decide +kernel, by decide +kernel⟩, by decide +kernel, by decide +kernel,
    by decide +kernel, by decide +kernel, ok_unit (by decide +kernel), by decide +kernel⟩,
   ⟨WZ, ⟨r0, 0, 0x1000, .pop, some (mkTag 5 1), some (mkTag 5 2), 5, 0⟩, theQueue, (7, false), [], by decide +kernel⟩,
   ⟨WZ, ⟨r0, 0, 0x1000, .len, none, some (mkTag 5 2), 5, 0⟩, theQueue, by decide +kernel⟩,
   ⟨WZe, ⟨r0, 0, 0x1000, .pop, some (mkTag 5 1), some (mkTag 5 2), 5, 0⟩, { theQueue with items := [] }, 3, false,
    by decide +kernel, .inr ⟨rfl, rfl, rfl⟩, by decide +kernel⟩,
   ⟨W, ⟨r0, 0, 0x1000, .push 3, some (mkTag 5 1), none, 5, 0⟩, by decide +kernel⟩⟩

/-- `Obligations.BarriersAndDependences`: a state and operands that meet the hypotheses of each clause. -/
theorem meets_BarriersAndDependences :
    (∃ (f : EForm) (s : State) (t : Thread) (uid : Nat) (l : Nat), (Goes s t f.toHead) ∧ (OwnLevel t f uid l) ∧ (∀ a ∈
      t.arrived, a.1 ≠ l) ∧ (t.pend = []) ∧ cmdsQuiet s t = true)
    ∧ (∃ (f : EForm) (s : State) (t : Thread) (uid : Nat) (l : Nat) (x : Launch), (Goes s t f.toHead) ∧ (OwnLevel t f uid l)
      ∧ (s.launch? uid = some x) ∧ (∀ a ∈ t.arrived, a.1 = l → a.2 ≠ levelPhase s uid l t.fam.path))
    ∧ (∃ (s : State) (uid : Nat) (x : Launch) (path : List Nat) (level : Nat), (s.launch? uid = some x) ∧ (∀ cc, s.imageAny?
      x.ctx cc = none) ∧ ((x.exits.filter (fun e => (path.take (level + 1)).isPrefixOf (unradix x.ext e.1))).length =
      (x.ext.drop (path.take (level + 1)).length).foldl (· * ·) 1))
    ∧ (∃ (s : State) (uid : Nat) (x : Launch) (path : List Nat) (level : Nat), (s.launch? uid = some x) ∧ (∀ cc, s.imageAny?
      x.ctx cc = none) ∧ ((x.exits.filter (fun e => (path.take (level + 1)).isPrefixOf (unradix x.ext e.1))).length ≠
      (x.ext.drop (path.take (level + 1)).length).foldl (· * ·) 1) ∧ ((level, path.take (level + 1), radix x.ext path) ∉
      x.arrivals))
    ∧ (∃ (f : EForm) (s : State) (t : Thread), (Goes s t f.toHead) ∧ (t.pend = []) ∧ cmdsQuiet s t = true)
    ∧ (∃ (f : EForm) (s : State) (t : Thread), (Goes s t f.toHead)) :=
  ⟨⟨E0, WLa, cT WLa, 4, 0, goes (by decide +kernel), by unfold OwnLevel; decide +kernel, by decide +kernel⟩,
   ⟨E0, WLa, cT WLa, 4, 0, launch4, goes (by decide +kernel), by unfold OwnLevel; decide +kernel, by decide +kernel⟩,
   ⟨WLx, 4, { launch4 with exits := [(0, 0), (1, 0)] }, [0], 0, by decide +kernel, fun _ => rfl, by decide +kernel⟩,
   ⟨WLa, 4, launch4, [0], 0, by decide +kernel, fun _ => rfl, by decide +kernel⟩,
   ⟨E0, W, cT W, goes (by decide +kernel), by decide +kernel⟩,
   ⟨E0, W, cT W, goes (by decide +kernel)⟩⟩

/-- `Obligations.CountersCount`: a state and operands that meet the hypotheses of each clause. -/
theorem meets_CountersCount :
    (∃ (s : State) (ctx : Nat) (cc : Nat), ((s.image? ctx cc).isNone))
    ∧ (∃ (f : EForm) (s : State) (t : Thread) (a : Word), (Goes s t f.toHead) ∧ srcW s t f.A = .ok a ∧
      let n := (f.fn.extractLsb' 0 6).toNat; let x := (s.core (s.homeOf t.ref)).counter n; x.owner = some t.ref.ctx)
    ∧ (∃ (f : EForm) (s : State) (t : Thread) (a : Word) (b : Word), (Goes s t f.toHead) ∧ srcW s t f.A = .ok a ∧ srcW s t
      f.B = .ok b ∧ (Target a) ∧ let n := (f.fn.extractLsb' 0 6).toNat; let x := (s.core (s.homeOf t.ref)).counter n;
      x.owner = some t.ref.ctx)
    ∧ (∃ (s : State) (c : Nat) (n : Nat) (a : Arm), ((s.core c).counter n).arm = some a ∧ (a.target.toNat ≤ ((s.core
      c).counter n).val.toNat)) :=
  ⟨⟨W, 0, 0, by decide +kernel⟩,
   ⟨E0, WCn, cT WCn, val 0 (srcW WCn (cT WCn) E0.A), goes (by decide +kernel), ok_val (by decide +kernel),
    by decide +kernel⟩,
   ⟨E0, WCn, cT WCn, val 0 (srcW WCn (cT WCn) E0.A), val 0 (srcW WCn (cT WCn) E0.B), goes (by decide +kernel), ok_val
    (by decide +kernel), ok_val (by decide +kernel), by unfold Target; decide +kernel, by decide +kernel⟩,
   ⟨WCn, 0, 0, ⟨0, 3, fam4, 0⟩, by decide +kernel⟩⟩

/-- `Obligations.LaunchesStart`: a state and operands that meet the hypotheses of each clause. -/
theorem meets_LaunchesStart :
    (∃ (f : EForm) (s : State) (t : Thread) (a : Word) (r : List Word) (placed : List (List Nat × Nat × Nat)) (slot :
      Nat), (Goes s t f.toHead) ∧ (SendsNow s t (t.ref.agent / 16)) ∧ srcW s t f.A = .ok a ∧ (a.toNat % 256 = 0) ∧
      f.fl.getLsbD 0 = false ∧ (readRecord s t.ref.ctx (t.ref.agent / 16) a.toNat = .ok r) ∧ (checkRecord s t.ref.ctx r
      ((s.ctxD t.ref.ctx).coreSet.filter (fun cc => unitOf 3 cc == unitOf 3 (t.ref.agent / 16))) (some ((s.ctxD
      t.ref.ctx).mode, t.fam.lpd)) = .ok placed) ∧ lowSlot s t.ref.ctx = some slot)
    ∧ (∃ (f : EForm) (s : State) (t : Thread) (a : Word) (r : List Word) (placed : List (List Nat × Nat × Nat)) (slot : Nat)
      (q : HQueue) (seq : Nat), (Goes s t f.toHead) ∧ (SendsNow s t (t.ref.agent / 16)) ∧ srcW s t f.A = .ok a ∧
      (t.wakeRight = some (BitVec.ofNat 64 (canonVa (t.ref.agent / 16) a.toNat))) ∧ (rootQueue s t.ref.ctx t = some (q,
      seq)) ∧ (readRecord s t.ref.ctx (t.ref.agent / 16) a.toNat = .ok r) ∧ checkRecord s t.ref.ctx r (s.ctxD
      t.ref.ctx).coreSet none = .ok placed ∧ lowSlot s t.ref.ctx = some slot)
    ∧ (∃ (s : State) (uid : Nat) (l : Launch) (q : Nat), (s.launch? uid = some l) ∧ l.queue = some q)
    ∧ (∃ (s : State) (uid : Nat) (l : Launch), (s.launch? uid = some l) ∧ l.queue = none)
    ∧ (∃ (s : State) (uid : Nat) (l : Launch) (lin : Nat) (path : List Nat) (cc : Nat) (tid : Nat), (s.launch? uid = some l)
      ∧ (l.placed[lin]? = some (path, cc, tid)))
    ∧ (∃ (s : State) (ctx : Nat) (c : Ctx) (queue : Nat) (q : HQueue) (rec : Nat) (seq : Nat) (rest : List (Nat × Nat))
      (slot : Nat) (cc : Nat) (tid : Nat), (s.ctx? ctx = some c) ∧ (c.queues.find? (fun q => q.id == queue) = some q) ∧
      (q.posted = (rec, seq) :: rest) ∧ highSlot s ctx = some slot ∧ ((c.coreSet.filter (fun cc => dieOf cc == q.die)).head?
      = some cc) ∧ ((freeTids s ctx cc)[s.oracle.seed % (freeTids s ctx cc).length]? = some tid)) :=
  ⟨⟨E0, WRec, cT WRec, val 0 (srcW WRec (cT WRec) E0.A), val [] (readRecord WRec 0 0 (ownBase + 0x1000)), [([0], 0, 0)],
    (lowSlot WRec 0).getD 0, goes (by decide +kernel), sendsNow (by decide +kernel), ok_val (by decide +kernel),
    by decide +kernel, by decide +kernel, ok_val (by decide +kernel), ok_eq (by decide +kernel), by decide +kernel⟩,
   ⟨E0, WWake, cT WWake, val 0 (srcW WWake (cT WWake) E0.A), val [] (readRecord WWake 0 0 (ownBase + 0x1000)), [([0], 0,
    0)], (lowSlot WWake 0).getD 0, ⟨0, 0, 0, 0, 0, [], none⟩, 0, goes (by decide +kernel), sendsNow (by decide +kernel),
    ok_val (by decide +kernel), by decide +kernel, by decide +kernel, ok_val (by decide +kernel), ok_eq
    (by decide +kernel), by decide +kernel⟩,
   ⟨WWake, 4, { launch4 with queue := some 0 }, 0, by decide +kernel⟩,
   ⟨WLa, 4, launch4, by decide +kernel⟩,
   ⟨WLa, 4, launch4, 1, [1], 0, 1, by decide +kernel⟩,
   ⟨WPost, 0, WPost.ctxD 0, 0, ⟨0, 0, 0, 0, 0, [(0x1000, 0)], none⟩, 0x1000, 0, [], (highSlot WPost 0).getD 0, 0, 1,
    by decide +kernel⟩⟩

/-- `Obligations.MigrationAndEviction`: a state and operands that meet the hypotheses of each clause. -/
theorem meets_MigrationAndEviction :
    (∃ (f : EForm) (s : State) (t : Thread) (a : Word), (Goes s t f.toHead) ∧ srcW s t f.A = .ok a ∧ t.h = false ∧
      pendingReg t = none ∧ (t.holds = []) ∧ loopsMove t.advance = true ∧ (homeOfAddr s t a = .ok (t.ref.agent / 16)) ∧
      (t.pend = []) ∧ cmdsQuiet s t = true)
    ∧ (∃ (f : EForm) (s : State) (t : Thread) (a : Word) (cc : Nat), (Goes s t f.toHead) ∧ srcW s t f.A = .ok a ∧ t.h =
      false ∧ pendingReg t = none ∧ (t.holds = []) ∧ homeOfAddr s t a = .ok cc ∧ (cc ≠ t.ref.agent / 16) ∧ loopsMove
      t.advance = true ∧ (SendsNow s t cc))
    ∧ (∃ (s : State) (p : Pip) (tid : Nat), ((s.image? p.ctx p.core).isNone) ∧ behindOthers (s.core (s.mcOf p.ctx p.core))
      (pipMsg p) = false ∧ msgTid s (pipMsg p) = some tid ∧ p.g.length = 16)
    ∧ (∃ (s : State) (p : Pip), ((s.image? p.ctx p.core).isNone) ∧ (behindOthers (s.core (s.mcOf p.ctx p.core)) (pipMsg p) =
      true ∨ msgTid s (pipMsg p) = none) ∧ inboxRoom (s.core (s.mcOf p.ctx p.core)) false = true)
    ∧ (∃ (s : State) (ctx : Nat) (cc : Nat), ((s.imageAny? ctx cc).isNone) ∧ (s.ctxD ctx).has cc = true)
    ∧ (∃ (s : State) (ctx : Nat) (cc : Nat) (im : Image), (s.imageAny? ctx cc = some im) ∧ im.complete = false ∧ im.dump =
      none ∧ imageReady s ctx cc = true)
    ∧ (∃ (s : State) (ctx : Nat) (cc : Nat) (im : Image), (s.image? ctx cc = some im) ∧ resumeReady s ctx cc = true ∧
      (im.log = []) ∧ (im.landing = [])) :=
  ⟨⟨E0, W, cT W, val 0 (srcW W (cT W) E0.A), goes (by decide +kernel), ok_val (by decide +kernel), by decide +kernel,
    by decide +kernel, by decide +kernel, by decide +kernel, ok_eq (by decide +kernel), by decide +kernel⟩,
   ⟨E0, wx (fun c => { c with coreMap := [(0, 0), (1, 1)] }) (wr [(.g 2, globalBase + 0x101000)] (wc1 W)), cT (wx (fun c
    => { c with coreMap := [(0, 0), (1, 1)] }) (wr [(.g 2, globalBase + 0x101000)] (wc1 W))), val 0 (srcW (wx (fun c =>
    { c with coreMap := [(0, 0), (1, 1)] }) (wr [(.g 2, globalBase + 0x101000)] (wc1 W))) (cT (wx (fun c =>
    { c with coreMap := [(0, 0), (1, 1)] }) (wr [(.g 2, globalBase + 0x101000)] (wc1 W)))) E0.A), 1, goes
    (by decide +kernel), ok_val (by decide +kernel), by decide +kernel, by decide +kernel, by decide +kernel, ok_eq
    (by decide +kernel), by decide +kernel, by decide +kernel, sendsNow (by decide +kernel)⟩,
   ⟨W, pip, 1, by decide +kernel⟩,
   ⟨wc (fun c => { c with residents := [⟨0, 0, 0, 0, 0, 0⟩] }) W, pip, by decide +kernel⟩,
   ⟨W, 0, 0, by decide +kernel⟩,
   ⟨WEv false, 0, 0, image0, by decide +kernel⟩,
   ⟨WEv true, 0, 0, { image0 with complete := true }, by decide +kernel⟩⟩

/-- `Obligations.TransfersRun`: a state and operands that meet the hypotheses of each clause. -/
theorem meets_TransfersRun :
    (∃ (f : EForm) (s : State) (t : Thread) (a : Word) (b : Word) (d : Word), (Goes s t f.toHead) ∧ (Appends s t true) ∧
      srcW s t f.A = .ok a ∧ srcW s t f.B = .ok b ∧ srcW s t f.D = .ok d ∧ f.fl.getLsbD 0 = false ∧ d.extractLsb' 32 32 = 0
      ∧ (apart a b (d.extractLsb' 0 32).toNat 1 0 0))
    ∧ (∃ (f : EForm) (s : State) (t : Thread) (a : Word) (b : Word) (d : Word), (Goes s t f.toHead) ∧ (Appends s t true) ∧
      srcW s t f.A = .ok a ∧ srcW s t f.B = .ok b ∧ srcW s t f.D = .ok d ∧ f.fl.getLsbD 0 = true ∧ d.extractLsb' 43 21 = 0 ∧
      (apart a b (d.extractLsb' 0 32).toNat 1 0 0) ∧ let core := (d.extractLsb' 32 11).toNat; (s.ctxD t.ref.ctx).has core =
      true ∧ (counterOf s t.ref.ctx core f.cn).owner = some t.ref.ctx)
    ∧ (∃ (f : EForm) (s : State) (t : Thread) (a : Word) (b : Word) (d : Word) (e : Word), (Goes s t f.toHead) ∧ (Appends s
      t true) ∧ srcW s t f.A = .ok a ∧ srcW s t f.B = .ok b ∧ srcW s t f.D = .ok d ∧ (srcW s t (.g (Fin.ofNat 16 (f.d.toNat
      + 1))) = .ok e) ∧ f.fl.getLsbD 0 = false ∧ d.extractLsb' 32 16 = 0 ∧ let len := (d.extractLsb' 0 32).toNat;
      let rows := (d.extractLsb' 48 16).toNat; let ss : Int := (e.setWidth 32 : BitVec 32).toInt;
      let ds : Int := (e.extractLsb' 32 32).toInt; (rows ≠ 0) ∧ (1 < rows → len ≤ ds.natAbs) ∧ (apart a b len rows ss ds))
    ∧ (∃ (f : EForm) (s : State) (t : Thread) (a : Word) (b : Word) (d : Word), (Goes s t f.toHead) ∧ (Appends s t true) ∧
      srcW s t f.A = .ok a ∧ srcW s t f.B = .ok b ∧ srcW s t f.D = .ok d ∧ (b.toNat % 128 = 0))
    ∧ (∃ (s : State) (mc : Nat) (ctx : Nat) (c : Cmd) (a : Word) (b : Word) (len : Nat) (rows : Nat) (ss : Int) (ds : Int)
      (j : Option (Nat × Nat)) (two : Bool), (transferHead s mc ctx = some (c, .start)) ∧ c.t.ctx = ctx ∧ c.op = .cpy a b
      len rows ss ds j two ∧ (len * rows ≠ 0))
    ∧ (∃ (s : State) (id : Nat) (p : CmdPlace) (x : Started), (s.Distinct) ∧ (s.started? id = some (p, x)) ∧ nextByte
      x.cmd.op x.doneUnits (copyFuel x.cmd.op) x.pos = none)
    ∧ (∃ (s : State) (id : Nat) (p : CmdPlace) (x : Started) (j : Nat) (s2 : State) (r : PacketReads), (s.started? id = some
      (p, x)) ∧ nextByte x.cmd.op x.doneUnits (copyFuel x.cmd.op) x.pos = some j ∧ (readRuns x.cmd (nextPieces x j)
      (s.updStarted id (fun x => { x with pos := j })) ⟨[], none, []⟩ = (s2, r)) ∧ (r.recs = []))
    ∧ (∃ (s : State) (q : Packet) (p : CmdPlace) (x : Started) (s2 : State) (done : List CopyRun) (core : Nat) (n : Nat) (a
      : Word) (b : Word) (len : Nat) (rows : Nat) (ss : Int) (ds : Int) (two : Bool), (s.started? q.cmd = some (p, x)) ∧
      (writeRuns x.cmd (joinRuns q.runs) s [] [] = (s2, done, none, [])) ∧ q.fault = none ∧ q.written = false ∧ q.port =
      none ∧ (x.cmd.op = .cpy a b len rows ss ds (some (core, n)) two) ∧ (nextByte x.cmd.op (x.doneUnits ++ [q.window])
      (copyFuel x.cmd.op) x.pos ≠ none)) :=
  ⟨⟨E0, wr [(.g 2, ownBase + 0x1000), (.g 3, ownBase + 0x3000), (.g 1, 512)] W, cT (wr [(.g 2, ownBase + 0x1000), (.g 3,
    ownBase + 0x3000), (.g 1, 512)] W), val 0 (srcW (wr [(.g 2, ownBase + 0x1000), (.g 3, ownBase + 0x3000), (.g 1, 512)]
    W) (cT (wr [(.g 2, ownBase + 0x1000), (.g 3, ownBase + 0x3000), (.g 1, 512)] W)) E0.A), val 0 (srcW (wr [(.g 2,
    ownBase + 0x1000), (.g 3, ownBase + 0x3000), (.g 1, 512)] W) (cT (wr [(.g 2, ownBase + 0x1000), (.g 3, ownBase +
    0x3000), (.g 1, 512)] W)) E0.B), val 0 (srcW (wr [(.g 2, ownBase + 0x1000), (.g 3, ownBase + 0x3000), (.g 1, 512)] W)
    (cT (wr [(.g 2, ownBase + 0x1000), (.g 3, ownBase + 0x3000), (.g 1, 512)] W)) E0.D), goes (by decide +kernel),
    by unfold Appends; decide +kernel, ok_val (by decide +kernel), ok_val (by decide +kernel), ok_val (by decide +kernel),
    by decide +kernel, by decide +kernel, by unfold apart; decide +kernel⟩,
   ⟨EF, wr [(.g 2, ownBase + 0x1000), (.g 3, ownBase + 0x3000), (.g 1, 512)] WCn, cT (wr [(.g 2, ownBase + 0x1000), (.g
    3, ownBase + 0x3000), (.g 1, 512)] WCn), val 0 (srcW (wr [(.g 2, ownBase + 0x1000), (.g 3, ownBase + 0x3000), (.g 1,
    512)] WCn) (cT (wr [(.g 2, ownBase + 0x1000), (.g 3, ownBase + 0x3000), (.g 1, 512)] WCn)) EF.A), val 0 (srcW (wr [(.g
    2, ownBase + 0x1000), (.g 3, ownBase + 0x3000), (.g 1, 512)] WCn) (cT (wr [(.g 2, ownBase + 0x1000), (.g 3, ownBase +
    0x3000), (.g 1, 512)] WCn)) EF.B), val 0 (srcW (wr [(.g 2, ownBase + 0x1000), (.g 3, ownBase + 0x3000), (.g 1, 512)]
    WCn) (cT (wr [(.g 2, ownBase + 0x1000), (.g 3, ownBase + 0x3000), (.g 1, 512)] WCn)) EF.D), goes (by decide +kernel),
    by unfold Appends; decide +kernel, ok_val (by decide +kernel), ok_val (by decide +kernel), ok_val (by decide +kernel),
    by decide +kernel, by decide +kernel, by unfold apart; decide +kernel, by decide +kernel⟩,
   ⟨ED, wr [(.g 2, ownBase + 0x1000), (.g 3, ownBase + 0x3000), (.g 4, 2 ^ 48 + 512), (.g 5, 0)] W, cT (wr [(.g 2,
    ownBase + 0x1000), (.g 3, ownBase + 0x3000), (.g 4, 2 ^ 48 + 512), (.g 5, 0)] W), val 0 (srcW (wr [(.g 2, ownBase +
    0x1000), (.g 3, ownBase + 0x3000), (.g 4, 2 ^ 48 + 512), (.g 5, 0)] W) (cT (wr [(.g 2, ownBase + 0x1000), (.g 3,
    ownBase + 0x3000), (.g 4, 2 ^ 48 + 512), (.g 5, 0)] W)) ED.A), val 0 (srcW (wr [(.g 2, ownBase + 0x1000), (.g 3,
    ownBase + 0x3000), (.g 4, 2 ^ 48 + 512), (.g 5, 0)] W) (cT (wr [(.g 2, ownBase + 0x1000), (.g 3, ownBase + 0x3000),
    (.g 4, 2 ^ 48 + 512), (.g 5, 0)] W)) ED.B), val 0 (srcW (wr [(.g 2, ownBase + 0x1000), (.g 3, ownBase + 0x3000), (.g
    4, 2 ^ 48 + 512), (.g 5, 0)] W) (cT (wr [(.g 2, ownBase + 0x1000), (.g 3, ownBase + 0x3000), (.g 4, 2 ^ 48 + 512), (.g
    5, 0)] W)) ED.D), val 0 (srcW (wr [(.g 2, ownBase + 0x1000), (.g 3, ownBase + 0x3000), (.g 4, 2 ^ 48 + 512), (.g 5,
    0)] W) (cT (wr [(.g 2, ownBase + 0x1000), (.g 3, ownBase + 0x3000), (.g 4, 2 ^ 48 + 512), (.g 5, 0)] W)) (.g
    (Fin.ofNat 16 (ED.d.toNat + 1)))), goes (by decide +kernel), by unfold Appends; decide +kernel, ok_val
    (by decide +kernel), ok_val (by decide +kernel), ok_val (by decide +kernel), ok_val (by decide +kernel),
    by decide +kernel, by decide +kernel, by decide +kernel, by decide +kernel, by unfold apart; decide +kernel⟩,
   ⟨E0, wr [(.g 2, ownBase + 0x1000), (.g 3, ownBase + 0x3000), (.g 1, 7)] W, cT (wr [(.g 2, ownBase + 0x1000), (.g 3,
    ownBase + 0x3000), (.g 1, 7)] W), val 0 (srcW (wr [(.g 2, ownBase + 0x1000), (.g 3, ownBase + 0x3000), (.g 1, 7)] W)
    (cT (wr [(.g 2, ownBase + 0x1000), (.g 3, ownBase + 0x3000), (.g 1, 7)] W)) E0.A), val 0 (srcW (wr [(.g 2, ownBase +
    0x1000), (.g 3, ownBase + 0x3000), (.g 1, 7)] W) (cT (wr [(.g 2, ownBase + 0x1000), (.g 3, ownBase + 0x3000), (.g 1,
    7)] W)) E0.B), val 0 (srcW (wr [(.g 2, ownBase + 0x1000), (.g 3, ownBase + 0x3000), (.g 1, 7)] W) (cT (wr [(.g 2,
    ownBase + 0x1000), (.g 3, ownBase + 0x3000), (.g 1, 7)] W)) E0.D), goes (by decide +kernel),
    by unfold Appends; decide +kernel, ok_val (by decide +kernel), ok_val (by decide +kernel), ok_val (by decide +kernel),
    by decide +kernel⟩,
   ⟨WTc (cmd (copy1 none)), 0, 0, cmd (copy1 none), BitVec.ofNat 64 (ownBase + 0x1000), BitVec.ofNat 64 (ownBase +
    0x3000), 512, 1, 0, 0, none, false, by decide +kernel⟩,
   ⟨WTs cpDone, 9, ⟨0, true, qS cpDone⟩, cpDone, distinct (by decide +kernel), by decide +kernel⟩,
   ⟨WTs cp, 9, ⟨0, true, qS cp⟩, cp, (nextByte cp.cmd.op cp.doneUnits (copyFuel cp.cmd.op) cp.pos).getD 0, cpRead.1,
    cpRead.2, by decide +kernel, by decide +kernel, rfl, by decide +kernel⟩,
   ⟨WTs cp, packet, ⟨0, true, qS cp⟩, cp, cpWrite.1, cpWrite.2.1, 0, 0, BitVec.ofNat 64 (ownBase + 0x1000), BitVec.ofNat
    64 (ownBase + 0x3000), 512, 1, 0, 0, false, by decide +kernel, write_ok (by decide +kernel), by decide +kernel⟩⟩

/-- `Obligations.HuskWorks`: a state and operands that meet the hypotheses of each clause. -/
theorem meets_HuskWorks :
    (∃ (f : EForm) (s : State) (t : Thread) (a : Word) (ws : List Word) (s1 : State), (Goes s t f.toHead) ∧ srcW s t f.A =
      .ok a ∧ (a.toNat % 128 = 0) ∧ (t.pend = []) ∧ cmdsQuiet s t = true ∧ (readDesc t a (List.range 16) s [] = .ok (ws,
      s1)))
    ∧ (∃ (s : State) (r : HOpen) (t : Thread) (f : EForm) (i : Fin 16) (slot : Nat), (r.die < 4) ∧ (s.thread? r.t = some t)
      ∧ hopenOf t r.acc = some f ∧ r.ask = .opening ∧ f.D = .g i ∧ canTake s r.t.ctx r.t.agent (.husk r.die) = true ∧
      s.mustRefuse r.t.ctx r.t.agent t.icount = false ∧ dscOk r.desc = true ∧ (dscTargets s r.t.ctx (r.t.agent / 16) r.desc
      = true) ∧ freeSlot s r.die = some slot ∧ ((s.ctxD r.t.ctx).replay ≠ 2))
    ∧ (∃ (f : EForm) (s : State) (t : Thread) (a : Word), (Goes s t f.toHead) ∧ srcW s t f.A = .ok a ∧ (t.pend = []) ∧
      cmdsQuiet s t = true)
    ∧ (∃ (f : EForm) (s : State) (t : Thread) (a : Word), (Goes s t f.toHead) ∧ srcW s t f.A = .ok a ∧ f.fl.getLsbD 0 =
      false)
    ∧ (∃ (s : State) (r : HOpen) (t : Thread) (f : EForm) (i : Fin 16) (a : Word) (x : HSlot), (s.thread? r.t = some t) ∧
      hopenOf t r.acc = some f ∧ r.ask = .closing a ∧ f.D = .g i ∧ handleSlot s r.die a = some x ∧ x.st = .open_)
    ∧ (∃ (s : State) (r : HOpen) (t : Thread) (f : EForm) (i : Fin 16) (a : Word), (s.thread? r.t = some t) ∧ hopenOf t
      r.acc = some f ∧ r.ask = .closing a ∧ f.D = .g i ∧ (∀ x, handleSlot s r.die a = some x → x.st ≠ .open_))
    ∧ (∃ (s : State) (r : HOpen) (t : Thread) (f : EForm) (i : Fin 16) (a : Word) (x : HSlot), (s.thread? r.t = some t) ∧
      hopenOf t r.acc = some f ∧ r.ask = .status a ∧ f.D = .g i ∧ (∀ c ∈ s.ctxs, c.id = r.t.ctx → c.replay = 0) ∧ handleSlot
      s r.die a = some x)
    ∧ (∃ (f : EForm) (s : State) (t : Thread) (a : Word) (x : HSlot) (n : Nat), (Goes s t f.toHead) ∧ srcW s t f.A = .ok a ∧
      f.fl.getLsbD 0 = true ∧ freeSeq s t 1 = some n ∧ handleSlot s (dieOf (s.homeOf t.ref)) a = some x ∧ (x.st ≠ .free))
    ∧ (∃ (f : EForm) (s : State) (t : Thread) (a : Word) (c : Ctx), (Goes s t f.toHead) ∧ srcW s t f.A = .ok a ∧ (s.ctx?
      t.ref.ctx = some c))
    ∧ (∃ (s : State) (l : HLine) (x : HSlot), ((s.husk l.die).slot? l.slot = some x) ∧ x.st = .open_ ∧ (∀ g, l.gen = some g
      → g = x.gen) ∧ (l.pos < dscNexp x.desc) ∧ (l.line < dscLines x.desc) ∧ (∀ y ∈ x.lines, ¬(y.1 = l.pos ∧ y.2.1 =
      l.line)) ∧ pastDeadline s x = false ∧ ((s.ctxD x.ctx).replay ≠ 2) ∧ ((x.lines.filter (fun y => y.1 == l.pos)).length +
      1 < dscLines x.desc))
    ∧ (∃ (s : State) (l : HLine) (x : HSlot) (m : Nat) (k : Nat), ((s.husk l.die).slot? l.slot = some x) ∧ x.st = .open_ ∧
      (∀ g, l.gen = some g → g = x.gen) ∧ (l.pos < dscNexp x.desc) ∧ (l.line < dscLines x.desc) ∧ (∀ y ∈ x.lines, ¬(y.1 =
      l.pos ∧ y.2.1 = l.line)) ∧ pastDeadline s x = false ∧ ((s.ctxD x.ctx).replay ≠ 2) ∧ ((x.lines.filter (fun y => y.1 ==
      l.pos)).length + 1 = dscLines x.desc) ∧
      let x1 := { x with lines := x.lines ++ [(l.pos, l.line, l.data)], arr := x.arr ||| BitVec.ofNat 8 (2 ^ l.pos) };
      (x.applied.toNat = 2 ^ m - 1) ∧ (m + k ≤ dscNexp x.desc) ∧ (∀ j < k, x1.arr.getLsbD (m + j) = true) ∧ (m + k < dscNexp
      x.desc → x1.arr.getLsbD (m + k) = false))
    ∧ (∃ (s : State) (l : HLine) (x : HSlot), ((s.husk l.die).slot? l.slot = some x) ∧ (x.st ≠ .open_ ∨ pastDeadline s x =
      true ∨ (∃ g, l.gen = some g ∧ g ≠ x.gen)))
    ∧ (∃ (s : State) (die : Nat) (slot : Nat) (x : HSlot), ((s.husk die).slot? slot = some x) ∧ x.st = .open_)
    ∧ (∃ (s : State) (die : Nat) (slot : Nat) (x : HSlot), ((s.husk die).slot? slot = some x) ∧ x.st = .open_ ∧ ((s.ctxD
      x.ctx).replay ≠ 2))
    ∧ (∃ (s : State) (die : Nat) (slot : Nat) (x : HSlot) (m : Nat) (e : Nat), (s.Canonical) ∧ ((s.husk die).slot? slot =
      some x) ∧ x.st = .open_ ∧ (∀ c ∈ s.ctxs, c.id = x.ctx → c.replay = 0) ∧ dscPol x.desc = 2 ∧ (m < dscNexp x.desc) ∧ (∀
      p < dscNexp x.desc, p ≠ m → x.applied.getLsbD p = true) ∧ x.applied.getLsbD m = false ∧ x.arr.getLsbD m = false ∧ (e <
      x.acc.length) ∧ (e < dscWidth x.desc))
    ∧ (∃ (s : State) (die : Nat) (slot : Nat) (x : HSlot) (h : Hold), ((s.husk die).slot? slot = some x) ∧ x.hold = some h)
    ∧ (∃ (s : State) (die : Nat) (slot : Nat) (x : HSlot) (h : Hold), ((s.husk die).slot? slot = some x) ∧ x.hold = some h)
    ∧ (∃ (s : State) (die : Nat) (x : HSlot) (i : Nat) (k : Nat) (key : Nat), let va := (dscAt x.desc 0x40).toNat + 128 * i;
      (s.Canonical) ∧ spotOf s x.ctx Config.cores va true true = .ok (.at_ k key) ∧ (k % 128 = 0) ∧ s.lineKey (lineOf k) =
      key ∧ s.shut (huskLine s die x.ctx .write va (outLine x i) x.hold) k = false ∧ checkHome s (huskLine s die x.ctx
      .write va (outLine x i) x.hold) (s.md (lineOf k)) = .pass)
    ∧ (∃ (s : State) (die : Nat) (slot : Nat) (x : HSlot), ((s.husk die).slot? slot = some x) ∧ mayNotify s die x = true) :=
  ⟨⟨E0, W, cT W, val 0 (srcW W (cT W) E0.A), (val ([], W) (readDesc (cT W) (val 0 (srcW W (cT W) E0.A)) (List.range 16) W
    [])).1, (val ([], W) (readDesc (cT W) (val 0 (srcW W (cT W) E0.A)) (List.range 16) W [])).2, goes (by decide +kernel),
    ok_val (by decide +kernel), by decide +kernel, by decide +kernel, by decide +kernel, ok_pair (d := ([], W))
    (by decide +kernel)⟩,
   ⟨WHo, ask .opening, cT WHo, E0, 1, (freeSlot WHo 0).getD 0, by decide +kernel⟩,
   ⟨E0, WHu hslot, cT (WHu hslot), val 0 (srcW (WHu hslot) (cT (WHu hslot)) E0.A), goes (by decide +kernel), ok_val
    (by decide +kernel), by decide +kernel⟩,
   ⟨E0, WHu hslot, cT (WHu hslot), val 0 (srcW (WHu hslot) (cT (WHu hslot)) E0.A), goes (by decide +kernel), ok_val
    (by decide +kernel), by decide +kernel⟩,
   ⟨WHa, ask (.closing 0x10000), cT WHa, E0, 1, 0x10000, hslot, by decide +kernel⟩,
   ⟨WHo, ask (.closing 0), cT WHo, E0, 1, 0, by decide +kernel, by decide +kernel, by decide +kernel, by decide +kernel,
    fun x h => by
      have e : handleSlot WHo 0 0 = none := by decide +kernel
      cases e.symm.trans h⟩,
   ⟨WHa, ask (.status 0x10000), cT WHa, E0, 1, 0x10000, hslot, by decide +kernel⟩,
   ⟨EF, WHu hslot, cT (WHu hslot), val 0 (srcW (WHu hslot) (cT (WHu hslot)) EF.A), hslot, (freeSeq (WHu hslot) (cT (WHu
    hslot)) 1).getD 0, goes (by decide +kernel), ok_val (by decide +kernel), by decide +kernel⟩,
   ⟨E0, W, cT W, val 0 (srcW W (cT W) E0.A), W.ctxD 0, goes (by decide +kernel), ok_val (by decide +kernel),
    by decide +kernel⟩,
   ⟨WHu hslot, ⟨0, 0, some 1, 0, 0, 0, 0⟩, hslot, by decide +kernel, by decide +kernel, fun g h => by cases h; rfl,
    by decide +kernel⟩,
   ⟨WHu { hslot with lines := [(0, 1, 0), (0, 2, 0), (0, 3, 0)] }, ⟨0, 0, some 1, 0, 0, 0, 0⟩,
    { hslot with lines := [(0, 1, 0), (0, 2, 0), (0, 3, 0)] }, 0, 1, by decide +kernel, by decide +kernel, fun g h => by
    cases h; rfl, by decide +kernel, by decide +kernel, by decide +kernel, by decide +kernel, by decide +kernel,
    ⟨by decide +kernel, by decide +kernel⟩⟩,
   ⟨WHu { hslot with st := .free }, ⟨0, 0, some 1, 0, 0, 0, 0⟩, { hslot with st := .free }, by decide +kernel, .inl
    (by decide +kernel)⟩,
   ⟨WHu hslot, 0, 0, hslot, by decide +kernel⟩,
   ⟨WHu hslot, 0, 0, hslot, by decide +kernel⟩,
   ⟨WHu ({ hslot with acc := [0], desc := desc.set 1 0x20148 }), 0, 0,
    { hslot with acc := [0], desc := desc.set 1 0x20148 }, 0, 0, canonical (by decide +kernel), by decide +kernel⟩,
   ⟨WHu { hslot with hold := some ⟨3, true, 0⟩ }, 0, 0, { hslot with hold := some ⟨3, true, 0⟩ }, ⟨3, true, 0⟩,
    by decide +kernel⟩,
   ⟨WHu { hslot with hold := some ⟨3, true, 0⟩ }, 0, 0, { hslot with hold := some ⟨3, true, 0⟩ }, ⟨3, true, 0⟩,
    by decide +kernel⟩,
   ⟨W, 0, { hslot with desc := (desc.set 8 (BitVec.ofNat 64 (globalBase + 0x1000))) }, 0, spot, 0, canonical
    (by decide +kernel), ok_eq (by decide +kernel), by decide +kernel⟩,
   ⟨{ WHu { hslot with st := .written } with thirds := 30 }, 0, 0, { hslot with st := .written }, by decide +kernel⟩⟩

/-- `Obligations.ConfigurationCommands`: a state and operands that meet the hypotheses of each clause. -/
theorem meets_ConfigurationCommands :
    (∃ (h : Hdr) (num : Nat) (tfb : Nat) (gbase : Nat) (gsize : Nat) (link : Nat) (s : State), (Next h s) ∧ (num < 2048) ∧
      (s.ctx? num = none) ∧ (tfb % 128 = 0) ∧ (gbase % 16 = 0) ∧ (gsize ≤ 2 ^ 22) ∧ (link < 2 ^ 22))
    ∧ (∃ (h : Hdr) (s : State) (c : Ctx), (Next h s) ∧ (s.ctx? h.ctx = some c))
    ∧ (∃ (h : Hdr) (addr : Nat) (s : State) (c : Ctx), (Next h s) ∧ (s.ctx? h.ctx = some c) ∧ (addr % 0x20000 = 0))
    ∧ (∃ (h : Hdr) (s : State) (c : Ctx), (Next h s) ∧ (s.ctx? h.ctx = some c))
    ∧ (∃ (h : Hdr) (cc : Nat) (mc : Nat) (s : State) (c : Ctx), (Next h s) ∧ (s.ctx? h.ctx = some c) ∧ (cc < 1536) ∧ (mc <
      1536) ∧ c.has cc = false ∧ (∀ p ∈ c.coreMap, p.2 ≠ mc) ∧ ((5, mc) ∉ s.mgmt.fenced))
    ∧ (∃ (h : Hdr) (mc : Nat) (slot : Nat) (mask : Nat) (base : Nat) (units : Nat) (s : State) (c : Ctx), (Next h s) ∧
      (s.ctx? h.ctx = some c) ∧ (mc < 1536) ∧ (slot < 4) ∧ (mask < 2 ^ 16) ∧ (base + units ≤ 8) ∧ (∀ r ∈ (s.core
      mc).residents, r.ctx ≠ h.ctx ∧ r.slot ≠ slot ∧ r.mask &&& mask = 0 ∧ (r.base + r.size ≤ base * 0x10000 ∨ (base +
      units) * 0x10000 ≤ r.base)))
    ∧ (∃ (h : Hdr) (mc : Nat) (es : List (BitVec 4)) (s : State), (Next h s) ∧ (mc < 1536) ∧ es.length = 64)
    ∧ (∃ (h : Hdr) (a : Nat) (b : Nat) (sc : Nat) (c0 : Nat) (c1 : Nat) (s : State) (c : Ctx), (Next h s) ∧ (s.ctx? h.ctx =
      some c) ∧ (a ≤ b) ∧ (b < c.gsize) ∧ (sc ≤ 5) ∧ (c0 ≤ c1) ∧ (c1 < 1536))
    ∧ (∃ (h : Hdr) (q : Nat) (e : Word) (die : Nat) (s : State) (c : Ctx), (Next h s) ∧ (s.ctx? h.ctx = some c) ∧ (q < 64) ∧
      (die < 4) ∧ (Target e))
    ∧ (∃ (h : Hdr) (kind : Nat) (die : Nat) (base : Nat) (k : Nat) (s : State), (Next h s) ∧ (kind < 4) ∧ (die < 4) ∧ (6 ≤
      k) ∧ (k ≤ (if kind = 2 then 20 else 16)) ∧ (base % [64, 256, 32, 32].getD kind 1 = 0) ∧ (s.ring? kind die = none))
    ∧ (∃ (h : Hdr) (s : State) (c : Ctx), (Next h s) ∧ (s.ctx? h.ctx = some c))
    ∧ (∃ (h : Hdr) (s : State) (c : Ctx), (Next h s) ∧ (s.ctx? h.ctx = some c))
    ∧ (∃ (h : Hdr) (slot : Nat) (s : State), (Next h s) ∧ (1 ≤ slot) ∧ (slot ≤ 255))
    ∧ (∃ (h : Hdr) (mc : Nat) (mask : BitVec 64) (s : State) (c : Ctx), (Next h s) ∧ (s.ctx? h.ctx = some c) ∧ (mc < 1536) ∧
      (∀ i < 64, mask.getLsbD i = true → ((s.core mc).counter i).owner = none ∨ ((s.core mc).counter i).owner = some h.ctx))
    ∧ (∃ (h : Hdr) (mc : Nat) (s : State), (Next h s) ∧ (mc < 1536))
    ∧ (∃ (h : Hdr) (die : Nat) (ceil : Nat) (s : State) (c : Ctx), (Next h s) ∧ (s.ctx? h.ctx = some c) ∧ (die < 4) ∧ (ceil
      ≤ 1024)) :=
  ⟨⟨hdr, 3, 0, 0, 0, 0, W, by unfold Next; decide +kernel, by decide +kernel⟩,
   ⟨hdr, W, W.ctxD 0, by unfold Next; decide +kernel, by decide +kernel⟩,
   ⟨hdr, 0, W, W.ctxD 0, by unfold Next; decide +kernel, by decide +kernel⟩,
   ⟨hdr, W, W.ctxD 0, by unfold Next; decide +kernel, by decide +kernel⟩,
   ⟨hdr, 1, 1, W, W.ctxD 0, by unfold Next; decide +kernel, by decide +kernel⟩,
   ⟨hdr, 1, 0, 1, 0, 1, W, W.ctxD 0, by unfold Next; decide +kernel, by decide +kernel⟩,
   ⟨hdr, 0, List.replicate 64 8, W, by unfold Next; decide +kernel, by decide +kernel⟩,
   ⟨hdr, 1, 2, 0, 0, 0, W, W.ctxD 0, by unfold Next; decide +kernel, by decide +kernel⟩,
   ⟨hdr, 0, 0, 0, W, W.ctxD 0, by unfold Next; decide +kernel, by decide +kernel, by decide +kernel, by decide +kernel,
    by unfold Target; decide +kernel⟩,
   ⟨hdr, 0, 0, 0, 6, W, by unfold Next; decide +kernel, by decide +kernel⟩,
   ⟨hdr, W, W.ctxD 0, by unfold Next; decide +kernel, by decide +kernel⟩,
   ⟨hdr, W, W.ctxD 0, by unfold Next; decide +kernel, by decide +kernel⟩,
   ⟨hdr, 255, W, by unfold Next; decide +kernel, by decide +kernel⟩,
   ⟨hdr, 0, 0, W, W.ctxD 0, by unfold Next; decide +kernel, by decide +kernel⟩,
   ⟨hdr, 0, W, by unfold Next; decide +kernel, by decide +kernel⟩,
   ⟨hdr, 0, 1024, W, W.ctxD 0, by unfold Next; decide +kernel, by decide +kernel⟩⟩

/-- `Obligations.RunningContextCommands`: a state and operands that meet the hypotheses of each clause. -/
theorem meets_RunningContextCommands :
    (∃ (h : Hdr) (record : Nat) (s : State) (c : Ctx), (s.ctx? h.ctx = some c) ∧ (h.queue < 64) ∧ h.seq = (c.hq
      h.queue).next ∧ (record % 256 = 0))
    ∧ (∃ (h : Hdr) (entry : Nat) (s : State) (c : Ctx), (s.ctx? h.ctx = some c) ∧ (h.queue < 64) ∧ h.seq = (c.hq
      h.queue).next ∧ ((c.hq h.queue).posted = []) ∧ (c.hq h.queue).starting = none ∧ (c.guard c.linkGuard).isFree = true ∧
      s.capOk c.id true c.linkGuard = true ∧ (∀ w ∈ s.waiters, w.on c.id (.guard c.linkGuard) = false) ∧ (∀ k key, spotOf s
      c.id 1536 (128 * Config.linkTable c.id + 8 * entry) true true = .ok (.at_ k key) → lineTurn s (linkStore s c entry 0)
      k = true))
    ∧ (∃ (h : Hdr) (s : State) (c : Ctx), (s.ctx? h.ctx = some c) ∧ (h.queue < 64) ∧ h.seq = (c.hq h.queue).next ∧ ((c.hq
      h.queue).posted = []) ∧ (c.hq h.queue).starting = none ∧ ((c.guard c.linkGuard).excl = true → (c.guard
      c.linkGuard).holder < 0xF0000))
    ∧ (∃ (h : Hdr) (cores : List Nat) (region : Nat) (s : State) (c : Ctx), (Next h s) ∧ (s.ctx? h.ctx = some c) ∧ (∀ cc ∈
      cores, c.has cc = true) ∧ (region % 4096 = 0))
    ∧ (∃ (h : Hdr) (cores : List Nat) (region : Nat) (s : State) (c : Ctx), (Next h s) ∧ (s.ctx? h.ctx = some c) ∧ (∀ cc ∈
      cores, (s.image? h.ctx cc).isSome) ∧ (region % 4096 = 0))
    ∧ (∃ (h : Hdr) (cc : Nat) (tid : Nat) (addr : Word) (s : State) (c : Ctx) (t : Thread), (Next h s) ∧ (s.ctx? h.ctx =
      some c) ∧ (s.agent? h.ctx (cc * 16 + tid) = some t) ∧ (tid < 16) ∧ ((∃ n, t.run = .stopped n) ∨ t.run = .halted) ∧
      (t.run ≠ .halted → ∀ b ∈ s.blocks, b.2.ref ≠ t.ref) ∧ (Target addr))
    ∧ (∃ (h : Hdr) (cc : Nat) (tid : Nat) (addr : Word) (s : State) (c : Ctx) (t : Thread) (b : Nat × Thread) (n : Nat),
      (Next h s) ∧ (s.ctx? h.ctx = some c) ∧ (s.agent? h.ctx (cc * 16 + tid) = some t) ∧ (tid < 16) ∧ t.run = .stopped n ∧
      (s.blocks.find? (fun b => b.2.ref == t.ref) = some b) ∧ (Target addr))
    ∧ (∃ (h : Hdr) (cc : Nat) (tid : Nat) (s : State) (c : Ctx) (t : Thread), (Next h s) ∧ (s.ctx? h.ctx = some c) ∧
      (s.agent? h.ctx (cc * 16 + tid) = some t) ∧ (tid < 16) ∧ t.run = .halted ∧ (∀ p ∈ t.pend, p.fault.isSome) ∧ (cmdsQuiet
      s { t with pend := [], cmdFaults := [] } = true))
    ∧ (∃ (h : Hdr) (g : Nat) (port : Nat) (s : State) (c : Ctx), (Next h s) ∧ (s.ctx? h.ctx = some c) ∧ (port < 16) ∧ (g <
      c.gsize) ∧ (c.scopeOf g).scope = 0 ∧ (∀ p ∈ c.portHolds, ¬(p.1 = 0xF0000 + port * 0x800 + h.ctx ∧ p.2.guard = g)))
    ∧ (∃ (h : Hdr) (g : Nat) (port : Nat) (s : State) (c : Ctx) (p : Nat × Hold), (Next h s) ∧ (s.ctx? h.ctx = some c) ∧ (p
      ∈ c.portHolds) ∧ (p.1 = 0xF0000 + port * 0x800 + h.ctx) ∧ p.2.guard = g)
    ∧ (∃ (h : Hdr) (s : State) (c : Ctx), (Next h s) ∧ (s.ctx? h.ctx = some c))
    ∧ (∃ (h : Hdr) (n : Nat) (v : Word) (s : State) (c : Ctx), (Next h s) ∧ (s.ctx? h.ctx = some c) ∧ (n < 4) ∧ v.getLsbD 2
      = false ∧ v.extractLsb' 48 16 = 0)
    ∧ (∃ (h : Hdr) (s : State) (c : Ctx) (t : Thread), (Next h s) ∧ (s.ctx? h.ctx = some c) ∧ (t ∈ s.threads) ∧ t.ref.ctx =
      h.ctx ∧ t.run = .ready ∧ (∀ x ∈ s.threads, x.ref = t.ref → x = t))
    ∧ (∃ (h : Hdr) (s : State) (c : Ctx), (Next h s) ∧ (s.ctx? h.ctx = some c)) :=
  ⟨⟨hdr0, 0, W, W.ctxD 0, by decide +kernel⟩,
   ⟨hdr0, 0, W, W.ctxD 0, by decide +kernel, by decide +kernel, by decide +kernel, by decide +kernel, by decide +kernel,
    ⟨by decide +kernel, by decide +kernel, by decide +kernel, fun _ _ _ => rfl⟩⟩,
   ⟨hdr0, W, W.ctxD 0, by decide +kernel⟩,
   ⟨hdr, [0], 4096, W, W.ctxD 0, by unfold Next; decide +kernel, by decide +kernel⟩,
   ⟨hdr, [0], 0x100000, WEv true, W.ctxD 0, by unfold Next; decide +kernel, by decide +kernel⟩,
   ⟨hdr, 0, 0, 0, WSt, WSt.ctxD 0, cT WSt, by unfold Next; decide +kernel, by decide +kernel, by decide +kernel,
    by decide +kernel, .inl ⟨4, by decide +kernel⟩, (fun _ b h => by cases h), by unfold Target; decide +kernel⟩,
   ⟨hdr, 0, 0, 0, WStB, WStB.ctxD 0, cT WSt, (0x2000, cT WSt), 4, by unfold Next; decide +kernel, by decide +kernel,
    by decide +kernel, by decide +kernel, by decide +kernel, by decide +kernel, by unfold Target; decide +kernel⟩,
   ⟨hdr, 0, 0, WHt, WHt.ctxD 0, cT WHt, by unfold Next; decide +kernel, by decide +kernel⟩,
   ⟨hdr, 3, 15, W, W.ctxD 0, by unfold Next; decide +kernel, by decide +kernel⟩,
   ⟨hdr, 3, 0, WPh, WPh.ctxD 0, (0xF0000, ⟨3, true, 0⟩), by unfold Next; decide +kernel, by decide +kernel⟩,
   ⟨hdr, W, W.ctxD 0, by unfold Next; decide +kernel, by decide +kernel⟩,
   ⟨hdr, 3, 1, W, W.ctxD 0, by unfold Next; decide +kernel, by decide +kernel⟩,
   ⟨hdr, W, W.ctxD 0, cT W, by unfold Next; decide +kernel, by decide +kernel⟩,
   ⟨hdr, W, W.ctxD 0, by unfold Next; decide +kernel, by decide +kernel⟩⟩

/-- `Obligations.ManagementCommands`: a state and operands that meet the hypotheses of each clause. -/
theorem meets_ManagementCommands :
    (∃ (h : Hdr) (s : State), (Next h s))
    ∧ (∃ (h : Hdr) (s : State), (Next h s))
    ∧ (∃ (h : Hdr) (v : Nat) (s : State), (Next h s) ∧ (v = 0 ∨ (256 ≤ v ∧ v < 2 ^ 32)))
    ∧ (∃ (h : Hdr) (mode : Nat) (s : State) (c : Ctx), (Next h s) ∧ (s.ctx? h.ctx = some c) ∧ (mode ≤ 2) ∧ (mode = c.replay
      ∨ running s h.ctx = []))
    ∧ (∃ (h : Hdr) (s : State), (Next h s))
    ∧ (∃ (h : Hdr) (s : State), (Next h s) ∧ s.liveLock = none)
    ∧ (∃ (h : Hdr) (s : State) (l : Lock), (Next h s) ∧ s.liveLock = some l ∧ l.side = true)
    ∧ (∃ (h : Hdr) (s : State), (Next h s) ∧ s.mayExclude false = true)
    ∧ (∃ (h : Hdr) (s : State), (Next h s) ∧ s.mayExclude false = true)
    ∧ (∃ (h : Hdr) (n : Nat) (s : State), (Next h s) ∧ (1 ≤ n) ∧ (n ≤ 7) ∧ s.mayExclude false = true)
    ∧ (∃ (h : Hdr) (s : State), (Next h s))
    ∧ (∃ (h : Hdr) (region : Nat) (s : State) (c : Ctx), (Next h s) ∧ (s.ctx? h.ctx = some c) ∧ (region % 4096 = 0))
    ∧ (∃ (s : State) (ctx : Nat) (cc : Nat) (im : Image) (start : Nat), (s.imageAny? ctx cc = some im) ∧ im.complete = false
      ∧ im.dump = some start ∧ (im.landing = []) ∧ imageReady s ctx cc = true)
    ∧ (∃ (h : Hdr) (op : Nat) (s : State), (Next h s) ∧ (op ∉ opCodes))
    ∧ (∃ (s : State), s.mayExclude true = true)
    ∧ (∃ (n : Nat) (s : State), (1 ≤ n) ∧ (n ≤ 7) ∧ s.mayExclude true = true)
    ∧ (∃ (s : State), s.mayExclude true = true)
    ∧ (∃ (s : State), s.liveLock = none)
    ∧ (∃ (s : State) (l : Lock), s.mgmt.lock = some l ∧ (l.fin ≤ s.thirds / 3))
    ∧ (∃ (s : State) (n : Nat), (n ∈ [1, 2, 3, 4, 7]) ∧ s.mgmt.step = n ∧ ((s.mgmt.entry n).1 ≠ 1) ∧ (failing n
      s.oracle.fail = []))
    ∧ (∃ (s : State) (n : Nat), (n ∈ [1, 2, 3, 4, 7]) ∧ s.mgmt.step = n ∧ ((s.mgmt.entry n).1 ≠ 1) ∧ (failing n
      s.oracle.fail ≠ []))
    ∧ (∃ (s : State), s.mgmt.step = 5 ∧ ((s.mgmt.entry 5).1 ≠ 1))
    ∧ (∃ (s : State), s.mgmt.step = 6)
    ∧ (∃ (s : State), s.mgmt.step = 1 ∧ (s.mgmt.entry 1).1 = 1)
    ∧ (∃ (s : State), s.mgmt.step = 2 ∧ (s.mgmt.entry 2).1 = 1)
    ∧ (∃ (s : State) (n : Nat), (n = 3 ∨ n = 7) ∧ s.mgmt.step = n ∧ (s.mgmt.entry n).1 = 1)
    ∧ (∃ (s : State), s.mgmt.step = 4 ∧ (s.mgmt.entry 4).1 = 1)
    ∧ (∃ (s : State), s.mgmt.step = 5 ∧ (s.mgmt.entry 5).1 = 1)
    ∧ (∃ (ctx : Nat) (port : Nat) (len : Nat) (q : Nat) (s : State) (c : Ctx), (s.ctx? ctx = some c) ∧ (0 < len) ∧ (port <
      16) ∧ (∀ o ∈ s.rmaOpen, ¬(o.ctx = ctx ∧ o.seq = q)))
    ∧ (∃ (ctx : Nat) (port : Nat) (len : Nat) (q : Nat) (s : State) (c : Ctx), (s.ctx? ctx = some c) ∧ (0 < len) ∧ (port <
      16) ∧ (∀ o ∈ s.rmaOpen, ¬(o.ctx = ctx ∧ o.seq = q))) :=
  ⟨⟨hdr, W, by unfold Next; decide +kernel⟩,
   ⟨hdr, W, by unfold Next; decide +kernel⟩,
   ⟨hdr, 256, W, by unfold Next; decide +kernel, by decide +kernel⟩,
   ⟨hdr, 0, W, W.ctxD 0, by unfold Next; decide +kernel, by decide +kernel⟩,
   ⟨hdr, W, by unfold Next; decide +kernel⟩,
   ⟨hdr, W, by unfold Next; decide +kernel, by decide +kernel⟩,
   ⟨hdr, WLk, lk, by unfold Next; decide +kernel, by decide +kernel⟩,
   ⟨hdr, WHl, by unfold Next; decide +kernel, by decide +kernel⟩,
   ⟨hdr, WHl, by unfold Next; decide +kernel, by decide +kernel⟩,
   ⟨hdr, 7, WHl, by unfold Next; decide +kernel, by decide +kernel⟩,
   ⟨hdr, W, by unfold Next; decide +kernel⟩,
   ⟨hdr, 4096, W, W.ctxD 0, by unfold Next; decide +kernel, by decide +kernel⟩,
   ⟨WDu, 0, 0, { image0 with dump := some 0 }, 0, by decide +kernel⟩,
   ⟨hdr, 0, W, by unfold Next; decide +kernel, by decide +kernel⟩,
   ⟨WLk, by decide +kernel⟩,
   ⟨1, WLk, by decide +kernel⟩,
   ⟨WLk, by decide +kernel⟩,
   ⟨W, by decide +kernel⟩,
   ⟨{ WLk with thirds := 30 }, lk, by decide +kernel⟩,
   ⟨WBn 3, 3, by decide +kernel⟩,
   ⟨{ WBn 3 with oracle := { (WBn 3).oracle with fail := 1 } }, 3, by decide +kernel⟩,
   ⟨WBn 5, by decide +kernel⟩,
   ⟨WBn 6, by decide +kernel⟩,
   ⟨WBt 1, by decide +kernel⟩,
   ⟨WBt 2, by decide +kernel⟩,
   ⟨WBt 3, 3, .inl rfl, by decide +kernel⟩,
   ⟨WBt 4, by decide +kernel⟩,
   ⟨WBt 5, by decide +kernel⟩,
   ⟨0, 0, 128, 0, W, W.ctxD 0, by decide +kernel⟩,
   ⟨0, 0, 128, 0, W, W.ctxD 0, by decide +kernel⟩⟩

/-- `Obligations.DeviceEvents`: a state and operands that meet the hypotheses of each clause. -/
theorem meets_DeviceEvents :
    (∃ (s : State) (r : TRef) (n : Nat) (t : Thread), (s.thread? r = some t) ∧ (∀ w, t.run ≠ .stopped w) ∧ (t.run ≠
      .halted) ∧ (4 ≤ n ∨ ((s.ctxD r.ctx).addrm.toList.getD n 0).getLsbD 1 = false))
    ∧ (∃ (s : State), s.probe.snapctl.getLsbD 3 = true ∧ s.probe.snapctl.getLsbD 7 = true ∧ s.probe.latchAt = none)
    ∧ (∃ (s : State) (src : SnapSrc), s.probe.snapctl.getLsbD (sourceBit src) = true ∧ s.probe.snapctl.getLsbD 7 = true ∧
      s.probe.latchAt = none)
    ∧ (∃ (s : State) (src : SnapSrc), s.probe.snapctl.getLsbD (sourceBit src) = true ∧ s.probe.snapctl.getLsbD 7 = true ∧
      (s.probe.latchAt = some (s.thirds / 3 + 16)))
    ∧ (∃ (s : State) (x : Nat), s.probe.snapctl.getLsbD 7 = true ∧ s.probe.latchAt = some x ∧ (x ≠ s.thirds / 3 + 16))
    ∧ (∃ (s : State) (src : SnapSrc), s.probe.snapctl.getLsbD (sourceBit src) = false)
    ∧ (∃ (s : State) (src : SnapSrc), s.probe.snapctl.getLsbD (sourceBit src) = true ∧ s.probe.snapctl.getLsbD 7 = false)
    ∧ (∃ (s : State), s.probe.snapctl.getLsbD 1 = true ∧ s.probe.snapctl.getLsbD 7 = false)
    ∧ (∃ (s : State) (x : Nat), s.probe.latchAt = some x)
    ∧ (∃ (s : State) (r : Ring) (ws : List Word), (s.rings = [r]) ∧ (r.tail % 2 ^ 32 = r.tail) ∧ (r.head % 2 ^ 32 = r.head)
      ∧ (r.coll = [(0, 0, ws, [])]) ∧ (0 < s.thirds / 3) ∧ ((r.tail + 2 ^ 32 - r.head) % 2 ^ 32 ≠ 2 ^ r.k))
    ∧ (∃ (s : State) (l : Nat), (s.Canonical) ∧ mdST (s.md l) = 2 ∧ (2 ^ 15 ≤ delta (guardIn s (s.ownerOf l) (mdBD (s.md
      l))).count (mdSP (s.md l))))
    ∧ (∃ (s : State), (s.Canonical))
    ∧ (∃ (s : State), (s.Canonical)) :=
  ⟨⟨W, r0, 4, cT W, by decide +kernel, (fun w h => by cases ((by decide +kernel : (cT W).run = .ready).symm.trans h)),
    by decide +kernel⟩,
   ⟨WSn, by decide +kernel⟩,
   ⟨WSn, .ext, by decide +kernel⟩,
   ⟨WSj, .ext, by decide +kernel⟩,
   ⟨WSk, 15, by decide +kernel⟩,
   ⟨W, .ext, by decide +kernel⟩,
   ⟨WSm, .ext, by decide +kernel⟩,
   ⟨WSa, by decide +kernel⟩,
   ⟨WSa, 0, by decide +kernel⟩,
   ⟨WRi, ring1, [1], by decide +kernel⟩,
   ⟨WAg, spot / 128, canonical (by decide +kernel), by decide +kernel⟩,
   ⟨W, canonical (by decide +kernel)⟩,
   ⟨W, canonical (by decide +kernel)⟩⟩

/-- `Obligations.IneffectiveGuards`: a state and operands that meet the hypotheses of each clause. -/
theorem meets_IneffectiveGuards :
    (∃ (i : Instr) (w : Word) (s : State) (t : Thread) (k : BitVec 32), encode i = some w ∧ (i ≠ .kend) ∧ s.curThread =
      some t ∧ t.cguard = none ∧ (∀ c ∈ s.ctxs, c.id = t.ref.ctx → c.replay = 0) ∧ t.getK (Fin.ofNat 8 (headOf w).gk.toNat)
      = .full k ∧ (k.getLsbD 0 = ((headOf w).gn == 1)))
    ∧ (∃ (i : Instr) (w : Word) (s : State) (t : Thread), encode i = some w ∧ (i ≠ .kend) ∧ s.curThread = some t ∧ t.cguard
      = none ∧ (∀ c ∈ s.ctxs, c.id = t.ref.ctx → c.replay = 0) ∧ t.getK (Fin.ofNat 8 (headOf w).gk.toNat) = .empty ∧ (headOf
      w).wd = 0) :=
  ⟨⟨.add { R0 with gn := 1 }, (encode (.add { R0 with gn := 1 })).getD 0, W, cT W, 0xFFFFFFFF, by decide +kernel⟩,
   ⟨.add { R0 with gk := 1 }, (encode (.add { R0 with gk := 1 })).getD 0, wt (fun t => t.setEmpty (.k 1)) W, cT (wt (fun
    t => t.setEmpty (.k 1)) W), by decide +kernel⟩⟩

/-- `Obligations.OutcomesByDisposition`: a state and operands that meet the hypotheses of the statement. -/
theorem meets_OutcomesByDisposition :
    ∃ (s : State) (t : Thread) (code : OC) (o : WObj), (s.thread? t.ref = some t) ∧ (∀ c ∈ s.ctxs, c.id = t.ref.ctx →
      c.replay = 0) ∧ ((∃ r, o = .reg r) ∨ ∃ c, o = .router c) ∧ (code ≠ .cnt) ∧ (code ≠ .miss) ∧ (code ≠ .ok) :=
  ⟨W, cT W, .empty, .reg (.g 1), by decide +kernel, by decide +kernel, .inl ⟨.g 1, rfl⟩, by decide +kernel⟩

/-- `Obligations.TrapEntry`: a state and operands that meet the hypotheses of each clause. -/
theorem meets_TrapEntry :
    (∃ (s : State) (t : Thread) (k : Nat) (key : Nat), (s.Canonical) ∧ (s.thread? t.ref = some t) ∧ t.h = false ∧
      (t.fam.handler ≠ 0) ∧ (k % 128 = 0) ∧ (spotOf s t.ref.ctx (t.ref.agent / 16) ((s.ctxD t.ref.ctx).tfb + t.ref.agent *
      128) true true = .ok (.at_ k key)) ∧ (s.lineKey (k / 128) = key))
    ∧ (∃ (s : State) (t : Thread), (s.thread? t.ref = some t) ∧ t.h = true) :=
  ⟨⟨WTr, cT WTr, Config.scratchKey + 0x6000, 0, canonical (by decide +kernel), by decide +kernel, by decide +kernel,
    by decide +kernel, by decide +kernel, ok_eq (by decide +kernel), by decide +kernel⟩,
   ⟨wt (fun t => { t with ts := 0x800 }) W, cT (wt (fun t => { t with ts := 0x800 }) W), by decide +kernel⟩⟩

/-- `Obligations.AdvanceAndBackEdge`: a state and operands that meet the hypotheses of each clause. -/
theorem meets_AdvanceAndBackEdge :
    (∃ (t : Thread), loopAt t 0 = false ∧ loopAt t 1 = false)
    ∧ (∃ (t : Thread), loopAt t 1 = true ∧ (1 < (t.lc.get 1).toNat))
    ∧ (∃ (t : Thread), loopAt t 1 = true ∧ ((t.lc.get 1).toNat ≤ 1) ∧ loopAt t 0 = false)
    ∧ (∃ (t : Thread), loopAt t 1 = true ∧ ((t.lc.get 1).toNat ≤ 1) ∧ loopAt t 0 = true ∧ (1 < (t.lc.get 0).toNat))
    ∧ (∃ (t : Thread), loopAt t 1 = true ∧ ((t.lc.get 1).toNat ≤ 1) ∧ loopAt t 0 = true ∧ ((t.lc.get 0).toNat ≤ 1))
    ∧ (∃ (t : Thread), loopAt t 1 = false ∧ loopAt t 0 = true ∧ (1 < (t.lc.get 0).toNat))
    ∧ (∃ (t : Thread), loopAt t 1 = false ∧ loopAt t 0 = true ∧ ((t.lc.get 0).toNat ≤ 1)) :=
  ⟨⟨cT W, by decide +kernel⟩,
   ⟨lT 0x400 2 2, by decide +kernel⟩,
   ⟨lT 0x400 2 1, by decide +kernel⟩,
   ⟨lT 0x600 2 1, by decide +kernel⟩,
   ⟨lT 0x600 1 0, by decide +kernel⟩,
   ⟨lT 0x200 2 2, by decide +kernel⟩,
   ⟨lT 0x200 0 2, by decide +kernel⟩⟩

/-- `Obligations.OperandAccess`: a state and operands that meet the hypotheses of each clause. -/
theorem meets_OperandAccess :
    (∃ (t : Thread) (i : Fin 16) (w : BitVec 64), t.getG i = .full w)
    ∧ (∃ (t : Thread) (i : Fin 8) (w : BitVec 32), t.getK i = .full w)
    ∧ (∃ (t : Thread) (i : Fin 16), t.getG i = .empty)
    ∧ (∃ (t : Thread) (i : Fin 16) (g : Tag), t.getG i = .pend g)
    ∧ (∃ (t : Thread) (i : Fin 16) (w : Word), t.getG i = .pois w)
    ∧ (∃ (s : State) (t : Thread) (d : Dir) (w : Word), s.ownsPorts t = true ∧ s.portWord t d = some w)
    ∧ (∃ (s : State) (t : Thread) (d : Dir), s.ownsPorts t = true ∧ s.portWord t d = none)
    ∧ (∃ (s : State) (t : Thread), s.ownsPorts t = false)
    ∧ (∃ (s : State) (r : TRef) (u : Thread), (s.thread? r = some u))
    ∧ (∃ (s : State) (r : TRef) (u : Thread), (s.thread? r = some u))
    ∧ (∃ (s : State) (r : TRef) (i : Fin 8) (u : Thread), (s.thread? r = some u) ∧ (i ≠ 0))
    ∧ (∃ (s : State) (r : TRef) (u : Thread), (s.thread? r = some u))
    ∧ (∃ (t : Thread) (i : Fin 32) (w : BitVec 1024), t.getV i = .full w)
    ∧ (∃ (t : Thread) (i : Fin 32) (x : BitVec 1024) (y : BitVec 1024), t.getV i = .full x ∧ t.getV (pairUp i) = .full y)
    ∧ (∃ (t : Thread) (i : Fin 32), t.getV i = .empty)
    ∧ (∃ (t : Thread) (i : Fin 32) (g : Tag), t.getV i = .pend g)
    ∧ (∃ (t : Thread) (i : Fin 32) (w : Word), t.getV i = .pois w)
    ∧ (∃ (t : Thread) (i : Fin 32) (x : BitVec 1024), t.getV i = .full x ∧ t.getV (pairUp i) = .empty)
    ∧ (∃ (n : Nat), (n < 32))
    ∧ (∃ (n : Nat), (n < 32))
    ∧ (∃ (s : State) (r : TRef) (u : Thread), (s.thread? r = some u))
    ∧ (∃ (s : State) (r : TRef) (u : Thread), (s.thread? r = some u)) :=
  ⟨⟨cT W, 1, 0, by decide +kernel⟩,
   ⟨cT W, 0, 0xFFFFFFFF, by decide +kernel⟩,
   ⟨(cT W).setEmpty (.g 1), 1, by decide +kernel⟩,
   ⟨(cT W).setPend (.g 1) 5, 1, 5, by decide +kernel⟩,
   ⟨(cT W).setG 1 (.pois 5), 1, 5, by decide +kernel⟩,
   ⟨WPo, cT WPo, .n, 7, by decide +kernel⟩,
   ⟨WPo, cT WPo, .e, by decide +kernel⟩,
   ⟨W, cT W, by decide +kernel⟩,
   ⟨W, r0, cT W, by decide +kernel⟩,
   ⟨W, r0, cT W, by decide +kernel⟩,
   ⟨W, r0, 1, cT W, by decide +kernel⟩,
   ⟨W, r0, cT W, by decide +kernel⟩,
   ⟨(cT W).setFull (.v 2) 5, 2, 5, by decide +kernel⟩,
   ⟨((cT W).setFull (.v 2) 5).setFull (.v 3) 6, 2, 5, 6, by decide +kernel⟩,
   ⟨(cT W).setEmpty (.v 2), 2, by decide +kernel⟩,
   ⟨(cT W).setPend (.v 2) 5, 2, 5, by decide +kernel⟩,
   ⟨(cT W).setV 2 (.pois 5), 2, 5, by decide +kernel⟩,
   ⟨((cT W).setFull (.v 2) 5).setEmpty (.v 3), 2, 5, by decide +kernel⟩,
   ⟨0, by decide +kernel⟩,
   ⟨0, by decide +kernel⟩,
   ⟨W, r0, cT W, by decide +kernel⟩,
   ⟨W, r0, cT W, by decide +kernel⟩⟩

/-- `Obligations.StepRunsDecoded`: a state and operands that meet the hypotheses of each clause. -/
theorem meets_StepRunsDecoded :
    (∃ (s : State) (i : Instr), dueFirst s = some i)
    ∧ (∃ (s : State) (c : Core) (t : Thread) (w : Word) (i : Instr), dueFirst s = none ∧ (pickOf s (issuing s) = some (c,
      t)) ∧ trapDue s t = false ∧ comparatorHit s t = none ∧ (¬(t.bySeq = true ∧ t.pc = t.fam.bound)) ∧ fetchAt s t = .word
      w ∧ decodeWord w = .ok i)
    ∧ (∃ (s : State) (c : Core) (t : Thread), dueFirst s = none ∧ (pickOf s (issuing s) = some (c, t)) ∧ trapDue s t = true)
    ∧ (∃ (s : State) (c : Core) (t : Thread) (n : Nat), dueFirst s = none ∧ (pickOf s (issuing s) = some (c, t)) ∧ trapDue s
      t = false ∧ comparatorHit s t = some n)
    ∧ (∃ (s : State) (c : Core) (t : Thread) (w : Word) (r : Reject), dueFirst s = none ∧ (pickOf s (issuing s) = some (c,
      t)) ∧ trapDue s t = false ∧ comparatorHit s t = none ∧ (¬(t.bySeq = true ∧ t.pc = t.fam.bound)) ∧ fetchAt s t = .word
      w ∧ decodeWord w = .error r)
    ∧ (∃ (s : State) (c : Core) (t : Thread), dueFirst s = none ∧ (pickOf s (issuing s) = some (c, t)) ∧ trapDue s t = false
      ∧ comparatorHit s t = none ∧ t.bySeq = true ∧ t.pc = t.fam.bound)
    ∧ (∃ (s : State) (c : Core) (t : Thread), dueFirst s = none ∧ (pickOf s (issuing s) = some (c, t)) ∧ trapDue s t = false
      ∧ comparatorHit s t = none ∧ (¬(t.bySeq = true ∧ t.pc = t.fam.bound)) ∧ fetchAt s t = .fault)
    ∧ (∃ (s : State) (c : Core) (t : Thread), dueFirst s = none ∧ (pickOf s (issuing s) = some (c, t)) ∧ trapDue s t = false
      ∧ comparatorHit s t = none ∧ (¬(t.bySeq = true ∧ t.pc = t.fam.bound)) ∧ fetchAt s t = .miss)
    ∧ (∃ (s : State) (t : Thread) (w : Word) (i : Instr), dueFirst s = none ∧ pickOf s (issuing s) = none ∧ resuming s =
      some t ∧ let s1 : State := { s.setThread (goingOn t) with cur := t.ref }; (¬(t.bySeq = true ∧ t.pc = t.fam.bound)) ∧
      fetchAt s1 (goingOn t) = .word w ∧ decodeWord w = .ok i)
    ∧ (∃ (s : State) (m : Mover), dueFirst s = none ∧ pickOf s (issuing s) = none ∧ resuming s = none ∧ dueEvent s = some m)
    ∧ (∃ (s : State) (m : Mover), dueFirst s = none ∧ pickOf s (issuing s) = none ∧ resuming s = none ∧ dueEvent s = none ∧
      s.oracle.elapse = false ∧ pickOf s (events s) = some m)
    ∧ (∃ (s : State), dueFirst s = none ∧ pickOf s (issuing s) = none ∧ resuming s = none ∧ dueEvent s = none ∧
      (s.oracle.elapse = true ∨ events s = [])) :=
  ⟨⟨WTk, (dueFirst WTk).getD .acornPulse, some_of (by decide +kernel)⟩,
   ⟨WIs addWord, (WIs addWord).core 0, tI (WIs addWord), addWord, .add R0, none_of (by decide +kernel),
    by decide +kernel, by decide +kernel, by decide +kernel, by decide +kernel, by decide +kernel, ok_eq
    (by decide +kernel)⟩,
   ⟨WTd, WTd.core 0, tI WTd, none_of (by decide +kernel), by decide +kernel⟩,
   ⟨WCm, WCm.core 0, tI WCm, 0, none_of (by decide +kernel), by decide +kernel⟩,
   ⟨WIs noWord, (WIs noWord).core 0, tI (WIs noWord), noWord, .illegalInstruction, none_of (by decide +kernel),
    by decide +kernel, by decide +kernel, by decide +kernel, by decide +kernel, by decide +kernel, err_eq
    (by decide +kernel)⟩,
   ⟨WIb, WIb.core 0, tI WIb, none_of (by decide +kernel), by decide +kernel⟩,
   ⟨WPc, WPc.core 0, tI WPc, none_of (by decide +kernel), by decide +kernel⟩,
   ⟨WIm, WIm.core 0, tI WIm, none_of (by decide +kernel), by decide +kernel⟩,
   ⟨WGo, tI WGo, addWord, .add R0, none_of (by decide +kernel), none_of (by decide +kernel), by decide +kernel,
    by decide +kernel, by decide +kernel, ok_eq (by decide +kernel)⟩,
   ⟨State.reset, (dueEvent State.reset).getD noMover, none_of (by decide +kernel), none_of (by decide +kernel), none_of
    (by decide +kernel), some_of (by decide +kernel)⟩,
   ⟨WNo, (pickOf WNo (events WNo)).getD noMover, none_of (by decide +kernel), none_of (by decide +kernel), none_of
    (by decide +kernel), none_of (by decide +kernel), by decide +kernel, some_of (by decide +kernel)⟩,
   ⟨WEnd, none_of (by decide +kernel), none_of (by decide +kernel), none_of (by decide +kernel), none_of
    (by decide +kernel), .inl (by decide +kernel)⟩⟩

/-- `Obligations.DecodeEncode`: a state and operands that meet the hypotheses of each clause. -/
theorem meets_DecodeEncode :
    (∃ (i : Instr) (w : Word), (i.WellFormed) ∧ encode i = some w)
    ∧ (∃ (w : Word) (i : Instr), decodeWord w = .ok i) :=
  ⟨⟨.add R0, addWord, by decide +kernel⟩,
   ⟨addWord, .add R0, ok_eq (by decide +kernel)⟩⟩

/-- `Obligations.CanonicalKept`: a state and operands that meet the hypotheses of the statement. -/
theorem meets_CanonicalKept :
    ∃ (s : State) (s' : State), (s.Canonical) ∧ step s = .next s' :=
  ⟨State.reset, nextOf W (step State.reset), canonical (by decide +kernel), next_eq (by decide +kernel)⟩

/-- `Obligations.DistinctKept`: a state and operands that meet the hypotheses of the statement. -/
theorem meets_DistinctKept :
    ∃ (s : State) (s' : State), (s.Distinct) ∧ step s = .next s' :=
  ⟨State.reset, nextOf W (step State.reset), distinct (by decide +kernel), next_eq (by decide +kernel)⟩

/-- `Obligations.RegisterInstructionFrame`: a state and operands that meet the hypotheses of the statement. -/
theorem meets_RegisterInstructionFrame :
    ∃ (i : Instr) (regs : List Opd) (s : State) (s' : State) (t : Thread), registerWrites i = some regs ∧ (s.Canonical) ∧
      s.curThread = some t ∧ exec i s = .next s' :=
  ⟨.add R0, _, W, nextOf W (exec (.add R0) W), cT W, rfl, canonical (by decide +kernel), by decide +kernel, next_eq
    (by decide +kernel)⟩

/-- `Obligations.MemoryIssueFrame`: a state and operands that meet the hypotheses of the statement. -/
theorem meets_MemoryIssueFrame :
    ∃ (i : Instr) (regs : List Opd) (s : State) (s' : State) (t : Thread), memoryWrites i = some regs ∧ (s.Canonical) ∧
      s.curThread = some t ∧ exec i s = .next s' :=
  ⟨.st M0, _, W, nextOf W (exec (.st M0) W), cT W, rfl, canonical (by decide +kernel), by decide +kernel, next_eq
    (by decide +kernel)⟩

/-- `Obligations.CoreObjectFrame`: a state and operands that meet the hypotheses of the statement. -/
theorem meets_CoreObjectFrame :
    ∃ (i : Instr) (regs : List Opd) (view : Core → Core) (s : State) (s' : State) (t : Thread), (coreWrites i = some
      (regs, view)) ∧ (s.Canonical) ∧ s.curThread = some t ∧ exec i s = .next s' :=
  ⟨.waitc E0, _, _, W, nextOf W (exec (.waitc E0) W), cT W, rfl, canonical (by decide +kernel), by decide +kernel,
    next_eq (by decide +kernel)⟩

end Sys2Proof.Tests
end

section
/-! The arithmetic of the scalar instructions said in bit vectors: for each operation on W-bit numbers of the model, the
vector of W bits that it denotes (spec 02 R46, R47, 03 R54-R61). -/
namespace Sys2Proof.Slice0
open Sys2Proof Sys2Proof.Machine

/-! ### Widths, integers and remainders -/

theorem w_eq_width (f : RForm) : RForm.w f = width f := by
  have codes : ∀ c : BitVec 2, widthOf c.toNat = [64, 32, 16, 8].getD c.toNat 64 := by decide
  rw [RForm.w, RForm.top, bits_toNat]
  exact codes _

theorem width_pos (f : RForm) : 0 < width f := by
  have codes : ∀ c : BitVec 2, 0 < [64, 32, 16, 8].getD c.toNat 64 := by decide
  exact codes _

theorem mid_eq (f : RForm) : f.mid = (f.fn.extractLsb' 4 2).toNat := bits_toNat _ _ _

theorem cond_eq (f : RForm) : f.cond = (f.fn.extractLsb' 6 4).toNat := bits_toNat _ _ _

theorem toSigned_word (n : Nat) (a : Word) : toSigned n a.toNat = (a.setWidth n).toInt := by
  rw [toSigned_eq, BitVec.ofNat_toNat]

/-- The W low bits of a word, as a number (R54). -/
theorem mod_word (n : Nat) (a : Word) : a.toNat % 2 ^ n = (a.setWidth n).toNat := (BitVec.toNat_setWidth ..).symm

theorem ofNat_toNat_of_nonneg (n : Nat) {x : Int} (h : 0 ≤ x) : BitVec.ofNat n x.toNat = BitVec.ofInt n x := by
  rw [← BitVec.ofInt_natCast, Int.toNat_of_nonneg h]

theorem ofNat_wrapN (n : Nat) (x : Int) : BitVec.ofNat n (wrapN n x) = BitVec.ofInt n x := by
  have cast : (2 : Int) ^ n = ((2 ^ n : Nat) : Int) := by norm_cast
  have pos : (0 : Int) < ((2 ^ n : Nat) : Int) := Int.natCast_pos.mpr (Nat.two_pow_pos n)
  have lt := Int.emod_lt_of_pos x pos
  have nonneg := Int.emod_nonneg x (Int.ne_of_gt pos)
  apply BitVec.eq_of_toNat_eq
  rw [BitVec.toNat_ofNat, BitVec.toNat_ofInt, wrapN, cast, Nat.mod_eq_of_lt]
  omega

theorem toInt_eq_zero_iff {n : Nat} (x : BitVec n) : x.toInt = 0 ↔ x = 0 := by
  rw [← BitVec.toInt_inj]; simp

theorem toInt_eq_min_iff {n : Nat} (h : 0 < n) (x : BitVec n) : x.toInt = -2 ^ (n - 1) ↔ x = BitVec.intMin n := by
  rw [← BitVec.toInt_inj, BitVec.toInt_intMin_of_pos h]

theorem toInt_eq_neg_one_iff {n : Nat} (h : 0 < n) (x : BitVec n) : x.toInt = -1 ↔ x = BitVec.allOnes n := by
  rw [← BitVec.toInt_inj, BitVec.toInt_allOnes, if_pos h]

theorem toNat_eq_zero_iff {n : Nat} (x : BitVec n) : x.toNat = 0 ↔ x = 0 := by
  rw [← BitVec.toNat_inj]; simp

theorem ofNat_allOnes (n : Nat) : BitVec.ofNat n (2 ^ n - 1) = BitVec.allOnes n := by
  apply BitVec.eq_of_toNat_eq
  simp

/-! ### Sums, products and quotients (R56-R58) -/

theorem sext64_wrapN (n : Nat) (x : Int) : sext64 n (wrapN n x) = (BitVec.ofInt n x).signExtend 64 := by
  rw [sext64_eq, ofNat_wrapN]

theorem sext64_clampS (n : Nat) (x : Int) : sext64 n (clampS n x)
    = (BitVec.ofInt n (min (max x (-(2 ^ (n - 1)))) (2 ^ (n - 1) - 1))).signExtend 64 := sext64_wrapN ..

theorem zext64_clampU (n : Nat) (x : Int) : zext64 n (clampU n x)
    = (BitVec.ofInt n (min (max x 0) (2 ^ n - 1))).setWidth 64 := by
  have pos : (0 : Int) < 2 ^ n := Int.pow_pos (by decide)
  rw [zext64_eq, clampU, ofNat_toNat_of_nonneg]
  omega

/-- `add` and `sub` of the model under each SAT (R57); `neg` chooses the operation. -/
theorem addSubVal_eq (f : RForm) (neg : Bool) (op : Int → Int → Int) (e : ∀ x y, op x y = if neg then x - y else x + y)
    (a b : Word) : addSubVal f neg a b = saturating (width f) (f.fn.extractLsb' 4 2).toNat op a b := by
  simp only [addSubVal, addSat, saturating, w_eq_width, mid_eq, ← e, toSigned_word, mod_word]
  generalize (f.fn.extractLsb' 4 2).toNat = sat
  by_cases signed : sat = 1
  · subst signed
    exact sext64_clampS ..
  by_cases unsigned : sat = 2
  · subst unsigned
    exact zext64_clampU ..
  · simp only [signed, unsigned, if_false, sext64_wrapN]

section
variable (n : Nat) (a b : Word)

theorem ofNat_mul : BitVec.ofNat n (wrapN n (toSigned n a.toNat * toSigned n b.toNat)) = a.setWidth n * b.setWidth n := by
  rw [ofNat_wrapN, toSigned_word, toSigned_word, BitVec.ofInt_mul, BitVec.ofInt_toInt, BitVec.ofInt_toInt]

theorem ofNat_mulh : BitVec.ofNat n (wrapN n (toSigned n a.toNat * toSigned n b.toNat / 2 ^ n))
    = BitVec.ofInt n ((a.setWidth n).toInt * (b.setWidth n).toInt / 2 ^ n) := by
  rw [ofNat_wrapN, toSigned_word, toSigned_word]

theorem ofNat_mulhu : BitVec.ofNat n (a.toNat % 2 ^ n * (b.toNat % 2 ^ n) / 2 ^ n)
    = BitVec.ofNat n ((a.setWidth n).toNat * (b.setWidth n).toNat / 2 ^ n) := by
  rw [mod_word, mod_word]

theorem ofNat_divOp (h : 0 < n) : BitVec.ofNat n (divOp n a.toNat b.toNat) = quotient n (a.setWidth n) (b.setWidth n) := by
  simp only [divOp, quotient, toSigned_word, toInt_eq_zero_iff, toInt_eq_min_iff h, toInt_eq_neg_one_iff h,
    apply_ite (BitVec.ofNat n), ofNat_allOnes, ofNat_wrapN, BitVec.ofInt_toInt]

theorem ofNat_remOp (h : 0 < n) : BitVec.ofNat n (remOp n a.toNat b.toNat) = remainder n (a.setWidth n) (b.setWidth n) := by
  simp only [remOp, remainder, toSigned_word, toInt_eq_zero_iff, toInt_eq_min_iff h, toInt_eq_neg_one_iff h,
    apply_ite (BitVec.ofNat n), ofNat_wrapN, BitVec.ofInt_toInt, Int.tmod_def]
  rfl

theorem ofNat_divuOp : BitVec.ofNat n (divuOp n a.toNat b.toNat)
    = if b.setWidth n = 0 then BitVec.allOnes n else (a.setWidth n).udiv (b.setWidth n) := by
  simp only [divuOp, mod_word, toNat_eq_zero_iff, apply_ite (BitVec.ofNat n), ofNat_allOnes, ← BitVec.udiv_def]
  rfl

theorem ofNat_remuOp : BitVec.ofNat n (remuOp n a.toNat b.toNat)
    = if b.setWidth n = 0 then a.setWidth n else a.setWidth n - b.setWidth n * (a.setWidth n).udiv (b.setWidth n) := by
  simp only [remuOp, mod_word, toNat_eq_zero_iff]
  generalize a.setWidth n = x, b.setWidth n = y
  by_cases zero : y = 0
  · rw [if_pos zero, if_pos zero, BitVec.ofNat_toNat, BitVec.setWidth_eq]
  · have parts := Nat.mod_add_div x.toNat y.toNat
    have sum : x % y + y * x.udiv y = x := BitVec.eq_of_toNat_eq (by simp [parts, Nat.mod_eq_of_lt x.isLt])
    rw [if_neg zero, if_neg zero, ← BitVec.toNat_umod, BitVec.ofNat_toNat, BitVec.setWidth_eq]
    exact BitVec.eq_sub_iff_add_eq.mpr sum

/-! ### Bitwise operations, shifts and rotation (R56, R59) -/

theorem ofNat_and : BitVec.ofNat n ((a.toNat &&& b.toNat) % 2 ^ n) = a.setWidth n &&& b.setWidth n := by
  rw [← BitVec.toNat_and, mod_word, BitVec.ofNat_toNat, BitVec.setWidth_eq, BitVec.setWidth_and]

theorem ofNat_or : BitVec.ofNat n ((a.toNat ||| b.toNat) % 2 ^ n) = a.setWidth n ||| b.setWidth n := by
  rw [← BitVec.toNat_or, mod_word, BitVec.ofNat_toNat, BitVec.setWidth_eq, BitVec.setWidth_or]

theorem ofNat_xor : BitVec.ofNat n ((a.toNat ^^^ b.toNat) % 2 ^ n) = a.setWidth n ^^^ b.setWidth n := by
  rw [← BitVec.toNat_xor, mod_word, BitVec.ofNat_toNat, BitVec.setWidth_eq, BitVec.setWidth_xor]

theorem ofNat_andn : BitVec.ofNat n ((a.toNat % 2 ^ n) &&& (2 ^ n - 1 - b.toNat % 2 ^ n))
    = a.setWidth n &&& ~~~(b.setWidth n) := by
  rw [mod_word, mod_word, ← BitVec.toNat_not, ← BitVec.toNat_and, BitVec.ofNat_toNat, BitVec.setWidth_eq]

theorem ofNat_shlOp (c : Nat) : BitVec.ofNat n (shlOp n a.toNat c) = if n ≤ c then 0 else a.setWidth n <<< c := by
  have moved : BitVec.ofNat n (a.toNat % 2 ^ n * 2 ^ c % 2 ^ n) = a.setWidth n <<< c := by
    apply BitVec.eq_of_toNat_eq
    rw [BitVec.toNat_ofNat, Nat.mod_mod, BitVec.toNat_shiftLeft, BitVec.toNat_setWidth, Nat.shiftLeft_eq]
  rw [shlOp, apply_ite (BitVec.ofNat n), moved]
  rfl

theorem ofNat_shrOp (c : Nat) : BitVec.ofNat n (shrOp n a.toNat c) = if n ≤ c then 0 else a.setWidth n >>> c := by
  have moved : BitVec.ofNat n (a.toNat % 2 ^ n / 2 ^ c) = a.setWidth n >>> c := by
    rw [mod_word, ← Nat.shiftRight_eq_div_pow, ← BitVec.toNat_ushiftRight, BitVec.ofNat_toNat, BitVec.setWidth_eq]
  rw [shrOp, apply_ite (BitVec.ofNat n), moved]
  rfl

/-- An integer of n bits shifted right by n or more is its sign. -/
theorem toInt_div_two_pow {n : Nat} (x : BitVec n) : x.toInt / 2 ^ n = if x.msb then -1 else 0 := by
  have lt := x.isLt
  have cast : (2 : Int) ^ n = ((2 ^ n : Nat) : Int) := by norm_cast
  have pos : (0 : Int) < ((2 ^ n : Nat) : Int) := Int.natCast_pos.mpr (Nat.two_pow_pos n)
  rw [BitVec.toInt_eq_msb_cond, cast]
  by_cases neg : x.msb = true
  · rw [if_pos neg, if_pos neg, Int.sub_ediv_of_dvd _ (Int.dvd_refl _), Int.ediv_self (Int.ne_of_gt pos),
      Int.ediv_eq_zero_of_lt (by omega) (by omega)]
    rfl
  · rw [if_neg neg, if_neg neg, Int.ediv_eq_zero_of_lt (by omega) (by omega)]

theorem ofNat_sarOp (c : Nat) : BitVec.ofNat n (sarOp n a.toNat c)
    = if n ≤ c then (if (a.setWidth n).msb then BitVec.allOnes n else 0) else (a.setWidth n).sshiftRight c := by
  rw [sarOp, ofNat_wrapN, toSigned_word]
  by_cases big : n ≤ c
  · rw [show c.min n = n from Nat.min_eq_right big, toInt_div_two_pow, if_pos big]
    split
    · rw [BitVec.ofInt_neg]; exact BitVec.neg_one_eq_allOnes
    · exact BitVec.ofInt_ofNat ..
  · rw [show c.min n = c from Nat.min_eq_left (by omega), if_neg big, BitVec.sshiftRight, Int.shiftRight_eq_div_pow]
    norm_cast

theorem ofNat_rotOp (h : 0 < n) (c : Nat) : BitVec.ofNat n (rotOp n a.toNat c) = (a.setWidth n).rotateRight (c % n) := by
  apply BitVec.eq_of_toNat_eq
  rw [BitVec.toNat_rotateRight, Nat.mod_mod, rotOp, mod_word]
  generalize a.setWidth n = x, k : c % n = r
  have lt := x.isLt
  have split : 2 ^ n = 2 ^ r * 2 ^ (n - r) := by
    rw [← Nat.pow_add, Nat.add_sub_of_le (k ▸ Nat.le_of_lt (Nat.mod_lt c h))]
  have low : x.toNat / 2 ^ r < 2 ^ (n - r) := Nat.div_lt_of_lt_mul (split ▸ lt)
  have high : x.toNat <<< (n - r) % 2 ^ n = 2 ^ (n - r) * (x.toNat % 2 ^ r) := by
    rw [Nat.shiftLeft_eq, split, Nat.mul_mod_mul_right, Nat.mul_comm]
  have fits : x.toNat % 2 ^ r * 2 ^ (n - r) < 2 ^ n := by
    rw [split]
    exact Nat.mul_lt_mul_of_pos_right (Nat.mod_lt _ (Nat.two_pow_pos r)) (Nat.two_pow_pos _)
  have sum : x.toNat / 2 ^ r + x.toNat % 2 ^ r * 2 ^ (n - r) % 2 ^ n = x.toNat >>> r ||| x.toNat <<< (n - r) % 2 ^ n := by
    rw [Nat.mod_eq_of_lt fits, high, Nat.mul_comm, Nat.add_comm, Nat.two_pow_add_eq_or_of_lt low, Nat.or_comm,
      Nat.shiftRight_eq_div_pow]
  rw [sum, BitVec.toNat_ofNat, Nat.mod_eq_of_lt]
  rw [Nat.shiftRight_eq_div_pow]
  exact Nat.or_lt_two_pow (Nat.lt_of_le_of_lt (Nat.div_le_self ..) lt) (Nat.mod_lt _ (Nat.two_pow_pos n))

/-! ### The lesser and the greater (R56) -/

/-- Where two equal vectors choose the same, their signed order may be asked strictly or not. -/
theorem ite_toInt_le {α : Type} {n : Nat} {x y : BitVec n} {u v : α} (same : x = y → u = v) :
    (if x.toInt ≤ y.toInt then u else v) = if x.toInt < y.toInt then u else v := by
  rcases Int.lt_trichotomy x.toInt y.toInt with lt | eq | gt
  · rw [if_pos (Int.le_of_lt lt), if_pos lt]
  · rw [same (BitVec.toInt_inj.mp eq), ite_self, ite_self]
  · rw [if_neg (Int.not_le.mpr gt), if_neg (Int.lt_asymm gt)]

theorem ofNat_min : BitVec.ofNat n (if toSigned n a.toNat ≤ toSigned n b.toNat then a.toNat else b.toNat)
    = if (a.setWidth n).slt (b.setWidth n) then a.setWidth n else b.setWidth n := by
  simp only [toSigned_word, apply_ite (BitVec.ofNat n), BitVec.ofNat_toNat, BitVec.slt_iff_toInt_lt]
  exact ite_toInt_le id

theorem ofNat_max : BitVec.ofNat n (if toSigned n a.toNat ≤ toSigned n b.toNat then b.toNat else a.toNat)
    = if (a.setWidth n).slt (b.setWidth n) then b.setWidth n else a.setWidth n := by
  simp only [toSigned_word, apply_ite (BitVec.ofNat n), BitVec.ofNat_toNat, BitVec.slt_iff_toInt_lt]
  exact ite_toInt_le Eq.symm

theorem ofNat_minu : BitVec.ofNat n (Nat.min (a.toNat % 2 ^ n) (b.toNat % 2 ^ n))
    = if (a.setWidth n).ult (b.setWidth n) then a.setWidth n else b.setWidth n := by
  rw [mod_word, mod_word]
  generalize a.setWidth n = x, b.setWidth n = y
  by_cases lt : x.ult y = true
  · rw [if_pos lt, show x.toNat.min y.toNat = x.toNat from Nat.min_eq_left (Nat.le_of_lt (BitVec.ult_iff_lt.mp lt)),
      BitVec.ofNat_toNat, BitVec.setWidth_eq]
  · rw [if_neg lt, show x.toNat.min y.toNat = y.toNat from Nat.min_eq_right (Nat.not_lt.mp (lt ∘ BitVec.ult_iff_lt.mpr)),
      BitVec.ofNat_toNat, BitVec.setWidth_eq]

theorem ofNat_maxu : BitVec.ofNat n (Nat.max (a.toNat % 2 ^ n) (b.toNat % 2 ^ n))
    = if (a.setWidth n).ult (b.setWidth n) then b.setWidth n else a.setWidth n := by
  rw [mod_word, mod_word]
  generalize a.setWidth n = x, b.setWidth n = y
  by_cases lt : x.ult y = true
  · rw [if_pos lt, show x.toNat.max y.toNat = y.toNat from Nat.max_eq_right (Nat.le_of_lt (BitVec.ult_iff_lt.mp lt)),
      BitVec.ofNat_toNat, BitVec.setWidth_eq]
  · rw [if_neg lt, show x.toNat.max y.toNat = x.toNat from Nat.max_eq_left (Nat.not_lt.mp (lt ∘ BitVec.ult_iff_lt.mpr)),
      BitVec.ofNat_toNat, BitVec.setWidth_eq]

end

/-! ### Counts (R60) -/

/-- The count of leading zeros read from bit n down. -/
theorem clzOp_succ (n : Nat) (a : Word) : clzOp (n + 1) a.toNat = if a.getLsbD n then 0 else clzOp n a.toNat + 1 := by
  have parts := Nat.mod_pow_succ (b := 2) (k := n) (x := a.toNat)
  have lt := Nat.mod_lt a.toNat (Nat.two_pow_pos n)
  rw [BitVec.getLsbD, Nat.testBit_eq_decide_div_mod_eq, clzOp, clzOp, parts]
  generalize a.toNat % 2 ^ n = low at *
  rcases Nat.mod_two_eq_zero_or_one (a.toNat / 2 ^ n) with top | top
  · by_cases none : low = 0
    · simp [top, none]
    · have := (Nat.log2_lt none).mpr lt
      simp only [top, none, Nat.mul_zero, Nat.add_zero, if_false, Nat.zero_ne_one, decide_false, Bool.false_eq_true]
      omega
  · have log : (low + 2 ^ n).log2 = n :=
      (Nat.log2_eq_iff (by omega)).mpr ⟨by omega, by rw [Nat.pow_succ]; omega⟩
    simp [top, log]

theorem clzOp_eq (n : Nat) (a : Word) :
    clzOp n a.toNat = ((List.range n).reverse.takeWhile (fun i => !a.getLsbD i)).length := by
  induction n with
  | zero => simp [clzOp, Nat.mod_one]
  | succ n ih =>
    rw [clzOp_succ, List.range_succ, List.reverse_append, List.reverse_singleton, List.singleton_append,
      List.takeWhile_cons, ih]
    cases a.getLsbD n <;> rfl

/-- The first number of a range that p holds of is as far from its start as p fails. -/
theorem find?_range'_eq (p : Nat → Bool) (n k : Nat) :
    ((List.range' k n).find? p).getD (k + n) = k + ((List.range' k n).takeWhile (fun i => !p i)).length := by
  induction n generalizing k with
  | zero => simp
  | succ n ih =>
    rw [List.range'_succ, List.find?_cons, List.takeWhile_cons]
    cases p k
    · simp only [Bool.not_false, if_true, List.length_cons]
      rw [show k + (n + 1) = k + 1 + n by omega, ih (k + 1)]
      omega
    · simp

theorem ctzOp_eq (n : Nat) (a : Word) : ctzOp n a.toNat = ((List.range n).takeWhile (fun i => !a.getLsbD i)).length := by
  have := find?_range'_eq (fun i => a.getLsbD i) n 0
  simpa [ctzOp, bit_eq, List.range_eq_range'] using this

theorem popcOp_eq (n : Nat) (a : Word) : popcOp n a.toNat = (List.range n).countP (fun i => a.getLsbD i) := by
  simp only [popcOp, bit_eq, List.countP_eq_length_filter]

/-- A count of at most n fits in n bits. -/
theorem zext64_of_le {n x : Nat} (h : x ≤ n) : zext64 n x = BitVec.ofNat 64 x := by
  rw [zext64, Nat.mod_eq_of_lt (Nat.lt_of_le_of_lt h Nat.lt_two_pow_self)]

/-! ### Bit fields (R61) -/

theorem fieldPos_eq (b : Word) : bits b.toNat 5 0 = fieldPos b := bits_toNat b 5 0

theorem fieldLen_eq (n : Nat) (b : Word) : fieldLen n b.toNat = fieldLength n b := by
  simp only [fieldLen, fieldLength, bits_toNat]
  rfl

theorem fieldLength_le (n : Nat) (b : Word) (h : fieldLength n b ≠ 0) : fieldPos b + fieldLength n b ≤ n := by
  unfold fieldLength at h ⊢
  by_cases out : n ≤ fieldPos b
  · exact absurd (if_pos out) h
  · rw [if_neg out]
    omega

/-- The field of source b within the W low bits of a, as a number. -/
theorem ofNat_field (n : Nat) (a b : Word) (h : fieldLength n b ≠ 0) :
    BitVec.ofNat (fieldLength n b) (a.toNat % 2 ^ n / 2 ^ fieldPos b % 2 ^ fieldLength n b)
      = a.extractLsb' (fieldPos b) (fieldLength n b) := by
  have inside := fieldLength_le n b h
  ext i lt
  simp only [← BitVec.getLsbD_eq_getElem, BitVec.getLsbD_ofNat, BitVec.getLsbD_extractLsb', Nat.testBit_mod_two_pow,
    Nat.testBit_div_two_pow]
  simp [lt, show i + fieldPos b < n by omega, BitVec.getLsbD, Nat.add_comm]

theorem bfxOp_signed (n : Nat) (a b : Word) :
    bfxOp true n a b = (a.extractLsb' (fieldPos b) (fieldLength n b)).signExtend 64 := by
  simp only [bfxOp, fieldLen_eq, fieldPos_eq, if_true]
  by_cases none : fieldLength n b = 0
  · rw [if_pos none, none, BitVec.eq_nil (BitVec.extractLsb' ..)]; rfl
  · rw [if_neg none, sext64_eq, ofNat_field n a b none]

theorem bfxOp_unsigned (n : Nat) (a b : Word) :
    bfxOp false n a b = (a.extractLsb' (fieldPos b) (fieldLength n b)).setWidth 64 := by
  simp only [bfxOp, fieldLen_eq, fieldPos_eq, Bool.false_eq_true, if_false]
  by_cases none : fieldLength n b = 0
  · rw [if_pos none, none, BitVec.eq_nil (BitVec.extractLsb' ..)]; rfl
  · rw [if_neg none, zext64_eq, ofNat_field n a b none]

/-- Bits of a number whose field of l bits at p is replaced by the l low bits of another. -/
theorem testBit_replace (x y p l i : Nat) : (x - x / 2 ^ p % 2 ^ l * 2 ^ p + y % 2 ^ l * 2 ^ p).testBit i
    = if p ≤ i ∧ i < p + l then y.testBit (i - p) else x.testBit i := by
  have parts : x = 2 ^ p * (2 ^ l * (x / 2 ^ p / 2 ^ l) + x / 2 ^ p % 2 ^ l) + x % 2 ^ p := by
    rw [Nat.div_add_mod, Nat.div_add_mod]
  have low : x % 2 ^ p < 2 ^ p := Nat.mod_lt _ (Nat.two_pow_pos p)
  have made : x - x / 2 ^ p % 2 ^ l * 2 ^ p + y % 2 ^ l * 2 ^ p
      = 2 ^ p * (2 ^ l * (x / 2 ^ p / 2 ^ l) + y % 2 ^ l) + x % 2 ^ p := by
    rw [Nat.mul_add] at parts ⊢
    rw [Nat.mul_comm (_ % _), Nat.mul_comm (y % _)]
    omega
  rw [made, Nat.testBit_two_pow_mul_add _ low, Nat.testBit_two_pow_mul_add _ (Nat.mod_lt _ (Nat.two_pow_pos l))]
  simp only [Nat.testBit_mod_two_pow, Nat.testBit_div_two_pow]
  by_cases below : i < p
  · simp [below, show ¬ p ≤ i by omega]
  by_cases within : i - p < l
  · simp [below, within, show p ≤ i ∧ i < p + l by omega]
  · simp [below, within, show ¬ i < p + l by omega, show i - p - l + l + p = i by omega]

theorem getLsbD_ofBoolListLE_range (n : Nat) (p : Nat → Bool) (i : Nat) :
    (BitVec.ofBoolListLE ((List.range n).map p)).getLsbD i = (decide (i < n) && p i) := by
  rw [BitVec.getLsbD_ofBoolListLE]
  by_cases lt : i < n <;> simp [lt]

theorem bfiOp_eq (n : Nat) (a b d : Word) : bfiOp n a b d = inserted n a b d := by
  have empty : ∀ x p, x - x / 2 ^ p % 2 ^ 0 * 2 ^ p + a.toNat % 2 ^ 0 * 2 ^ p = x := by simp [Nat.mod_one]
  have value : bfiOp n a b d = zext64 n (d.toNat % 2 ^ n
      - d.toNat % 2 ^ n / 2 ^ fieldPos b % 2 ^ fieldLength n b * 2 ^ fieldPos b
      + a.toNat % 2 ^ fieldLength n b * 2 ^ fieldPos b) := by
    simp only [bfiOp, fieldLen_eq, fieldPos_eq]
    by_cases none : fieldLength n b = 0
    · rw [if_pos none, none, empty]
    · rw [if_neg none]
  rw [value, inserted, zext64_eq]
  ext i lt
  rw [← BitVec.getLsbD_eq_getElem, ← BitVec.getLsbD_eq_getElem, BitVec.getLsbD_setWidth, BitVec.getLsbD_setWidth,
    getLsbD_ofBoolListLE_range, BitVec.getLsbD_ofNat, testBit_replace, Nat.testBit_mod_two_pow]
  by_cases inside : i < n <;> simp [inside, BitVec.getLsbD]

/-! ### Conditions and predicates (R47, R63, R65) -/

theorem condInt_eq (n c : Nat) (a b : Word) : condInt n c a.toNat b.toNat = condition n c (a.setWidth n) (b.setWidth n) := by
  simp only [condInt, toSigned_word, mod_word]
  generalize a.setWidth n = x, b.setWidth n = y
  have equal : (x.toNat == y.toNat) = (x == y) := by
    rw [Bool.eq_iff_iff, beq_iff_eq, beq_iff_eq, BitVec.toNat_inj]
  match c with
  | 0 => exact equal
  | 1 => exact congrArg not equal
  | 2 | 3 | 4 | 5 | 6 | 7 | 8 | 9 | _ + 10 => rfl

/-- Bits set one after another over a range. -/
theorem getLsbD_foldl_range (p : Nat → Prop) [DecidablePred p] (n i : Nat) :
    ((List.range n).foldl (fun (w : Word) j => if p j then w ||| ((1 : Word) <<< j) else w) 0).getLsbD i
      = (decide (i < 64) && (decide (i < n) && decide (p i))) := by
  induction n with
  | zero => simp
  | succ n ih =>
    rw [List.range_succ, List.foldl_append, List.foldl_cons, List.foldl_nil]
    generalize (List.range n).foldl _ (0 : Word) = w at ih ⊢
    have set : (w ||| (1 : Word) <<< n).getLsbD i = (w.getLsbD i || (decide (n < 64) && decide (n = i))) := by
      rw [BitVec.getLsbD_or, show (1 : Word) <<< n = BitVec.twoPow 64 n from rfl, BitVec.getLsbD_twoPow]
    rw [apply_ite (BitVec.getLsbD · i), set, ih]
    by_cases here : i = n
    · subst here
      split <;> simp [*]
    · simp [Ne.symm here, show i < n + 1 ↔ i < n by omega]

theorem ksetVal_eq (a b : Word) : ksetVal a b
    = (BitVec.ofBoolListLE ((List.range 32).map (fun i => decide (a.toNat ≤ i ∧ i < b.toNat)))).setWidth 64 := by
  ext i lt
  rw [← BitVec.getLsbD_eq_getElem, ← BitVec.getLsbD_eq_getElem, BitVec.getLsbD_setWidth, getLsbD_ofBoolListLE_range]
  exact getLsbD_foldl_range (fun j => a.toNat ≤ j ∧ j < b.toNat) 32 i

theorem kget_eq (a b : Word) : (if bit a.toNat (b.toNat % 32) then (1 : Word) else 0)
    = if a.getLsbD (b.extractLsb' 0 5).toNat then 1 else 0 := by
  rw [bit_eq, BitVec.extractLsb'_toNat, Nat.shiftRight_zero]

theorem cmp_eq (f : RForm) (a b : Word) : truth f.D (condInt (RForm.w f) f.cond a.toNat b.toNat)
    = truthWord f.D (condition (width f) (f.fn.extractLsb' 6 4).toNat (a.setWidth _) (b.setWidth _)) := by
  rw [condInt_eq, w_eq_width, cond_eq]
  rfl

end Sys2Proof.Slice0
end

section
/-! The scalar instructions of one, two and three sources: what their shared bodies do (spec 03 R55), and each row of the tables
of O1 and O2 with the value of its operation. -/
namespace Sys2Proof.Slice0
open Sys2Proof Sys2Proof.Machine

section
variable {f : RForm} {s : State} {t : Thread} {a b : Word}

/-- An instruction of two sources goes on with the value that its operation gives. -/
theorem scalar2_next (g : Goes s t f.toHead) (ha : srcW s t f.A = .ok a) (hb : srcW s t f.B = .ok b)
    (hd : destReady s t f.D = .ok ()) {op : Word → Word → Word} {v : Word} (e : op a b = v) :
    issue true f.toHead f.nro (scalar2 f op) s
      = .next (ended (writeW (consumeAB s t.ref f false) t.ref f.D v) t.ref true) :=
  issue_next g (by simp [scalar2, ha, hb, hd, e, bind, Except.bind, pure, Except.pure])

/-- An instruction of one source, the same way. -/
theorem scalar1_next (g : Goes s t f.toHead) (ha : srcW s t f.A = .ok a) (hd : destReady s t f.D = .ok ())
    {op : Word → Word} {v : Word} (e : op a = v) :
    issue true f.toHead f.nro (scalar1 f op) s
      = .next (ended (writeW (consumeAB s t.ref f true) t.ref f.D v) t.ref true) :=
  issue_next g (by simp [scalar1, ha, hd, e, bind, Except.bind, pure, Except.pure])

/-- A result of W bits extended by its sign (R56). -/
theorem aluS_next (g : Goes s t f.toHead) (ha : srcW s t f.A = .ok a) (hb : srcW s t f.B = .ok b)
    (hd : destReady s t f.D = .ok ()) {op : Nat → Nat → Nat → Nat} {v : BitVec (width f)}
    (e : BitVec.ofNat (width f) (op (width f) a.toNat b.toNat) = v) :
    aluS f op s = .next (ended (writeW (consumeAB s t.ref f false) t.ref f.D (v.signExtend 64)) t.ref true) :=
  scalar2_next g ha hb hd (by rw [w_eq_width, sext64_eq, e])

/-- A result of W bits extended by zeros (R56). -/
theorem aluZ_next (g : Goes s t f.toHead) (ha : srcW s t f.A = .ok a) (hb : srcW s t f.B = .ok b)
    (hd : destReady s t f.D = .ok ()) {op : Nat → Nat → Nat → Nat} {v : BitVec (width f)}
    (e : BitVec.ofNat (width f) (op (width f) a.toNat b.toNat) = v) :
    aluZ f op s = .next (ended (writeW (consumeAB s t.ref f false) t.ref f.D (v.setWidth 64)) t.ref true) :=
  scalar2_next g ha hb hd (by rw [w_eq_width, zext64_eq, e])

/-- A count within the width: it is at most W, so no bit of it is lost (R60). -/
theorem alu1_next (g : Goes s t f.toHead) (ha : srcW s t f.A = .ok a) (hd : destReady s t f.D = .ok ())
    {op : Nat → Nat → Nat} {n : Nat} (e : op (width f) a.toNat = n) (le : n ≤ width f) :
    alu1 f op s = .next (ended (writeW (consumeAB s t.ref f true) t.ref f.D (BitVec.ofNat 64 n)) t.ref true) :=
  scalar1_next g ha hd (by rw [w_eq_width, e, zext64_of_le le])

/-- A predicate instruction of two sources (R65). -/
theorem kBody_next (g : Goes s t f.toHead) (ha : srcW s t f.A = .ok a) (hb : srcW s t f.B = .ok b)
    {op : KWord → KWord → Word} {v : Word} (e : op (a.setWidth 32) (b.setWidth 32) = v) :
    issue true f.toHead f.nro (kBody f op) s
      = .next (ended (writeW (consumeAB s t.ref f false) t.ref f.D v) t.ref true) :=
  issue_next g (by simp [kBody, ha, hb, e, bind, Except.bind, pure, Except.pure])

/-- `bfi`, with D as its third source (R61). -/
theorem bfi_next {d : Word} (g : Goes s t f.toHead) (ha : srcW s t f.A = .ok a) (hb : srcW s t f.B = .ok b)
    (hd : srcW s t f.D = .ok d) : exec (.bfi f) s
      = .next (ended (writeW (consumeAB s t.ref f false) t.ref f.D (inserted (width f) a b d)) t.ref true) :=
  issue_next g (by simp [bfiBody, ha, hb, hd, w_eq_width, bfiOp_eq, bind, Except.bind, pure, Except.pure])

/-- `sel`, whose predicate chooses and whose sources are both consumed (R62). -/
theorem sel_next {k : KWord} (g : Goes s t f.toHead) (ha : srcW s t f.A = .ok a) (hb : srcW s t f.B = .ok b)
    (hk : t.getK f.msk = .full k) (hd : destReady s t f.D = .ok ()) : exec (.sel f) s
      = .next (ended (writeW (consumeAB s t.ref f false) t.ref f.D (if k.getLsbD 0 then a else b)) t.ref true) :=
  issue_next g (by simp [selBody, srcK, readSlot, ha, hb, hk, hd, bit_eq, bind, Except.bind, pure, Except.pure])

end

/-- The instructions of one word source, each with its value (R56, R60, R65). -/
theorem oneSource_next {i : Instr} {f : RForm} {op : Word → Word} {s : State} {t : Thread} {a : Word}
    (row : oneSource i = some (f, op)) (g : Goes s t f.toHead) (ha : srcW s t f.A = .ok a)
    (hd : destReady s t f.D = .ok ()) :
    exec i s = .next (ended (writeW (consumeAB s t.ref f true) t.ref f.D (op a)) t.ref true) := by
  cases i with
  | clz =>
    cases row
    exact alu1_next g ha hd (clzOp_eq ..) (Nat.le_trans (List.takeWhile_sublist _).length_le (Nat.le_of_eq (by simp)))
  | ctz =>
    cases row
    exact alu1_next g ha hd (ctzOp_eq ..) (Nat.le_trans (List.takeWhile_sublist _).length_le (Nat.le_of_eq (by simp)))
  | popc => cases row; exact alu1_next g ha hd (popcOp_eq ..) (Nat.le_trans List.countP_le_length (Nat.le_of_eq (by simp)))
  | knot | kmov => cases row; exact scalar1_next g ha hd rfl
  | _ => cases row

/-- Settles O1: each row of the table goes through the shared body of its kind, with the lemma for its value. -/
theorem scalarTwoSourceResult : Obligations.ScalarTwoSourceResult := by
  intro i f op s t a b row g ha hb hd
  cases i with
  | add => cases row; show execAdd f s = _; exact scalar2_next g ha hb hd (addSubVal_eq _ false _ (fun _ _ => rfl) a b)
  | sub => cases row; show execSub f s = _; exact scalar2_next g ha hb hd (addSubVal_eq _ true _ (fun _ _ => rfl) a b)
  | mul => cases row; show execMul f s = _; exact aluS_next g ha hb hd (ofNat_mul ..)
  | mulh => cases row; show execMulh f s = _; exact aluS_next g ha hb hd (ofNat_mulh ..)
  | mulhu => cases row; show execMulhu f s = _; exact aluZ_next g ha hb hd (ofNat_mulhu ..)
  | div => cases row; show execDiv f s = _; exact aluS_next g ha hb hd (ofNat_divOp _ a b (width_pos _))
  | divu => cases row; show execDivu f s = _; exact aluZ_next g ha hb hd (ofNat_divuOp ..)
  | rem => cases row; show execRem f s = _; exact aluS_next g ha hb hd (ofNat_remOp _ a b (width_pos _))
  | remu => cases row; show execRemu f s = _; exact aluZ_next g ha hb hd (ofNat_remuOp ..)
  | and => cases row; show execAnd f s = _; exact aluZ_next g ha hb hd (ofNat_and ..)
  | or => cases row; show execOr f s = _; exact aluZ_next g ha hb hd (ofNat_or ..)
  | xor => cases row; show execXor f s = _; exact aluZ_next g ha hb hd (ofNat_xor ..)
  | andn => cases row; show execAndn f s = _; exact aluZ_next g ha hb hd (ofNat_andn ..)
  | shl => cases row; show execShl f s = _; exact aluS_next g ha hb hd (ofNat_shlOp ..)
  | shr => cases row; show execShr f s = _; exact aluZ_next g ha hb hd (ofNat_shrOp ..)
  | sar => cases row; show execSar f s = _; exact aluS_next g ha hb hd (ofNat_sarOp ..)
  | rot => cases row; show execRot f s = _; exact aluZ_next g ha hb hd (ofNat_rotOp _ a (width_pos _) _)
  | min => cases row; show execMin f s = _; exact aluS_next g ha hb hd (ofNat_min ..)
  | max => cases row; show execMax f s = _; exact aluS_next g ha hb hd (ofNat_max ..)
  | minu => cases row; show execMinu f s = _; exact aluZ_next g ha hb hd (ofNat_minu ..)
  | maxu => cases row; show execMaxu f s = _; exact aluZ_next g ha hb hd (ofNat_maxu ..)
  | bfx => cases row; show execBfx f s = _; exact scalar2_next g ha hb hd (w_eq_width _ ▸ bfxOp_signed ..)
  | bfxu => cases row; show execBfxu f s = _; exact scalar2_next g ha hb hd (w_eq_width _ ▸ bfxOp_unsigned ..)
  | cmp => cases row; show execCmp f s = _; exact scalar2_next g ha hb hd (cmp_eq _ a b)
  | kset => cases row; show execKset f s = _; exact scalar2_next g ha hb hd (ksetVal_eq a b)
  | kget => cases row; show execKget f s = _; exact scalar2_next g ha hb hd (kget_eq a b)
  | kand => cases row; show execKand f s = _; exact kBody_next g ha hb rfl
  | kor => cases row; show execKor f s = _; exact kBody_next g ha hb rfl
  | kxor => cases row; show execKxor f s = _; exact kBody_next g ha hb rfl
  | kany => cases row; show execKany f s = _; exact kBody_next g ha hb rfl
  | kall => cases row; show execKall f s = _; exact kBody_next g ha hb rfl
  | _ => cases row

/-- Settles O2: the rows of one source, then `bfi` and `sel`. -/
theorem scalarOneAndThreeSourceResult : Obligations.ScalarOneAndThreeSourceResult :=
  ⟨fun _ _ _ _ _ _ row g ha hd => oneSource_next row g ha hd, fun _ _ _ _ _ _ g ha hb hd => bfi_next g ha hb hd,
    fun _ _ _ _ _ _ g ha hb hk hd => sel_next g ha hb hk hd⟩

end Sys2Proof.Slice0
end

section
/-! The loop instructions (spec 04 R84, R85). Their model starts the loop at 8 behind the PC of every thread that the issuing
reference names, and the statement O7 at 8 behind the PC of the thread that issues: the two agree where the reference names one
thread, and O7, which does not ask for that, fails where it names two. -/
namespace Sys2Proof.Slice0
open Sys2Proof Sys2Proof.Machine

/-- No thread but t bears t's reference. -/
def OnlyBearer (s : State) (t : Thread) : Prop := ∀ u ∈ s.threads, u.ref = t.ref → u = t

/-- An update by the reference of its only bearer depends on what it makes of that thread alone. -/
theorem updThread_congr {s : State} {t : Thread} (only : OnlyBearer s t) {f g : Thread → Thread} (same : f t = g t) :
    s.updThread t.ref f = s.updThread t.ref g := by
  have each : ∀ u ∈ s.threads, (if u.ref == t.ref then f u else u) = if u.ref == t.ref then g u else u := by
    intro u mem
    by_cases named : u.ref = t.ref
    · rw [only u mem named, same]
    · rw [if_neg (named ∘ eq_of_beq), if_neg (named ∘ eq_of_beq)]
  rw [State.updThread, List.map_congr_left each]
  rfl

/-- The model's count of `loopi` is its field as one 12-bit vector (R84). -/
theorem ofNat_loopiField (a b : BitVec 6) : BitVec.ofNat 32 (a.toNat * 64 + b.toNat) = (a ++ b).setWidth 32 := by
  have field : (a ++ b).toNat = a.toNat * 64 + b.toNat := by
    rw [BitVec.toNat_append, ← Nat.shiftLeft_add_eq_or_of_lt b.isLt, Nat.shiftLeft_eq]
  rw [← field, BitVec.ofNat_toNat]

section
variable {f : BForm} {n : BitVec 32} {s : State} {t : Thread}

/-- A loop with count 0 transfers to the instruction behind the body, its `LA` cleared (R85). -/
theorem loopStart_of_eq_zero (only : OnlyBearer s t) (zero : n = 0) : loopStart f n s t
    = .jump (s.updThread t.ref (looping (BForm.ln f) (loopAddr (BForm.target f t.pc)) n t.pc))
      (loopAddr (BForm.target f t.pc) + 8) := by
  subst zero
  exact congrArg (Done.jump · _) (updThread_congr only rfl)

/-- A loop with another count goes on into the body, its `LA` set (R85). -/
theorem loopStart_of_ne_zero (only : OnlyBearer s t) (run : n ≠ 0) : loopStart f n s t
    = .next (s.updThread t.ref (looping (BForm.ln f) (loopAddr (BForm.target f t.pc)) n t.pc)) := by
  have active : (n != 0) = true := bne_iff_ne.mpr run
  rw [loopStart, if_neg run]
  exact congrArg Done.next (updThread_congr only (by rw [looping, active]; rfl))

/-- An instruction whose body starts a loop has the effect of R85. -/
theorem issue_loopStart {body : State → Thread → Ev Done} (g : Goes s t f.toHead) (only : OnlyBearer s t)
    (start : body s t = .ok (loopStart f n s t)) :
    issue true f.toHead 0 body s = .next (loopEffect f n s t) := by
  by_cases zero : n = 0
  · rw [issue_jump g (start.trans (congrArg _ (loopStart_of_eq_zero only zero))), loopEffect, if_pos zero]
    rfl
  · rw [issue_next g (start.trans (congrArg _ (loopStart_of_ne_zero only zero))), loopEffect, if_neg zero]
    rfl

/-- `loop` starts its loop with bits [31:0] of its source (R84). -/
theorem loop_next {a : Word} (g : Goes s t f.toHead) (only : OnlyBearer s t) (ha : srcW s t f.A = .ok a) :
    exec (.loop f) s = .next (loopEffect f (a.extractLsb' 0 32) s t) := by
  have start : loopBody f s t = .ok (loopStart f (a.extractLsb' 0 32) s t) := by
    simp [loopBody, ha, BitVec.setWidth_eq_extractLsb', bind, Except.bind, pure, Except.pure]
  exact issue_loopStart g only start

/-- `loopi` starts its loop with its 12-bit field (R84). -/
theorem loopi_next (g : Goes s t f.toHead) (only : OnlyBearer s t) :
    exec (.loopi f) s = .next (loopEffect f ((f.a ++ f.b).setWidth 32) s t) :=
  issue_loopStart g only (congrArg (fun n => Except.ok (loopStart f n s t)) (ofNat_loopiField f.a f.b))

end

/-! ### Two threads of one reference -/

/-- The placed thread at another PC. -/
def threadAt (pc : Word) : Thread := { placedThread State.reset with pc := pc }
/-- A state of threads that all bear the current reference, each at its own PC. -/
def threadsAt (pcs : List Word) : State := { State.reset with threads := pcs.map threadAt }
/-- A loop 0 of one instruction: `loopi.l0` with the count 1, or `loop.l0` with the count in `g0`. -/
def loopWord : BForm := { gk := 0, gn := 0, wd := 0, d := 0, a := 0, b := 1, off := 1 }
/-- Where loop 0 of the last thread starts. -/
def lastLoopStart : Out → Option Word
  | .next s => s.threads.getLast?.map (·.ls.get 0)
  | _ => none

/-- The first of the threads issues. -/
theorem threadsAt_goes (pc : Word) (pcs : List Word) : Goes (threadsAt (pc :: pcs)) (threadAt pc) loopWord.toHead :=
  ⟨rfl, ⟨0xFFFFFFFF, rfl, by decide⟩, nofun⟩

theorem threadsAt_onlyBearer (pc : Word) : OnlyBearer (threadsAt [pc]) (threadAt pc) :=
  fun _ mem _ => List.mem_singleton.mp mem

/-- What meets the hypotheses of `loop_next`, with `g0` zero: the body is skipped. -/
theorem exec_loop_alone : exec (.loop loopWord) (threadsAt [0x1000])
    = .next (loopEffect loopWord 0 (threadsAt [0x1000]) (threadAt 0x1000)) :=
  loop_next (a := 0) (threadsAt_goes 0x1000 []) (threadsAt_onlyBearer 0x1000) rfl

/-- What meets the hypotheses of `loopi_next`: the body runs once. -/
theorem exec_loopi_alone : exec (.loopi loopWord) (threadsAt [0x1000])
    = .next (loopEffect loopWord 1 (threadsAt [0x1000]) (threadAt 0x1000)) :=
  loopi_next (threadsAt_goes 0x1000 []) (threadsAt_onlyBearer 0x1000)

/-- The model starts the loop of the second thread behind the second thread's own PC. -/
theorem exec_loopi_second : lastLoopStart (exec (.loopi loopWord) (threadsAt [0x1000, 0x2000])) = some 0x2008 := rfl

/-- The statement starts it behind the PC of the first. -/
theorem loopEffect_second : lastLoopStart (.next (loopEffect loopWord ((loopWord.a ++ loopWord.b).setWidth 32)
    (threadsAt [0x1000, 0x2000]) (threadAt 0x1000))) = some 0x1008 := rfl

/-- Refutes O7 by a state that lists two threads, at 0x1000 and 0x2000, under one reference, which no hypothesis of the
statement rules out: `loopi` sets `ls0` of the second to 0x2008, and the statement says 0x1008. Of the only bearer of its
reference both clauses hold (`loop_next`, `loopi_next`). -/
theorem not_loopResult : ¬ Obligations.LoopResult := by
  rintro ⟨-, immediate⟩
  have agree := congrArg lastLoopStart (immediate loopWord _ _ (threadsAt_goes 0x1000 [0x2000]))
  rw [exec_loopi_second, loopEffect_second] at agree
  exact absurd agree (by decide)

end Sys2Proof.Slice0
end
